-- ==== Sys2Proof/Word.lean ====
section
/-! DEFINITION. The word types of the spec's notation (00_scope.md R9, R10) and the bounds of a sample.
A word is a bit vector; whether it is read as signed, unsigned or as a floating-point encoding is the reader's. -/

namespace Sys2Proof

/-- A byte of a byte image (20_memory.md R58). -/
abbrev Byte := BitVec 8
/-- A signed 16-bit value: a buffer index or a Q14 coefficient (R27, R84). -/
abbrev S16 := BitVec 16
/-- A signed 32-bit value: a sample, `last_sample_index`, a splitter identity (R27, R37). -/
abbrev S32 := BitVec 32
/-- An unsigned 32-bit value: `FRAME.sample_count`, the sample counter `i` (R25, R21). -/
abbrev U32 := BitVec 32
/-- A state or voice handle (R30, R84). -/
abbrev Handle := BitVec 32
/-- The encoding of an IEEE 754 binary32 value (R10). -/
abbrev F32 := BitVec 32
/-- The encoding of an IEEE 754 binary64 value (R10); `bits_to_f64` and `f64_to_bits` are the identity on it. -/
abbrev F64 := BitVec 64
/-- A raw 64-bit word of a state entry (R30). -/
abbrev Word64 := BitVec 64

/-- `INT32_MIN` (R9). -/
def int32Min : Int := -2147483648
/-- `INT32_MAX` (R9). -/
def int32Max : Int := 2147483647

end Sys2Proof
end

