-- ==== Sys2Proof/Syntax.lean ====
section
/-! DEFINITION. The commands: one constructor of `Instr` per row of spec/opcode_table.json (30_encoding.md R90), with the
operands of the latched record `CMD` (10_state.md R27). The constructor fixes the record's `kind`, `has_volume_ramp`,
`use_float_processing` and `use_float_coefficients` (R86: an explicit variant, resolved once per command); the accessors
below give every other field of R27 but the coefficients back, `none` or the empty list where the kind does not have it. -/

namespace Sys2Proof

/-- The three command kinds (R27, R82). -/
inductive Kind where
  | bqf
  | bqfm
  | mtbqfm
  deriving DecidableEq, Repr

/-- Five Q14 coefficients of one filter: `b[0], b[1], b[2], a[0], a[1]` (R27, R110). -/
structure Q14Params where
  b0 : S16
  b1 : S16
  b2 : S16
  a0 : S16
  a1 : S16
  deriving DecidableEq, Repr

/-- Five native float coefficients of one filter (R27, R113). -/
structure F32Params where
  b0 : F32
  b1 : F32
  b2 : F32
  a0 : F32
  a1 : F32
  deriving DecidableEq, Repr

/-- The operands of a `BiquadFilterCommand` but for its coefficients (R27, column BQF). -/
structure BqfOperands where
  input      : S16
  output     : S16
  state0     : Handle
  needsInit0 : Bool
  deriving DecidableEq, Repr

/-- The operands of a `BiquadFilterAndMixCommand` but for its coefficients (R27, column BQFM). -/
structure BqfmOperands where
  input            : S16
  output           : S16
  state0           : Handle
  previousState0   : Handle
  voiceState       : Handle
  lastSampleIndex  : S32
  volume0          : F32
  volume1          : F32
  needsInit0       : Bool
  isFirstMixBuffer : Bool
  deriving DecidableEq, Repr

/-- The operands of a `MultiTapBiquadFilterAndMixCommand` but for its coefficients (R27, column MTBQFM). -/
structure MtOperands where
  input            : S16
  output           : S16
  state0           : Handle
  state1           : Handle
  previousState0   : Handle
  previousState1   : Handle
  voiceState       : Handle
  lastSampleIndex  : S32
  volume0          : F32
  volume1          : F32
  needsInit0       : Bool
  needsInit1       : Bool
  isFirstMixBuffer : Bool
  deriving DecidableEq, Repr

/-- The eleven forms (R90). -/
inductive Instr where
  /-- `BQF.I`: integer kernel, Q14 coefficients (R127). -/
  | bqfI (o : BqfOperands) (c : Q14Params)
  /-- `BQF.D`: double-precision kernel, Q14 coefficients (R128). -/
  | bqfD (o : BqfOperands) (c : Q14Params)
  /-- `BQF.DF`: double-precision kernel, float coefficients (R129). -/
  | bqfDF (o : BqfOperands) (c : F32Params)
  /-- `BQFM`: mix, constant volume, Q14 coefficients (R146). -/
  | bqfm (o : BqfmOperands) (c : Q14Params)
  /-- `BQFM.F`: mix, constant volume, float coefficients (R147). -/
  | bqfmF (o : BqfmOperands) (c : F32Params)
  /-- `BQFM.R`: mix with volume ramp, Q14 coefficients (R148). -/
  | bqfmR (o : BqfmOperands) (c : Q14Params)
  /-- `BQFM.RF`: mix with volume ramp, float coefficients (R149). -/
  | bqfmRF (o : BqfmOperands) (c : F32Params)
  /-- `MTBQFM`: cascade mix, constant volume, Q14 coefficients (R168). -/
  | mtbqfm (o : MtOperands) (c0 : Q14Params) (c1 : Q14Params)
  /-- `MTBQFM.F`: cascade mix, constant volume, float coefficients (R169). -/
  | mtbqfmF (o : MtOperands) (c0 : F32Params) (c1 : F32Params)
  /-- `MTBQFM.R`: cascade mix with volume ramp, Q14 coefficients (R170). -/
  | mtbqfmR (o : MtOperands) (c0 : Q14Params) (c1 : Q14Params)
  /-- `MTBQFM.RF`: cascade mix with volume ramp, float coefficients (R171). -/
  | mtbqfmRF (o : MtOperands) (c0 : F32Params) (c1 : F32Params)
  deriving DecidableEq, Repr

namespace Instr

/-- `CMD.kind`. -/
def kind : Instr → Kind
  | bqfI _ _ | bqfD _ _ | bqfDF _ _ => .bqf
  | bqfm _ _ | bqfmF _ _ | bqfmR _ _ | bqfmRF _ _ => .bqfm
  | mtbqfm _ _ _ | mtbqfmF _ _ _ | mtbqfmR _ _ _ | mtbqfmRF _ _ _ => .mtbqfm

/-- `CMD.input`. -/
def input : Instr → S16
  | bqfI o _ | bqfD o _ | bqfDF o _ => o.input
  | bqfm o _ | bqfmF o _ | bqfmR o _ | bqfmRF o _ => o.input
  | mtbqfm o _ _ | mtbqfmF o _ _ | mtbqfmR o _ _ | mtbqfmRF o _ _ => o.input

/-- `CMD.output`. -/
def output : Instr → S16
  | bqfI o _ | bqfD o _ | bqfDF o _ => o.output
  | bqfm o _ | bqfmF o _ | bqfmR o _ | bqfmRF o _ => o.output
  | mtbqfm o _ _ | mtbqfmF o _ _ | mtbqfmR o _ _ | mtbqfmRF o _ _ => o.output

/-- The handles in `CMD.state[...]`, tap 0 first. -/
def states : Instr → List Handle
  | bqfI o _ | bqfD o _ | bqfDF o _ => [o.state0]
  | bqfm o _ | bqfmF o _ | bqfmR o _ | bqfmRF o _ => [o.state0]
  | mtbqfm o _ _ | mtbqfmF o _ _ | mtbqfmR o _ _ | mtbqfmRF o _ _ => [o.state0, o.state1]

/-- The handles in `CMD.previous_state[...]`, tap 0 first; the BQF kind has none. -/
def previousStates : Instr → List Handle
  | bqfI _ _ | bqfD _ _ | bqfDF _ _ => []
  | bqfm o _ | bqfmF o _ | bqfmR o _ | bqfmRF o _ => [o.previousState0]
  | mtbqfm o _ _ | mtbqfmF o _ _ | mtbqfmR o _ _ | mtbqfmRF o _ _ => [o.previousState0, o.previousState1]

/-- `CMD.voice_state`, which the BQF kind does not have. -/
def voiceState : Instr → Option Handle
  | bqfI _ _ | bqfD _ _ | bqfDF _ _ => none
  | bqfm o _ | bqfmF o _ | bqfmR o _ | bqfmRF o _ => some o.voiceState
  | mtbqfm o _ _ | mtbqfmF o _ _ | mtbqfmR o _ _ | mtbqfmRF o _ _ => some o.voiceState

/-- `CMD.last_sample_index`, which the BQF kind does not have. -/
def lastSampleIndex : Instr → Option S32
  | bqfI _ _ | bqfD _ _ | bqfDF _ _ => none
  | bqfm o _ | bqfmF o _ | bqfmR o _ | bqfmRF o _ => some o.lastSampleIndex
  | mtbqfm o _ _ | mtbqfmF o _ _ | mtbqfmR o _ _ | mtbqfmRF o _ _ => some o.lastSampleIndex

/-- `CMD.volume0`, which the BQF kind does not have. -/
def volume0 : Instr → Option F32
  | bqfI _ _ | bqfD _ _ | bqfDF _ _ => none
  | bqfm o _ | bqfmF o _ | bqfmR o _ | bqfmRF o _ => some o.volume0
  | mtbqfm o _ _ | mtbqfmF o _ _ | mtbqfmR o _ _ | mtbqfmRF o _ _ => some o.volume0

/-- `CMD.volume1`, which the BQF kind does not have. -/
def volume1 : Instr → Option F32
  | bqfI _ _ | bqfD _ _ | bqfDF _ _ => none
  | bqfm o _ | bqfmF o _ | bqfmR o _ | bqfmRF o _ => some o.volume1
  | mtbqfm o _ _ | mtbqfmF o _ _ | mtbqfmR o _ _ | mtbqfmRF o _ _ => some o.volume1

/-- `CMD.needs_init[...]`, tap 0 first. -/
def needsInit : Instr → List Bool
  | bqfI o _ | bqfD o _ | bqfDF o _ => [o.needsInit0]
  | bqfm o _ | bqfmF o _ | bqfmR o _ | bqfmRF o _ => [o.needsInit0]
  | mtbqfm o _ _ | mtbqfmF o _ _ | mtbqfmR o _ _ | mtbqfmRF o _ _ => [o.needsInit0, o.needsInit1]

/-- `CMD.has_volume_ramp`, which the BQF kind does not have. -/
def hasVolumeRamp : Instr → Option Bool
  | bqfI _ _ | bqfD _ _ | bqfDF _ _ => none
  | bqfm _ _ | bqfmF _ _ | mtbqfm _ _ _ | mtbqfmF _ _ _ => some false
  | bqfmR _ _ | bqfmRF _ _ | mtbqfmR _ _ _ | mtbqfmRF _ _ _ => some true

/-- `CMD.is_first_mix_buffer`, which the BQF kind does not have. -/
def isFirstMixBuffer : Instr → Option Bool
  | bqfI _ _ | bqfD _ _ | bqfDF _ _ => none
  | bqfm o _ | bqfmF o _ | bqfmR o _ | bqfmRF o _ => some o.isFirstMixBuffer
  | mtbqfm o _ _ | mtbqfmF o _ _ | mtbqfmR o _ _ | mtbqfmRF o _ _ => some o.isFirstMixBuffer

/-- `CMD.use_float_processing`. -/
def useFloatProcessing : Instr → Bool
  | bqfI _ _ => false
  | bqfD _ _ | bqfDF _ _ | bqfm _ _ | bqfmF _ _ | bqfmR _ _ | bqfmRF _ _
  | mtbqfm _ _ _ | mtbqfmF _ _ _ | mtbqfmR _ _ _ | mtbqfmRF _ _ _ => true

/-- `CMD.use_float_coefficients`. -/
def useFloatCoefficients : Instr → Bool
  | bqfI _ _ | bqfD _ _ | bqfm _ _ | bqfmR _ _ | mtbqfm _ _ _ | mtbqfmR _ _ _ => false
  | bqfDF _ _ | bqfmF _ _ | bqfmRF _ _ | mtbqfmF _ _ _ | mtbqfmRF _ _ _ => true

/-- The mnemonic of the form's row (R90). -/
def mnemonic : Instr → String
  | bqfI _ _ => "BQF.I"
  | bqfD _ _ => "BQF.D"
  | bqfDF _ _ => "BQF.DF"
  | bqfm _ _ => "BQFM"
  | bqfmF _ _ => "BQFM.F"
  | bqfmR _ _ => "BQFM.R"
  | bqfmRF _ _ => "BQFM.RF"
  | mtbqfm _ _ _ => "MTBQFM"
  | mtbqfmF _ _ _ => "MTBQFM.F"
  | mtbqfmR _ _ _ => "MTBQFM.R"
  | mtbqfmRF _ _ _ => "MTBQFM.RF"

/-- Whether the form is one of the ramped ones, the only ones that use the voice handle (R182). -/
def ramped (i : Instr) : Bool := i.hasVolumeRamp == some true

end Instr

/-- A descriptor: the words `W0` to `W19` (R81, R83). `WellFormed.lean` says that it has twenty. -/
abbrev Descriptor := List (BitVec 32)

/-- The content of a `DUMP` (R201): the kind, the buffer indices and the flags, restricted to the fields the kind has. -/
structure DumpTuple where
  kind                 : Kind
  input                : S16
  output               : S16
  needsInit            : List Bool
  hasVolumeRamp        : Option Bool
  isFirstMixBuffer     : Option Bool
  useFloatProcessing   : Bool
  useFloatCoefficients : Bool
  deriving DecidableEq, Repr

/-- Five 32-bit coefficient slots of a `BiquadFilterParameter` whose reading the holder does not fix (R27, R210). -/
structure SlotParams where
  b0 : BitVec 32
  b1 : BitVec 32
  b2 : BitVec 32
  a0 : BitVec 32
  a1 : BitVec 32
  deriving DecidableEq, Repr

end Sys2Proof
end

