-- ==== Sys2Proof/Config.lean ====
section
/-! DEFINITION. What an implementation fixes (00_scope.md R8) and the free values (R11, R191; 93_implementation_defined.md
U3, U4, U5, U10, U13). The sizes are plain data that the state carries (`State.par`, log 1), so that a claim holds for every
value of them; the free values are constants with no body, so that no proof can see what they are (log 2, 3, 13). -/

namespace Sys2Proof

/-- The model parameters of R8 that are numbers. `nsplit`, the number of splitter slots, is the model's own (log 14): the
spec has "one record per splitter slot" and no count. -/
structure Params where
  /-- `NSTATE`: entries of the state register file. -/
  nstate : Nat
  /-- `NBUF`: mix buffers in the sample arena. -/
  nbuf : Nat
  /-- `MAX_SAMPLE_COUNT`: largest legal frame `sample_count`. -/
  maxSampleCount : Nat
  /-- `NVOICE`: voice previous-samples arrays. -/
  nvoice : Nat
  /-- `PREV_LEN`: entries of one previous-samples array. -/
  prevLen : Nat
  /-- `HW_REV`: hardware revision. -/
  hwRev : Int
  /-- `NCHAN`: channels of a splitter destination's volume arrays. -/
  nchan : Nat
  /-- `NBQ_NEW`: entries of a splitter record's newer biquad set. -/
  nbqNew : Nat
  /-- `NBQ_REV12`: entries of a splitter record's rev12 biquad set. -/
  nbqRev12 : Nat
  /-- `SPLITTER_MAGIC`: what `GetSplitterSendDataMagic()` returns. -/
  splitterMagic : BitVec 32
  /-- `UNUSED_DEST_ID`: the sentinel of an inactive destination. -/
  unusedDestId : S32
  /-- The number of splitter slots (the model's own, log 14). -/
  nsplit : Nat
  deriving DecidableEq, Repr

/-- The constraints of R8's table. -/
def Params.ok (p : Params) : Bool :=
  1 ≤ p.nstate && 1 ≤ p.nbuf && p.nbuf ≤ 32768 && p.maxSampleCount < 2 ^ 32 && p.prevLen < 2 ^ 31 && 1 ≤ p.nchan

/-- DESIGN CHOICE (log 1): the parameter values the reset state carries. The first six are those of
95_test_vectors.md ("Parameters, unless a vector says otherwise"), `nchan` that of its section 7.6. No claim rests on them. -/
def Config.resetParams : Params :=
  { nstate := 4, nbuf := 2, maxSampleCount := 8, nvoice := 1, prevLen := 4, hwRev := 15, nchan := 2, nbqNew := 1,
    nbqRev12 := 1, splitterMagic := 0x12345678#32, unusedDestId := 0xFFFFFFFF#32, nsplit := 2 }

/-- The four disjoint spaces of 20_memory.md R50. -/
inductive Space where
  | arena
  | srf
  | prev
  | command
  deriving DecidableEq, Repr

/-- `draw_s32()` (R12): the `k`-th unconstrained 32-bit value (log 2). -/
opaque Config.freeS32 : Nat → S32

/-- The sign (bit 52) and the fraction (bits 51:0) of the `k`-th NaN encoding of binary64 that the spec leaves open (U4;
log 2). -/
opaque Config.freeNaN64 : Nat → BitVec 53

/-- The same for binary32: sign (bit 23) and fraction (bits 22:0) (U4; log 2). -/
opaque Config.freeNaN32 : Nat → BitVec 24

/-- What a byte of a space that nothing has written holds (R41 "unspecified", U10 "every word is a draw"; log 3). -/
opaque Config.unwritten : Space → Nat → Byte

/-- The word `j` that an accepted splitter `Update`, the one with number `k`, reads where the blob has none (R230
"mismatched coefficient-array sizes"; log 14). -/
opaque Config.freeBlobWord : Nat → Nat → BitVec 32

/-- `DUMP_FORMAT` (R201, U13): the host's rendering of a dump tuple as one line (log 13). -/
opaque Config.dumpFormat : DumpTuple → String

end Sys2Proof
end

