-- ==== Sys2Proof/WellFormed.lean ====
section
/-! DEFINITION. The checks a term can fail. An `Instr`'s fields are typed at their encoded widths, so the one check that is
left is the revision's (30_encoding.md R89 case g): float coefficients exist only from `HW_REV` 15 on. A descriptor has
exactly twenty words (R81). -/

namespace Sys2Proof

/-- A form is legal on hardware revision `hwRev` (R87 step 4, R89 case g, R90). -/
def Instr.wellFormed (hwRev : Int) (i : Instr) : Bool :=
  !i.useFloatCoefficients || decide (15 ≤ hwRev)

/-- A descriptor has twenty words (R81). -/
def Descriptor.wellFormed (d : Descriptor) : Bool :=
  d.length == 20

end Sys2Proof
end

