-- ==== Sys2Proof/Decode.lean ====
section
/-! DEFINITION. From the twenty words of a descriptor to a command and back (30_encoding.md R81 to R90). Decoding is total
and rejects by name; it never looks past `W0` to decide legality (R87). The encoder is written from the same tables R82,
R83; it writes 0 in unused words and in the upper halves of Q14 slots (R93, D31). -/

namespace Sys2Proof

/-- Why a descriptor is illegal: the cases (a) to (g) of R89, and a list that is no descriptor at all (R81). -/
inductive DecodeError where
  /-- Not twenty words. -/
  | badLength
  /-- (a) `opcode` is 0 or 4 to 15. -/
  | reservedOpcode
  /-- (b) one of bits 31:10 of `W0` is 1. -/
  | reservedHeaderBits
  /-- (c) `opcode` = 1 with bit 5, 6 or 7 set. -/
  | bqfFlagBits
  /-- (d) `opcode` = 2 with bit 5 set. -/
  | bqfmSecondTap
  /-- (e) `opcode` = 2 or 3 with bit 8 clear. -/
  | integerMix
  /-- (f) bit 8 clear with bit 9 set. -/
  | integerFloatCoefficients
  /-- (g) bit 9 set with `HW_REV` < 15. -/
  | floatRevision
  deriving DecidableEq, Repr

/-- Word `Wj` of a descriptor. -/
def Descriptor.word (d : Descriptor) (j : Nat) : BitVec 32 := d.getD j 0#32

/-- `W0[3:0]` (R82). -/
def headerOpcode (w0 : BitVec 32) : BitVec 4 := w0.extractLsb' 0 4
/-- `W0[31:10]`, which must be 0 (R82). -/
def headerReserved (w0 : BitVec 32) : BitVec 22 := w0.extractLsb' 10 22
/-- Bit 4, `needs_init0` (R82). -/
def headerNeedsInit0 (w0 : BitVec 32) : Bool := w0.getLsbD 4
/-- Bit 5, `needs_init1` (R82). -/
def headerNeedsInit1 (w0 : BitVec 32) : Bool := w0.getLsbD 5
/-- Bit 6, `has_volume_ramp` (R82). -/
def headerRamp (w0 : BitVec 32) : Bool := w0.getLsbD 6
/-- Bit 7, `is_first_mix_buffer` (R82). -/
def headerFirst (w0 : BitVec 32) : Bool := w0.getLsbD 7
/-- Bit 8, `use_float_processing` (R82). -/
def headerFloatProcessing (w0 : BitVec 32) : Bool := w0.getLsbD 8
/-- Bit 9, `use_float_coefficients` (R82). -/
def headerFloatCoefficients (w0 : BitVec 32) : Bool := w0.getLsbD 9

/-- The legality of a header, checked in the order of R87: the opcode, the reserved bits, the must-be bits of R82 for this
opcode, the revision. `none` is legal. -/
def headerError (hwRev : Int) (w0 : BitVec 32) : Option DecodeError :=
  let op := headerOpcode w0
  if !(op == 1#4 || op == 2#4 || op == 3#4) then some .reservedOpcode
  else if headerReserved w0 != 0#22 then some .reservedHeaderBits
  else if op == 1#4 && (headerNeedsInit1 w0 || headerRamp w0 || headerFirst w0) then some .bqfFlagBits
  else if op == 2#4 && headerNeedsInit1 w0 then some .bqfmSecondTap
  else if !(op == 1#4) && !headerFloatProcessing w0 then some .integerMix
  else if !headerFloatProcessing w0 && headerFloatCoefficients w0 then some .integerFloatCoefficients
  else if headerFloatCoefficients w0 && decide (hwRev < 15) then some .floatRevision
  else none

/-- Five Q14 coefficients from the slots at words `j` to `j+4`: `W[31:16]` of a slot is ignored (R84, D31). -/
def Descriptor.q14At (d : Descriptor) (j : Nat) : Q14Params :=
  { b0 := (d.word j).extractLsb' 0 16, b1 := (d.word (j + 1)).extractLsb' 0 16, b2 := (d.word (j + 2)).extractLsb' 0 16,
    a0 := (d.word (j + 3)).extractLsb' 0 16, a1 := (d.word (j + 4)).extractLsb' 0 16 }

/-- Five float coefficients from the slots at words `j` to `j+4` (R84). -/
def Descriptor.f32At (d : Descriptor) (j : Nat) : F32Params :=
  { b0 := d.word j, b1 := d.word (j + 1), b2 := d.word (j + 2), a0 := d.word (j + 3), a1 := d.word (j + 4) }

/-- The operands of a BQF descriptor: words `W1`, `W2` (R83, R84). -/
def Descriptor.bqfOperands (d : Descriptor) : BqfOperands :=
  { input := (d.word 1).extractLsb' 0 16, output := (d.word 1).extractLsb' 16 16, state0 := d.word 2,
    needsInit0 := headerNeedsInit0 (d.word 0) }

/-- The operands of a BQFM descriptor: words `W1`, `W2`, `W4`, `W6` to `W9` (R83, R84). -/
def Descriptor.bqfmOperands (d : Descriptor) : BqfmOperands :=
  { input := (d.word 1).extractLsb' 0 16, output := (d.word 1).extractLsb' 16 16, state0 := d.word 2,
    previousState0 := d.word 4, voiceState := d.word 6, lastSampleIndex := d.word 7, volume0 := d.word 8,
    volume1 := d.word 9, needsInit0 := headerNeedsInit0 (d.word 0), isFirstMixBuffer := headerFirst (d.word 0) }

/-- The operands of an MTBQFM descriptor: words `W1` to `W9` (R83, R84). -/
def Descriptor.mtOperands (d : Descriptor) : MtOperands :=
  { input := (d.word 1).extractLsb' 0 16, output := (d.word 1).extractLsb' 16 16, state0 := d.word 2, state1 := d.word 3,
    previousState0 := d.word 4, previousState1 := d.word 5, voiceState := d.word 6, lastSampleIndex := d.word 7,
    volume0 := d.word 8, volume1 := d.word 9, needsInit0 := headerNeedsInit0 (d.word 0),
    needsInit1 := headerNeedsInit1 (d.word 0), isFirstMixBuffer := headerFirst (d.word 0) }

/-- The record of a legal descriptor, its form picked from the table of R86. -/
def Descriptor.build (d : Descriptor) : Instr :=
  let w0 := d.word 0
  let floatCoefficients := headerFloatCoefficients w0
  let ramp := headerRamp w0
  if headerOpcode w0 == 1#4 then
    if !headerFloatProcessing w0 then .bqfI d.bqfOperands (d.q14At 10)
    else if !floatCoefficients then .bqfD d.bqfOperands (d.q14At 10)
    else .bqfDF d.bqfOperands (d.f32At 10)
  else if headerOpcode w0 == 2#4 then
    match ramp, floatCoefficients with
    | false, false => .bqfm d.bqfmOperands (d.q14At 10)
    | false, true => .bqfmF d.bqfmOperands (d.f32At 10)
    | true, false => .bqfmR d.bqfmOperands (d.q14At 10)
    | true, true => .bqfmRF d.bqfmOperands (d.f32At 10)
  else
    match ramp, floatCoefficients with
    | false, false => .mtbqfm d.mtOperands (d.q14At 10) (d.q14At 15)
    | false, true => .mtbqfmF d.mtOperands (d.f32At 10) (d.f32At 15)
    | true, false => .mtbqfmR d.mtOperands (d.q14At 10) (d.q14At 15)
    | true, true => .mtbqfmRF d.mtOperands (d.f32At 10) (d.f32At 15)

/-- Decoding (R87) on hardware revision `hwRev`. -/
def decode (hwRev : Int) (d : Descriptor) : Except DecodeError Instr :=
  if !d.wellFormed then .error .badLength
  else
    match headerError hwRev (d.word 0) with
    | some e => .error e
    | none => .ok d.build

/-- The header word `W0` from its fields (R82). -/
def headerWord (opcode : BitVec 4) (needsInit0 needsInit1 ramp first floatProcessing floatCoefficients : Bool) :
    BitVec 32 :=
  0#22 ++ BitVec.ofBool floatCoefficients ++ BitVec.ofBool floatProcessing ++ BitVec.ofBool first ++ BitVec.ofBool ramp
    ++ BitVec.ofBool needsInit1 ++ BitVec.ofBool needsInit0 ++ opcode

/-- The header word of a command (R82, R90). -/
def Instr.header : Instr → BitVec 32
  | .bqfI o _ => headerWord 1#4 o.needsInit0 false false false false false
  | .bqfD o _ => headerWord 1#4 o.needsInit0 false false false true false
  | .bqfDF o _ => headerWord 1#4 o.needsInit0 false false false true true
  | .bqfm o _ => headerWord 2#4 o.needsInit0 false false o.isFirstMixBuffer true false
  | .bqfmF o _ => headerWord 2#4 o.needsInit0 false false o.isFirstMixBuffer true true
  | .bqfmR o _ => headerWord 2#4 o.needsInit0 false true o.isFirstMixBuffer true false
  | .bqfmRF o _ => headerWord 2#4 o.needsInit0 false true o.isFirstMixBuffer true true
  | .mtbqfm o _ _ => headerWord 3#4 o.needsInit0 o.needsInit1 false o.isFirstMixBuffer true false
  | .mtbqfmF o _ _ => headerWord 3#4 o.needsInit0 o.needsInit1 false o.isFirstMixBuffer true true
  | .mtbqfmR o _ _ => headerWord 3#4 o.needsInit0 o.needsInit1 true o.isFirstMixBuffer true false
  | .mtbqfmRF o _ _ => headerWord 3#4 o.needsInit0 o.needsInit1 true o.isFirstMixBuffer true true

/-- The five slots of Q14 coefficients, upper halves 0 (D31). -/
def Q14Params.slots (c : Q14Params) : List (BitVec 32) :=
  [c.b0, c.b1, c.b2, c.a0, c.a1].map (BitVec.setWidth 32)

/-- The five slots of float coefficients. -/
def F32Params.slots (c : F32Params) : List (BitVec 32) :=
  [c.b0, c.b1, c.b2, c.a0, c.a1]

/-- Five unused slots. -/
def unusedSlots : List (BitVec 32) := [0#32, 0#32, 0#32, 0#32, 0#32]

/-- Words `W1` to `W9` of a BQF descriptor (R83). -/
def BqfOperands.words (o : BqfOperands) : List (BitVec 32) :=
  [o.output ++ o.input, o.state0, 0#32, 0#32, 0#32, 0#32, 0#32, 0#32, 0#32]

/-- Words `W1` to `W9` of a BQFM descriptor (R83). -/
def BqfmOperands.words (o : BqfmOperands) : List (BitVec 32) :=
  [o.output ++ o.input, o.state0, 0#32, o.previousState0, 0#32, o.voiceState, o.lastSampleIndex, o.volume0, o.volume1]

/-- Words `W1` to `W9` of an MTBQFM descriptor (R83). -/
def MtOperands.words (o : MtOperands) : List (BitVec 32) :=
  [o.output ++ o.input, o.state0, o.state1, o.previousState0, o.previousState1, o.voiceState, o.lastSampleIndex,
    o.volume0, o.volume1]

/-- Words `W1` to `W19` of a command. -/
def Instr.operandWords : Instr → List (BitVec 32)
  | .bqfI o c | .bqfD o c => o.words ++ c.slots ++ unusedSlots
  | .bqfDF o c => o.words ++ c.slots ++ unusedSlots
  | .bqfm o c | .bqfmR o c => o.words ++ c.slots ++ unusedSlots
  | .bqfmF o c | .bqfmRF o c => o.words ++ c.slots ++ unusedSlots
  | .mtbqfm o c0 c1 | .mtbqfmR o c0 c1 => o.words ++ c0.slots ++ c1.slots
  | .mtbqfmF o c0 c1 | .mtbqfmRF o c0 c1 => o.words ++ c0.slots ++ c1.slots

/-- The twenty words of a command (R81 to R84). -/
def encode (i : Instr) : Descriptor := i.header :: i.operandWords

/-- The first `k` 32-bit words of a number, least significant first. -/
def wordsOfNat : Nat → Nat → List (BitVec 32)
  | 0, _ => []
  | k + 1, w => BitVec.ofNat 32 w :: wordsOfNat k (w / 4294967296)

/-- The descriptor whose bits, numbered from bit 0 of `W0` on, are the low `nbits` bits of `w` and zeros above. -/
def tableDescriptor (nbits w : Nat) : Descriptor := wordsOfNat 20 (w % 2 ^ nbits)

/-- The instruction the decoder reads from a word of the opcode table, on the reset parameters' revision (log 19). -/
def decodeTableWord (nbits w : Nat) : Option Instr :=
  match decode Config.resetParams.hwRev (tableDescriptor nbits w) with
  | .ok i => some i
  | .error _ => none

end Sys2Proof
end

