-- ==== Sys2Proof/Machine/State.lean ====
section
/-! DEFINITION. The machine's state as plain data: everything 10_state.md R20 names, the splitter destination records of
45_splitter_destination.md, and the model's own fields (`par`, `host`, `draw`; log 1, 7, 2). -/

namespace Sys2Proof.Machine

/-- A byte image: (address, byte) pairs, addresses strictly rising (20_memory.md R58 to R61). A byte that is not listed has
not been written and holds a free value (log 3). -/
abbrev Memory := List Host.Cell

/-- The canonical form of a byte image: addresses strictly rising (so no address twice). -/
abbrev Memory.wf (m : Memory) : Prop := m.Pairwise fun p q => p.1 < q.1

/-- Which filter of a chain (R27, R160). -/
inductive Tap where
  | t0
  | t1
  deriving DecidableEq, Repr

/-- How many filters a chain has: `T` = 1 or `T` = 2 (R162, D33). -/
inductive Chain where
  | single
  | pair
  deriving DecidableEq, Repr

/-- The coefficient registers of one filter: `cb[t][0..2]`, `ca[t][0..1]` (R21). -/
structure Coeffs where
  b0 : Word64
  b1 : Word64
  b2 : Word64
  a0 : Word64
  a1 : Word64
  deriving DecidableEq, Repr

/-- The delay registers of one filter: `s[t][0..3]` (R21). -/
structure Delay where
  s0 : Word64
  s1 : Word64
  s2 : Word64
  s3 : Word64
  deriving DecidableEq, Repr

/-- The 22 working registers x[0] to x[21] (R21). In the integer kernel `d0.s0`, `d0.s1` are `acc0`, `acc1` (R22, R33) and
`c0` holds the sign extensions of the five `s16` (R114). -/
structure Work where
  c0   : Coeffs
  c1   : Coeffs
  d0   : Delay
  d1   : Delay
  vol  : F64
  ramp : F64
  last : F64
  i    : U32
  deriving DecidableEq, Repr

/-- A four-word state entry (R30), also an element of the local array `loc` (R39). -/
structure Entry where
  w0 : Word64
  w1 : Word64
  w2 : Word64
  w3 : Word64
  deriving DecidableEq, Repr

/-- The all-zero entry, "doubles of value 0.0" (R183). -/
def Entry.zero : Entry := ⟨0#64, 0#64, 0#64, 0#64⟩

/-- A splitter destination record (R210). -/
structure Splitter where
  id             : S32
  destinationId  : S32
  mixVolumes     : List F32
  prevMixVolumes : List F32
  inUse          : Bool
  needUpdate     : Bool
  biquadNew      : List SlotParams
  biquadRev12    : List SlotParams
  next           : Option Nat
  deriving DecidableEq, Repr

/-- The parameter blob of a splitter `Update` (R213). -/
structure SplitterParams where
  magic           : BitVec 32
  id              : S32
  destinationId   : S32
  mixVolumes      : List F32
  inUse           : Bool
  resetPrevVolume : Bool
  rev12           : Option (List SlotParams)
  deriving DecidableEq, Repr

/-- Why an operation is refused (60_exceptions.md R232). -/
inductive RefusalReason where
  | illegalDescriptor
  | badSampleCount
  | badBufferIndex
  | badStateHandle
  | badVoiceHandle
  | reservedOperation
  deriving DecidableEq, Repr

/-- The value an operation returns to the host (R28, R232; R200, R201, R211, R216). -/
inductive Result where
  | done
  | refused (r : RefusalReason)
  | valid (b : Bool)
  | dump (t : DumpTuple)
  | configured (b : Bool)
  | volume (v : F32)
  deriving DecidableEq, Repr

/-- Whether a result is a refusal. -/
def Result.isRefused : Option Result → Bool
  | some (.refused _) => true
  | some .done | some (.valid _) | some (.dump _) | some (.configured _) | some (.volume _) | none => false

/-- A pending action of the host, between operations (R36, R91, R240, R253, R261; R211 to R216; log 7). -/
inductive HostOp where
  /-- Begin a frame with this command list: it is stored in command memory, `pc` becomes 0 (R26). -/
  | startFrame (list : List Descriptor)
  /-- Rewrite an element of the command list between two operations (R71, R261). -/
  | writeCommand (index : Nat) (d : Descriptor)
  /-- Write `FRAME.sample_count`, outside the commands of a frame (R25, R253). -/
  | writeSampleCount (n : U32)
  /-- Write a word of the sample arena (R240, R253). -/
  | writeArena (a : Nat) (v : S32)
  /-- Write word `k` of a state entry (R36). -/
  | writeSrf (h : Nat) (k : Nat) (v : Word64)
  /-- Write a word of a previous-samples array (R240). -/
  | writePrev (v : Nat) (k : Nat) (x : S32)
  /-- Perform an operation on `LIST[pc]`, or on the record latched last when the list is at its end: 0 `PROCESS`,
  1 `VERIFY`, 2 `DUMP`, 3 reserved (R91; log 10). -/
  | operate (select : BitVec 2)
  /-- Splitter `Update` (R213). -/
  | splitterUpdate (slot : Nat) (p : SplitterParams) (resetPolicySupported : Bool)
  /-- Splitter `MarkAsNeedToUpdateInternalState` (R214). -/
  | splitterMark (slot : Nat)
  /-- Splitter `UpdateInternalState` (R215). -/
  | splitterUpdateInternal (slot : Nat)
  /-- Splitter `IsConfigured` (R211). -/
  | splitterIsConfigured (slot : Nat)
  /-- Splitter `GetMixVolume` (R216). -/
  | getMixVolume (slot : Nat) (c : Int)
  /-- Splitter `GetMixVolumePrev` (R216). -/
  | getMixVolumePrev (slot : Nat) (c : Int)
  /-- The host writes an element of the newer biquad set directly (N17 of 91_not_in_source.md). -/
  | writeBiquadNew (slot : Nat) (j : Nat) (p : SlotParams)
  /-- The splitter pool links a record to one of the pool; R212 leaves to it which (log 14). -/
  | linkNext (slot : Nat) (next : Option Nat)
  deriving DecidableEq, Repr

/-- Why a step stops: host actions the spec forbids or cannot mean (log 9). All are raised by host actions, never by an
instruction; all are safe: the model stops where the spec gives no effect. -/
inductive Fault where
  /-- A host access to an arena word, state word, previous-samples word or list element that does not exist (R26, R30,
  R37, R38). Safe. -/
  | noSuchWord
  /-- A list element that is not twenty words (R81). Safe. -/
  | badDescriptorLength
  /-- A frame is started while commands of the last one are still to run, or `FRAME.sample_count` is written after the
  first command of a frame and before its end (R25, R26, R253). Safe. -/
  | frameRunning
  /-- A splitter record, an element of it, or a `next` target that does not exist (R210). Safe. -/
  | noSuchSplitter
  deriving DecidableEq, Repr

/-- Why the model gives an instruction no meaning. No arm of `exec` answers it: every form has its meaning. -/
inductive Refusal where
  /-- Raised by an arm of `exec` for an instruction that is not modelled yet; none is left. Safe. -/
  | notModelled (mnemonic : String)
  deriving DecidableEq, Repr

/-- The machine's state (R20; INVENTORY.md lists every field with its rule and reset value). -/
structure State where
  /-- The model parameters (R8); no step changes them (log 1). -/
  par : Params
  /-- `FRAME.sample_count` (R25). -/
  frame : U32
  /-- The command index (R26). -/
  pc : Nat
  /-- `L`, the length of the frame's command list (R26). -/
  listLen : Nat
  /-- Command memory: descriptor `j` at bytes `80j` to `80j+79` (R50, R61). -/
  cmdMem : Memory
  /-- `CMD`, the latched record; `none` is "invalid" (R27, R41). -/
  cmd : Option Instr
  /-- The working registers (R21). -/
  work : Work
  /-- `loc[0]` of the multi-tap command (R39). -/
  loc0 : Entry
  /-- `loc[1]` of the multi-tap command (R39). -/
  loc1 : Entry
  /-- The state register file's byte image (R30, R59). -/
  srf : Memory
  /-- The sample arena's byte image (R37, R60). -/
  arena : Memory
  /-- The previous-samples arrays' byte image (R38, R60). -/
  prev : Memory
  /-- The splitter destination records (R210). -/
  splitters : List Splitter
  /-- What the last operation returned to the host (R28, R232). -/
  result : Option Result
  /-- The frame's sticky mark "a command was refused" (R239). -/
  frameRefused : Bool
  /-- The string `Dump` appends to (R201). -/
  diag : String
  /-- Pending host actions, oldest first (the model's own, log 7). -/
  host : List HostOp
  /-- The number of the next free value (the model's own, log 2). -/
  draw : Nat
  deriving DecidableEq, Repr

/-- A splitter record as constructed at slot `slot` (R220, D30; the identity is the slot index, log 14). -/
def Splitter.constructed (p : Params) (slot : Nat) : Splitter :=
  { id := BitVec.ofNat 32 slot, destinationId := p.unusedDestId, mixVolumes := List.replicate p.nchan 0#32,
    prevMixVolumes := List.replicate p.nchan 0#32, inUse := false, needUpdate := false,
    biquadNew := List.replicate p.nbqNew ⟨0#32, 0#32, 0#32, 0#32, 0#32⟩,
    biquadRev12 := List.replicate p.nbqRev12 ⟨0#32, 0#32, 0#32, 0#32, 0#32⟩, next := none }

/-- The working registers after reset: unspecified in the spec (R41), zero here (DESIGN CHOICE, log 5). -/
def Work.reset : Work :=
  { c0 := ⟨0#64, 0#64, 0#64, 0#64, 0#64⟩, c1 := ⟨0#64, 0#64, 0#64, 0#64, 0#64⟩, d0 := ⟨0#64, 0#64, 0#64, 0#64⟩,
    d1 := ⟨0#64, 0#64, 0#64, 0#64⟩, vol := 0#64, ramp := 0#64, last := 0#64, i := 0#32 }

/-- The state after reset (R41, R250, R251, R220): `pc` 0, `CMD` invalid, no storage byte written, the splitter records as
constructed; the rest as log 1, 2, 4, 5, 7, 8, 13 name it. -/
def State.reset : State :=
  { par := Config.resetParams, frame := 0#32, pc := 0, listLen := 0, cmdMem := [], cmd := none, work := Work.reset,
    loc0 := Entry.zero, loc1 := Entry.zero, srf := [], arena := [], prev := [],
    splitters := (List.range Config.resetParams.nsplit).map (Splitter.constructed Config.resetParams), result := none,
    frameRefused := false, diag := "", host := [], draw := 0 }

end Sys2Proof.Machine
end

