-- ==== Sys2Proof/Machine/Float.lean ====
section
/-! DEFINITION. IEEE 754 binary64 and binary32 arithmetic (00_scope.md R10, 92_eei_decisions.md D11): one rounding per
operation, to nearest, ties to even, never fused, subnormals kept. A finite value is an exact whole number of UNITS, the
unit being the least subnormal (2^-1074 for binary64, 2^-149 for binary32), so every operation computes exactly in whole
numbers and narrows once at the end. Each operation takes the number `k` of the free value that stands for its result when
that is a NaN: which NaN is left open (U4, log 2). -/

namespace Sys2Proof.Machine

/-! ### Magnitudes: the bits below the sign, `p` fraction bits -/

/-- The value of a finite magnitude in units (G3): a subnormal is its fraction, a normal number its 1.fraction shifted. -/
@[irreducible] def magUnits (p m : Nat) : Nat :=
  if m / 2 ^ p = 0 then m else (2 ^ p + m % 2 ^ p) * 2 ^ (m / 2 ^ p - 1)

/-- The magnitude nearest to `num / den` units, ties to even, exponent unbounded: `k` is how far the quotient's last place
lies above the unit, `q` and `r` are quotient and remainder at that place. A carry out of the fraction runs into the
exponent, as it should. -/
@[irreducible] def roundMag (p num den : Nat) : Nat :=
  let k := Nat.log2 (num / den) - p
  let d := den * 2 ^ k
  let q := num / d
  let r := num % d
  k * 2 ^ p + (if 2 * r < d then q else if d < 2 * r then q + 1 else q + q % 2)

/-- Fraction bits of binary64. -/
def fracBits64 : Nat := 52
/-- Fraction bits of binary32. -/
def fracBits32 : Nat := 23
/-- The magnitude of a binary64 infinity. -/
def infMag64 : Nat := 0x7FF0000000000000
/-- The magnitude of a binary32 infinity. -/
def infMag32 : Nat := 0x7F800000
/-- Units of binary64 in 1.0. -/
@[irreducible] def one64 : Nat := 2 ^ 1074
/-- Units of binary64 in a unit of binary32. -/
@[irreducible] def unit32 : Nat := 2 ^ 925

/-! ### Binary64 encodings -/

/-- The sign bit. -/
def f64Sign (a : F64) : Bool := a.msb
/-- The bits below the sign. -/
def f64Mag (a : F64) : Nat := a.toNat % 2 ^ 63
/-- `isnan` (R10). -/
def f64IsNaN (a : F64) : Bool := decide (infMag64 < f64Mag a)
/-- An infinity of either sign. -/
def f64IsInf (a : F64) : Bool := f64Mag a == infMag64
/-- A finite value. -/
def f64IsFinite (a : F64) : Bool := decide (f64Mag a < infMag64)
/-- A zero of either sign. -/
def f64IsZero (a : F64) : Bool := f64Mag a == 0

/-- The encoding with this sign and magnitude. -/
def f64Pack (sign : Bool) (mag : Nat) : F64 := BitVec.ofNat 64 ((if sign then 2 ^ 63 else 0) + mag)

/-- The absolute value of a finite encoding, in units. -/
def f64Abs (a : F64) : Nat := magUnits fracBits64 (f64Mag a)
/-- The exact value of a finite encoding, in units. -/
def f64Units (a : F64) : Int := if f64Sign a then -(f64Abs a : Int) else (f64Abs a : Int)

/-- The `k`-th free NaN encoding: exponent all ones, fraction not zero; nothing else is known of it (U4). -/
def f64FreeNaN (k : Nat) : F64 :=
  let v := Config.freeNaN64 k
  let frac := v.extractLsb' 0 52
  v.extractLsb' 52 1 ++ 0x7FF#11 ++ (if frac = 0#52 then 1#52 else frac)

/-- The encoding nearest to `±num/den` units, overflowing to infinity. -/
@[irreducible] def f64Round (sign : Bool) (num den : Nat) : F64 := f64Pack sign (min (roundMag fracBits64 num den) infMag64)

/-- The encoding nearest to a non-zero `z` units. -/
def f64RoundInt (z : Int) : F64 := f64Round (decide (z < 0)) z.natAbs 1

/-- The other sign. -/
def f64Neg (a : F64) : F64 := a ^^^ 0x8000000000000000#64

/-! ### Operations (R10) -/

/-- `fmul(a, b)`. -/
def fmul (k : Nat) (a b : F64) : F64 :=
  if f64IsNaN a || f64IsNaN b then f64FreeNaN k
  else if f64IsInf a || f64IsInf b then
    if f64IsZero a || f64IsZero b then f64FreeNaN k
    else f64Pack (f64Sign a ^^ f64Sign b) infMag64
  else f64Round (f64Sign a ^^ f64Sign b) (f64Abs a * f64Abs b) one64

/-- `fadd(a, b)`. An exact zero sum is `-0.0` only when both operands are negative. -/
def fadd (k : Nat) (a b : F64) : F64 :=
  if f64IsNaN a || f64IsNaN b then f64FreeNaN k
  else if f64IsInf a then
    if f64IsInf b && f64Sign a != f64Sign b then f64FreeNaN k else a
  else if f64IsInf b then b
  else
    let z := f64Units a + f64Units b
    if z = 0 then f64Pack (f64Sign a && f64Sign b) 0 else f64RoundInt z

/-- `fsub(a, b)`. -/
def fsub (k : Nat) (a b : F64) : F64 := fadd k a (f64Neg b)

/-- `fdiv(a, b)`. -/
def fdiv (k : Nat) (a b : F64) : F64 :=
  let sign := f64Sign a ^^ f64Sign b
  if f64IsNaN a || f64IsNaN b then f64FreeNaN k
  else if f64IsInf a then
    if f64IsInf b then f64FreeNaN k else f64Pack sign infMag64
  else if f64IsInf b then f64Pack sign 0
  else if f64IsZero b then
    if f64IsZero a then f64FreeNaN k else f64Pack sign infMag64
  else f64Round sign (f64Abs a * one64) (f64Abs b)

/-! ### Conversions (R10, D34) -/

/-- The encoding of a whole number, exact for every 32-bit integer (D34); zero is `+0.0`. -/
@[irreducible] def intToF64 (n : Int) : F64 := f64Round (decide (n < 0)) (n.natAbs * one64) 1

/-- `i32_to_f64`. -/
def i32ToF64 (n : S32) : F64 := intToF64 n.toInt

/-- `u32_to_f64`. -/
def u32ToF64 (n : U32) : F64 := intToF64 (n.toNat : Int)

/-- The sign bit of a binary32 encoding. -/
def f32Sign (v : F32) : Bool := v.msb
/-- The bits below the sign of a binary32 encoding. -/
def f32Mag (v : F32) : Nat := v.toNat % 2 ^ 31
/-- A binary32 NaN. -/
def f32IsNaN (v : F32) : Bool := decide (infMag32 < f32Mag v)
/-- A binary32 infinity. -/
def f32IsInf (v : F32) : Bool := f32Mag v == infMag32
/-- A finite binary32 value. -/
def f32IsFinite (v : F32) : Bool := decide (f32Mag v < infMag32)
/-- The encoding with this sign and magnitude. -/
def f32Pack (sign : Bool) (mag : Nat) : F32 := BitVec.ofNat 32 ((if sign then 2 ^ 31 else 0) + mag)
/-- The absolute value of a finite binary32 encoding, in units of binary32. -/
def f32Abs (v : F32) : Nat := magUnits fracBits32 (f32Mag v)

/-- The `k`-th free NaN encoding of binary32 (U4). -/
def f32FreeNaN (k : Nat) : F32 :=
  let v := Config.freeNaN32 k
  let frac := v.extractLsb' 0 23
  v.extractLsb' 23 1 ++ 0xFF#8 ++ (if frac = 0#23 then 1#23 else frac)

/-- `f32_to_f64`, exact; a NaN widens to some NaN (R113). -/
def f32ToF64 (k : Nat) (v : F32) : F64 :=
  if f32IsNaN v then f64FreeNaN k
  else if f32IsInf v then f64Pack (f32Sign v) infMag64
  else f64Round (f32Sign v) (f32Abs v * unit32) 1

/-- `f64_to_f32`: to nearest even, overflowing to infinity; a NaN stays a NaN (R145, D15). -/
def f64ToF32 (k : Nat) (a : F64) : F32 :=
  if f64IsNaN a then f32FreeNaN k
  else if f64IsInf a then f32Pack (f64Sign a) infMag32
  else f32Pack (f64Sign a) (min (roundMag fracBits32 (f64Abs a) unit32) infMag32)

end Sys2Proof.Machine
end

