-- ==== Sys2Proof/Machine/Flags.lean ====
section
/-! DEFINITION. There are no flags, condition codes or sticky bits (10_state.md R24): an out-of-range result saturates
silently. This file holds what stands in their place: the clamp, the wrapping and the shift of the integer kernel
(R9, R124, R125), and the saturating conversions to a sample (00_scope.md R11, 44_command_process.md R191). -/

namespace Sys2Proof.Machine

/-- `clamp(v, INT32_MIN, INT32_MAX)` on integers (R9). -/
def clampS32 (v : Int) : Int := if v < int32Min then int32Min else if int32Max < v then int32Max else v

/-- `wrap64(z)` as a 64-bit word (R9, D10). -/
def wrap64 (z : Int) : Word64 := BitVec.ofInt 64 z

/-- `asr(v, k)`: floor division by `2^k` (R9, G1). -/
def asr (v : Word64) (k : Nat) : Int := v.toInt.fdiv (2 ^ k)

/-- The integer kernel's rounding: `clamp(asr(wrap64(sample + 8192), 14), INT32_MIN, INT32_MAX)` (R124). -/
def roundQ14 (sample : Word64) : Int := clampS32 (asr (wrap64 (sample.toInt + 8192)) 14)

/-- `clamp` in binary64 to [-2147483648.0, 2147483647.0], of a value that is not a NaN, as exact units (R11). -/
def f64ClampUnits (y : F64) : Int :=
  if f64IsInf y then (if f64Sign y then int32Min else int32Max) * (one64 : Int)
  else if f64Units y < int32Min * (one64 : Int) then int32Min * (one64 : Int)
  else if int32Max * (one64 : Int) < f64Units y then int32Max * (one64 : Int)
  else f64Units y

/-- `sat_s32(y)` (R11): clamp, then truncate toward zero; a NaN gives the `k`-th unconstrained draw (D12, U3). -/
def satS32 (k : Nat) (y : F64) : S32 :=
  if f64IsNaN y then Config.freeS32 k
  else BitVec.ofInt 32 ((f64ClampUnits y).tdiv (one64 : Int))

/-- `trunc` of a finite binary32 value: the fraction discarded toward zero (R10). One binary32 unit is `2^-149`. -/
def f32Trunc (r : F32) : Int :=
  let whole : Int := (f32Abs r / 2 ^ 149 : Nat)
  if f32Sign r then -whole else whole

/-- `f32_to_s32_trunc(r)` (R191): outside the range, and for a NaN or an infinity, the `k`-th draw (D15, U5). -/
def f32ToS32Trunc (k : Nat) (r : F32) : S32 :=
  if f32IsFinite r && decide (int32Min ≤ f32Trunc r) && decide (f32Trunc r ≤ int32Max) then BitVec.ofInt 32 (f32Trunc r)
  else Config.freeS32 k

end Sys2Proof.Machine
end

