-- ==== Sys2Proof/Machine/Memory.lean ====
section
/-! DEFINITION. The byte images (20_memory.md R58 to R61): one byte read and written, and the byte-level primitives
`MemRead` and `MemWrite`, little-endian. Byte order is decided here and nowhere else. -/

namespace Sys2Proof.Machine

/-- The byte listed at an address, if one is. -/
def Memory.lookup : Memory → Nat → Option Byte
  | [], _ => none
  | (b, v) :: m, a => if a = b then some v else Memory.lookup m a

/-- The byte at an address of a space: the listed one, or what an unwritten byte holds (R41, U10; log 3). -/
def Memory.readByte (sp : Space) (m : Memory) (a : Nat) : Byte := (m.lookup a).getD (Config.unwritten sp a)

/-- Store a byte, keeping the addresses strictly rising. -/
def Memory.writeByte : Memory → Nat → Byte → Memory
  | [], a, v => [(a, v)]
  | (b, u) :: m, a, v =>
    if a < b then (a, v) :: (b, u) :: m
    else if a = b then (a, v) :: m
    else (b, u) :: Memory.writeByte m a v

/-- `MemRead(addr, n)` (R58): `n` bytes as an unsigned integer, the byte at `addr` in bits 7:0. -/
def Memory.read (sp : Space) (m : Memory) (addr : Nat) : Nat → Nat
  | 0 => 0
  | n + 1 => (m.readByte sp addr).toNat + 256 * Memory.read sp m (addr + 1) n

/-- `MemWrite(addr, n, v)` (R58): the low `8n` bits of `v`, the same way. -/
def Memory.write (m : Memory) (addr : Nat) : Nat → Nat → Memory
  | 0, _ => m
  | n + 1, v => Memory.write (m.writeByte addr (BitVec.ofNat 8 v)) (addr + 1) n (v / 256)

end Sys2Proof.Machine
end

