-- ==== Sys2Proof/Machine/Operands.lean ====
section
/-! DEFINITION. Where a command's operands stand, and what its coefficient slots mean: the addresses of samples, state
words and tail samples (20_memory.md R51, R52, R59, R60; 44_command_process.md R196) and the coefficient codec
(40_coeff_codec.md R110 to R116). -/

namespace Sys2Proof.Machine

/-! ### Buffer indices and addresses -/

/-- A buffer index is valid: `0 ≤ k < NBUF` (R52). -/
def bufferValid (p : Params) (k : S16) : Bool := decide (0 ≤ k.toInt) && decide (k.toInt < (p.nbuf : Int))

/-- The arena word of sample `i` of buffer `k`, `k * n + i` in natural numbers (R51, R52, D28). For a valid index the
integer `k` is that natural number. -/
def sampleIndex (k : S16) (n i : Nat) : Nat := k.toInt.toNat * n + i

/-- The first byte of arena word `a` (R60; the arena's image is placed at 0, log 6). -/
def arenaAddr (a : Nat) : Nat := 4 * a

/-- The first byte of word `k` of state entry `h` (R59; `base_h = 32h`, log 6). -/
def srfAddr (h k : Nat) : Nat := 32 * h + 8 * k

/-- The first byte of entry `k` of voice `v`'s previous-samples array (R60; the arrays follow each other, log 6). -/
def prevAddr (p : Params) (v k : Nat) : Nat := 4 * (v * p.prevLen + k)

/-- The first byte of descriptor `j` (R61; the list's image is placed at 0, log 6). -/
def descriptorAddr (j : Nat) : Nat := 80 * j

/-! ### The coefficient codec -/

/-- The binary64 encoding of 16384.0 = 2^14 (R111). -/
def twoTo14 : F64 := intToF64 16384

/-- `q14_to_f64(c) = fdiv(i32_to_f64(sext_16(c)), 16384.0)` (R111); it is never a NaN, so the draw number is idle. -/
@[irreducible] def q14ToF64 (c : S16) : F64 := fdiv 0 (i32ToF64 (c.signExtend 32)) twoTo14

/-- Q14 coefficients for a double-precision kernel (R111). -/
def decodeQ14 (c : Q14Params) : Coeffs := ⟨q14ToF64 c.b0, q14ToF64 c.b1, q14ToF64 c.b2, q14ToF64 c.a0, q14ToF64 c.a1⟩

/-- Float coefficients, each widened; draws `k` to `k+4` stand for the encodings of widened NaNs (R113). -/
def decodeF32 (k : Nat) (c : F32Params) : Coeffs :=
  ⟨f32ToF64 k c.b0, f32ToF64 (k + 1) c.b1, f32ToF64 (k + 2) c.b2, f32ToF64 (k + 3) c.a0, f32ToF64 (k + 4) c.a1⟩

/-- Q14 coefficients for the integer kernel: the integers themselves as 64-bit operands (R114). -/
def decodeInt (c : Q14Params) : Coeffs :=
  ⟨c.b0.signExtend 64, c.b1.signExtend 64, c.b2.signExtend 64, c.a0.signExtend 64, c.a1.signExtend 64⟩

end Sys2Proof.Machine
end

