-- ==== Sys2Proof/Machine/Ops.lean ====
section
/-! DEFINITION. The named operations over memory and registers that the meanings share: samples, state entries, the tail,
working registers, the checks of `validate`, refusing, and the steps of `Process` (44_command_process.md R180 to R194). -/

namespace Sys2Proof.Machine

/-! ### Samples (R51, R56, R60) -/

/-- `ARENA[a]`. -/
def readArena (a : Nat) (s : State) : S32 := BitVec.ofNat 32 (s.arena.read .arena (arenaAddr a) 4)

/-- `ARENA[a] <- v`. -/
def writeArena (a : Nat) (v : S32) (s : State) : State := { s with arena := s.arena.write (arenaAddr a) 4 v.toNat }

/-- The arena word of the current sample of a buffer: `buffer * n + i` (R51). -/
def currentSample (buffer : S16) (s : State) : Nat := sampleIndex buffer s.frame.toNat s.work.i.toNat

/-! ### State entries (R30, R56, R59) -/

/-- `SRF[h].w[k]`. -/
def readSrfWord (h k : Nat) (s : State) : Word64 := BitVec.ofNat 64 (s.srf.read .srf (srfAddr h k) 8)

/-- `SRF[h].w[k] <- v`. -/
def writeSrfWord (h k : Nat) (v : Word64) (s : State) : State := { s with srf := s.srf.write (srfAddr h k) 8 v.toNat }

/-- The four words of `SRF[h]`. -/
def readEntry (h : Handle) (s : State) : Entry :=
  ⟨readSrfWord h.toNat 0 s, readSrfWord h.toNat 1 s, readSrfWord h.toNat 2 s, readSrfWord h.toNat 3 s⟩

/-- `SRF[h] <- e`, all four words. -/
def writeEntry (h : Handle) (e : Entry) (s : State) : State :=
  writeSrfWord h.toNat 3 e.w3 (writeSrfWord h.toNat 2 e.w2 (writeSrfWord h.toNat 1 e.w1 (writeSrfWord h.toNat 0 e.w0 s)))

/-! ### Previous-samples arrays (R38, R60) -/

/-- `PREV[v][k]`. -/
def readPrev (v k : Nat) (s : State) : S32 := BitVec.ofNat 32 (s.prev.read .prev (prevAddr s.par v k) 4)

/-- `PREV[v][k] <- x`. -/
def writePrev (v k : Nat) (x : S32) (s : State) : State := { s with prev := s.prev.write (prevAddr s.par v k) 4 x.toNat }

/-! ### Working registers (R21, R22) -/

/-- The 22 working registers in the numbering of R21's table, x[0] first; `i` is zero-extended. -/
def Work.registers (w : Work) : List Word64 :=
  [w.c0.b0, w.c0.b1, w.c0.b2, w.c0.a0, w.c0.a1, w.c1.b0, w.c1.b1, w.c1.b2, w.c1.a0, w.c1.a1,
   w.d0.s0, w.d0.s1, w.d0.s2, w.d0.s3, w.d1.s0, w.d1.s1, w.d1.s2, w.d1.s3, w.vol, w.ramp, w.last, w.i.setWidth 64]

/-- `x[k]` (R12). -/
def Work.x (w : Work) (k : Fin 22) : Word64 := w.registers.getD k.val 0#64

/-- `cb[t]`, `ca[t]`. -/
def coeffs (t : Tap) (s : State) : Coeffs :=
  match t with
  | .t0 => s.work.c0
  | .t1 => s.work.c1

/-- Load `cb[t]`, `ca[t]`. -/
def setCoeffs (t : Tap) (c : Coeffs) (s : State) : State :=
  match t with
  | .t0 => { s with work := { s.work with c0 := c } }
  | .t1 => { s with work := { s.work with c1 := c } }

/-- `s[t][0..3]`. -/
def delay (t : Tap) (s : State) : Delay :=
  match t with
  | .t0 => s.work.d0
  | .t1 => s.work.d1

/-- Write `s[t][0..3]`. -/
def setDelay (t : Tap) (d : Delay) (s : State) : State :=
  match t with
  | .t0 => { s with work := { s.work with d0 := d } }
  | .t1 => { s with work := { s.work with d1 := d } }

/-- `vol <- v`. -/
def setVol (v : F64) (s : State) : State := { s with work := { s.work with vol := v } }
/-- `ramp <- v`. -/
def setRamp (v : F64) (s : State) : State := { s with work := { s.work with ramp := v } }
/-- `last <- v`. -/
def setLast (v : F64) (s : State) : State := { s with work := { s.work with last := v } }
/-- `i <- 0`. -/
def clearI (s : State) : State := { s with work := { s.work with i := 0#32 } }
/-- `i <- i + 1`. -/
def nextI (s : State) : State := { s with work := { s.work with i := s.work.i + 1#32 } }
/-- Take `k` numbers for free values (log 2). -/
def useDraws (k : Nat) (s : State) : State := { s with draw := s.draw + k }

/-- `loc[t]` (R39). -/
def readLoc (t : Tap) (s : State) : Entry :=
  match t with
  | .t0 => s.loc0
  | .t1 => s.loc1

/-- `loc[t] <- e`. -/
def writeLoc (t : Tap) (e : Entry) (s : State) : State :=
  match t with
  | .t0 => { s with loc0 := e }
  | .t1 => { s with loc1 := e }

/-! ### Refusing and finishing (60_exceptions.md R232, R233, R238) -/

/-- Refusing: nothing changes, the reason is the operation's result (R233, R238). There is no trap mechanism, so this is
all that "taking an exception" is on this hardware; the sequencer's part, `pc + 1` and the sticky mark, is
`afterProcess` (R239). -/
def takeRefusal (r : RefusalReason) (s : State) : State := { s with result := some (.refused r) }

/-- `return Done`. -/
def finish (s : State) : State := { s with result := some .done }

/-- The code of a refusal (R232). -/
def RefusalReason.code : RefusalReason → Nat
  | .illegalDescriptor => 1
  | .badSampleCount => 2
  | .badBufferIndex => 3
  | .badStateHandle => 4
  | .badVoiceHandle => 5
  | .reservedOperation => 6

/-! ### `validate` (R182) -/

/-- The reason of the first failing check: each pair is "this check fails" and its reason. -/
def firstFailing : List (Bool × RefusalReason) → Option RefusalReason
  | [] => none
  | (fails, r) :: rest => if fails then some r else firstFailing rest

/-- A state handle names no entry (R182). -/
def handleBad (p : Params) (h : Handle) : Bool := decide (p.nstate ≤ h.toNat)

/-- The voice handle of a ramped form names no array (R182); other forms are not checked. -/
def voiceBad (p : Params) (i : Instr) : Bool :=
  i.ramped && (i.voiceState.map fun v => decide (p.nvoice ≤ v.toNat)).getD false

/-- The checks of `validate`, in its order (R182, R235). -/
def checks (i : Instr) (s : State) : List (Bool × RefusalReason) :=
  [(!i.wellFormed s.par.hwRev, .illegalDescriptor),
   (decide (s.par.maxSampleCount < s.frame.toNat), .badSampleCount),
   (!bufferValid s.par i.input, .badBufferIndex),
   (!bufferValid s.par i.output, .badBufferIndex),
   ((i.states ++ i.previousStates).any (handleBad s.par), .badStateHandle),
   (voiceBad s.par i, .badVoiceHandle)]

/-- `validate(CMD)`: the reason to refuse, if any (R182). -/
def validate (i : Instr) (s : State) : Option RefusalReason := firstFailing (checks i s)

/-- `Process` of a form (R180, R181): the checks before any write, then the form's steps, then `Done`. -/
def process (i : Instr) (steps : State → State) (s : State) : Host.Outcome State Fault Refusal :=
  match validate i s with
  | some r => .next (takeRefusal r s)
  | none => .next (finish (steps s))

/-! ### State preparation (R183, R184) -/

/-- Zero a state entry. -/
def zeroEntry (h : Handle) (s : State) : State := writeEntry h Entry.zero s

/-- `SRF[dst] <- SRF[src]`. -/
def copyEntry (dst src : Handle) (s : State) : State := writeEntry dst (readEntry src s) s

/-- `prep_forked(h, p, ni)` with `first = CMD.is_first_mix_buffer`: zero, snapshot or restore (R183, R192). -/
def prepForked (h p : Handle) (ni first : Bool) (s : State) : State :=
  if ni then zeroEntry h s else if first then copyEntry p h s else copyEntry h p s

/-- `prep_plain(h, ni)` (R184). -/
def prepPlain (h : Handle) (ni : Bool) (s : State) : State := if ni then zeroEntry h s else s

/-! ### Load and persist (R185, R186, R32) -/

/-- `load_state(t, E)` in double precision: the four words, bit for bit. -/
def loadState (t : Tap) (e : Entry) (s : State) : State := setDelay t ⟨e.w0, e.w1, e.w2, e.w3⟩ s

/-- `load_state` of the integer form: `acc0`, `acc1` (R185, R22). -/
def loadAcc (e : Entry) (s : State) : State := setDelay .t0 { s.work.d0 with s0 := e.w0, s1 := e.w1 } s

/-- What `persist_state(t, E)` stores: the delay registers, bit for bit. -/
def persistedEntry (t : Tap) (s : State) : Entry :=
  let d := delay t s
  ⟨d.s0, d.s1, d.s2, d.s3⟩

/-- `persist_state(t, SRF[h])`. -/
def persistState (t : Tap) (h : Handle) (s : State) : State := writeEntry h (persistedEntry t s) s

/-- `persist_state(t, loc[t])`. -/
def persistLoc (t : Tap) (s : State) : State := writeLoc t (persistedEntry t s) s

/-- `persist_state` of the integer form: `w[0]` and `w[1]` only (R186, R33). -/
def persistAcc (h : Handle) (s : State) : State :=
  writeSrfWord h.toNat 1 s.work.d0.s1 (writeSrfWord h.toNat 0 s.work.d0.s0 s)

/-! ### The codec's load of the coefficient registers (R110) -/

/-- Q14 coefficients decoded for a double-precision kernel (R111). -/
def loadQ14 (t : Tap) (c : Q14Params) (s : State) : State := setCoeffs t (decodeQ14 c) s

/-- Float coefficients widened (R113); five numbers are taken for the widened NaNs. -/
def loadF32 (t : Tap) (c : F32Params) (s : State) : State := useDraws 5 (setCoeffs t (decodeF32 s.draw c) s)

/-- Q14 coefficients passed through to the integer kernel (R114). -/
def loadInt (c : Q14Params) (s : State) : State := setCoeffs .t0 (decodeInt c) s

/-! ### Tail capture (R190) -/

/-- `tail_capture(r)`: the word it stores is `f32_to_s32_trunc(r)`; an index that is negative or not below `PREV_LEN` is
silently ignored. -/
def tailCapture (voice : Handle) (index : S32) (r : F32) (s : State) : State :=
  if 0 ≤ index.toInt ∧ index.toInt < (s.par.prevLen : Int) then
    useDraws 1 (writePrev voice.toNat index.toInt.toNat (f32ToS32Trunc s.draw r) s)
  else s

end Sys2Proof.Machine
end

