-- ==== Sys2Proof/Machine/SingleFilter.lean ====
section
/-! DEFINITION. The second-order recurrence, the overwrite kernels `KD` and `KI`, and the three forms of
`BiquadFilterCommand` (41_single_filter_kernels.md R120 to R132). -/

namespace Sys2Proof.Machine

/-- The output of one recurrence step: five products, each rounded, summed left to right, each sum rounded (R121, D11).
The nine operations take the draw numbers `k` to `k+8` for their NaNs. -/
def biquadOutput (k : Nat) (c : Coeffs) (d : Delay) (xin : F64) : F64 :=
  let p0 := fmul k xin c.b0
  let p1 := fmul (k + 1) d.s0 c.b1
  let p2 := fmul (k + 2) d.s1 c.b2
  let p3 := fmul (k + 3) d.s2 c.a0
  let p4 := fmul (k + 4) d.s3 c.a1
  fadd (k + 8) (fadd (k + 7) (fadd (k + 6) (fadd (k + 5) p0 p1) p2) p3) p4

/-- The delay line after a step: the input and the unclamped output come in, the older ones move down (R121). -/
def shiftDelay (d : Delay) (xin y : F64) : Delay := ⟨xin, d.s0, y, d.s2⟩

/-- `biquad_step(t, xin)`: the output and the state after (R121). -/
def biquadStep (t : Tap) (xin : F64) (s : State) : F64 × State :=
  let y := biquadOutput s.draw (coeffs t s) (delay t s) xin
  (y, useDraws 9 (setDelay t (shiftDelay (delay t s) xin y) s))

/-- Run the body `n` times; the loops `for i in 0 .. n-1` of the kernels (R13). -/
def loop (body : State → State) : Nat → State → State
  | 0, s => s
  | n + 1, s => loop body n (body s)

/-- One sample of `KD` (R122). -/
def kdSample (input output : S16) (s : State) : State :=
  let xin := i32ToF64 (readArena (currentSample input s) s)
  let (y, s) := biquadStep .t0 xin s
  nextI (useDraws 1 (writeArena (currentSample output s) (satS32 s.draw y) s))

/-- `KD`, the double-precision overwrite kernel (R122). -/
def kernelKD (input output : S16) (s : State) : State :=
  loop (kdSample input output) s.frame.toNat (clearI s)

/-- One sample of `KI` (R124): the feedback uses the clamped output and the old `acc1`. -/
def kiSample (input output : S16) (s : State) : State :=
  let x := (readArena (currentSample input s) s).toInt
  let c := s.work.c0
  let acc0 := s.work.d0.s0
  let acc1 := s.work.d0.s1
  let sample := wrap64 (x * c.b0.toInt + acc0.toInt)
  let o := roundQ14 sample
  let s := writeArena (currentSample output s) (BitVec.ofInt 32 o) s
  nextI (setDelay .t0
    { s.work.d0 with
      s0 := wrap64 (acc1.toInt + c.b1.toInt * x + c.a0.toInt * o)
      s1 := wrap64 (c.b2.toInt * x + c.a1.toInt * o) } s)

/-- `KI`, the pure fixed-point integer kernel (R124). -/
def kernelKI (input output : S16) (s : State) : State :=
  loop (kiSample input output) s.frame.toNat (clearI s)

/-- `BQF.I` (R127). -/
def execBqfI (o : BqfOperands) (c : Q14Params) (s : State) : Host.Outcome State Fault Refusal :=
  process (.bqfI o c) (fun s =>
    let s := prepPlain o.state0 o.needsInit0 s
    let s := loadInt c s
    let s := loadAcc (readEntry o.state0 s) s
    let s := kernelKI o.input o.output s
    persistAcc o.state0 s) s

/-- `BQF.D` (R128). -/
def execBqfD (o : BqfOperands) (c : Q14Params) (s : State) : Host.Outcome State Fault Refusal :=
  process (.bqfD o c) (fun s =>
    let s := prepPlain o.state0 o.needsInit0 s
    let s := loadQ14 .t0 c s
    let s := loadState .t0 (readEntry o.state0 s) s
    let s := kernelKD o.input o.output s
    persistState .t0 o.state0 s) s

/-- `BQF.DF` (R129). -/
def execBqfDF (o : BqfOperands) (c : F32Params) (s : State) : Host.Outcome State Fault Refusal :=
  process (.bqfDF o c) (fun s =>
    let s := prepPlain o.state0 o.needsInit0 s
    let s := loadF32 .t0 c s
    let s := loadState .t0 (readEntry o.state0 s) s
    let s := kernelKD o.input o.output s
    persistState .t0 o.state0 s) s

end Sys2Proof.Machine
end

