-- ==== Sys2Proof/Machine/MixRamp.lean ====
section
/-! DEFINITION. The mix and ramp accumulator, the kernels `KM(T)` and `KMR(T)`, and the four forms of
`BiquadFilterAndMixCommand` (42_mix_ramp_kernels.md R140 to R149). -/

namespace Sys2Proof.Machine

/-- The inner loop `for t in 0 .. T-1: f = biquad_step(t, f)` (R141, R161): the last filter's unclamped output. -/
def filterChain (T : Chain) (xin : F64) (s : State) : F64 × State :=
  match T with
  | .single => biquadStep .t0 xin s
  | .pair =>
    let (filtered0, s) := biquadStep .t0 xin s
    biquadStep .t1 filtered0 s

/-- `m = fmul(f, vol); out[i] <- sat_s32(fadd(i32_to_f64(out[i]), m))` (R141): the product and the state after. -/
def accumulate (output : S16) (f : F64) (s : State) : F64 × State :=
  let m := fmul s.draw f s.work.vol
  let sum := fadd (s.draw + 1) (i32ToF64 (readArena (currentSample output s) s)) m
  (m, useDraws 3 (writeArena (currentSample output s) (satS32 (s.draw + 2) sum) s))

/-- One sample of `KM(T)` (R141). -/
def kmSample (T : Chain) (input output : S16) (s : State) : State :=
  let (f, s) := filterChain T (i32ToF64 (readArena (currentSample input s) s)) s
  let (_, s) := accumulate output f s
  nextI s

/-- The start of both mix kernels: `vol <- f32_to_f64(CMD.volume0)` (R141, R142) and `last <- +0.0` (10_state.md R22). -/
def mixStart (volume0 : F32) (s : State) : State := setLast 0#64 (useDraws 1 (setVol (f32ToF64 s.draw volume0) s))

/-- `KM(T)`, the mix kernel without ramp (R141); `volume1` is not read (D14). -/
def kernelKM (T : Chain) (input output : S16) (volume0 : F32) (s : State) : State :=
  let s := mixStart volume0 s
  loop (kmSample T input output) s.frame.toNat (clearI s)

/-- One sample of `KMR(T)` (R142): the increment comes after the volume is used. -/
def kmrSample (T : Chain) (input output : S16) (s : State) : State :=
  let (f, s) := filterChain T (i32ToF64 (readArena (currentSample input s) s)) s
  let (m, s) := accumulate output f s
  let s := setLast m s
  let s := useDraws 1 (setVol (fadd s.draw s.work.vol s.work.ramp) s)
  nextI s

/-- The increment `(volume1 - volume0) / n` in binary64 (R142, D13); draws `k` to `k+3`. -/
def rampStep (k : Nat) (volume0 volume1 : F32) (n : U32) : F64 :=
  fdiv (k + 3) (fsub (k + 2) (f32ToF64 (k + 1) volume1) (f32ToF64 k volume0)) (u32ToF64 n)

/-- `KMR(T)`, the mix kernel with ramp: the returned `f32` and the state after (R142). With no sample the division is not
performed and `+0.0` is returned (D16). -/
def kernelKMR (T : Chain) (input output : S16) (volume0 volume1 : F32) (s : State) : F32 × State :=
  let s := mixStart volume0 s
  let s := if s.frame = 0#32 then s else useDraws 4 (setRamp (rampStep s.draw volume0 volume1 s.frame) s)
  let s := loop (kmrSample T input output) s.frame.toNat (clearI s)
  (f64ToF32 s.draw s.work.last, useDraws 1 s)

/-- The steps of a non-ramped mix command around its codec (R146). -/
def mixSteps (o : BqfmOperands) (codec : State → State) (s : State) : State :=
  let s := prepForked o.state0 o.previousState0 o.needsInit0 o.isFirstMixBuffer s
  let s := codec s
  let s := loadState .t0 (readEntry o.state0 s) s
  let s := kernelKM .single o.input o.output o.volume0 s
  persistState .t0 o.state0 s

/-- The steps of a ramped mix command around its codec (R148). -/
def mixRampSteps (o : BqfmOperands) (codec : State → State) (s : State) : State :=
  let s := prepForked o.state0 o.previousState0 o.needsInit0 o.isFirstMixBuffer s
  let s := codec s
  let s := loadState .t0 (readEntry o.state0 s) s
  let (r, s) := kernelKMR .single o.input o.output o.volume0 o.volume1 s
  let s := persistState .t0 o.state0 s
  tailCapture o.voiceState o.lastSampleIndex r s

/-- `BQFM` (R146). -/
def execBqfm (o : BqfmOperands) (c : Q14Params) (s : State) : Host.Outcome State Fault Refusal :=
  process (.bqfm o c) (mixSteps o (loadQ14 .t0 c)) s

/-- `BQFM.F` (R147). -/
def execBqfmF (o : BqfmOperands) (c : F32Params) (s : State) : Host.Outcome State Fault Refusal :=
  process (.bqfmF o c) (mixSteps o (loadF32 .t0 c)) s

/-- `BQFM.R` (R148). -/
def execBqfmR (o : BqfmOperands) (c : Q14Params) (s : State) : Host.Outcome State Fault Refusal :=
  process (.bqfmR o c) (mixRampSteps o (loadQ14 .t0 c)) s

/-- `BQFM.RF` (R149). -/
def execBqfmRF (o : BqfmOperands) (c : F32Params) (s : State) : Host.Outcome State Fault Refusal :=
  process (.bqfmRF o c) (mixRampSteps o (loadF32 .t0 c)) s

end Sys2Proof.Machine
end

