-- ==== Sys2Proof/Machine/Cascade.lean ====
section
/-! DEFINITION. The multi-tap command: two filters in series behind the mix and ramp kernels with `T` = 2
(43_cascade_kernels.md R160 to R171). -/

namespace Sys2Proof.Machine

/-- One tap's preparation and its snapshot `loc[t] <- SRF[state[t]]` (R165). -/
def prepTap (t : Tap) (h p : Handle) (ni first : Bool) (s : State) : State :=
  let s := prepForked h p ni first s
  writeLoc t (readEntry h s) s

/-- Everything before the kernel: both taps prepared and snapshotted, tap 0 first; then coefficients and delay registers
from the snapshots (R165, D18). -/
def multiTapBefore (o : MtOperands) (codec : State → State) (s : State) : State :=
  let s := prepTap .t0 o.state0 o.previousState0 o.needsInit0 o.isFirstMixBuffer s
  let s := prepTap .t1 o.state1 o.previousState1 o.needsInit1 o.isFirstMixBuffer s
  let s := codec s
  let s := loadState .t0 (readLoc .t0 s) s
  loadState .t1 (readLoc .t1 s) s

/-- Everything after the kernel: persist into the snapshots, then write back tap 0, then tap 1 (R165, D18). -/
def multiTapAfter (o : MtOperands) (s : State) : State :=
  let s := persistLoc .t0 s
  let s := persistLoc .t1 s
  let s := writeEntry o.state0 (readLoc .t0 s) s
  writeEntry o.state1 (readLoc .t1 s) s

/-- The steps of a non-ramped multi-tap command around its codec (R168). -/
def multiTapSteps (o : MtOperands) (codec : State → State) (s : State) : State :=
  let s := multiTapBefore o codec s
  let s := kernelKM .pair o.input o.output o.volume0 s
  multiTapAfter o s

/-- The steps of a ramped multi-tap command around its codec; the tail capture follows the write-back (R170). -/
def multiTapRampSteps (o : MtOperands) (codec : State → State) (s : State) : State :=
  let s := multiTapBefore o codec s
  let (r, s) := kernelKMR .pair o.input o.output o.volume0 o.volume1 s
  let s := multiTapAfter o s
  tailCapture o.voiceState o.lastSampleIndex r s

/-- The codec of both taps, Q14 coefficients (R165, R111). -/
def loadQ14Pair (c0 c1 : Q14Params) (s : State) : State := loadQ14 .t1 c1 (loadQ14 .t0 c0 s)

/-- The codec of both taps, float coefficients (R165, R113, R169). -/
def loadF32Pair (c0 c1 : F32Params) (s : State) : State := loadF32 .t1 c1 (loadF32 .t0 c0 s)

/-- `MTBQFM` (R168). -/
def execMtbqfm (o : MtOperands) (c0 c1 : Q14Params) (s : State) : Host.Outcome State Fault Refusal :=
  process (.mtbqfm o c0 c1) (multiTapSteps o (loadQ14Pair c0 c1)) s

/-- `MTBQFM.F` (R169). -/
def execMtbqfmF (o : MtOperands) (c0 c1 : F32Params) (s : State) : Host.Outcome State Fault Refusal :=
  process (.mtbqfmF o c0 c1) (multiTapSteps o (loadF32Pair c0 c1)) s

/-- `MTBQFM.R` (R170). -/
def execMtbqfmR (o : MtOperands) (c0 c1 : Q14Params) (s : State) : Host.Outcome State Fault Refusal :=
  process (.mtbqfmR o c0 c1) (multiTapRampSteps o (loadQ14Pair c0 c1)) s

/-- `MTBQFM.RF` (R171). -/
def execMtbqfmRF (o : MtOperands) (c0 c1 : F32Params) (s : State) : Host.Outcome State Fault Refusal :=
  process (.mtbqfmRF o c0 c1) (multiTapRampSteps o (loadF32Pair c0 c1)) s

end Sys2Proof.Machine
end

