-- ==== Sys2Proof/Machine/Dispatch.lean ====
section
/-! DEFINITION. One arm per form (30_encoding.md R90): what `Process` of it does. -/

namespace Sys2Proof.Machine

def exec (i : Instr) (s : State) : Host.Outcome State Fault Refusal :=
  match i with
  | .bqfI o c => Sys2Proof.Machine.execBqfI o c s
  | .bqfD o c => Sys2Proof.Machine.execBqfD o c s
  | .bqfDF o c => Sys2Proof.Machine.execBqfDF o c s
  | .bqfm o c => Sys2Proof.Machine.execBqfm o c s
  | .bqfmF o c => Sys2Proof.Machine.execBqfmF o c s
  | .bqfmR o c => Sys2Proof.Machine.execBqfmR o c s
  | .bqfmRF o c => Sys2Proof.Machine.execBqfmRF o c s
  | .mtbqfm o c0 c1 => Sys2Proof.Machine.execMtbqfm o c0 c1 s
  | .mtbqfmF o c0 c1 => Sys2Proof.Machine.execMtbqfmF o c0 c1 s
  | .mtbqfmR o c0 c1 => Sys2Proof.Machine.execMtbqfmR o c0 c1 s
  | .mtbqfmRF o c0 c1 => Sys2Proof.Machine.execMtbqfmRF o c0 c1 s

end Sys2Proof.Machine
end

