-- ==== Sys2Proof/Machine/Splitter.lean ====
section
/-! DEFINITION. The splitter destination record as a register bank (45_splitter_destination.md R210 to R222). No rule of
the filter engine reads it (R6, R222). -/

namespace Sys2Proof.Machine

/-- `IsConfigured()` (R211). -/
def splitterConfigured (p : Params) (r : Splitter) : Bool := r.inUse && r.destinationId != p.unusedDestId

/-- Whether `Update` resets the crossfade history: the explicit flag where the revision supports it, else the edge of
`in_use` from false to true (R213). -/
def splitterResets (b : SplitterParams) (resetPolicySupported : Bool) (r : Splitter) : Bool :=
  if resetPolicySupported then b.resetPrevVolume else !r.inUse && b.inUse

/-- A blob is for this record: `id` and `magic` match (R213). -/
def splitterAccepts (p : Params) (b : SplitterParams) (r : Splitter) : Bool := b.id == r.id && b.magic == p.splitterMagic

/-- `params.mix_volumes[c]` for every channel `c` of the record (R213). R213 gives the blob one volume per channel; in a
shorter array a missing one is a free value of the number `k`, and what a longer one has besides is not read (log 14). -/
def blobVolumes (p : Params) (k : Nat) (b : SplitterParams) : List F32 :=
  (List.range p.nchan).map fun c => b.mixVolumes.getD c (Config.freeBlobWord k c)

/-- The free words that stand for a biquad parameter which the blob does not have (log 14). -/
def freeBlobSlot (k j : Nat) : SlotParams :=
  ⟨Config.freeBlobWord k (5 * j), Config.freeBlobWord k (5 * j + 1), Config.freeBlobWord k (5 * j + 2),
    Config.freeBlobWord k (5 * j + 3), Config.freeBlobWord k (5 * j + 4)⟩

/-- `params.biquad_rev12[j]` for every `j` of the record's set (R213), like `blobVolumes`; the free words are numbered on
from the volumes'. -/
def blobRev12 (p : Params) (k : Nat) (l : List SlotParams) : List SlotParams :=
  (List.range p.nbqRev12).map fun j => l.getD j (freeBlobSlot k (p.nchan + j))

/-- `Update(params, reset_policy_supported)` (R213): a silent no-op unless `id` and `magic` match. -/
def splitterUpdate (p : Params) (k : Nat) (b : SplitterParams) (resetPolicySupported : Bool) (r : Splitter) : Splitter :=
  if splitterAccepts p b r then
    let volumes := blobVolumes p k b
    let reset := splitterResets b resetPolicySupported r
    { r with
      destinationId := b.destinationId
      mixVolumes := volumes
      biquadRev12 := (b.rev12.map (blobRev12 p k)).getD r.biquadRev12
      prevMixVolumes := if reset then volumes else r.prevMixVolumes
      needUpdate := if reset then false else r.needUpdate
      inUse := b.inUse }
  else r

/-- `MarkAsNeedToUpdateInternalState()` (R214). -/
def splitterMark (r : Splitter) : Splitter := { r with needUpdate := true }

/-- `UpdateInternalState()` (R215, C9). -/
def splitterUpdateInternal (r : Splitter) : Splitter :=
  { r with
    prevMixVolumes := if r.inUse && r.needUpdate then r.mixVolumes else r.prevMixVolumes
    needUpdate := false }

/-- An element of a volume array, or zero for a channel out of range (R216). -/
def volumeAt (p : Params) (volumes : List F32) (c : Int) : F32 :=
  if 0 ≤ c ∧ c < (p.nchan : Int) then volumes.getD c.toNat 0#32 else 0#32

/-- `GetMixVolume(c)` (R216). -/
def getMixVolume (p : Params) (c : Int) (r : Splitter) : F32 := volumeAt p r.mixVolumes c

/-- `GetMixVolumePrev(c)` (R216). -/
def getMixVolumePrev (p : Params) (c : Int) (r : Splitter) : F32 := volumeAt p r.prevMixVolumes c

end Sys2Proof.Machine
end

