-- ==== Sys2Proof/Machine/Sequencer.lean ====
section
/-! DEFINITION. The host's side of a step: the command list in command memory, the latch of `CMD`, the three operations
(44_command_process.md R180, R200, R201; 30_encoding.md R91), the command index and the sticky mark (10_state.md R26,
60_exceptions.md R239), and the host's actions between operations (R36, R240, R253, R261). Conventions: log 7, 8, 9, 10. -/

namespace Sys2Proof.Machine

/-! ### Command memory (R50, R61) -/

/-- The `k` words of command memory from byte address `addr` on. -/
def readWords (m : Memory) (addr : Nat) : Nat → List (BitVec 32)
  | 0 => []
  | k + 1 => BitVec.ofNat 32 (m.read .command addr 4) :: readWords m (addr + 4) k

/-- Store words from byte address `addr` on. -/
def storeWords (m : Memory) (addr : Nat) : List (BitVec 32) → Memory
  | [] => m
  | w :: ws => storeWords (m.write addr 4 w.toNat) (addr + 4) ws

/-- `LIST[j]`, the twenty words at bytes `80j` on (R61). -/
def listElement (j : Nat) (s : State) : Descriptor := readWords s.cmdMem (descriptorAddr j) 20

/-- `LIST[j] <- d`. -/
def storeDescriptor (j : Nat) (d : Descriptor) (s : State) : State :=
  { s with cmdMem := storeWords s.cmdMem (descriptorAddr j) d }

/-- `LIST[j], LIST[j+1], ... <- ds`. -/
def storeList (j : Nat) : List Descriptor → State → State
  | [], s => s
  | d :: ds, s => storeList (j + 1) ds (storeDescriptor j d s)

/-! ### The operations -/

/-- The record the next operation acts on (R26, R91): `LIST[pc]` while the list has a command at `pc`, where an illegal
descriptor yields none (R87); after the last command the record latched last (log 10). -/
def nextRecord (s : State) : Option Instr :=
  if s.pc < s.listLen then (decode s.par.hwRev (listElement s.pc s)).toOption else s.cmd

/-- Latch `CMD <- LIST[pc]` (R26, R27), while there is an element to latch; `none` is "invalid" (R41). -/
def latch (s : State) : State := { s with cmd := nextRecord s }

/-- What the sequencer does after a `Process`, refused or not: `pc <- pc + 1`, and the sticky mark if it was refused
(R26, R239, D25). A `PROCESS` selected after the frame's last command is no command of the list: `pc` stays (log 8). -/
def afterProcess (s : State) : State :=
  { s with
    pc := if s.pc < s.listLen then s.pc + 1 else s.pc
    frameRefused := s.frameRefused || Result.isRefused s.result }

/-- `PROCESS`: latch, run, advance (R26, R180). Without a legal record it is refused (R87, R182, R232; log 10). -/
def processNext (s : State) : Host.Outcome State Fault Refusal :=
  let s := latch s
  match s.cmd with
  | none => .next (afterProcess (takeRefusal .illegalDescriptor s))
  | some i =>
    match exec i s with
    | .next t => .next (afterProcess t)
    | .fault f => .fault f
    | .refused r => .refused r

/-- `VERIFY`: true for every record; without one it is refused (R200, R232; log 10). -/
def verifyNext (s : State) : State :=
  let s := latch s
  match s.cmd with
  | none => takeRefusal .illegalDescriptor s
  | some _ => { s with result := some (.valid true) }

/-- The tuple `DUMP` returns, restricted to the fields the kind has (R201). -/
def dumpTuple (i : Instr) : DumpTuple :=
  { kind := i.kind, input := i.input, output := i.output, needsInit := i.needsInit, hasVolumeRamp := i.hasVolumeRamp,
    isFirstMixBuffer := i.isFirstMixBuffer, useFloatProcessing := i.useFloatProcessing,
    useFloatCoefficients := i.useFloatCoefficients }

/-- `DUMP`: returns the tuple and appends its line to the supplied string (R201); without a record it is refused (R232). -/
def dumpNext (s : State) : State :=
  let s := latch s
  match s.cmd with
  | none => takeRefusal .illegalDescriptor s
  | some i => { s with result := some (.dump (dumpTuple i)), diag := s.diag ++ Config.dumpFormat (dumpTuple i) }

/-- The reserved select: refused, and marked; `pc` advances only after a `Process` (R91, R232, R239, D25; log 8). -/
def reservedOperation (s : State) : State := { takeRefusal .reservedOperation s with frameRefused := true }

/-- Perform the selected operation (R91). None of the four stops: where there is no legal record the operation is refused
(R232, D20; log 10). -/
def operate (select : BitVec 2) (s : State) : Host.Outcome State Fault Refusal :=
  if select = 0#2 then processNext s
  else if select = 1#2 then .next (verifyNext s)
  else if select = 2#2 then .next (dumpNext s)
  else .next (reservedOperation s)

/-! ### The host's other actions -/

/-- Apply a splitter operation to the record at a slot. -/
def onSplitter (slot : Nat) (f : Splitter → Splitter) (s : State) : Host.Outcome State Fault Refusal :=
  match s.splitters[slot]? with
  | none => .fault .noSuchSplitter
  | some r => .next { s with splitters := s.splitters.set slot (f r) }

/-- Splitter `Update` of the record at a slot (R213). An accepted blob takes one number for free values (log 2, 14). -/
def updateSplitter (slot : Nat) (b : SplitterParams) (resetPolicySupported : Bool) (s : State) :
    Host.Outcome State Fault Refusal :=
  match s.splitters[slot]? with
  | none => .fault .noSuchSplitter
  | some r =>
    if splitterAccepts s.par b r then
      .next (useDraws 1 { s with
        splitters := s.splitters.set slot (splitterUpdate s.par s.draw b resetPolicySupported r) })
    else .next s

/-- Return a value read from the record at a slot. -/
def fromSplitter (slot : Nat) (f : Splitter → Result) (s : State) : Host.Outcome State Fault Refusal :=
  match s.splitters[slot]? with
  | none => .fault .noSuchSplitter
  | some r => .next { s with result := some (f r) }

/-- Begin a frame: the list is stored, `pc` is 0, the mark is clear (R26, R239, R253). -/
def startFrame (list : List Descriptor) (s : State) : Host.Outcome State Fault Refusal :=
  if s.pc < s.listLen then .fault .frameRunning
  else if !list.all Descriptor.wellFormed then .fault .badDescriptorLength
  else .next { storeList 0 list s with pc := 0, listLen := list.length, frameRefused := false }

/-- One pending action of the host. -/
def performHostOp (op : HostOp) (s : State) : Host.Outcome State Fault Refusal :=
  match op with
  | .startFrame list => startFrame list s
  | .writeCommand j d =>
    if s.listLen ≤ j then .fault .noSuchWord
    else if !d.wellFormed then .fault .badDescriptorLength
    else .next (storeDescriptor j d s)
  | .writeSampleCount n =>
    if 0 < s.pc ∧ s.pc < s.listLen then .fault .frameRunning else .next { s with frame := n }
  | .writeArena a v =>
    if s.par.nbuf * s.par.maxSampleCount ≤ a then .fault .noSuchWord else .next (writeArena a v s)
  | .writeSrf h k v => if s.par.nstate ≤ h ∨ 4 ≤ k then .fault .noSuchWord else .next (writeSrfWord h k v s)
  | .writePrev v k x => if s.par.nvoice ≤ v ∨ s.par.prevLen ≤ k then .fault .noSuchWord else .next (writePrev v k x s)
  | .operate select => operate select s
  | .splitterUpdate slot b rps => updateSplitter slot b rps s
  | .splitterMark slot => onSplitter slot splitterMark s
  | .splitterUpdateInternal slot => onSplitter slot splitterUpdateInternal s
  | .splitterIsConfigured slot => fromSplitter slot (fun r => .configured (splitterConfigured s.par r)) s
  | .getMixVolume slot c => fromSplitter slot (fun r => .volume (getMixVolume s.par c r)) s
  | .getMixVolumePrev slot c => fromSplitter slot (fun r => .volume (getMixVolumePrev s.par c r)) s
  | .writeBiquadNew slot j p =>
    if s.par.nbqNew ≤ j then .fault .noSuchSplitter
    else onSplitter slot (fun r => { r with biquadNew := r.biquadNew.set j p }) s
  | .linkNext slot next => -- any record, also the same one: which links the pool makes is its own business (R212, log 14)
    if (next.map fun k => decide (s.splitters.length ≤ k)).getD false then .fault .noSuchSplitter
    else onSplitter slot (fun r => { r with next := next }) s

/-- One step of the machine: a pending host action first, oldest first; else `PROCESS` of `LIST[pc]`; else the frame has
ended and the machine is idle (R26, R251; log 7). -/
def stepOnce (s : State) : Host.Outcome State Fault Refusal :=
  match s.host with
  | op :: rest => performHostOp op { s with host := rest }
  | [] => if s.pc < s.listLen then processNext s else .next s

/-- The state with this descriptor as the next element to latch and no host action before it. -/
def withDescriptor (d : Descriptor) (s : State) : State :=
  { storeDescriptor s.pc d s with listLen := max s.listLen (s.pc + 1), host := [] }

end Sys2Proof.Machine
end

