-- ==== Sys2Proof/Machine/Step.lean ====
section
/-! DEFINITION. The machine's one step, and the host's way to place an instruction where it is fetched next. -/

namespace Sys2Proof.Machine

/-- One step (R15, R26). -/
def step (s : State) : Host.Outcome State Fault Refusal := stepOnce s

/-- `s` with the descriptor whose low `nbits` bits are `w` (zeros above) at `LIST[pc]`, so that the next step latches and
runs it (log 7). -/
def State.withFetchWord (s : State) (nbits w : Nat) : State := withDescriptor (tableDescriptor nbits w) s

end Sys2Proof.Machine
end

