-- ==== Sys2Proof/Safety.lean ====
section
/-! DEFINITION. The terms claims are stated in: when a command is accepted, what a legal state is, what an operation leaves
alone, and the kernels of 41_single_filter_kernels.md to 43_cascade_kernels.md as functions of sample lists, with no
machine behind them. -/

namespace Sys2Proof.Machine

/-! ### Accepted commands and legal states -/

/-- What the caller must prevent (60_exceptions.md R236), in the terms of `validate` (44_command_process.md R182): the
command is legal on this revision, the frame is not too long, the indices and handles name what exists. -/
structure CommandOk (i : Instr) (s : State) : Prop where
  revision : i.useFloatCoefficients = true → 15 ≤ s.par.hwRev
  sampleCount : s.frame.toNat ≤ s.par.maxSampleCount
  input : 0 ≤ i.input.toInt ∧ i.input.toInt < (s.par.nbuf : Int)
  output : 0 ≤ i.output.toInt ∧ i.output.toInt < (s.par.nbuf : Int)
  handles : ∀ h ∈ i.states ++ i.previousStates, h.toNat < s.par.nstate
  voice : i.ramped = true → ∀ v, i.voiceState = some v → v.toNat < s.par.nvoice

/-- Every listed address lies below a bound. -/
def Memory.below (m : Memory) (n : Nat) : Prop := ∀ c ∈ m, c.1 < n

/-- A splitter record has the lengths of its pool, and `next` names a record (45_splitter_destination.md R210). -/
structure SplitterOk (p : Params) (r : Splitter) : Prop where
  mixVolumes : r.mixVolumes.length = p.nchan
  prevMixVolumes : r.prevMixVolumes.length = p.nchan
  biquadNew : r.biquadNew.length = p.nbqNew
  biquadRev12 : r.biquadRev12.length = p.nbqRev12
  next : ∀ k, r.next = some k → k < p.nsplit

/-- A legal state: the byte images are in canonical form and list only what exists (10_state.md R30, R37, R38), the command
index is in the list (R26), a latched record is legal on this revision (30_encoding.md R89), and the splitter pool has its
shape. -/
structure StateOk (s : State) : Prop where
  params : s.par.ok = true
  arenaForm : s.arena.wf
  srfForm : s.srf.wf
  prevForm : s.prev.wf
  commandForm : s.cmdMem.wf
  arenaBound : s.arena.below (4 * (s.par.nbuf * s.par.maxSampleCount))
  srfBound : s.srf.below (32 * s.par.nstate)
  prevBound : s.prev.below (4 * (s.par.nvoice * s.par.prevLen))
  index : s.pc ≤ s.listLen
  record : ∀ i, s.cmd = some i → i.wellFormed s.par.hwRev = true
  slots : s.splitters.length = s.par.nsplit
  records : ∀ r ∈ s.splitters, SplitterOk s.par r

/-- What a `Process` leaves alone whatever it does (44_command_process.md R180): the frame register, `CMD`, command memory,
the command index, and everything that is not the engine's. -/
structure ControlKept (s t : State) : Prop where
  par : t.par = s.par
  frame : t.frame = s.frame
  pc : t.pc = s.pc
  listLen : t.listLen = s.listLen
  cmdMem : t.cmdMem = s.cmdMem
  cmd : t.cmd = s.cmd
  splitters : t.splitters = s.splitters
  frameRefused : t.frameRefused = s.frameRefused
  diag : t.diag = s.diag
  host : t.host = s.host

/-- The record an operation selected in `s` acts on (R26, R91): `LIST[pc]` decoded while the list has a command at `pc`, none
where it is illegal; after the last command the record latched last (log 10). -/
def LatchedNext (s : State) (r : Option Instr) : Prop :=
  (s.pc < s.listLen ∧
    ((∃ i, decode s.par.hwRev (listElement s.pc s) = .ok i ∧ r = some i) ∨
      (∃ e, decode s.par.hwRev (listElement s.pc s) = .error e ∧ r = none))) ∨
  (s.listLen ≤ s.pc ∧ r = s.cmd)

/-! ### Samples and entries -/

/-- The samples of a buffer, first to last (20_memory.md R51). -/
def samples (k : S16) (s : State) : List S32 :=
  (List.range s.frame.toNat).map fun i => readArena (sampleIndex k s.frame.toNat i) s

/-- The entry a forked preparation makes the filter start from (44_command_process.md R183). -/
def preparedEntry (h p : Handle) (ni first : Bool) (s : State) : Entry :=
  if ni then Entry.zero else if first then readEntry h s else readEntry p s

/-- A state entry as a delay line (R185). -/
def Entry.toDelay (e : Entry) : Delay := ⟨e.w0, e.w1, e.w2, e.w3⟩

/-- A delay line as a state entry (R186). -/
def Delay.toEntry (d : Delay) : Entry := ⟨d.s0, d.s1, d.s2, d.s3⟩

/-- Run commands one after the other (20_memory.md R67). -/
def execAll : List Instr → State → Host.Outcome State Fault Refusal
  | [], s => .next s
  | i :: rest, s =>
    match exec i s with
    | .next t => execAll rest t
    | .fault f => .fault f
    | .refused r => .refused r

/-! ### The kernels as functions of sample lists -/

/-- `wrap64` on integers (00_scope.md R9): the integer in [-2^63, 2^63) congruent modulo 2^64. -/
def wrapInt64 (z : Int) : Int := z.bmod (2 ^ 64)

/-- The integer kernel on integers (41_single_filter_kernels.md R124): outputs, and the final accumulators. `wrap` is what
happens to a sum. -/
def kiList (wrap : Int → Int) (b0 b1 b2 a0 a1 : Int) : Int → Int → List Int → List Int × Int × Int
  | acc0, acc1, [] => ([], acc0, acc1)
  | acc0, acc1, x :: xs =>
    let sample := wrap (x * b0 + acc0)
    let o := max int32Min (min int32Max (wrap (sample + 8192) / 16384))
    let r := kiList wrap b0 b1 b2 a0 a1 (wrap (acc1 + b1 * x + a0 * o)) (wrap (b2 * x + a1 * o)) xs
    (o :: r.1, r.2)

/-- A filter in flight: its coefficients and its delay line. -/
structure Filter where
  c : Coeffs
  d : Delay
  deriving DecidableEq, Repr

/-- A sample through filters in series: the last unclamped output and the filters after (43_cascade_kernels.md R161). Each
filter takes nine draw numbers from `k` on (log 2). -/
def chainList : Nat → List Filter → F64 → F64 × List Filter
  | _, [], x => (x, [])
  | k, f :: fs, x =>
    let y := biquadOutput k f.c f.d x
    let r := chainList (k + 9) fs y
    (r.1, ⟨f.c, shiftDelay f.d x y⟩ :: r.2)

/-- The unclamped outputs of one filter over a block (R121). Ten draw numbers a sample, nine of them the recurrence's. -/
def outputsList : Nat → Coeffs → Delay → List S32 → List F64
  | _, _, _, [] => []
  | k, c, d, x :: xs =>
    let y := biquadOutput k c d (i32ToF64 x)
    y :: outputsList (k + 10) c (shiftDelay d (i32ToF64 x) y) xs

/-- `KD` (R122): the stored samples and the delay line at the end. -/
def kdList : Nat → Coeffs → Delay → List S32 → List S32 × Delay
  | _, _, d, [] => ([], d)
  | k, c, d, x :: xs =>
    let y := biquadOutput k c d (i32ToF64 x)
    let r := kdList (k + 10) c (shiftDelay d (i32ToF64 x) y) xs
    (satS32 (k + 9) y :: r.1, r.2)

/-- `KM(T)` (42_mix_ramp_kernels.md R141) over pairs of an input sample and an old output sample. -/
def kmList : Nat → List Filter → F64 → List (S32 × S32) → List S32 × List Filter
  | _, fs, _, [] => ([], fs)
  | k, fs, vol, (x, old) :: rest =>
    let f := chainList k fs (i32ToF64 x)
    let j := k + 9 * fs.length
    let m := fmul j f.1 vol
    let r := kmList (j + 3) f.2 vol rest
    (satS32 (j + 2) (fadd (j + 1) (i32ToF64 old) m) :: r.1, r.2)

/-- What a ramped kernel leaves: the stored samples, the filters, the last mixed value, the next draw number. -/
structure RampedBlock where
  out     : List S32
  filters : List Filter
  last    : F64
  draw    : Nat
  deriving DecidableEq, Repr

/-- `KMR(T)`'s loop (R142) with the volume `vol`, its increment `ramp` and the mixed value so far. -/
def kmrList : Nat → List Filter → F64 → F64 → F64 → List (S32 × S32) → RampedBlock
  | k, fs, _, _, last, [] => ⟨[], fs, last, k⟩
  | k, fs, vol, ramp, _, (x, old) :: rest =>
    let f := chainList k fs (i32ToF64 x)
    let j := k + 9 * fs.length
    let m := fmul j f.1 vol
    let r := kmrList (j + 4) f.2 (fadd (j + 3) vol ramp) ramp m rest
    { r with out := satS32 (j + 2) (fadd (j + 1) (i32ToF64 old) m) :: r.out }

/-- The draw number at which a ramped kernel's loop starts, its volume taken at `k`: the increment takes four unless there
is no sample (D16). -/
def rampLoopDraw (k : Nat) (n : U32) : Nat := if n = 0#32 then k + 1 else k + 5

/-- `KMR(T)` as a whole (R142) from draw number `k` on: with no sample nothing is stored and `+0.0` is the last value. -/
def kmrBlock (k : Nat) (fs : List Filter) (volume0 volume1 : F32) (n : U32) (pairs : List (S32 × S32)) : RampedBlock :=
  kmrList (rampLoopDraw k n) fs (f32ToF64 k volume0) (rampStep (k + 1) volume0 volume1 n) 0#64 pairs

/-- The sums a mix kernel saturates, the old output samples plus the products (R141, R142), with the increment of the volume
if it has one. -/
def mixSums : Nat → List Filter → F64 → Option F64 → List (S32 × S32) → List F64
  | _, _, _, _, [] => []
  | k, fs, vol, ramp, (x, old) :: rest =>
    let f := chainList k fs (i32ToF64 x)
    let j := k + 9 * fs.length
    let sum := fadd (j + 1) (i32ToF64 old) (fmul j f.1 vol)
    match ramp with
    | none => sum :: mixSums (j + 3) f.2 vol none rest
    | some r => sum :: mixSums (j + 4) f.2 (fadd (j + 3) vol r) (some r) rest

/-- Every unclamped output of every filter of a chain over a block (R121, R161): a filter's newest output is `s[2]`. -/
def chainOutputs : Nat → List Filter → List S32 → List F64
  | _, _, [] => []
  | k, fs, x :: xs =>
    let r := chainList k fs (i32ToF64 x)
    r.2.map (fun f => f.d.s2) ++ chainOutputs (k + 9 * fs.length) r.2 xs

/-! ### What each kind of command leaves -/

/-- What a double-precision `BQF` leaves (R128, R129): `KD` over the input span, from the entry as prepared, with coefficients
`c` and draws from `k` on. -/
structure FilteredBy (o : BqfOperands) (c : Coeffs) (k : Nat) (s t : State) : Prop where
  result : t.result = some .done
  stored : samples o.output t =
    (kdList k c (if o.needsInit0 then Entry.zero else readEntry o.state0 s).toDelay (samples o.input s)).1
  entry : readEntry o.state0 t =
    (kdList k c (if o.needsInit0 then Entry.zero else readEntry o.state0 s).toDelay (samples o.input s)).2.toEntry

/-- The filter a `BQFM` starts with (R146): coefficients `c` and the prepared entry's delay line. -/
def mixFilters (o : BqfmOperands) (c : Coeffs) (s : State) : List Filter :=
  [⟨c, (preparedEntry o.state0 o.previousState0 o.needsInit0 o.isFirstMixBuffer s).toDelay⟩]

/-- The snapshot branch of `prep_forked` fires (R183). -/
def snapshots (needsInit first : Bool) : Prop := needsInit = false ∧ first = true

/-- What a `BQFM` without ramp leaves (R146, R147): `KM(1)` over the spans, the persisted entry, the snapshot if one was
taken. -/
structure MixedBy (o : BqfmOperands) (c : Coeffs) (k : Nat) (s t : State) : Prop where
  result : t.result = some .done
  stored : samples o.output t =
    (kmList (k + 1) (mixFilters o c s) (f32ToF64 k o.volume0) ((samples o.input s).zip (samples o.output s))).1
  entry : (kmList (k + 1) (mixFilters o c s) (f32ToF64 k o.volume0) ((samples o.input s).zip (samples o.output s))).2 =
    [⟨c, (readEntry o.state0 t).toDelay⟩]
  snapshot : snapshots o.needsInit0 o.isFirstMixBuffer → o.previousState0 ≠ o.state0 →
    readEntry o.previousState0 t = readEntry o.state0 s

/-- The tail sample of a ramped command (R190, R191): the last mixed value `last` narrowed and truncated, draws from `k`
on, at an index in range. -/
def TailCaptured (voice : Handle) (index : S32) (last : F64) (k : Nat) (t : State) : Prop :=
  0 ≤ index.toInt → index.toInt < (t.par.prevLen : Int) →
    readPrev voice.toNat index.toInt.toNat t = f32ToS32Trunc (k + 1) (f64ToF32 k last)

/-- What a `BQFM` with ramp leaves (R148, R149): `KMR(1)` over the spans, the persisted entry, the snapshot, the tail. -/
structure RampMixedBy (o : BqfmOperands) (c : Coeffs) (k : Nat) (s t : State) (r : RampedBlock) : Prop where
  block : r = kmrBlock k (mixFilters o c s) o.volume0 o.volume1 s.frame ((samples o.input s).zip (samples o.output s))
  result : t.result = some .done
  stored : samples o.output t = r.out
  entry : r.filters = [⟨c, (readEntry o.state0 t).toDelay⟩]
  snapshot : snapshots o.needsInit0 o.isFirstMixBuffer → o.previousState0 ≠ o.state0 →
    readEntry o.previousState0 t = readEntry o.state0 s
  tail : TailCaptured o.voiceState o.lastSampleIndex r.last r.draw t

/-- The state after tap 0's preparation (43_cascade_kernels.md R165). -/
def afterPrep0 (o : MtOperands) (s : State) : State :=
  prepForked o.state0 o.previousState0 o.needsInit0 o.isFirstMixBuffer s

/-- The state after tap 1's preparation, which follows tap 0's (R165). -/
def afterPrep1 (o : MtOperands) (s : State) : State :=
  prepForked o.state1 o.previousState1 o.needsInit1 o.isFirstMixBuffer (afterPrep0 o s)

/-- The two filters a `MTBQFM` starts with: each tap's snapshot is taken right after its preparation (R165). -/
def tapFilters (o : MtOperands) (c0 c1 : Coeffs) (s : State) : List Filter :=
  [⟨c0, (readEntry o.state0 (afterPrep0 o s)).toDelay⟩, ⟨c1, (readEntry o.state1 (afterPrep1 o s)).toDelay⟩]

/-- Two filters written back, tap 0 first, then tap 1: with one handle for both taps the entry holds tap 1's copy (R166).
Every other entry is as the preparations left it. -/
structure WrittenBack (o : MtOperands) (c0 c1 : Coeffs) (filters : List Filter) (s t : State) : Prop where
  taps : ∃ e0, filters = [⟨c0, Entry.toDelay e0⟩, ⟨c1, (readEntry o.state1 t).toDelay⟩] ∧
    (o.state0 ≠ o.state1 → e0 = readEntry o.state0 t)
  others : ∀ h, h ≠ o.state0 → h ≠ o.state1 → readEntry h t = readEntry h (afterPrep1 o s)

/-- What a `MTBQFM` without ramp leaves (R168, R169): `KM(2)` over the spans and the write-back. -/
structure CascadeMixedBy (o : MtOperands) (c0 c1 : Coeffs) (k : Nat) (s t : State) : Prop where
  result : t.result = some .done
  stored : samples o.output t =
    (kmList (k + 1) (tapFilters o c0 c1 s) (f32ToF64 k o.volume0) ((samples o.input s).zip (samples o.output s))).1
  entries : WrittenBack o c0 c1
    (kmList (k + 1) (tapFilters o c0 c1 s) (f32ToF64 k o.volume0) ((samples o.input s).zip (samples o.output s))).2 s t

/-- What a `MTBQFM` with ramp leaves (R170, R171): `KMR(2)` over the spans, the write-back, the tail. -/
structure RampCascadeMixedBy (o : MtOperands) (c0 c1 : Coeffs) (k : Nat) (s t : State) (r : RampedBlock) : Prop where
  block : r = kmrBlock k (tapFilters o c0 c1 s) o.volume0 o.volume1 s.frame ((samples o.input s).zip (samples o.output s))
  result : t.result = some .done
  stored : samples o.output t = r.out
  entries : WrittenBack o c0 c1 r.filters s t
  tail : TailCaptured o.voiceState o.lastSampleIndex r.last r.draw t

/-- The state register file of `s` after both preparations of a multi-tap command and a write-back of the snapshots as they
were taken, tap 0 first (R165): what is left when no sample runs. -/
def snapshotsWrittenBack (o : MtOperands) (s : State) : State :=
  writeEntry o.state1 (readEntry o.state1 (afterPrep1 o s))
    (writeEntry o.state0 (readEntry o.state0 (afterPrep0 o s)) (afterPrep1 o s))

/-! ### The fan-out protocol (44_command_process.md R187, 70_reset_and_hazards.md R257) -/

/-- The coefficients of a form as its codec gives them (R110), a float coefficient's NaN with draws from `k` on; tap 0 first. -/
def formCoeffs (k : Nat) : Instr → List Coeffs
  | .bqfI _ c => [decodeInt c]
  | .bqfD _ c | .bqfm _ c | .bqfmR _ c => [decodeQ14 c]
  | .bqfDF _ c | .bqfmF _ c | .bqfmRF _ c => [decodeF32 k c]
  | .mtbqfm _ c0 c1 | .mtbqfmR _ c0 c1 => [decodeQ14 c0, decodeQ14 c1]
  | .mtbqfmF _ c0 c1 | .mtbqfmRF _ c0 c1 => [decodeF32 k c0, decodeF32 (k + 5) c1]

/-- A first pass: every tap snapshots. Only the and-mix kinds have the flag (R27). -/
def FirstPass (i : Instr) : Prop := i.isFirstMixBuffer = some true ∧ ∀ b ∈ i.needsInit, b = false

/-- A later pass: every tap restores. -/
def LaterPass (i : Instr) : Prop := i.isFirstMixBuffer = some false ∧ ∀ b ∈ i.needsInit, b = false

/-- The command's handles are pairwise distinct (R166, R236). -/
def HandlesDistinct (i : Instr) : Prop := (i.states ++ i.previousStates).Nodup

/-- Two commands name the same entries (R257). -/
def SameEntries (i j : Instr) : Prop := j.states = i.states ∧ j.previousStates = i.previousStates

/-- Every previous entry holds in `t` what its tap's entry holds in `s`. -/
def FrameStartSaved (i : Instr) (s t : State) : Prop :=
  ∀ q ∈ i.states.zip i.previousStates, readEntry q.2 t = readEntry q.1 s

/-! ### Forms that agree -/

/-- The identity as Q14 and as float coefficients: `b0 = 1`, the others 0 (R163). -/
def identityQ14 : Q14Params := ⟨0x4000#16, 0#16, 0#16, 0#16, 0#16⟩
def identityF32 : F32Params := ⟨0x3F800000#32, 0#32, 0#32, 0#32, 0#32⟩

/-- A single-filter mix command and the cascade whose filter 1 is the identity (R163), of each of the four pairs of forms;
`c` are filter 0's coefficients, widened with draws from `k` on. -/
def IdentityPair (om : BqfmOperands) (oc : MtOperands) (k : Nat) (c : Coeffs) (single cascade : Instr) : Prop :=
  (∃ q, single = .bqfm om q ∧ cascade = .mtbqfm oc q identityQ14 ∧ c = decodeQ14 q) ∨
  (∃ q, single = .bqfmR om q ∧ cascade = .mtbqfmR oc q identityQ14 ∧ c = decodeQ14 q) ∨
  (∃ q, single = .bqfmF om q ∧ cascade = .mtbqfmF oc q identityF32 ∧ c = decodeF32 k q) ∨
  (∃ q, single = .bqfmRF om q ∧ cascade = .mtbqfmRF oc q identityF32 ∧ c = decodeF32 k q)

/-- The same input, output, filter 0 entries, volumes and tail (R163). -/
structure SameBut1 (om : BqfmOperands) (oc : MtOperands) : Prop where
  input : oc.input = om.input
  output : oc.output = om.output
  state0 : oc.state0 = om.state0
  previousState0 : oc.previousState0 = om.previousState0
  needsInit0 : oc.needsInit0 = om.needsInit0
  isFirstMixBuffer : oc.isFirstMixBuffer = om.isFirstMixBuffer
  volume0 : oc.volume0 = om.volume0
  volume1 : oc.volume1 = om.volume1
  voiceState : oc.voiceState = om.voiceState
  lastSampleIndex : oc.lastSampleIndex = om.lastSampleIndex

/-- The four words of an entry are finite doubles. -/
def Entry.finite (e : Entry) : Prop := ∀ w ∈ [e.w0, e.w1, e.w2, e.w3], f64IsFinite w = true

/-- The exact value of a finite binary32 encoding, in units of binary32. -/
def f32Units (v : F32) : Int := if f32Sign v then -(f32Abs v : Int) else (f32Abs v : Int)

/-- The tail sample of this mixed value is no draw (R191): it narrows to a finite value whose truncation is in range. -/
def TailDefined (last : F64) : Prop :=
  let v := f64ToF32 0 last
  f32IsFinite v = true ∧ -2147483649 * 2 ^ 149 < f32Units v ∧ f32Units v < 2147483648 * 2 ^ 149

/-! ### Frames -/

/-- The byte at `a` of the arena is no byte of the output span (20_memory.md R51, R60). -/
def outsideSpan (output : S16) (s : State) (a : Nat) : Prop :=
  a < arenaAddr (sampleIndex output s.frame.toNat 0) ∨ arenaAddr (sampleIndex output s.frame.toNat s.frame.toNat) ≤ a

/-- The byte at `a` of the state register file is no byte of entry `h` (R59). -/
def outsideEntry (h : Handle) (a : Nat) : Prop := a < srfAddr h.toNat 0 ∨ srfAddr h.toNat 0 + 32 ≤ a

/-- The byte at `a` of the previous-samples arrays is no byte of the tail sample a ramped command stores (R190). -/
def outsideTail (p : Params) (voice : Handle) (index : S32) (a : Nat) : Prop :=
  0 ≤ index.toInt → index.toInt < (p.prevLen : Int) →
    a < prevAddr p voice.toNat index.toInt.toNat ∨ prevAddr p voice.toNat index.toInt.toNat + 4 ≤ a

/-! ### Correct rounding -/

/-- `r` is the binary64 value nearest to `num / den` units, ties to even (00_scope.md R10): no finite encoding is nearer, and
if another value is as near, the fraction of `r` is even. -/
def NearestEven64 (r : F64) (num : Int) (den : Nat) : Prop :=
  ∀ c, f64IsFinite c = true →
    |f64Units r * den - num| ≤ |f64Units c * den - num| ∧
    (|f64Units c * den - num| = |f64Units r * den - num| → f64Units c ≠ f64Units r → f64Mag r % 2 = 0)

/-- From this magnitude on, in units, a value rounds to an infinity of binary64: halfway between the largest finite value
and `2^1024` (R10, G3). -/
def overflow64 : Nat := (2 ^ 54 - 1) * 2 ^ 970 * one64

/-- The same for binary32, in units of binary64: halfway between its largest finite value and `2^128`. -/
def overflow32 : Nat := (2 ^ 25 - 1) * 2 ^ 103 * one64

/-- `r` is `num / den` units rounded once to binary64 (R10): to nearest, ties to even, overflowing to the infinity of its
sign. -/
structure Rounded64 (r : F64) (num : Int) (den : Nat) : Prop where
  notNaN : f64IsNaN r = false
  overflow : f64IsInf r = true ↔ (overflow64 : Int) * den ≤ |num|
  sign : f64IsInf r = true → (f64Sign r = true ↔ num < 0)
  nearest : f64IsFinite r = true → NearestEven64 r num den

/-- The same for binary32. -/
def NearestEven32 (r : F32) (num : Int) (den : Nat) : Prop :=
  ∀ c, f32IsFinite c = true →
    |f32Units r * den - num| ≤ |f32Units c * den - num| ∧
    (|f32Units c * den - num| = |f32Units r * den - num| → f32Units c ≠ f32Units r → f32Mag r % 2 = 0)

/-! ### The opcode map (30_encoding.md R90) -/

/-- A row of the opcode map. -/
structure HeaderRow where
  mnemonic : String
  pattern  : BitVec 32
  mask     : BitVec 32
  /-- The `.DF`, `.F` and `.RF` rows, legal from `HW_REV` 15 on. -/
  float    : Bool
  deriving DecidableEq, Repr

/-- The eleven rows of R90. -/
def headerRows : List HeaderRow :=
  [⟨"BQF.I", 0x00000001#32, 0xFFFFFFEF#32, false⟩,
   ⟨"BQF.D", 0x00000101#32, 0xFFFFFFEF#32, false⟩,
   ⟨"BQF.DF", 0x00000301#32, 0xFFFFFFEF#32, true⟩,
   ⟨"BQFM", 0x00000102#32, 0xFFFFFF6F#32, false⟩,
   ⟨"BQFM.F", 0x00000302#32, 0xFFFFFF6F#32, true⟩,
   ⟨"BQFM.R", 0x00000142#32, 0xFFFFFF6F#32, false⟩,
   ⟨"BQFM.RF", 0x00000342#32, 0xFFFFFF6F#32, true⟩,
   ⟨"MTBQFM", 0x00000103#32, 0xFFFFFF4F#32, false⟩,
   ⟨"MTBQFM.F", 0x00000303#32, 0xFFFFFF4F#32, true⟩,
   ⟨"MTBQFM.R", 0x00000143#32, 0xFFFFFF4F#32, false⟩,
   ⟨"MTBQFM.RF", 0x00000343#32, 0xFFFFFF4F#32, true⟩]

/-- A row selects a header word. -/
def HeaderRow.selects (r : HeaderRow) (w0 : BitVec 32) : Bool := w0 &&& r.mask == r.pattern

end Sys2Proof.Machine
end

