-- ==== Sys2Proof/Certificates/Slice0/Obligations.lean ====
section
/-! DEFINITION. The statements about the model, for the provers. The rules cited are the numbered rules of spec/. A statement
in which free values occur (draw numbers, `Config.freeS32`, the free NaNs) holds for every value of them (log 2). -/

section
open Sys2Proof Sys2Proof.Machine

/-! ### Encoding -/

/-- Decoding an encoded command gives it back, on every revision on which it is legal (30_encoding.md R82, R83, R84, R87). -/
def Obligations.DecodeInvertsEncode : Prop :=
  ∀ (hwRev : Int) (i : Instr), i.wellFormed hwRev = true → decode hwRev (encode i) = .ok i

/-- R89: a descriptor is illegal exactly in the cases (a) to (g), and `PROCESS` of an illegal one is refused. -/
def Obligations.IllegalExactlyInListedCases : Prop :=
  (∀ (hwRev : Int) (d : Descriptor), d.wellFormed = true →
    let w := d.word 0
    let opcode := w.toNat % 16
    ((∃ e, decode hwRev d = .error e) ↔
      (opcode = 0 ∨ 4 ≤ opcode) ∨
      w.toNat / 1024 ≠ 0 ∨
      (opcode = 1 ∧ (w.getLsbD 5 = true ∨ w.getLsbD 6 = true ∨ w.getLsbD 7 = true)) ∨
      (opcode = 2 ∧ w.getLsbD 5 = true) ∨
      ((opcode = 2 ∨ opcode = 3) ∧ w.getLsbD 8 = false) ∨
      (w.getLsbD 8 = false ∧ w.getLsbD 9 = true) ∨
      (w.getLsbD 9 = true ∧ hwRev < 15))) ∧
  (∀ (s : State) (e : DecodeError), s.host = [] → s.pc < s.listLen →
    decode s.par.hwRev (listElement s.pc s) = .error e →
    ∃ t, step s = .next t ∧ t.result = some (.refused .illegalDescriptor))

/-- R90: a descriptor decodes to the form of a row exactly when the row's mask and match select its header word and, for the
`.DF`, `.F` and `.RF` rows, the revision is at least 15; at most one row selects any header word. -/
def Obligations.RowsSelectTheirForms : Prop :=
  (∀ (hwRev : Int) (d : Descriptor), d.wellFormed = true → ∀ r ∈ headerRows,
    ((∃ i, decode hwRev d = .ok i ∧ i.mnemonic = r.mnemonic) ↔
      r.selects (d.word 0) = true ∧ (r.float = true → 15 ≤ hwRev))) ∧
  (∀ w0 : BitVec 32, (headerRows.filter fun r => r.selects w0).length ≤ 1) ∧
  (∀ (hwRev : Int) (d : Descriptor), d.wellFormed = true → (∀ r ∈ headerRows, r.selects (d.word 0) = false) →
    ∃ e, decode hwRev d = .error e)

/-- R85, and R84 for the upper half of a Q14 slot: two descriptors that agree on the header, on the words their format uses
and, in a form with Q14 coefficients, on the lower halves of the coefficient slots, decode to the same. -/
def Obligations.UnusedWordsAreIgnored : Prop :=
  ∀ (hwRev : Int) (d d' : Descriptor), d.wellFormed = true → d'.wellFormed = true → d.word 0 = d'.word 0 →
    let opcode := (d.word 0).toNat % 16
    d.word 1 = d'.word 1 → d.word 2 = d'.word 2 →
    (opcode = 2 ∨ opcode = 3 → d.word 4 = d'.word 4 ∧ ∀ j, 6 ≤ j → j ≤ 9 → d.word j = d'.word j) →
    (opcode = 3 → d.word 3 = d'.word 3 ∧ d.word 5 = d'.word 5) →
    (∀ j, 10 ≤ j → j ≤ (if opcode = 3 then 19 else 14) →
      (d.word j).extractLsb' 0 16 = (d'.word j).extractLsb' 0 16 ∧
      ((d.word 0).getLsbD 9 = true → d.word j = d'.word j)) →
    decode hwRev d = decode hwRev d'

/-- Words written out from R82 to R84: a `BQF.D`, a `BQFM.R` and a `MTBQFM.F` descriptor, one with dirty unused words. -/
def Obligations.WrittenDescriptorsDecode : Prop :=
  decode 15 [0x00000111#32, 0xFFFE0001#32, 3#32, 9#32, 9#32, 9#32, 9#32, 9#32, 9#32, 9#32, 0xABCD2000#32, 0x1000#32, 0x0800#32,
      0x2000#32, 0xF000#32, 9#32, 9#32, 9#32, 9#32, 9#32] =
    .ok (.bqfD ⟨1#16, 0xFFFE#16, 3#32, true⟩ ⟨0x2000#16, 0x1000#16, 0x0800#16, 0x2000#16, 0xF000#16⟩) ∧
  decode 14 [0x000001C2#32, 0x00010000#32, 0#32, 0#32, 1#32, 0#32, 2#32, 0xFFFFFFFF#32, 0x3F000000#32, 0x3F800000#32, 0x4000#32,
      0#32, 0#32, 0#32, 0#32, 0#32, 0#32, 0#32, 0#32, 0#32] =
    .ok (.bqfmR ⟨0#16, 1#16, 0#32, 1#32, 2#32, 0xFFFFFFFF#32, 0x3F000000#32, 0x3F800000#32, false, true⟩
      ⟨0x4000#16, 0#16, 0#16, 0#16, 0#16⟩) ∧
  decode 15 [0x00000323#32, 0x00010000#32, 0#32, 1#32, 2#32, 3#32, 0#32, 0#32, 0x40000000#32, 0#32, 0x3F000000#32, 0x3E800000#32,
      0x3E000000#32, 0x3F000000#32, 0xBE800000#32, 0x3F000000#32, 0x3F000000#32, 0#32, 0#32, 0#32] =
    .ok (.mtbqfmF ⟨0#16, 1#16, 0#32, 1#32, 2#32, 3#32, 0#32, 0#32, 0x40000000#32, 0#32, false, true, false⟩
      ⟨0x3F000000#32, 0x3E800000#32, 0x3E000000#32, 0x3F000000#32, 0xBE800000#32⟩
      ⟨0x3F000000#32, 0x3F000000#32, 0#32, 0#32, 0#32⟩)

/-! ### The sequencer and the three operations -/

/-- R26: with no host action pending, a step latches the decoded element at `pc`, runs it, advances `pc` by one, and sets
the sticky mark if it was refused (R239); nothing else is added around `exec`. The same when the host selects `PROCESS`
(R91); that after the list's last command this runs the record latched last and leaves `pc` is the model's choice (log 8, 10). -/
def Obligations.StepRunsTheDecodedCommand : Prop :=
  (∀ (s : State) (i : Instr), s.host = [] → s.pc < s.listLen → decode s.par.hwRev (listElement s.pc s) = .ok i →
    ∃ t, exec i { s with cmd := some i } = .next t ∧
      step s = .next { t with pc := s.pc + 1, frameRefused := s.frameRefused || Result.isRefused t.result }) ∧
  (∀ (s : State) (i : Instr) (rest : List HostOp), s.host = .operate 0#2 :: rest → LatchedNext s (some i) →
    ∃ t, exec i { s with host := rest, cmd := some i } = .next t ∧
      step s = .next { t with
        pc := if s.pc < s.listLen then s.pc + 1 else s.pc
        frameRefused := s.frameRefused || Result.isRefused t.result })

/-- R26, R251: with no host action pending and the list at its end, a step changes nothing. -/
def Obligations.EndOfListIsIdle : Prop :=
  ∀ s : State, s.host = [] → s.listLen ≤ s.pc → step s = .next s

/-- R26, R61: beginning a frame after the last one ended stores its list, sets the command index to 0, and the list reads back
element by element. Clearing the mark is the model's reading of "the frame carries a sticky mark" (log 8). -/
def Obligations.FrameStartStoresTheList : Prop :=
  ∀ (s : State) (list : List Descriptor) (rest : List HostOp), s.host = .startFrame list :: rest → s.listLen ≤ s.pc →
    (∀ d ∈ list, d.wellFormed = true) →
    ∃ t, step s = .next t ∧ t.pc = 0 ∧ t.listLen = list.length ∧ t.frameRefused = false ∧ t.host = rest ∧
      t.srf = s.srf ∧ t.arena = s.arena ∧ t.prev = s.prev ∧ t.frame = s.frame ∧
      ∀ j d, list[j]? = some d → listElement j t = d

/-- R200: `VERIFY` of a legal record returns true, changes no state and does not advance `pc`. The latch of `CMD` before it
is the host's (R253), and that `VERIFY` latches and `CMD` keeps the record is the model's reading (log 10). -/
def Obligations.VerifyReportsValid : Prop :=
  ∀ (s : State) (rest : List HostOp) (i : Instr), s.host = .operate 1#2 :: rest → LatchedNext s (some i) →
    step s = .next { s with host := rest, cmd := some i, result := some (.valid true) }

/-- R201: `DUMP` of a legal record returns the tuple of its fields and appends the host's line of that tuple to the string; it
does not advance `pc`. The fields a kind does not have are absent. Of the engine's state only `CMD` can differ: the latch
before the operation is the host's (R253), and that `DUMP` latches and `CMD` keeps the record is the model's reading (log 10). -/
def Obligations.DumpReturnsTheRecord : Prop :=
  ∀ (s : State) (rest : List HostOp) (i : Instr), s.host = .operate 2#2 :: rest → LatchedNext s (some i) →
    let tuple : DumpTuple :=
      { kind := i.kind, input := i.input, output := i.output, needsInit := i.needsInit, hasVolumeRamp := i.hasVolumeRamp,
        isFirstMixBuffer := i.isFirstMixBuffer, useFloatProcessing := i.useFloatProcessing,
        useFloatCoefficients := i.useFloatCoefficients }
    step s = .next { s with
      host := rest, cmd := some i, result := some (.dump tuple), diag := s.diag ++ Config.dumpFormat tuple }

/-- R232, R233: without a legal record `PROCESS`, `VERIFY` and `DUMP` are refused with `IllegalDescriptor`; they change nothing
but the returned value, the latch, which yields no record, and after `PROCESS` `pc` and the mark: of a command of the list they
are the sequencer's (R26, R239). The rest of what this says of `pc`, the mark and `CMD` is the model's choice: that a refused
`VERIFY` or `DUMP` leaves the mark, and that a refused `PROCESS` after the list's last command sets the mark and leaves `pc`
(log 8); that `CMD` is invalid afterwards, and that an operation before any record is latched, which R41 forbids, is refused
the same way (log 10). -/
def Obligations.NoRecordIsRefused : Prop :=
  ∀ (s : State) (rest : List HostOp) (select : BitVec 2), select ≠ 3#2 → s.host = .operate select :: rest →
    LatchedNext s none →
    ∃ t, step s = .next t ∧
      t = { s with host := rest, cmd := none, result := some (.refused .illegalDescriptor), pc := t.pc,
                   frameRefused := t.frameRefused } ∧
      (select = 0#2 → t.pc = (if s.pc < s.listLen then s.pc + 1 else s.pc) ∧ t.frameRefused = true) ∧
      (select ≠ 0#2 → t.pc = s.pc ∧ t.frameRefused = s.frameRefused)

/-- R91, R232, U9: the reserved select is refused with `ReservedOperation`, whatever the list and `CMD` hold. That it marks
the frame and leaves `pc` is the model's choice (log 8). -/
def Obligations.ReservedSelectIsRefused : Prop :=
  ∀ (s : State) (rest : List HostOp), s.host = .operate 3#2 :: rest →
    step s = .next { s with host := rest, result := some (.refused .reservedOperation), frameRefused := true }

/-- R239: after a refused `Process` the sequencer goes on to `pc + 1` with the mark set, and no step other than the beginning
of a frame clears the mark. -/
def Obligations.RefusalMarkIsSticky : Prop :=
  (∀ (s t : State) (r : RefusalReason), s.host = [] → s.pc < s.listLen → step s = .next t →
    t.result = some (.refused r) → t.pc = s.pc + 1 ∧ t.frameRefused = true) ∧
  (∀ s t : State, s.frameRefused = true → (∀ list rest, s.host ≠ .startFrame list :: rest) → step s = .next t →
    t.frameRefused = true)

/-- R182, R233, R235: `Process` ends with the reason of the first failing check, in this order, or with `Done`: first an
illegal descriptor, of which no form is built, then the checks on a built form (whose revision is checked again); a refused
command changes nothing but the value returned. In the first clause `pc` and the mark are the sequencer's (R239), and that
`CMD` is invalid afterwards is the model's choice (log 10). -/
def Obligations.FirstFailingCheckDecides : Prop :=
  (∀ (s : State) (e : DecodeError), s.host = [] → s.pc < s.listLen → decode s.par.hwRev (listElement s.pc s) = .error e →
    step s = .next { s with
      cmd := none, pc := s.pc + 1, frameRefused := true, result := some (.refused .illegalDescriptor) }) ∧
  ∀ (i : Instr) (s : State), ∃ t, exec i s = .next t ∧
    (let bad (k : S16) := k.toInt < 0 ∨ (s.par.nbuf : Int) ≤ k.toInt
     let reason : Option RefusalReason :=
      if i.useFloatCoefficients = true ∧ s.par.hwRev < 15 then some .illegalDescriptor
      else if s.par.maxSampleCount < s.frame.toNat then some .badSampleCount
      else if bad i.input then some .badBufferIndex
      else if bad i.output then some .badBufferIndex
      else if ∃ h ∈ i.states ++ i.previousStates, s.par.nstate ≤ h.toNat then some .badStateHandle
      else if i.hasVolumeRamp = some true ∧ ∃ v, i.voiceState = some v ∧ s.par.nvoice ≤ v.toNat then some .badVoiceHandle
      else none
     t.result = some (reason.elim .done .refused) ∧ (reason ≠ none → t = { s with result := t.result }))

/-- R180, R71: whatever form runs, `Process` writes neither `CMD`, nor the frame register, nor command memory, nor `pc`, nor
anything that is not the engine's. -/
def Obligations.ProcessKeepsControlState : Prop :=
  ∀ (i : Instr) (s t : State), exec i s = .next t → ControlKept s t

/-- R8, R20, R210: no step changes the parameters or the identity of a splitter record, "fixed at construction". -/
def Obligations.ParametersAndIdentitiesAreFixed : Prop :=
  ∀ s t : State, step s = .next t → t.par = s.par ∧ t.splitters.map Splitter.id = s.splitters.map Splitter.id

/-! ### The host's writes -/

/-- R25, R36, R240, R253, R261: the host writes the frame register (outside the commands of a frame), words of the arena, of
the state register file and of the previous samples, and list elements, between operations; each write takes effect and
changes nothing else. Which host actions are allowed when is log 16 and 17. -/
def Obligations.HostWritesTakeEffect : Prop :=
  ∀ (s : State) (rest : List HostOp),
    (∀ n, s.host = .writeSampleCount n :: rest → s.pc = 0 ∨ s.listLen ≤ s.pc →
      step s = .next { s with host := rest, frame := n }) ∧
    (∀ a v, s.host = .writeArena a v :: rest → a < s.par.nbuf * s.par.maxSampleCount →
      ∃ t, step s = .next t ∧ t = { s with host := rest, arena := t.arena } ∧ readArena a t = v ∧
        ∀ x, x < 4 * a ∨ 4 * a + 4 ≤ x → t.arena.readByte .arena x = s.arena.readByte .arena x) ∧
    (∀ h k v, s.host = .writeSrf h k v :: rest → h < s.par.nstate → k < 4 →
      ∃ t, step s = .next t ∧ t = { s with host := rest, srf := t.srf } ∧ readSrfWord h k t = v ∧
        ∀ x, x < 32 * h + 8 * k ∨ 32 * h + 8 * k + 8 ≤ x → t.srf.readByte .srf x = s.srf.readByte .srf x) ∧
    (∀ w k v, s.host = .writePrev w k v :: rest → w < s.par.nvoice → k < s.par.prevLen →
      ∃ t, step s = .next t ∧ t = { s with host := rest, prev := t.prev } ∧ readPrev w k t = v ∧
        ∀ x, x < 4 * (w * s.par.prevLen + k) ∨ 4 * (w * s.par.prevLen + k) + 4 ≤ x →
          t.prev.readByte .prev x = s.prev.readByte .prev x) ∧
    (∀ j d, s.host = .writeCommand j d :: rest → j < s.listLen → d.wellFormed = true →
      ∃ t, step s = .next t ∧ t = { s with host := rest, cmdMem := t.cmdMem } ∧ listElement j t = d ∧
        ∀ j', j' ≠ j → listElement j' t = listElement j' s)

/-- R25: the frame register "is constant across all commands of one frame": from its first command run to its last, no step
that gives a next state changes it, whatever the host asks for. -/
def Obligations.SampleCountIsConstantWithinAFrame : Prop :=
  ∀ s t : State, 0 < s.pc → s.pc < s.listLen → step s = .next t → t.frame = s.frame

/-! ### What each form computes -/

/-- R127, R124, R114, R185, R186: an accepted `BQF.I` completes; its samples and its two accumulators are those of the integer
kernel on exact integers with sums wrapped to 64 bits, from the entry as prepared; the entry's words 2 and 3 are only
zeroed by `needs_init`. -/
def Obligations.IntegerFilterResult : Prop :=
  ∀ (o : BqfOperands) (c : Q14Params) (s : State), CommandOk (.bqfI o c) s →
    ∃ t, exec (.bqfI o c) s = .next t ∧ t.result = some .done ∧
      (let e := if o.needsInit0 then Entry.zero else readEntry o.state0 s
       let r := kiList wrapInt64 c.b0.toInt c.b1.toInt c.b2.toInt c.a0.toInt c.a1.toInt e.w0.toInt e.w1.toInt
         ((samples o.input s).map BitVec.toInt)
       (samples o.output t).map BitVec.toInt = r.1 ∧
       (readEntry o.state0 t).w0.toInt = r.2.1 ∧ (readEntry o.state0 t).w1.toInt = r.2.2 ∧
       (readEntry o.state0 t).w2 = e.w2 ∧ (readEntry o.state0 t).w3 = e.w3)

/-- R125(c): from a zeroed state no sum of the integer kernel wraps: a `BQF.I` with `needs_init` computes what unwrapped
integers give, with accumulators within 2^48 and 2^47. -/
def Obligations.IntegerFilterDoesNotWrapFromZero : Prop :=
  ∀ (o : BqfOperands) (c : Q14Params) (s : State), CommandOk (.bqfI o c) s → o.needsInit0 = true →
    ∃ t, exec (.bqfI o c) s = .next t ∧
      (let r := kiList id c.b0.toInt c.b1.toInt c.b2.toInt c.a0.toInt c.a1.toInt 0 0 ((samples o.input s).map BitVec.toInt)
       (samples o.output t).map BitVec.toInt = r.1 ∧
       (readEntry o.state0 t).w0.toInt = r.2.1 ∧ (readEntry o.state0 t).w1.toInt = r.2.2 ∧
       |r.2.1| ≤ 2 ^ 48 ∧ |r.2.2| ≤ 2 ^ 47)

/-- R125(d), (e), (f): where nothing wraps, the integer kernel's output is the scaled value rounded to nearest, ties toward
plus infinity, clamped to 32 bits. -/
def Obligations.IntegerOutputRoundsToNearest : Prop :=
  ∀ v : Word64, v.toInt < 2 ^ 63 - 8192 →
    ∃ q : Int, 2 * |16384 * q - v.toInt| ≤ 16384 ∧ (2 * (16384 * q - v.toInt) ≠ -16384) ∧
      roundQ14 v = max (-2147483648) (min 2147483647 q)

/-- R128, R129, R122, R121: an accepted `BQF.D` or `BQF.DF` completes; its samples are the saturated outputs of the
double-precision recurrence over the input span, and all four words of the entry hold the delay line. -/
def Obligations.DoubleFilterResult : Prop :=
  ∀ (o : BqfOperands) (s : State),
    (∀ c, CommandOk (.bqfD o c) s → ∃ t, exec (.bqfD o c) s = .next t ∧ FilteredBy o (decodeQ14 c) s.draw s t) ∧
    (∀ c, CommandOk (.bqfDF o c) s →
      ∃ t, exec (.bqfDF o c) s = .next t ∧ FilteredBy o (decodeF32 s.draw c) (s.draw + 5) s t)

/-- R146, R147, R141, R183: an accepted `BQFM` or `BQFM.F` completes; it adds the filtered samples times the volume onto the
output span, from the entry as prepared, persists the delay line, and keeps the snapshot it took. `BQFM.F` is a form R147
marks INFERRED (log 18). -/
def Obligations.MixResult : Prop :=
  ∀ (o : BqfmOperands) (s : State),
    (∀ c, CommandOk (.bqfm o c) s → ∃ t, exec (.bqfm o c) s = .next t ∧ MixedBy o (decodeQ14 c) s.draw s t) ∧
    (∀ c, CommandOk (.bqfmF o c) s →
      ∃ t, exec (.bqfmF o c) s = .next t ∧ MixedBy o (decodeF32 s.draw c) (s.draw + 5) s t)

/-- R148, R149, R142, R190: an accepted `BQFM.R` or `BQFM.RF` completes; the volume starts at `volume0` and grows by the
increment after each sample, and the last mixed value, narrowed and truncated, is captured at an index in range. `BQFM.RF` is
a form R149 marks INFERRED (log 18). -/
def Obligations.RampedMixResult : Prop :=
  ∀ (o : BqfmOperands) (s : State),
    (∀ c, CommandOk (.bqfmR o c) s → ∃ t r, exec (.bqfmR o c) s = .next t ∧ RampMixedBy o (decodeQ14 c) s.draw s t r) ∧
    (∀ c, CommandOk (.bqfmRF o c) s →
      ∃ t r, exec (.bqfmRF o c) s = .next t ∧ RampMixedBy o (decodeF32 s.draw c) (s.draw + 5) s t r)

/-- R168, R169, R165, R161: an accepted `MTBQFM` or `MTBQFM.F` completes; the two filters run in series from the snapshots
taken right after each tap's preparation, the second's output is mixed, and both are written back, tap 1 last. -/
def Obligations.CascadeMixResult : Prop :=
  ∀ (o : MtOperands) (s : State),
    (∀ c0 c1, CommandOk (.mtbqfm o c0 c1) s →
      ∃ t, exec (.mtbqfm o c0 c1) s = .next t ∧ CascadeMixedBy o (decodeQ14 c0) (decodeQ14 c1) s.draw s t) ∧
    (∀ c0 c1, CommandOk (.mtbqfmF o c0 c1) s →
      ∃ t, exec (.mtbqfmF o c0 c1) s = .next t ∧
        CascadeMixedBy o (decodeF32 s.draw c0) (decodeF32 (s.draw + 5) c1) (s.draw + 10) s t)

/-- R170, R171, R165, R190: an accepted `MTBQFM.R` or `MTBQFM.RF` completes, with the volume ramp and the tail capture. -/
def Obligations.RampedCascadeResult : Prop :=
  ∀ (o : MtOperands) (s : State),
    (∀ c0 c1, CommandOk (.mtbqfmR o c0 c1) s →
      ∃ t r, exec (.mtbqfmR o c0 c1) s = .next t ∧ RampCascadeMixedBy o (decodeQ14 c0) (decodeQ14 c1) s.draw s t r) ∧
    (∀ c0 c1, CommandOk (.mtbqfmRF o c0 c1) s →
      ∃ t r, exec (.mtbqfmRF o c0 c1) s = .next t ∧
        RampCascadeMixedBy o (decodeF32 s.draw c0) (decodeF32 (s.draw + 5) c1) (s.draw + 10) s t r)

/-! ### Frames -/

/-- Frame of `BQF.I`, `BQF.D`, `BQF.DF` (R180, R127 to R129): unchanged but for the output span's bytes, the entry's bytes,
filter 0's coefficient and delay registers, `i`, the returned value, and the model's draw number. That working registers
keep their last contents is the model's choice (log 5). -/
def Obligations.PlainFilterFrame : Prop :=
  ∀ (i : Instr) (o : BqfOperands) (s t : State),
    (∃ c, i = .bqfI o c) ∨ (∃ c, i = .bqfD o c) ∨ (∃ c, i = .bqfDF o c) → exec i s = .next t →
    ControlKept s t ∧ t.prev = s.prev ∧ t.loc0 = s.loc0 ∧ t.loc1 = s.loc1 ∧
    t.work.c1 = s.work.c1 ∧ t.work.d1 = s.work.d1 ∧ t.work.vol = s.work.vol ∧ t.work.ramp = s.work.ramp ∧
    t.work.last = s.work.last ∧
    ((∃ c, i = .bqfI o c) → t.work.d0.s2 = s.work.d0.s2 ∧ t.work.d0.s3 = s.work.d0.s3 ∧ t.draw = s.draw) ∧
    (∀ a, outsideSpan o.output s a → t.arena.readByte .arena a = s.arena.readByte .arena a) ∧
    (∀ a, outsideEntry o.state0 a → t.srf.readByte .srf a = s.srf.readByte .srf a)

/-- Frame of the four `BQFM` forms (R180, R146 to R149): unchanged but for the output span's bytes, the entry's bytes, the
previous entry's bytes if the snapshot fires, in a ramped form the bytes of the tail sample, the registers of the kernel,
the returned value, and the model's draw number (log 2). Without ramp a command that runs leaves `last` at the `+0.0` of its
kernel's start (10_state.md R22), and a refused one leaves it alone (R233). That working registers outlive an operation, and
that a form without ramp keeps `ramp`, is the model's choice (log 5). -/
def Obligations.MixFrame : Prop :=
  ∀ (i : Instr) (o : BqfmOperands) (s t : State),
    (∃ c, i = .bqfm o c) ∨ (∃ c, i = .bqfmF o c) ∨ (∃ c, i = .bqfmR o c) ∨ (∃ c, i = .bqfmRF o c) →
    exec i s = .next t →
    ControlKept s t ∧ t.loc0 = s.loc0 ∧ t.loc1 = s.loc1 ∧ t.work.c1 = s.work.c1 ∧ t.work.d1 = s.work.d1 ∧
    (i.ramped = false → t.work.ramp = s.work.ramp ∧ t.prev = s.prev ∧
      (CommandOk i s → t.work.last = 0#64) ∧ (¬ CommandOk i s → t.work.last = s.work.last)) ∧
    (∀ a, outsideSpan o.output s a → t.arena.readByte .arena a = s.arena.readByte .arena a) ∧
    (∀ a, outsideEntry o.state0 a →
      (snapshots o.needsInit0 o.isFirstMixBuffer → outsideEntry o.previousState0 a) →
      t.srf.readByte .srf a = s.srf.readByte .srf a) ∧
    (∀ a, outsideTail s.par o.voiceState o.lastSampleIndex a → t.prev.readByte .prev a = s.prev.readByte .prev a)

/-- Frame of the four `MTBQFM` forms (R180, R168 to R171): as `MixFrame`, `last` at `+0.0` without ramp (R22) and the
model's choice about working registers (log 5) included, with both taps' entries, both taps' snapshots and the local array. -/
def Obligations.CascadeFrame : Prop :=
  ∀ (i : Instr) (o : MtOperands) (s t : State),
    (∃ c0 c1, i = .mtbqfm o c0 c1) ∨ (∃ c0 c1, i = .mtbqfmF o c0 c1) ∨ (∃ c0 c1, i = .mtbqfmR o c0 c1) ∨
      (∃ c0 c1, i = .mtbqfmRF o c0 c1) →
    exec i s = .next t →
    ControlKept s t ∧
    (i.ramped = false → t.work.ramp = s.work.ramp ∧ t.prev = s.prev ∧
      (CommandOk i s → t.work.last = 0#64) ∧ (¬ CommandOk i s → t.work.last = s.work.last)) ∧
    (∀ a, outsideSpan o.output s a → t.arena.readByte .arena a = s.arena.readByte .arena a) ∧
    (∀ a, outsideEntry o.state0 a → outsideEntry o.state1 a →
      (snapshots o.needsInit0 o.isFirstMixBuffer → outsideEntry o.previousState0 a) →
      (snapshots o.needsInit1 o.isFirstMixBuffer → outsideEntry o.previousState1 a) →
      t.srf.readByte .srf a = s.srf.readByte .srf a) ∧
    (∀ a, outsideTail s.par o.voiceState o.lastSampleIndex a → t.prev.readByte .prev a = s.prev.readByte .prev a)

/-! ### Arithmetic -/

/-- R111: a Q14 coefficient decodes to exactly `c / 2^14`, in primitives the correctly rounded quotient by 16384.0; the result
is finite, never subnormal, and `+0.0` for 0. -/
def Obligations.Q14DecodesExactly : Prop :=
  ∀ (c : S16) (k : Nat), q14ToF64 c = fdiv k (i32ToF64 (c.signExtend 32)) 0x40D0000000000000#64 ∧
    f64IsFinite (q14ToF64 c) = true ∧ f64Units (q14ToF64 c) * 16384 = c.toInt * (one64 : Int) ∧
    (c ≠ 0#16 → 2 ^ 52 ≤ f64Mag (q14ToF64 c)) ∧ (c = 0#16 → q14ToF64 c = 0#64)

/-- R113: widening a float is exact for every finite value, subnormals included, and for the infinities; it keeps the sign, of
a zero too; a NaN widens to a NaN. -/
def Obligations.FloatWidensExactly : Prop :=
  ∀ (v : F32) (k : Nat),
    (f32IsFinite v = true → f64IsFinite (f32ToF64 k v) = true ∧ f64Units (f32ToF64 k v) = f32Units v * (unit32 : Int) ∧
      f64Sign (f32ToF64 k v) = f32Sign v) ∧
    (f32IsInf v = true → f64IsInf (f32ToF64 k v) = true ∧ f64Sign (f32ToF64 k v) = f32Sign v) ∧
    (f32IsNaN v = true → f64IsNaN (f32ToF64 k v) = true)

/-- R10: sums, differences, products and quotients of finite values, the divisor not a zero, are rounded once to nearest, ties
to even; a result is an infinity, of the exact value's sign, exactly when the exact value is at or beyond halfway between the
largest finite value and `2^1024`, and never a NaN. -/
def Obligations.ArithmeticRoundsToNearestEven : Prop :=
  ∀ (k : Nat) (a b : F64), f64IsFinite a = true → f64IsFinite b = true →
    Rounded64 (fadd k a b) (f64Units a + f64Units b) 1 ∧
    Rounded64 (fsub k a b) (f64Units a - f64Units b) 1 ∧
    Rounded64 (fmul k a b) (f64Units a * f64Units b) one64 ∧
    (f64IsZero b = false → Rounded64 (fdiv k a b) (f64Units a * one64 * (f64Units b).sign) (f64Abs b))

/-- R10, R123 (d), G3: the operations on infinities, NaNs and zeros, and the sign of a zero result. A NaN operand gives a NaN;
so do `inf - inf`, `inf * 0`, `inf / inf` and `0 / 0`. Which NaN is open (U4). -/
def Obligations.ArithmeticOnSpecialValues : Prop :=
  ∀ (k : Nat) (a b : F64),
    let sign := f64Sign a ^^ f64Sign b
    let isInf (r : F64) (negative : Bool) : Prop := f64IsInf r = true ∧ f64Sign r = negative
    let isZero (r : F64) (negative : Bool) : Prop := f64IsZero r = true ∧ f64Sign r = negative
    (f64IsNaN a = true ∨ f64IsNaN b = true → ∀ r ∈ [fadd k a b, fsub k a b, fmul k a b, fdiv k a b], f64IsNaN r = true) ∧
    (f64IsInf a = true → f64IsInf b = true →
      (if sign then f64IsNaN (fadd k a b) = true else fadd k a b = a) ∧
      (if sign then fsub k a b = a else f64IsNaN (fsub k a b) = true) ∧
      isInf (fmul k a b) sign ∧ f64IsNaN (fdiv k a b) = true) ∧
    (f64IsInf a = true → f64IsFinite b = true → fadd k a b = a ∧ fsub k a b = a ∧ isInf (fdiv k a b) sign ∧
      (if f64IsZero b then f64IsNaN (fmul k a b) = true else isInf (fmul k a b) sign)) ∧
    (f64IsFinite a = true → f64IsInf b = true → fadd k a b = b ∧ fsub k a b = f64Neg b ∧ isZero (fdiv k a b) sign ∧
      (if f64IsZero a then f64IsNaN (fmul k a b) = true else isInf (fmul k a b) sign)) ∧
    (f64IsFinite a = true → f64IsZero b = true →
      if f64IsZero a then f64IsNaN (fdiv k a b) = true else isInf (fdiv k a b) sign) ∧
    (f64IsFinite a = true → f64IsFinite b = true →
      (f64IsZero (fmul k a b) = true → f64Sign (fmul k a b) = sign) ∧
      (f64IsZero (fdiv k a b) = true → f64Sign (fdiv k a b) = sign) ∧
      (f64Units a + f64Units b = 0 → isZero (fadd k a b) (f64Sign a && f64Sign b)) ∧
      (f64Units a - f64Units b = 0 → isZero (fsub k a b) (f64Sign a && !f64Sign b)))

/-- R10, R145: integers convert exactly (D34); narrowing rounds to nearest even and keeps the sign, a magnitude at or beyond
halfway between the largest finite float and `2^128` becomes an infinity, an infinity stays one, a NaN stays a NaN. -/
def Obligations.ConversionsRoundToNearestEven : Prop :=
  (∀ n : S32, f64IsFinite (i32ToF64 n) = true ∧ f64Units (i32ToF64 n) = n.toInt * (one64 : Int)) ∧
  (∀ n : U32, f64IsFinite (u32ToF64 n) = true ∧ f64Units (u32ToF64 n) = (n.toNat : Int) * (one64 : Int)) ∧
  (∀ (k : Nat) (a : F64),
    let r := f64ToF32 k a
    (f64IsNaN a = true → f32IsNaN r = true) ∧
    (f64IsInf a = true → f32IsInf r = true ∧ f32Sign r = f64Sign a) ∧
    (f64IsFinite a = true → f32IsNaN r = false ∧ f32Sign r = f64Sign a ∧
      (f32IsInf r = true ↔ (overflow32 : Int) ≤ |f64Units a|) ∧
      (f32IsFinite r = true → NearestEven32 r (f64Units a) unit32)))

/-- R11: a NaN stores an unconstrained draw; otherwise the value is clamped to the 32-bit range and the fraction discarded
toward zero, infinities going to the matching bound. -/
def Obligations.SaturationClampsThenTruncates : Prop :=
  ∀ (k : Nat) (y : F64),
    (f64IsNaN y = true → satS32 k y = Config.freeS32 k) ∧
    (f64IsInf y = true → (satS32 k y).toInt = if f64Sign y then -2147483648 else 2147483647) ∧
    (f64IsFinite y = true →
      (f64Units y < -2147483648 * (one64 : Int) → (satS32 k y).toInt = -2147483648) ∧
      (2147483647 * (one64 : Int) < f64Units y → (satS32 k y).toInt = 2147483647) ∧
      (-2147483648 * (one64 : Int) ≤ f64Units y → f64Units y ≤ 2147483647 * (one64 : Int) →
        let q := (satS32 k y).toInt
        |q| * (one64 : Int) ≤ |f64Units y| ∧ |f64Units y| < (|q| + 1) * (one64 : Int) ∧
        (0 < q → 0 < f64Units y) ∧ (q < 0 → f64Units y < 0)))

/-- R191: a finite value whose truncation is in range gives that truncation; everything else is an unconstrained draw. -/
def Obligations.TailTruncation : Prop :=
  ∀ (k : Nat) (r : F32),
    (f32IsFinite r = true → ∀ q : Int, -2147483648 ≤ q → q ≤ 2147483647 →
      |q| * 2 ^ 149 ≤ |f32Units r| → |f32Units r| < (|q| + 1) * 2 ^ 149 →
      (0 < q → 0 < f32Units r) → (q < 0 → f32Units r < 0) → (f32ToS32Trunc k r).toInt = q) ∧
    (f32IsFinite r = true → 2147483648 * 2 ^ 149 ≤ f32Units r ∨ f32Units r ≤ -2147483649 * 2 ^ 149 →
      f32ToS32Trunc k r = Config.freeS32 k) ∧
    (f32IsFinite r = false → f32ToS32Trunc k r = Config.freeS32 k)

/-- R121: one step of the recurrence: five rounded products summed left to right, the input and the unclamped output shifted
into the delay line; the coefficients and the other filter are untouched. The separate rounding and the order of the sum are
the spec's own inference ("this spec's reading of it", D11; log 11, DEDUCED). -/
def Obligations.RecurrenceStep : Prop :=
  ∀ (t u : Tap) (xin : F64) (s : State),
    let c := coeffs t s
    let d := delay t s
    let k := s.draw
    let y := fadd (k + 8) (fadd (k + 7) (fadd (k + 6) (fadd (k + 5) (fmul k xin c.b0) (fmul (k + 1) d.s0 c.b1))
      (fmul (k + 2) d.s1 c.b2)) (fmul (k + 3) d.s2 c.a0)) (fmul (k + 4) d.s3 c.a1)
    (biquadStep t xin s).1 = y ∧ delay t (biquadStep t xin s).2 = ⟨xin, d.s0, y, d.s2⟩ ∧
    coeffs u (biquadStep t xin s).2 = coeffs u s ∧ (u ≠ t → delay u (biquadStep t xin s).2 = delay u s)

/-! ### State preparation, tail capture, memory -/

/-- R183: exactly one of the three branches fires: zero the entry, copy it into the previous entry, or restore it from there;
every other entry, and the source of a copy, keep their words. -/
def Obligations.ThreeWayPreparation : Prop :=
  ∀ (h p g : Handle) (first : Bool) (s : State),
    readEntry g (prepForked h p true first s) = (if g = h then ⟨0#64, 0#64, 0#64, 0#64⟩ else readEntry g s) ∧
    readEntry g (prepForked h p false true s) = (if g = p then readEntry h s else readEntry g s) ∧
    readEntry g (prepForked h p false false s) = (if g = h then readEntry p s else readEntry g s)

/-- R184: the plain preparation zeroes the entry if asked, and otherwise leaves every entry as it is. -/
def Obligations.PlainPreparation : Prop :=
  ∀ (h g : Handle) (s : State),
    readEntry g (prepPlain h true s) = (if g = h then ⟨0#64, 0#64, 0#64, 0#64⟩ else readEntry g s) ∧
    prepPlain h false s = s

/-- R188: with equal handles the forked preparation reads like the plain one, byte for byte. -/
def Obligations.EqualHandlesDegenerate : Prop :=
  ∀ (h : Handle) (ni first : Bool) (s : State) (a : Nat),
    (prepForked h h ni first s).srf.readByte .srf a = (prepPlain h ni s).srf.readByte .srf a

/-- R190: the tail capture stores the truncated value at an index in range, touches no other word, and does nothing at a
negative or too large index; the forms without ramp touch no previous sample. -/
def Obligations.TailCaptureStoresOneWord : Prop :=
  (∀ (voice : Handle) (index : S32) (r : F32) (s : State),
    (0 ≤ index.toInt → index.toInt < (s.par.prevLen : Int) →
      readPrev voice.toNat index.toInt.toNat (tailCapture voice index r s) = f32ToS32Trunc s.draw r ∧
      (∀ v k, k < s.par.prevLen → (v ≠ voice.toNat ∨ k ≠ index.toInt.toNat) →
        readPrev v k (tailCapture voice index r s) = readPrev v k s)) ∧
    (index.toInt < 0 ∨ (s.par.prevLen : Int) ≤ index.toInt → tailCapture voice index r s = s)) ∧
  (∀ (i : Instr) (s t : State), i.ramped = false → exec i s = .next t → t.prev = s.prev)

/-- R54: two valid spans are the same or disjoint: words of spans with different indices never coincide, and words of one
span only at the same sample. -/
def Obligations.SpansAreEqualOrDisjoint : Prop :=
  ∀ (p : Params) (k k' : S16) (n i j : Nat), bufferValid p k = true → bufferValid p k' = true → i < n → j < n →
    sampleIndex k n i = sampleIndex k' n j → k = k' ∧ i = j

/-- R52: with a valid index every sample address is inside the arena of `NBUF * n` words. -/
def Obligations.SampleAddressesAreInside : Prop :=
  ∀ (p : Params) (k : S16) (n i : Nat), bufferValid p k = true → i < n → sampleIndex k n i < p.nbuf * n

/-- R59, R60, R61: the byte images are little-endian: byte `b` of a stored state word, sample, tail sample or descriptor word is
its bits `8b+7..8b`, every other byte is kept, and the word reads back. Where the images are placed is the model's choice
(log 6). -/
def Obligations.ByteImagesAreLittleEndian : Prop :=
  ∀ (s : State) (x : Nat),
    (∀ (h k : Nat) (v : Word64), readSrfWord h k (writeSrfWord h k v s) = v ∧
      (writeSrfWord h k v s).srf.readByte .srf x =
        if 32 * h + 8 * k ≤ x ∧ x < 32 * h + 8 * k + 8 then v.extractLsb' (8 * (x - (32 * h + 8 * k))) 8
        else s.srf.readByte .srf x) ∧
    (∀ (a : Nat) (v : S32), readArena a (writeArena a v s) = v ∧
      (writeArena a v s).arena.readByte .arena x =
        if 4 * a ≤ x ∧ x < 4 * a + 4 then v.extractLsb' (8 * (x - 4 * a)) 8 else s.arena.readByte .arena x) ∧
    (∀ (w k : Nat) (v : S32), readPrev w k (writePrev w k v s) = v ∧
      (writePrev w k v s).prev.readByte .prev x =
        if 4 * (w * s.par.prevLen + k) ≤ x ∧ x < 4 * (w * s.par.prevLen + k) + 4 then
          v.extractLsb' (8 * (x - 4 * (w * s.par.prevLen + k))) 8
        else s.prev.readByte .prev x) ∧
    (∀ (j : Nat) (d : Descriptor), d.wellFormed = true → listElement j (storeDescriptor j d s) = d ∧
      (storeDescriptor j d s).cmdMem.readByte .command x =
        if 80 * j ≤ x ∧ x < 80 * j + 80 then (d.word ((x - 80 * j) / 4)).extractLsb' (8 * ((x - 80 * j) % 4)) 8
        else s.cmdMem.readByte .command x)

/-! ### Properties of whole operations -/

/-- R131: after a `BQF` with `needs_init` the first sample is exactly `x_0 * b0` clamped: truncated in double precision, for
finite coefficients, whatever the free values are; rounded to nearest in the integer kernel. -/
def Obligations.FirstSampleAfterInit : Prop :=
  ∀ (o : BqfOperands) (s t : State) (x0 : S32) (k k' : Nat), o.needsInit0 = true → (samples o.input s).head? = some x0 →
    (∀ c, CommandOk (.bqfD o c) s → exec (.bqfD o c) s = .next t →
      (samples o.output t).head? = some (satS32 k (fmul k' (i32ToF64 x0) (q14ToF64 c.b0)))) ∧
    (∀ c : F32Params, (∀ v ∈ [c.b0, c.b1, c.b2, c.a0, c.a1], f32IsFinite v = true) →
      CommandOk (.bqfDF o c) s → exec (.bqfDF o c) s = .next t →
      (samples o.output t).head? = some (satS32 k (fmul k' (i32ToF64 x0) (f32ToF64 0 c.b0)))) ∧
    (∀ c, CommandOk (.bqfI o c) s → exec (.bqfI o c) s = .next t →
      ((samples o.output t).head?).map BitVec.toInt =
        some (max (-2147483648) (min 2147483647 ((x0.toInt * c.b0.toInt + 8192) / 16384))))

/-- R130: one call over a block equals two calls over its halves, the second without `needs_init` on the entry the first
left: the same samples and the same final words. For every form of `BQF` and all coefficients, with the free values
continued: `codec` is how many the coefficient codec takes. -/
def Obligations.SplittingABlockChangesNothing : Prop :=
  ∀ (o : BqfOperands) (i : Bool → Instr) (codec : Nat) (s s1 s2 t1 : State),
    ((∃ c, ∀ ni, i ni = .bqfI { o with needsInit0 := ni } c) ∧ codec = 0) ∨
    ((∃ c, ∀ ni, i ni = .bqfD { o with needsInit0 := ni } c) ∧ codec = 0) ∨
    ((∃ c, ∀ ni, i ni = .bqfDF { o with needsInit0 := ni } c) ∧ codec = 5) →
    CommandOk (i o.needsInit0) s → CommandOk (i o.needsInit0) s1 → CommandOk (i false) s2 →
    samples o.input s = samples o.input s1 ++ samples o.input s2 →
    readEntry o.state0 s1 = readEntry o.state0 s → s1.draw = s.draw →
    exec (i o.needsInit0) s1 = .next t1 → readEntry o.state0 s2 = readEntry o.state0 t1 → s2.draw + codec = t1.draw →
    ∃ t t2, exec (i o.needsInit0) s = .next t ∧ exec (i false) s2 = .next t2 ∧
      samples o.output t = samples o.output t1 ++ samples o.output t2 ∧
      readEntry o.state0 t = readEntry o.state0 t2

/-- R143(f): mixing at volume 1.0 onto an output buffer of zeros stores exactly what the overwrite kernel stores, and leaves
the same entry, where no output of the recurrence is a NaN. With Q14 and with float coefficients. -/
def Obligations.UnityMixOntoSilenceOverwrites : Prop :=
  ∀ (ob : BqfOperands) (om : BqfmOperands) (plain mixed : Instr) (c : Coeffs) (s : State),
    (∃ q, plain = .bqfD ob q ∧ mixed = .bqfm om q ∧ c = decodeQ14 q) ∨
      (∃ q, plain = .bqfDF ob q ∧ mixed = .bqfmF om q ∧ c = decodeF32 s.draw q) →
    om.input = ob.input → om.output = ob.output → om.state0 = ob.state0 → om.volume0 = 0x3F800000#32 →
    preparedEntry om.state0 om.previousState0 om.needsInit0 om.isFirstMixBuffer s =
      (if ob.needsInit0 then Entry.zero else readEntry ob.state0 s) →
    (∀ x ∈ samples ob.output s, x = 0#32) →
    (∀ k, ∀ y ∈ outputsList k c
      (preparedEntry om.state0 om.previousState0 om.needsInit0 om.isFirstMixBuffer s).toDelay (samples ob.input s),
      f64IsNaN y = false) →
    CommandOk plain s → CommandOk mixed s →
    ∃ t t', exec plain s = .next t ∧ exec mixed s = .next t' ∧
      samples ob.output t' = samples ob.output t ∧ readEntry ob.state0 t' = readEntry ob.state0 t

/-- R163: with the identity as filter 1, a finite filter 1 entry, and finite outputs of filter 0, the cascade writes the same
samples, leaves the same filter 0 entry and, in a ramped form, captures the same tail sample as the single filter. With and
without ramp, with Q14 and with float coefficients, for all volumes with which no mixed sum is a NaN (where one is, both
commands store unconstrained values); a tail sample is compared where it is no unconstrained value (R191). -/
def Obligations.IdentityCascadeEqualsSingle : Prop :=
  ∀ (om : BqfmOperands) (oc : MtOperands) (single cascade : Instr) (c : Coeffs) (s : State),
    IdentityPair om oc s.draw c single cascade → SameBut1 om oc → oc.state1 ≠ oc.state0 →
    (readEntry oc.state1 (afterPrep1 oc s)).finite →
    (∀ k, ∀ y ∈ outputsList k c
      (preparedEntry om.state0 om.previousState0 om.needsInit0 om.isFirstMixBuffer s).toDelay (samples om.input s),
      f64IsFinite y = true) →
    (∀ k k', ∀ v ∈ mixSums k (mixFilters om c s) (f32ToF64 k' om.volume0)
      (if single.ramped then some (rampStep k' om.volume0 om.volume1 s.frame) else none)
      ((samples om.input s).zip (samples om.output s)), f64IsNaN v = false) →
    CommandOk single s → CommandOk cascade s →
    ∃ t t', exec single s = .next t ∧ exec cascade s = .next t' ∧
      samples om.output t' = samples om.output t ∧ readEntry om.state0 t' = readEntry om.state0 t ∧
      (single.ramped = true →
        TailDefined (kmrBlock 0 (mixFilters om c s) om.volume0 om.volume1 s.frame
          ((samples om.input s).zip (samples om.output s))).last →
        t'.prev = t.prev)

/-- R187, R257: after a first pass that snapshots, any number of later passes that restore, over whatever spans, volumes and
coefficients, leave the frame-start states in the previous entries, so that every later pass starts from them. For all eight
forked forms, a multi-tap command with pairwise distinct handles (R166), no command of the frame refused (R234; whether one
is depends on the parameters and the frame register alone, which no `Process` changes). -/
def Obligations.FanOutKeepsTheFrameStartState : Prop :=
  ∀ (first : Instr) (later : List Instr) (s : State),
    FirstPass first → HandlesDistinct first → CommandOk first s →
    (∀ i ∈ later, LaterPass i ∧ SameEntries first i ∧ CommandOk i s) →
    ∃ t, execAll (first :: later) s = .next t ∧ FrameStartSaved first s t

/-- R187, R257: a later pass over the same input samples with the same coefficients leaves the same entries as the first,
whatever its output buffer, its volumes and its ramp, and keeps the frame-start states, where no output of a filter is a NaN.
For all eight forked forms; the input samples are the same if the first pass did not overwrite them (R255). -/
def Obligations.FanOutPassesAgree : Prop :=
  ∀ (first second : Instr) (s t : State),
    FirstPass first → LaterPass second → HandlesDistinct first → SameEntries first second →
    (∀ k, formCoeffs k second = formCoeffs k first) →
    (∀ k, ∀ y ∈ chainOutputs k
      (List.zipWith (fun c h => ⟨c, (readEntry h s).toDelay⟩) (formCoeffs s.draw first) first.states) (samples first.input s),
      f64IsNaN y = false) →
    CommandOk first s → CommandOk second s → exec first s = .next t → samples second.input t = samples first.input s →
    ∃ t', exec second t = .next t' ∧ (∀ h ∈ first.states, readEntry h t' = readEntry h t) ∧ FrameStartSaved first s t'

/-- R194: with `sample_count` 0 an accepted command still prepares its state, writes no sample, persists the loaded bits, and
a ramped form captures 0 at an index in range. In a multi-tap form what is persisted are the two snapshots, tap 1 last, which
with pairwise distinct handles is what the preparations left (R166). -/
def Obligations.ZeroSamplesOnlyPrepare : Prop :=
  ∀ (i : Instr) (s : State) (prepared : State), CommandOk i s → s.frame = 0#32 →
    ((∃ o : BqfOperands, prepared = prepPlain o.state0 o.needsInit0 s ∧
       ((∃ c, i = .bqfI o c) ∨ (∃ c, i = .bqfD o c) ∨ (∃ c, i = .bqfDF o c))) ∨
     (∃ o : BqfmOperands, prepared = prepForked o.state0 o.previousState0 o.needsInit0 o.isFirstMixBuffer s ∧
       ((∃ c, i = .bqfm o c) ∨ (∃ c, i = .bqfmF o c) ∨ (∃ c, i = .bqfmR o c) ∨ (∃ c, i = .bqfmRF o c))) ∨
     (∃ o : MtOperands, (prepared = snapshotsWrittenBack o s ∨ (HandlesDistinct i ∧ prepared = afterPrep1 o s)) ∧
       ((∃ c0 c1, i = .mtbqfm o c0 c1) ∨ (∃ c0 c1, i = .mtbqfmF o c0 c1) ∨ (∃ c0 c1, i = .mtbqfmR o c0 c1) ∨
         (∃ c0 c1, i = .mtbqfmRF o c0 c1)))) →
    ∃ t, exec i s = .next t ∧ t.result = some .done ∧ t.arena = s.arena ∧
      (∀ a, t.srf.readByte .srf a = prepared.srf.readByte .srf a) ∧
      (∀ voice index, i.ramped = true → i.voiceState = some voice → i.lastSampleIndex = some index →
        0 ≤ index.toInt → index.toInt < (s.par.prevLen : Int) → readPrev voice.toNat index.toInt.toNat t = 0#32)

/-- R21, R23, R262: what a `Process` stores and returns depends on the storage, the frame register and the free values alone:
two states that agree there give the same storage, whatever their working registers, local array and control state hold. -/
def Obligations.OutcomeDependsOnStorageAlone : Prop :=
  ∀ (i : Instr) (s s' : State), s'.par = s.par → s'.frame = s.frame → s'.srf = s.srf → s'.arena = s.arena →
    s'.prev = s.prev → s'.draw = s.draw →
    ∃ t t', exec i s = .next t ∧ exec i s' = .next t' ∧ t'.srf = t.srf ∧ t'.arena = t.arena ∧ t'.prev = t.prev ∧
      t'.result = t.result ∧ t'.draw = t.draw

/-! ### Invariant and reset -/

/-- Every step from a legal state that gives a next state gives a legal state: the byte images stay canonical and list only
what exists, the index stays in the list, the latched record stays legal, the splitter pool keeps its shape (R30, R37, R38,
R26, R89, R210). -/
def Obligations.EveryStepKeepsStatesLegal : Prop :=
  ∀ s t : State, StateOk s → step s = .next t → StateOk t

/-- The state after reset is legal. -/
def Obligations.ResetIsLegal : Prop := StateOk State.reset

/-- R41, R251, R220: after reset `pc` is 0, `CMD` is invalid, no storage byte has been written, the machine is idle, and the
splitter records are as constructed. The other reset values are the model's (log 1, 4, 5, 7, 8, 14). -/
def Obligations.ResetState : Prop :=
  State.reset.pc = 0 ∧ State.reset.cmd = none ∧ State.reset.srf = [] ∧ State.reset.arena = [] ∧ State.reset.prev = [] ∧
  State.reset.cmdMem = [] ∧ step State.reset = .next State.reset ∧
  ∀ r ∈ State.reset.splitters, r.destinationId = State.reset.par.unusedDestId ∧ (∀ v ∈ r.mixVolumes, v = 0#32) ∧
    (∀ v ∈ r.prevMixVolumes, v = 0#32) ∧ r.inUse = false ∧ r.needUpdate = false ∧
    (∀ q ∈ r.biquadNew, q = ⟨0#32, 0#32, 0#32, 0#32, 0#32⟩) ∧ (∀ q ∈ r.biquadRev12, q = ⟨0#32, 0#32, 0#32, 0#32, 0#32⟩) ∧
    r.next = none ∧ splitterConfigured State.reset.par r = false

/-! ### Splitter destination records -/

/-- R213: `Update` is a silent no-op on a wrong `id` or `magic`; else it writes the destination, every channel's volume, the
rev12 set if the blob has one, and `in_use`; on a reset the previous volumes become the new ones and the dirty flag is
cleared. R213 gives the blob one volume per channel and one parameter per element of the set; that a matching blob of other
lengths is accepted too, that the record keeps its lengths under it and that elements beyond them are not read, is the
model's choice (log 14), and the value of an element such a blob lacks is left open. The draw number is the model's own. -/
def Obligations.SplitterUpdateEffect : Prop :=
  ∀ (s : State) (slot : Nat) (r : Splitter) (b : SplitterParams) (explicitFlag : Bool) (rest : List HostOp),
    s.host = .splitterUpdate slot b explicitFlag :: rest → s.splitters[slot]? = some r →
    ((b.id ≠ r.id ∨ b.magic ≠ s.par.splitterMagic) → step s = .next { s with host := rest }) ∧
    (b.id = r.id → b.magic = s.par.splitterMagic →
      ∃ (t : State) (r' : Splitter), step s = .next t ∧
        t = { s with host := rest, splitters := s.splitters.set slot r', draw := t.draw } ∧
        (let resets := (explicitFlag = true ∧ b.resetPrevVolume = true) ∨
           (explicitFlag = false ∧ r.inUse = false ∧ b.inUse = true)
         r'.id = r.id ∧ r'.destinationId = b.destinationId ∧ r'.inUse = b.inUse ∧
         r'.biquadNew = r.biquadNew ∧ r'.next = r.next ∧
         r'.mixVolumes.length = s.par.nchan ∧
         (∀ c v, c < s.par.nchan → b.mixVolumes[c]? = some v → r'.mixVolumes[c]? = some v) ∧
         (∀ l, b.rev12 = some l → r'.biquadRev12.length = s.par.nbqRev12 ∧
           ∀ j q, j < s.par.nbqRev12 → l[j]? = some q → r'.biquadRev12[j]? = some q) ∧
         (b.rev12 = none → r'.biquadRev12 = r.biquadRev12) ∧
         (resets → r'.prevMixVolumes = r'.mixVolumes ∧ r'.needUpdate = false) ∧
         (¬ resets → r'.prevMixVolumes = r.prevMixVolumes ∧ r'.needUpdate = r.needUpdate)))

/-- R221: an `Update` with a wrong `id` or a wrong `magic` leaves the whole record; with both right, `in_use` going from false
to true and no explicit reset support, the previous volumes equal the volumes afterwards. -/
def Obligations.SplitterUpdateGating : Prop :=
  ∀ (s t : State) (slot : Nat) (r r' : Splitter) (b : SplitterParams) (explicitFlag : Bool) (rest : List HostOp),
    s.host = .splitterUpdate slot b explicitFlag :: rest → s.splitters[slot]? = some r → step s = .next t →
    t.splitters[slot]? = some r' →
    ((b.id ≠ r.id ∨ b.magic ≠ s.par.splitterMagic) → r' = r) ∧
    (b.id = r.id → b.magic = s.par.splitterMagic → r.inUse = false → b.inUse = true → explicitFlag = false →
      r'.prevMixVolumes = r'.mixVolumes)

/-- R214, R215: marking sets the dirty flag and nothing else; the internal update copies the volumes only if the record is in
use and dirty, and always clears the flag. -/
def Obligations.SplitterMarkAndInternalUpdate : Prop :=
  ∀ (s : State) (slot : Nat) (r : Splitter) (rest : List HostOp), s.splitters[slot]? = some r →
    (s.host = .splitterMark slot :: rest →
      step s = .next { s with host := rest, splitters := s.splitters.set slot { r with needUpdate := true } }) ∧
    (s.host = .splitterUpdateInternal slot :: rest →
      step s = .next { s with
        host := rest
        splitters := s.splitters.set slot
          (if r.inUse = true ∧ r.needUpdate = true then { r with prevMixVolumes := r.mixVolumes, needUpdate := false }
           else { r with needUpdate := false }) })

/-- R211, R216: `IsConfigured` is `in_use` and a destination that is not the sentinel; the getters return the channel's
volume, or zero for a channel out of range; none of them changes a record. -/
def Obligations.SplitterQueries : Prop :=
  ∀ (s : State) (slot : Nat) (r : Splitter) (c : Int) (rest : List HostOp), s.splitters[slot]? = some r →
    r.mixVolumes.length = s.par.nchan → r.prevMixVolumes.length = s.par.nchan →
    (s.host = .splitterIsConfigured slot :: rest →
      step s = .next { s with
        host := rest
        result := some (.configured (decide (r.inUse = true ∧ r.destinationId ≠ s.par.unusedDestId))) }) ∧
    (s.host = .getMixVolume slot c :: rest →
      ∃ v, step s = .next { s with host := rest, result := some (.volume v) } ∧
        (0 ≤ c → c < s.par.nchan → r.mixVolumes[c.toNat]? = some v) ∧ (c < 0 ∨ s.par.nchan ≤ c → v = 0#32)) ∧
    (s.host = .getMixVolumePrev slot c :: rest →
      ∃ v, step s = .next { s with host := rest, result := some (.volume v) } ∧
        (0 ≤ c → c < s.par.nchan → r.prevMixVolumes[c.toNat]? = some v) ∧ (c < 0 ∨ s.par.nchan ≤ c → v = 0#32))

end
end

