-- ==== Sys2Proof/Laws/Encoding.lean ====
section
/-! SUPPORT. The fields of an encoded header and of encoded operand words read back; the legality of a header bit by bit. -/

namespace Sys2Proof

section Header
variable (op : BitVec 4) (n0 n1 r f p c : Bool)

@[simp] theorem headerOpcode_headerWord : headerOpcode (headerWord op n0 n1 r f p c) = op := by
  ext i hi
  simp only [headerOpcode, headerWord, BitVec.getElem_extractLsb', BitVec.getLsbD_append, Nat.zero_add, hi, if_true,
    BitVec.getLsbD_eq_getElem]

@[simp] theorem headerNeedsInit0_headerWord : headerNeedsInit0 (headerWord op n0 n1 r f p c) = n0 := by
  simp only [headerNeedsInit0, headerWord, BitVec.getLsbD_append]
  simp

@[simp] theorem headerNeedsInit1_headerWord : headerNeedsInit1 (headerWord op n0 n1 r f p c) = n1 := by
  simp only [headerNeedsInit1, headerWord, BitVec.getLsbD_append]
  simp

@[simp] theorem headerRamp_headerWord : headerRamp (headerWord op n0 n1 r f p c) = r := by
  simp only [headerRamp, headerWord, BitVec.getLsbD_append]
  simp

@[simp] theorem headerFirst_headerWord : headerFirst (headerWord op n0 n1 r f p c) = f := by
  simp only [headerFirst, headerWord, BitVec.getLsbD_append]
  simp

@[simp] theorem headerFloatProcessing_headerWord : headerFloatProcessing (headerWord op n0 n1 r f p c) = p := by
  simp only [headerFloatProcessing, headerWord, BitVec.getLsbD_append]
  simp

@[simp] theorem headerFloatCoefficients_headerWord : headerFloatCoefficients (headerWord op n0 n1 r f p c) = c := by
  simp only [headerFloatCoefficients, headerWord, BitVec.getLsbD_append]
  simp

@[simp] theorem headerReserved_headerWord : headerReserved (headerWord op n0 n1 r f p c) = 0#22 := by
  ext i hi
  simp only [headerReserved, headerWord, BitVec.getElem_extractLsb', BitVec.getLsbD_append]
  simp [show ¬ 10 + i < 4 by omega, show ¬ 10 + i - 4 < 1 by omega, show ¬ 10 + i - 4 - 1 < 1 by omega,
    show ¬ 10 + i - 4 - 1 - 1 < 1 by omega, show ¬ 10 + i - 4 - 1 - 1 - 1 < 1 by omega,
    show ¬ 10 + i - 4 - 1 - 1 - 1 - 1 < 1 by omega, show ¬ 10 + i - 4 - 1 - 1 - 1 - 1 - 1 < 1 by omega]

end Header

/-! ### Operand words -/

@[simp] theorem extract_low_append (a b : BitVec 16) : (a ++ b : BitVec 32).extractLsb' 0 16 = b := by
  ext i hi
  simp only [BitVec.getElem_extractLsb', BitVec.getLsbD_append, Nat.zero_add, hi, if_true, BitVec.getLsbD_eq_getElem]

@[simp] theorem extract_high_append (a b : BitVec 16) : (a ++ b : BitVec 32).extractLsb' 16 16 = a := by
  rw [BitVec.extractLsb'_append_eq_left]

@[simp] theorem extract_low_setWidth (c : BitVec 16) : (BitVec.setWidth 32 c).extractLsb' 0 16 = c := by
  ext i hi
  have : i < 32 := by omega
  simp [hi, this]

end Sys2Proof
end

