-- ==== Sys2Proof/Laws/Float.lean ====
section
/-! SUPPORT. The laws of the floating-point operations: the magnitudes count units strictly monotonically, rounding gives
back what is representable and otherwise the nearest, packing and unpacking are inverse, a NaN stays a NaN, and what the
arithmetic does with one and with zeros. -/

namespace Sys2Proof.Machine

/-! ### Magnitudes -/

theorem magUnits_small {p m : Nat} (h : m < 2 ^ p) : magUnits p m = m := by
  rw [magUnits, if_pos (Nat.div_eq_of_lt h)]

theorem magUnits_block (p e f : Nat) (hf : f < 2 ^ p) :
    magUnits p ((e + 1) * 2 ^ p + f) = (2 ^ p + f) * 2 ^ e := by
  have hpos : 0 < 2 ^ p := Nat.two_pow_pos p
  have h1 : ((e + 1) * 2 ^ p + f) / 2 ^ p = e + 1 := by
    rw [Nat.mul_comm, Nat.mul_add_div hpos, Nat.div_eq_of_lt hf, Nat.add_zero]
  have h2 : ((e + 1) * 2 ^ p + f) % 2 ^ p = f := by
    rw [Nat.mul_comm, Nat.mul_add_mod, Nat.mod_eq_of_lt hf]
  rw [magUnits, h1, h2, if_neg (by omega), Nat.add_sub_cancel]

/-- The value at place `k` with significand `q` below `2^(p+1)`, a full significand or place 0: the encoding is
`k * 2^p + q`, carries included. -/
theorem magUnits_place (p k q : Nat) (h : k = 0 ∨ 2 ^ p ≤ q) (hq : q ≤ 2 ^ (p + 1)) :
    magUnits p (k * 2 ^ p + q) = q * 2 ^ k := by
  have hpos : 0 < 2 ^ p := Nat.two_pow_pos p
  rw [Nat.pow_succ] at hq
  rcases Nat.lt_or_ge q (2 ^ p) with hlt | hge
  · have hk : k = 0 := by omega
    subst hk
    rw [Nat.zero_mul, Nat.zero_add, magUnits_small hlt, Nat.pow_zero, Nat.mul_one]
  · rcases Nat.lt_or_ge q (2 ^ p * 2) with h2 | h2
    · have e : k * 2 ^ p + q = (k + 1) * 2 ^ p + (q - 2 ^ p) := by rw [Nat.add_mul]; omega
      rw [e, magUnits_block p k (q - 2 ^ p) (by omega)]
      congr 1; omega
    · have hq' : q = 2 ^ p * 2 := by omega
      have e : k * 2 ^ p + q = (k + 1 + 1) * 2 ^ p + 0 := by rw [hq', Nat.add_mul, Nat.add_mul]; omega
      rw [e, magUnits_block p (k + 1) 0 hpos, hq', Nat.pow_succ]
      ring

/-- Every magnitude is a significand at a place. -/
theorem mag_place (p m : Nat) : ∃ k q, m = k * 2 ^ p + q ∧ (k = 0 ∨ 2 ^ p ≤ q) ∧ q < 2 ^ (p + 1) := by
  have hpos : 0 < 2 ^ p := Nat.two_pow_pos p
  have hm := Nat.div_add_mod m (2 ^ p)
  have hl := Nat.mod_lt m hpos
  rcases Nat.eq_zero_or_pos (m / 2 ^ p) with h | h
  · refine ⟨0, m % 2 ^ p, ?_, .inl rfl, ?_⟩
    · rw [h] at hm; omega
    · rw [Nat.pow_succ]; omega
  · refine ⟨m / 2 ^ p - 1, 2 ^ p + m % 2 ^ p, ?_, .inr (by omega), ?_⟩
    · have : (m / 2 ^ p - 1) * 2 ^ p = m / 2 ^ p * 2 ^ p - 2 ^ p := by rw [Nat.sub_mul, Nat.one_mul]
      have h3 : 2 ^ p ≤ m / 2 ^ p * 2 ^ p := Nat.le_mul_of_pos_left _ h
      rw [this]; rw [Nat.mul_comm] at hm; omega
    · rw [Nat.pow_succ]; omega

/-- The next magnitude is one unit of the place higher. -/
theorem magUnits_succ_place (p k q : Nat) (h : k = 0 ∨ 2 ^ p ≤ q) (hq : q < 2 ^ (p + 1)) :
    magUnits p (k * 2 ^ p + q + 1) = (q + 1) * 2 ^ k :=
  magUnits_place p k (q + 1) (by omega) (by omega)

theorem magUnits_lt_succ (p m : Nat) : magUnits p m < magUnits p (m + 1) := by
  obtain ⟨k, q, rfl, h, hq⟩ := mag_place p m
  rw [magUnits_place p k q h hq.le, magUnits_succ_place p k q h hq, Nat.add_mul]
  have := Nat.two_pow_pos k
  omega

theorem magUnits_strictMono (p : Nat) : StrictMono (magUnits p) := strictMono_nat_of_lt_succ (magUnits_lt_succ p)

@[simp] theorem magUnits_zero (p : Nat) : magUnits p 0 = 0 := magUnits_small (Nat.two_pow_pos p)

theorem magUnits_eq_zero {p m : Nat} : magUnits p m = 0 ↔ m = 0 := by
  constructor
  · intro h; exact (magUnits_strictMono p).injective (h.trans (magUnits_zero p).symm)
  · rintro rfl; exact magUnits_zero p

/-! ### Rounding -/

/-- The place of a truncated quotient `x`: a full significand, or place 0. -/
theorem log2_place (p x : Nat) :
    (Nat.log2 x - p = 0 ∨ 2 ^ p ≤ x / 2 ^ (Nat.log2 x - p)) ∧ x / 2 ^ (Nat.log2 x - p) < 2 ^ (p + 1) := by
  rcases Nat.eq_zero_or_pos x with rfl | hx
  · rw [Nat.zero_div]
    exact ⟨.inl (by simp), Nat.two_pow_pos _⟩
  · have hlo := Nat.log2_self_le (n := x) (by omega)
    have hhi := Nat.lt_log2_self (n := x)
    rcases Nat.le_total (Nat.log2 x) p with h | h
    · refine ⟨.inl (by omega), ?_⟩
      rw [Nat.sub_eq_zero_of_le h, Nat.pow_zero, Nat.div_one]
      exact hhi.trans_le (Nat.pow_le_pow_right (by omega) (by omega))
    · obtain ⟨k, hk⟩ := Nat.exists_eq_add_of_le h
      rw [hk] at hlo hhi ⊢
      rw [Nat.add_sub_cancel_left]
      refine ⟨.inr ?_, ?_⟩
      · rw [Nat.le_div_iff_mul_le (Nat.two_pow_pos k), ← Nat.pow_add]
        exact hlo
      · rw [Nat.div_lt_iff_lt_mul (Nat.two_pow_pos k), ← Nat.pow_add, show p + 1 + k = p + k + 1 by omega]
        exact hhi

/-- The place rounding works at: a full significand, or place 0. -/
theorem round_place (p num den : Nat) :
    (Nat.log2 (num / den) - p = 0 ∨ 2 ^ p ≤ num / (den * 2 ^ (Nat.log2 (num / den) - p))) ∧
      num / (den * 2 ^ (Nat.log2 (num / den) - p)) < 2 ^ (p + 1) := by
  rw [← Nat.div_div_eq_div_mul]
  exact log2_place p (num / den)

/-- Everything rounding does: with `k` the place and `q` the truncated significand there, it answers `q` or `q + 1`,
whichever is nearer to `num / den`, the even one at a tie. -/
theorem roundMag_cases (p num den : Nat) (hden : 0 < den) :
    ∃ k q r, num = den * 2 ^ k * q + r ∧ r < den * 2 ^ k ∧ (k = 0 ∨ 2 ^ p ≤ q) ∧ q < 2 ^ (p + 1) ∧
      ((roundMag p num den = k * 2 ^ p + q ∧ (2 * r < den * 2 ^ k ∨ (2 * r = den * 2 ^ k ∧ q % 2 = 0))) ∨
       (roundMag p num den = k * 2 ^ p + q + 1 ∧ (den * 2 ^ k < 2 * r ∨ (2 * r = den * 2 ^ k ∧ q % 2 = 1)))) := by
  obtain ⟨hk, hq⟩ := round_place p num den
  refine ⟨Nat.log2 (num / den) - p, num / (den * 2 ^ (Nat.log2 (num / den) - p)),
    num % (den * 2 ^ (Nat.log2 (num / den) - p)), (Nat.div_add_mod _ _).symm,
    Nat.mod_lt _ (Nat.mul_pos hden (Nat.two_pow_pos _)), hk, hq, ?_⟩
  rw [roundMag]
  split
  · exact .inl ⟨rfl, .inl ‹_›⟩
  · split
    · exact .inr ⟨by omega, .inl ‹_›⟩
    · rcases Nat.mod_two_eq_zero_or_one (num / (den * 2 ^ (Nat.log2 (num / den) - p))) with h | h
      · exact .inl ⟨by omega, .inr ⟨by omega, h⟩⟩
      · exact .inr ⟨by omega, .inr ⟨by omega, h⟩⟩

/-- A quotient that is representable is not changed. -/
theorem roundMag_exact (p num den m : Nat) (hden : 0 < den) (h : num = den * magUnits p m) :
    roundMag p num den = m := by
  obtain ⟨k, q, r, hnum, hr, hk, hq, hcase⟩ := roundMag_cases p num den hden
  have hlo : magUnits p (k * 2 ^ p + q) = q * 2 ^ k := magUnits_place p k q hk hq.le
  have hhi : magUnits p (k * 2 ^ p + q + 1) = (q + 1) * 2 ^ k := magUnits_succ_place p k q hk hq
  have e : den * magUnits p m = den * (q * 2 ^ k) + r := by rw [← h, hnum]; ring
  have h1 : q * 2 ^ k ≤ magUnits p m := by
    by_contra hc
    have := Nat.mul_le_mul_left den (Nat.succ_le_of_lt (Nat.lt_of_not_le hc))
    rw [Nat.mul_succ] at this; omega
  have h2 : magUnits p m < (q + 1) * 2 ^ k := by
    by_contra hc
    have := Nat.mul_le_mul_left den (Nat.le_of_not_lt hc)
    rw [Nat.add_mul, Nat.one_mul, Nat.mul_add] at this; omega
  have hm : m = k * 2 ^ p + q := by
    rw [← hlo] at h1; rw [← hhi] at h2
    have h3 := (magUnits_strictMono p).le_iff_le.mp h1
    have h4 := (magUnits_strictMono p).lt_iff_lt.mp h2
    omega
  have hr0 : r = 0 := by rw [hm, hlo] at e; omega
  subst hr0
  rcases hcase with ⟨hres, _⟩ | ⟨_, hbad⟩
  · rw [hres, hm]
  · have := Nat.mul_pos hden (Nat.two_pow_pos k)
    omega

/-- A common factor of numerator and denominator does not matter. -/
theorem roundMag_mul_right (p num den c : Nat) (hc : 0 < c) :
    roundMag p (num * c) (den * c) = roundMag p num den := by
  have hd : ∀ x, den * c * x = den * x * c := fun x => by ring
  simp only [roundMag, hd, Nat.mul_div_mul_right _ _ hc, Nat.mul_mod_mul_right]
  generalize num % (den * 2 ^ (Nat.log2 (num / den) - p)) = r
  generalize den * 2 ^ (Nat.log2 (num / den) - p) = d
  have h1 : 2 * (r * c) < d * c ↔ 2 * r < d := by rw [← Nat.mul_assoc]; exact Nat.mul_lt_mul_right hc
  have h2 : d * c < 2 * (r * c) ↔ d < 2 * r := by rw [← Nat.mul_assoc]; exact Nat.mul_lt_mul_right hc
  simp only [h1, h2]

@[simp] theorem roundMag_zero (p den : Nat) (hden : 0 < den) : roundMag p 0 den = 0 :=
  roundMag_exact p 0 den 0 hden (by simp)

/-- Distances from `a + r`, where `a` and `a + b` are neighbours and `u` is not between them. -/
theorem dist_neighbours {a b r u : Int} (hr : 0 ≤ r) (hrb : r < b) :
    ((u ≤ a ∨ a + b ≤ u) → 2 * r ≤ b → |a - (a + r)| ≤ |u - (a + r)|) ∧
    ((u ≤ a ∨ a + b ≤ u) → b ≤ 2 * r → |a + b - (a + r)| ≤ |u - (a + r)|) ∧
    ((u < a ∨ a + b ≤ u) → 2 * r < b → |u - (a + r)| ≠ |a - (a + r)|) ∧
    ((u ≤ a ∨ a + b < u) → b < 2 * r → |u - (a + r)| ≠ |a + b - (a + r)|) := by
  rcases abs_cases (a - (a + r)) with h1 | h1 <;> rcases abs_cases (u - (a + r)) with h2 | h2 <;>
    rcases abs_cases (a + b - (a + r)) with h3 | h3 <;> omega

/-- Correct rounding: no magnitude is nearer to the quotient than the answer. -/
theorem roundMag_nearest (p num den m : Nat) (hden : 0 < den) :
    |(den : Int) * magUnits p (roundMag p num den) - num| ≤ |(den : Int) * magUnits p m - num| := by
  obtain ⟨k, q, r, hnum, hr, hk, hq, hcase⟩ := roundMag_cases p num den hden
  have hlo : magUnits p (k * 2 ^ p + q) = q * 2 ^ k := magUnits_place p k q hk hq.le
  have hhi : magUnits p (k * 2 ^ p + q + 1) = (q + 1) * 2 ^ k := magUnits_succ_place p k q hk hq
  have e1 : den * ((q + 1) * 2 ^ k) = den * (q * 2 ^ k) + den * 2 ^ k := by ring
  have e2 : num = den * (q * 2 ^ k) + r := by rw [hnum]; ring
  have hm : den * magUnits p m ≤ den * (q * 2 ^ k) ∨ den * (q * 2 ^ k) + den * 2 ^ k ≤ den * magUnits p m := by
    rcases Nat.lt_or_ge (k * 2 ^ p + q) m with h | h
    · exact .inr (e1 ▸ Nat.mul_le_mul_left _ (hhi ▸ (magUnits_strictMono p).le_iff_le.mpr (Nat.succ_le_of_lt h)))
    · exact .inl (Nat.mul_le_mul_left _ (hlo ▸ (magUnits_strictMono p).le_iff_le.mpr h))
  have d := dist_neighbours (a := (den * (q * 2 ^ k) : Nat)) (b := (den * 2 ^ k : Nat)) (r := r)
    (u := (den * magUnits p m : Nat)) (by omega) (by omega)
  rw [← Nat.cast_mul, ← Nat.cast_mul, e2, Nat.cast_add, ← e2]
  rcases hcase with ⟨hres, hb⟩ | ⟨hres, hb⟩
  · rw [hres, hlo]; exact d.1 (by omega) (by omega)
  · rw [hres, hhi, e1, Nat.cast_add]; exact d.2.1 (by omega) (by omega)

/-- Another magnitude as near as the answer makes the answer even: ties go to even. -/
theorem roundMag_tie_even (p num den m : Nat) (hden : 0 < den) (hne : m ≠ roundMag p num den)
    (htie : |(den : Int) * magUnits p m - num| = |(den : Int) * magUnits p (roundMag p num den) - num|) (hp : 0 < p) :
    roundMag p num den % 2 = 0 := by
  obtain ⟨k, q, r, hnum, hr, hk, hq, hcase⟩ := roundMag_cases p num den hden
  have hlo : magUnits p (k * 2 ^ p + q) = q * 2 ^ k := magUnits_place p k q hk hq.le
  have hhi : magUnits p (k * 2 ^ p + q + 1) = (q + 1) * 2 ^ k := magUnits_succ_place p k q hk hq
  have heven : k * 2 ^ p % 2 = 0 := by
    obtain ⟨p', rfl⟩ := Nat.exists_eq_succ_of_ne_zero hp.ne'
    rw [Nat.pow_succ, ← Nat.mul_assoc, Nat.mul_mod_left]
  have e1 : den * ((q + 1) * 2 ^ k) = den * (q * 2 ^ k) + den * 2 ^ k := by ring
  have e2 : num = den * (q * 2 ^ k) + r := by rw [hnum]; ring
  have d := dist_neighbours (a := (den * (q * 2 ^ k) : Nat)) (b := (den * 2 ^ k : Nat)) (r := r)
    (u := (den * magUnits p m : Nat)) (by omega) (by omega)
  rw [← Nat.cast_mul, ← Nat.cast_mul, e2, Nat.cast_add, ← e2] at htie
  rcases hcase with ⟨hres, hb⟩ | ⟨hres, hb⟩
  · rcases hb with hb | hb
    · rw [hres, hlo] at htie
      rw [hres] at hne
      refine absurd htie (d.2.2.1 ?_ (by omega))
      rcases Nat.lt_or_gt_of_ne hne with h | h
      · have := Nat.mul_lt_mul_of_pos_left (hlo ▸ (magUnits_strictMono p).lt_iff_lt.mpr h) hden
        exact .inl (by omega)
      · have := Nat.mul_le_mul_left den (hhi ▸ (magUnits_strictMono p).le_iff_le.mpr (Nat.succ_le_of_lt h))
        exact .inr (by omega)
    · rw [hres, Nat.add_mod, heven, hb.2]
  · rcases hb with hb | hb
    · rw [hres, hhi, e1, Nat.cast_add] at htie
      rw [hres] at hne
      refine absurd htie (d.2.2.2 ?_ (by omega))
      rcases Nat.lt_or_gt_of_ne hne with h | h
      · have := Nat.mul_le_mul_left den (hlo ▸ (magUnits_strictMono p).le_iff_le.mpr (Nat.le_of_lt_succ h))
        exact .inl (by omega)
      · have := Nat.mul_lt_mul_of_pos_left (hhi ▸ (magUnits_strictMono p).lt_iff_lt.mpr h) hden
        exact .inr (by omega)
    · rw [hres]; omega

/-! ### Encodings -/

theorem f64Pack_toNat (sign : Bool) {mag : Nat} (h : mag < 2 ^ 63) :
    (f64Pack sign mag).toNat = (if sign then 2 ^ 63 else 0) + mag := by
  rw [f64Pack, BitVec.toNat_ofNat, Nat.mod_eq_of_lt]
  cases sign <;> simp <;> omega

theorem f64Sign_pack (sign : Bool) {mag : Nat} (h : mag < 2 ^ 63) : f64Sign (f64Pack sign mag) = sign := by
  rw [f64Sign, BitVec.msb_eq_decide, f64Pack_toNat sign h]
  cases sign
  · rw [decide_eq_false]; simp; omega
  · rw [decide_eq_true]; simp

theorem f64Mag_pack (sign : Bool) {mag : Nat} (h : mag < 2 ^ 63) : f64Mag (f64Pack sign mag) = mag := by
  rw [f64Mag, f64Pack_toNat sign h]
  cases sign
  · simpa using h
  · simpa using h

theorem f64Mag_lt (a : F64) : f64Mag a < 2 ^ 63 := Nat.mod_lt _ (Nat.two_pow_pos _)

theorem f64Pack_sign_mag (a : F64) : f64Pack (f64Sign a) (f64Mag a) = a := by
  apply BitVec.eq_of_toNat_eq
  rw [f64Pack_toNat _ (f64Mag_lt a), f64Sign, BitVec.msb_eq_decide, f64Mag]
  have := a.isLt
  by_cases h : 2 ^ (64 - 1) ≤ a.toNat
  · rw [decide_eq_true h]; simp at *; omega
  · rw [decide_eq_false h]; simp at *; omega

theorem f64_ext {a b : F64} (hs : f64Sign a = f64Sign b) (hm : f64Mag a = f64Mag b) : a = b := by
  rw [← f64Pack_sign_mag a, hs, hm, f64Pack_sign_mag]

theorem exp_all_ones_isNaN (s : BitVec 1) (f : BitVec 52) (hf : 0 < f.toNat) :
    f64IsNaN (s ++ 0x7FF#11 ++ f) = true := by
  have h : (s ++ 0x7FF#11 ++ f).toNat = s.toNat * 2 ^ 63 + 0x7FF * 2 ^ 52 + f.toNat := by
    rw [BitVec.toNat_append, ← Nat.shiftLeft_add_eq_or_of_lt f.isLt, BitVec.toNat_append,
      ← Nat.shiftLeft_add_eq_or_of_lt (BitVec.isLt _), Nat.shiftLeft_eq, Nat.shiftLeft_eq]
    simp only [BitVec.toNat_ofNat]
    omega
  have hs := s.isLt
  have hf' := f.isLt
  rw [f64IsNaN, f64Mag, h, infMag64, decide_eq_true_eq]
  omega

/-- A free NaN is a NaN, whatever it is. -/
@[simp] theorem f64IsNaN_free (k : Nat) : f64IsNaN (f64FreeNaN k) = true := by
  rw [f64FreeNaN]
  apply exp_all_ones_isNaN
  split
  · decide
  · rename_i h
    rcases Nat.eq_zero_or_pos (BitVec.extractLsb' 0 52 (Config.freeNaN64 k)).toNat with h' | h'
    · exact absurd (BitVec.eq_of_toNat_eq (by simpa using h')) h
    · exact h'

theorem f64IsNaN_pack (sign : Bool) {mag : Nat} (h : mag ≤ infMag64) : f64IsNaN (f64Pack sign mag) = false := by
  have h' : mag < 2 ^ 63 := h.trans_lt (by decide)
  rw [f64IsNaN, f64Mag_pack sign h', decide_eq_false_iff_not]
  omega

/-! ### What an encoding is rounded to -/

theorem f64Sign_round (sign : Bool) (num den : Nat) : f64Sign (f64Round sign num den) = sign := by
  rw [f64Round]
  exact f64Sign_pack sign ((Nat.min_le_right _ _).trans_lt (by decide))

theorem f64Mag_round (sign : Bool) (num den : Nat) :
    f64Mag (f64Round sign num den) = min (roundMag fracBits64 num den) infMag64 := by
  rw [f64Round]
  exact f64Mag_pack sign ((Nat.min_le_right _ _).trans_lt (by decide))

@[simp] theorem f64IsNaN_round (sign : Bool) (num den : Nat) : f64IsNaN (f64Round sign num den) = false := by
  rw [f64Round]
  exact f64IsNaN_pack sign (Nat.min_le_right _ _)

/-- What is representable is not changed by rounding. -/
theorem f64Round_exact (sign : Bool) {num den m : Nat} (hden : 0 < den) (hm : m ≤ infMag64)
    (h : num = den * magUnits fracBits64 m) : f64Round sign num den = f64Pack sign m := by
  rw [f64Round, roundMag_exact fracBits64 num den m hden h, Nat.min_eq_left hm]

/-- A finite encoding's value rounds to the encoding. -/
theorem f64Round_abs {a : F64} (h : f64IsFinite a = true) {den : Nat} (hden : 0 < den) :
    f64Round (f64Sign a) (den * f64Abs a) den = a := by
  rw [f64IsFinite, decide_eq_true_eq] at h
  exact (f64Round_exact (m := f64Mag a) (f64Sign a) hden h.le rfl).trans (f64Pack_sign_mag a)

theorem f64Abs_pos {a : F64} : 0 < f64Abs a ↔ f64IsZero a = false := by
  rw [f64Abs, Nat.pos_iff_ne_zero, ne_eq, magUnits_eq_zero, f64IsZero, beq_eq_false_iff_ne, ne_eq]

theorem f64RoundInt_units {a : F64} (h : f64IsFinite a = true) (h0 : f64IsZero a = false) :
    f64RoundInt (f64Units a) = a := by
  have hp := f64Abs_pos.mpr h0
  have hs : decide (f64Units a < 0) = f64Sign a := by
    rw [f64Units]; cases f64Sign a <;> (simp; try omega)
  have hn : (f64Units a).natAbs = 1 * f64Abs a := by
    rw [f64Units]; cases f64Sign a <;> simp
  rw [f64RoundInt, hs, hn, f64Round_abs h Nat.one_pos]

/-! ### NaNs, one and zero in the arithmetic -/

theorem f64IsFinite_of {a : F64} (hn : f64IsNaN a = false) (hi : f64IsInf a = false) : f64IsFinite a = true := by
  simp only [f64IsNaN, f64IsInf, f64IsFinite, decide_eq_false_iff_not, beq_eq_false_iff_ne, decide_eq_true_eq] at *
  omega

theorem fmul_nan_left (k : Nat) {a : F64} (b : F64) (h : f64IsNaN a = true) : fmul k a b = f64FreeNaN k := by
  simp [fmul, h]

theorem fmul_nan_right (k : Nat) (a : F64) {b : F64} (h : f64IsNaN b = true) : fmul k a b = f64FreeNaN k := by
  simp [fmul, h]

theorem fadd_nan_left (k : Nat) {a : F64} (b : F64) (h : f64IsNaN a = true) : fadd k a b = f64FreeNaN k := by
  simp [fadd, h]

theorem fadd_nan_right (k : Nat) (a : F64) {b : F64} (h : f64IsNaN b = true) : fadd k a b = f64FreeNaN k := by
  simp [fadd, h]

/-- A product that is not a NaN does not depend on the draw number. -/
theorem fmul_draw {k : Nat} (j : Nat) {a b : F64} (h : f64IsNaN (fmul k a b) = false) : fmul j a b = fmul k a b := by
  simp only [fmul] at h ⊢
  split at h
  · simp at h
  · rename_i h1
    rw [if_neg h1, if_neg h1]
    split at h
    · rename_i h2
      rw [if_pos h2, if_pos h2]
      split at h
      · simp at h
      · rename_i h3; rw [if_neg h3, if_neg h3]
    · rename_i h2; rw [if_neg h2, if_neg h2]

/-- A sum that is not a NaN does not depend on the draw number. -/
theorem fadd_draw {k : Nat} (j : Nat) {a b : F64} (h : f64IsNaN (fadd k a b) = false) : fadd j a b = fadd k a b := by
  simp only [fadd] at h ⊢
  split at h
  · simp at h
  · rename_i h1
    rw [if_neg h1, if_neg h1]
    split at h
    · rename_i h2
      rw [if_pos h2, if_pos h2]
      split at h
      · simp at h
      · rename_i h3; rw [if_neg h3, if_neg h3]
    · rename_i h2; rw [if_neg h2, if_neg h2]

/-- A sum that is not a NaN has no NaN operand. -/
theorem fadd_not_nan {k : Nat} {a b : F64} (h : f64IsNaN (fadd k a b) = false) :
    f64IsNaN a = false ∧ f64IsNaN b = false := by
  constructor <;> rw [← Bool.not_eq_true] <;> intro hn
  · rw [fadd_nan_left k b hn, f64IsNaN_free] at h; cases h
  · rw [fadd_nan_right k a hn, f64IsNaN_free] at h; cases h

theorem f64Mag_neg (a : F64) : f64Mag (f64Neg a) = f64Mag a := by
  have h : (f64Neg a).toNat = Nat.xor a.toNat (2 ^ 63) := by rw [f64Neg, BitVec.toNat_xor]; rfl
  rw [f64Mag, f64Mag, h]
  apply Nat.eq_of_testBit_eq
  intro i
  rw [Nat.testBit_mod_two_pow, Nat.testBit_mod_two_pow]
  by_cases hi : i < 63
  · have hx : (Nat.xor a.toNat (2 ^ 63)).testBit i = (a.toNat.testBit i ^^ (2 ^ 63).testBit i) := Nat.testBit_xor ..
    rw [hx, Nat.testBit_two_pow_of_ne (by omega), Bool.xor_false]
  · simp [hi]

theorem f64Sign_neg (a : F64) : f64Sign (f64Neg a) = !f64Sign a := by
  rw [f64Sign, f64Sign, f64Neg, BitVec.msb_xor, show (0x8000000000000000#64).msb = true by decide, Bool.xor_true]

@[simp] theorem f64IsNaN_neg (a : F64) : f64IsNaN (f64Neg a) = f64IsNaN a := by rw [f64IsNaN, f64IsNaN, f64Mag_neg]
@[simp] theorem f64IsInf_neg (a : F64) : f64IsInf (f64Neg a) = f64IsInf a := by rw [f64IsInf, f64IsInf, f64Mag_neg]
@[simp] theorem f64IsFinite_neg (a : F64) : f64IsFinite (f64Neg a) = f64IsFinite a := by rw [f64IsFinite, f64IsFinite, f64Mag_neg]
@[simp] theorem f64IsZero_neg (a : F64) : f64IsZero (f64Neg a) = f64IsZero a := by rw [f64IsZero, f64IsZero, f64Mag_neg]

theorem f64Units_neg (a : F64) : f64Units (f64Neg a) = -f64Units a := by
  rw [f64Units, f64Units, f64Sign_neg, f64Abs, f64Abs, f64Mag_neg]
  cases f64Sign a <;> simp

theorem fmul_not_nan {k : Nat} {a b : F64} (h : f64IsNaN (fmul k a b) = false) :
    f64IsNaN a = false ∧ f64IsNaN b = false := by
  constructor <;> rw [← Bool.not_eq_true] <;> intro hn
  · rw [fmul_nan_left k b hn, f64IsNaN_free] at h; cases h
  · rw [fmul_nan_right k a hn, f64IsNaN_free] at h; cases h

/-- A quotient that is not a NaN does not depend on the draw number. -/
theorem fdiv_draw {k : Nat} (j : Nat) {a b : F64} (h : f64IsNaN (fdiv k a b) = false) : fdiv j a b = fdiv k a b := by
  revert h
  simp only [fdiv]
  cases f64IsNaN a <;> cases f64IsNaN b <;> cases f64IsInf a <;> cases f64IsInf b <;> cases f64IsZero b <;>
    cases f64IsZero a <;> simp

theorem fdiv_not_nan {k : Nat} {a b : F64} (h : f64IsNaN (fdiv k a b) = false) :
    f64IsNaN a = false ∧ f64IsNaN b = false := by
  constructor <;> rw [← Bool.not_eq_true] <;> intro hn <;> simp [fdiv, hn] at h

theorem fsub_draw {k : Nat} (j : Nat) {a b : F64} (h : f64IsNaN (fsub k a b) = false) : fsub j a b = fsub k a b :=
  fadd_draw j h

/-- Widening what is not a NaN does not depend on the draw number. -/
theorem f32ToF64_draw {k j : Nat} {v : F32} (h : f32IsNaN v = false) : f32ToF64 k v = f32ToF64 j v := by
  simp only [f32ToF64, h, Bool.false_eq_true, if_false]

/-- Which NaN a factor is does not reach the product. -/
theorem fmul_nan_congr (k : Nat) (a : F64) {b b' : F64} (h : b' = b ∨ (f64IsNaN b = true ∧ f64IsNaN b' = true)) :
    fmul k a b' = fmul k a b := by
  rcases h with rfl | ⟨h1, h2⟩
  · rfl
  · rw [fmul_nan_right k a h1, fmul_nan_right k a h2]

theorem one64_eq_pow {n : Nat} (h : n = 1074) : one64 = 2 ^ n := by
  unfold one64
  exact congrArg (2 ^ ·) h.symm

theorem one64_pos : 0 < one64 := by
  obtain ⟨e, he⟩ : ∃ e, e = 1074 := ⟨_, rfl⟩
  rw [one64_eq_pow he]
  exact Nat.two_pow_pos _

/-- `1.0` is `one64` units. -/
theorem f64Abs_one : f64Abs 0x3FF0000000000000#64 = one64 := by
  have hm : f64Mag 0x3FF0000000000000#64 = 1022 * 2 ^ 52 + 2 ^ 52 := by decide
  obtain ⟨e, he⟩ : ∃ e, e = 1022 := ⟨_, rfl⟩
  rw [f64Abs, hm, ← he, one64_eq_pow (n := 52 + e) (by omega), Nat.pow_add, fracBits64]
  exact magUnits_place 52 e (2 ^ 52) (.inr le_rfl) (Nat.pow_le_pow_right (by omega) (by omega))

theorem fmul_one (k : Nat) {a : F64} (h : f64IsNaN a = false) : fmul k a 0x3FF0000000000000#64 = a := by
  have h1 : f64IsNaN 0x3FF0000000000000#64 = false := by decide
  have h2 : f64IsInf 0x3FF0000000000000#64 = false := by decide
  have h3 : f64IsZero 0x3FF0000000000000#64 = false := by decide
  have h4 : f64Sign 0x3FF0000000000000#64 = false := by decide
  simp only [fmul, h, h1, h2, h3, h4, f64Abs_one]
  cases hi : f64IsInf a
  · simp only [Bool.or_self, Bool.false_eq_true, ↓reduceIte, Bool.xor_false]
    rw [Nat.mul_comm, f64Round_abs (f64IsFinite_of h hi) one64_pos]
  · have hz : f64IsZero a = false := by
      rw [f64IsInf, beq_iff_eq] at hi
      rw [f64IsZero, hi]; decide
    simp only [hz, Bool.or_self, Bool.or_false, Bool.false_eq_true, ↓reduceIte, Bool.xor_false]
    apply f64_ext
    · rw [f64Sign_pack _ (by decide)]
    · rw [f64Mag_pack _ (by decide)]; rw [f64IsInf, beq_iff_eq] at hi; exact hi.symm

theorem f64Units_zero {z : F64} (h : f64IsZero z = true) : f64Units z = 0 := by
  rw [f64IsZero, beq_iff_eq] at h
  rw [f64Units, f64Abs, h, magUnits_zero]
  simp

theorem f64Units_eq_zero {a : F64} : f64Units a = 0 ↔ f64IsZero a = true := by
  constructor
  · intro h
    by_contra hc
    have := f64Abs_pos.mpr (Bool.eq_false_iff.mpr hc)
    rw [f64Units] at h
    split at h <;> omega
  · exact f64Units_zero

theorem zero_kind {z : F64} (h : f64IsZero z = true) :
    f64IsNaN z = false ∧ f64IsInf z = false ∧ f64IsFinite z = true := by
  rw [f64IsZero, beq_iff_eq] at h
  rw [f64IsNaN, f64IsInf, f64IsFinite, h]
  decide

/-- Adding a zero of either sign to what is not a zero changes nothing. -/
theorem fadd_zero_right (k : Nat) {a z : F64} (ha : f64IsNaN a = false) (h0 : f64IsZero a = false)
    (hz : f64IsZero z = true) : fadd k a z = a := by
  obtain ⟨z1, z2, _⟩ := zero_kind hz
  rw [fadd, ha, z1, z2, f64Units_zero hz, Int.add_zero]
  cases hi : f64IsInf a
  · have hu : f64Units a ≠ 0 := fun h => by simp [f64Units_eq_zero.mp h] at h0
    simp [hu, f64RoundInt_units (f64IsFinite_of ha hi) h0]
  · simp

theorem fadd_zero_left (k : Nat) {a z : F64} (ha : f64IsNaN a = false) (h0 : f64IsZero a = false)
    (hz : f64IsZero z = true) : fadd k z a = a := by
  obtain ⟨z1, z2, _⟩ := zero_kind hz
  rw [fadd, ha, z1, z2, f64Units_zero hz, Int.zero_add]
  cases hi : f64IsInf a
  · have hu : f64Units a ≠ 0 := fun h => by simp [f64Units_eq_zero.mp h] at h0
    simp [hu, f64RoundInt_units (f64IsFinite_of ha hi) h0]
  · simp

/-- Two zeros add to the zero that is negative only when both are. -/
theorem fadd_zeros (k : Nat) {a z : F64} (ha : f64IsZero a = true) (hz : f64IsZero z = true) :
    fadd k a z = f64Pack (f64Sign a && f64Sign z) 0 := by
  obtain ⟨a1, a2, _⟩ := zero_kind ha
  obtain ⟨z1, z2, _⟩ := zero_kind hz
  simp [fadd, a1, a2, z1, z2, f64Units_zero ha, f64Units_zero hz]

/-- A finite value times a zero is a zero. -/
theorem fmul_zero (k : Nat) {a z : F64} (ha : f64IsFinite a = true) (hz : f64IsZero z = true) :
    fmul k a z = f64Pack (f64Sign a ^^ f64Sign z) 0 := by
  obtain ⟨z1, z2, _⟩ := zero_kind hz
  have a1 : f64IsNaN a = false := by simp only [f64IsFinite, f64IsNaN, decide_eq_true_eq, decide_eq_false_iff_not] at *; omega
  have a2 : f64IsInf a = false := by
    simp only [f64IsFinite, f64IsInf, decide_eq_true_eq, beq_eq_false_iff_ne] at *; omega
  have hz' : f64Abs z = 0 := by rw [f64IsZero, beq_iff_eq] at hz; rw [f64Abs, hz, magUnits_zero]
  rw [fmul, a1, a2, z1, z2, hz', Nat.mul_zero]
  simp only [Bool.or_self, Bool.false_eq_true, ↓reduceIte]
  exact f64Round_exact _ one64_pos (Nat.zero_le _) (by simp)

/-! ### Whole numbers -/

/-- Every 53-bit significand at a place of the normal range has its encoding. -/
theorem exists_mag_scaled {q e : Nat} (h : q < 2 ^ 53) (he : 52 ≤ e) (he' : e ≤ 2000) :
    ∃ m, m < infMag64 ∧ magUnits fracBits64 m = q * 2 ^ e := by
  rcases Nat.eq_zero_or_pos q with rfl | hq
  · exact ⟨0, by decide, by simp⟩
  · have hl : Nat.log2 q < 53 := (Nat.log2_lt (by omega)).mpr h
    have hlo := Nat.log2_self_le (n := q) (by omega)
    have hhi := Nat.lt_log2_self (n := q)
    generalize Nat.log2 q = l at *
    obtain ⟨j, hj⟩ : ∃ j, 52 = l + j := ⟨52 - l, by omega⟩
    have e1 : 2 ^ 52 ≤ q * 2 ^ j := by rw [hj, Nat.pow_add]; exact Nat.mul_le_mul_right _ hlo
    have e2 : q * 2 ^ j < 2 ^ 53 := by
      have : (2 : Nat) ^ 53 = 2 ^ (l + 1) * 2 ^ j := by rw [← Nat.pow_add]; congr 1; omega
      rw [this]; exact Nat.mul_lt_mul_of_pos_right hhi (Nat.two_pow_pos j)
    obtain ⟨k, hk⟩ : ∃ k, e = j + k := ⟨e - j, by omega⟩
    refine ⟨k * 2 ^ 52 + q * 2 ^ j, ?_, ?_⟩
    · rw [infMag64]; omega
    · rw [hk, Nat.pow_add, ← Nat.mul_assoc]
      exact magUnits_place 52 k (q * 2 ^ j) (.inr e1) e2.le

/-- Every whole number below `2^53` has its encoding. -/
theorem exists_mag_whole {q : Nat} (h : q < 2 ^ 53) : ∃ m, m < infMag64 ∧ magUnits fracBits64 m = q * one64 := by
  obtain ⟨e, he⟩ : ∃ e, e = 1074 := ⟨_, rfl⟩
  rw [one64_eq_pow he]
  exact exists_mag_scaled h (by omega) (by omega)

/-- Below `2^53` in magnitude the encoding of a whole number is exact and finite, `+0.0` for zero. -/
theorem intToF64_exact {n : Int} (h : n.natAbs < 2 ^ 53) :
    f64IsFinite (intToF64 n) = true ∧ f64Abs (intToF64 n) = n.natAbs * one64 ∧ f64Sign (intToF64 n) = decide (n < 0) := by
  obtain ⟨m, hm, hu⟩ := exists_mag_whole h
  have hr : intToF64 n = f64Pack (decide (n < 0)) m := by
    rw [intToF64]; exact f64Round_exact _ Nat.one_pos hm.le (by rw [hu, Nat.one_mul])
  have hm' : m < 2 ^ 63 := hm.trans (by decide)
  rw [hr]
  refine ⟨?_, ?_, f64Sign_pack _ hm'⟩
  · rw [f64IsFinite, f64Mag_pack _ hm', decide_eq_true hm]
  · rw [f64Abs, f64Mag_pack _ hm', hu]

theorem intToF64_units {n : Int} (h : n.natAbs < 2 ^ 53) : f64Units (intToF64 n) = n * (one64 : Int) := by
  obtain ⟨_, h2, h3⟩ := intToF64_exact h
  rw [f64Units, h2, h3]
  by_cases hn : n < 0
  · simp only [hn, decide_true, ↓reduceIte]
    push_cast
    rw [show |n| = -n from abs_of_neg hn]; ring
  · simp only [hn, decide_false, Bool.false_eq_true, ↓reduceIte]
    push_cast
    rw [show |n| = n from abs_of_nonneg (by omega)]

@[simp] theorem intToF64_zero : intToF64 0 = 0#64 := by
  rw [intToF64]
  rw [f64Round_exact (m := 0) _ Nat.one_pos (Nat.zero_le _) (by simp)]
  decide

theorem i32_natAbs_lt (v : S32) : v.toInt.natAbs < 2 ^ 53 := by
  have h1 := BitVec.toInt_lt (x := v)
  have h2 := BitVec.le_toInt (x := v)
  omega

/-- Every sample is exact in binary64 (D34). -/
theorem i32ToF64_units (v : S32) : f64Units (i32ToF64 v) = v.toInt * (one64 : Int) := intToF64_units (i32_natAbs_lt v)

theorem i32ToF64_finite (v : S32) : f64IsFinite (i32ToF64 v) = true := (intToF64_exact (i32_natAbs_lt v)).1

@[simp] theorem i32ToF64_zero : i32ToF64 0#32 = 0#64 := by rw [i32ToF64]; simp

/-- A sample goes out as it came in. -/
theorem satS32_i32ToF64 (k : Nat) (v : S32) : satS32 k (i32ToF64 v) = v := by
  have hf := i32ToF64_finite v
  have hn : f64IsNaN (i32ToF64 v) = false := by
    simp only [f64IsFinite, f64IsNaN, decide_eq_true_eq, decide_eq_false_iff_not] at *; omega
  have hi : f64IsInf (i32ToF64 v) = false := by
    simp only [f64IsFinite, f64IsInf, decide_eq_true_eq, beq_eq_false_iff_ne] at *; omega
  have h1 := BitVec.toInt_lt (x := v)
  have h2 := BitVec.le_toInt (x := v)
  have hp : (0 : Int) < one64 := by exact_mod_cast one64_pos
  rw [satS32, hn, f64ClampUnits, hi, i32ToF64_units]
  have hlo : ¬ v.toInt * (one64 : Int) < int32Min * (one64 : Int) := by
    rw [mul_lt_mul_iff_of_pos_right hp, int32Min]; omega
  have hhi : ¬ int32Max * (one64 : Int) < v.toInt * (one64 : Int) := by
    rw [mul_lt_mul_iff_of_pos_right hp, int32Max]; omega
  simp only [hlo, hhi, Bool.false_eq_true, ↓reduceIte]
  rw [Int.mul_tdiv_cancel _ hp.ne', BitVec.ofInt_toInt]

/-! ### The codec -/

theorem f64_finite_kind {a : F64} (h : f64IsFinite a = true) : f64IsNaN a = false ∧ f64IsInf a = false := by
  simp only [f64IsFinite, f64IsNaN, f64IsInf, decide_eq_true_eq, decide_eq_false_iff_not, beq_eq_false_iff_ne] at *
  omega

theorem f64Pack_finite (sign : Bool) {m : Nat} (hm : m < infMag64) :
    f64IsFinite (f64Pack sign m) = true ∧ f64Abs (f64Pack sign m) = magUnits fracBits64 m ∧
      f64Sign (f64Pack sign m) = sign := by
  have hm' : m < 2 ^ 63 := hm.trans (by decide)
  refine ⟨?_, ?_, f64Sign_pack _ hm'⟩
  · rw [f64IsFinite, f64Mag_pack _ hm', decide_eq_true hm]
  · rw [f64Abs, f64Mag_pack _ hm']

/-- A Q14 coefficient decodes exactly (R111): its value times 2^14 is the 16-bit integer. -/
theorem q14ToF64_exact (c : S16) :
    f64IsFinite (q14ToF64 c) = true ∧ f64Abs (q14ToF64 c) * 16384 = c.toInt.natAbs * one64 ∧
      f64Sign (q14ToF64 c) = decide (c.toInt < 0) := by
  have hc : (c.signExtend 32).toInt = c.toInt := BitVec.toInt_signExtend_of_le (by omega)
  have h1 := BitVec.toInt_lt (x := c)
  have h2 := BitVec.le_toInt (x := c)
  obtain ⟨x1, x2, x3⟩ := intToF64_exact (n := c.toInt) (by omega)
  obtain ⟨y1, y2, y3⟩ := intToF64_exact (n := 16384) (by decide)
  obtain ⟨x4, x5⟩ := f64_finite_kind x1
  obtain ⟨y4, y5⟩ := f64_finite_kind y1
  have y6 : f64IsZero (intToF64 16384) = false := by
    rw [← f64Abs_pos, y2]; exact Nat.mul_pos (by decide) one64_pos
  obtain ⟨e, he⟩ : ∃ e, e = 1060 := ⟨_, rfl⟩
  have ho : one64 = 16384 * 2 ^ e := by rw [one64_eq_pow (n := 14 + e) (by omega), Nat.pow_add]
  obtain ⟨m, hm, hu⟩ := exists_mag_scaled (q := c.toInt.natAbs) (e := e) (by omega) (by omega) (by omega)
  have hr : q14ToF64 c = f64Pack (decide (c.toInt < 0)) m := by
    rw [q14ToF64, twoTo14, i32ToF64, hc]
    simp only [fdiv, x2, x3, x4, x5, y2, y3, y4, y5, y6, Bool.or_self, Bool.false_eq_true, ↓reduceIte]
    have hz : (decide (c.toInt < 0) ^^ decide ((16384 : Int) < 0)) = decide (c.toInt < 0) := by simp
    rw [hz]
    refine f64Round_exact _ (Nat.mul_pos (by decide) one64_pos) hm.le ?_
    rw [hu, show (16384 : Int).natAbs = 16384 from rfl]
    calc c.toInt.natAbs * one64 * one64 = c.toInt.natAbs * (16384 * 2 ^ e) * one64 := by rw [← ho]
      _ = 16384 * one64 * (c.toInt.natAbs * 2 ^ e) := by ring
  obtain ⟨p1, p2, p3⟩ := f64Pack_finite (decide (c.toInt < 0)) hm
  rw [hr]
  refine ⟨p1, ?_, p3⟩
  rw [p2, hu, ho]
  ring

/-- A finite float coefficient widens exactly (R113). -/
theorem f32ToF64_exact (k : Nat) {v : F32} (h : f32IsFinite v = true) :
    f64IsFinite (f32ToF64 k v) = true ∧ f64Abs (f32ToF64 k v) = f32Abs v * unit32 ∧ f64Sign (f32ToF64 k v) = f32Sign v := by
  have hk : f32IsNaN v = false ∧ f32IsInf v = false := by
    simp only [f32IsFinite, f32IsNaN, f32IsInf, decide_eq_true_eq, decide_eq_false_iff_not, beq_eq_false_iff_ne] at *
    omega
  obtain ⟨pl, q, hmag, hfull, hq⟩ := mag_place 23 (f32Mag v)
  have habs : f32Abs v = q * 2 ^ pl := by
    rw [f32Abs, hmag]; exact magUnits_place 23 pl q hfull hq.le
  have hpl : pl ≤ 253 := by
    rw [f32IsFinite, decide_eq_true_eq, infMag32, hmag] at h
    rcases hfull with h0 | h0 <;> omega
  obtain ⟨e, he⟩ : ∃ e, e = 925 := ⟨_, rfl⟩
  have hunit : unit32 = 2 ^ e := by unfold unit32; exact congrArg (2 ^ ·) he.symm
  obtain ⟨m, hm, hu⟩ := exists_mag_scaled (q := q) (e := pl + e) (by omega) (by omega) (by omega)
  have hval : f32Abs v * unit32 = magUnits fracBits64 m := by rw [habs, hunit, hu, Nat.pow_add, Nat.mul_assoc]
  have hr : f32ToF64 k v = f64Pack (f32Sign v) m := by
    simp only [f32ToF64, hk.1, hk.2, Bool.false_eq_true, ↓reduceIte]
    exact f64Round_exact _ Nat.one_pos hm.le (by rw [hval, Nat.one_mul])
  obtain ⟨p1, p2, p3⟩ := f64Pack_finite (f32Sign v) hm
  rw [hr]
  exact ⟨p1, by rw [p2, hval], p3⟩

end Sys2Proof.Machine
end

