-- ==== Sys2Proof/Laws/Memory.lean ====
section
/-! SUPPORT. The laws of the byte images: what a byte, and an `n`-byte word, reads as after a write; and that every memory
operation keeps the canonical form. -/

namespace Sys2Proof.Machine

namespace Memory

/-! ### One byte -/

@[simp] theorem lookup_writeByte_same (m : Memory) (a : Nat) (v : Byte) : (m.writeByte a v).lookup a = some v := by
  induction m with
  | nil => simp [writeByte, lookup]
  | cons c m ih =>
    obtain ⟨b, u⟩ := c
    simp only [writeByte]
    split
    · simp [lookup]
    · split
      · simp [lookup]
      · simp [lookup, *]

theorem lookup_writeByte_ne (m : Memory) {a b : Nat} (v : Byte) (h : b ≠ a) :
    (m.writeByte a v).lookup b = m.lookup b := by
  induction m with
  | nil => simp [writeByte, lookup, h]
  | cons c m ih =>
    obtain ⟨d, u⟩ := c
    simp only [writeByte]
    split
    · simp [lookup, h]
    · split
      · rename_i hd; subst hd; simp [lookup, h]
      · simp [lookup, ih]

@[simp] theorem readByte_writeByte_same (sp : Space) (m : Memory) (a : Nat) (v : Byte) :
    (m.writeByte a v).readByte sp a = v := by
  simp [readByte]

theorem readByte_writeByte_ne (sp : Space) (m : Memory) {a b : Nat} (v : Byte) (h : b ≠ a) :
    (m.writeByte a v).readByte sp b = m.readByte sp b := by
  simp [readByte, lookup_writeByte_ne m v h]

/-- Every entry after a byte write is the written one or was there. -/
theorem mem_writeByte {m : Memory} {a : Nat} {v : Byte} {c : Host.Cell} (h : c ∈ m.writeByte a v) :
    c = (a, v) ∨ c ∈ m := by
  induction m with
  | nil => simp [writeByte] at h; exact .inl h
  | cons d m ih =>
    obtain ⟨b, u⟩ := d
    simp only [writeByte] at h
    split at h
    · simp only [List.mem_cons] at h ⊢; exact h
    · split at h
      · simp only [List.mem_cons] at h ⊢; tauto
      · simp only [List.mem_cons] at h ⊢
        rcases h with h | h
        · tauto
        · rcases ih h with h | h <;> tauto

/-- A byte write keeps the addresses strictly rising. -/
theorem wf_writeByte {m : Memory} (h : m.wf) (a : Nat) (v : Byte) : (m.writeByte a v).wf := by
  induction m with
  | nil => simp [writeByte, wf]
  | cons c m ih =>
    obtain ⟨b, u⟩ := c
    have hm : Memory.wf m := (List.pairwise_cons.mp h).2
    have hb : ∀ c ∈ m, b < c.1 := (List.pairwise_cons.mp h).1
    simp only [writeByte]
    split
    · rename_i hab
      refine List.pairwise_cons.mpr ⟨fun c hc => ?_, h⟩
      rcases List.mem_cons.mp hc with rfl | hc
      · exact hab
      · exact hab.trans (hb c hc)
    · split
      · rename_i hab; subst hab
        exact List.pairwise_cons.mpr ⟨hb, hm⟩
      · rename_i h1 h2
        refine List.pairwise_cons.mpr ⟨fun c hc => ?_, ih hm⟩
        rcases mem_writeByte hc with rfl | hc
        · simp; omega
        · exact hb c hc

/-! ### Words of `n` bytes -/

/-- The bytes of a write are the written word's, least significant first; every other byte is as before. -/
theorem readByte_write (sp : Space) (m : Memory) (addr n v a : Nat) :
    (m.write addr n v).readByte sp a =
      if addr ≤ a ∧ a < addr + n then BitVec.ofNat 8 (v / 256 ^ (a - addr)) else m.readByte sp a := by
  induction n generalizing m addr v with
  | zero =>
    have : ¬(addr ≤ a ∧ a < addr + 0) := by omega
    rw [if_neg this]; rfl
  | succ n ih =>
    rw [write, ih]
    by_cases h1 : a = addr
    · subst h1; simp
    · rw [readByte_writeByte_ne sp m _ h1]
      by_cases h2 : addr + 1 ≤ a ∧ a < addr + 1 + n
      · have e : a - addr = (a - (addr + 1)) + 1 := by omega
        rw [if_pos h2, if_pos (by omega), e, Nat.div_div_eq_div_mul, ← Nat.pow_succ']
      · rw [if_neg h2, if_neg (by omega)]

/-- A byte outside a write's range is as before. -/
theorem readByte_write_outside (sp : Space) (m : Memory) (addr n v a : Nat) (h : a < addr ∨ addr + n ≤ a) :
    (m.write addr n v).readByte sp a = m.readByte sp a := by
  rw [readByte_write, if_neg (by omega)]

/-- A word depends on its own bytes only. -/
theorem read_congr (sp : Space) {m m' : Memory} {addr n : Nat}
    (h : ∀ a, addr ≤ a → a < addr + n → m.readByte sp a = m'.readByte sp a) : m.read sp addr n = m'.read sp addr n := by
  induction n generalizing addr with
  | zero => rfl
  | succ n ih =>
    simp only [read]
    rw [h addr (by omega) (by omega), ih fun a h1 h2 => h a (by omega) (by omega)]

/-- A word whose bytes are `v`'s reads as `v`'s low `8n` bits. -/
theorem read_of_bytes (sp : Space) {m : Memory} {addr n v : Nat}
    (h : ∀ a, addr ≤ a → a < addr + n → m.readByte sp a = BitVec.ofNat 8 (v / 256 ^ (a - addr))) :
    m.read sp addr n = v % 256 ^ n := by
  induction n generalizing addr v with
  | zero => simp [read, Nat.mod_one]
  | succ n ih =>
    have h0 := h addr (by omega) (by omega)
    have ih' := ih (addr := addr + 1) (v := v / 256) fun a h1 h2 => by
      have e : a - addr = (a - (addr + 1)) + 1 := by omega
      rw [h a (by omega) (by omega), e, Nat.div_div_eq_div_mul, ← Nat.pow_succ']
    rw [read, h0, ih', Nat.sub_self, Nat.pow_zero, Nat.div_one, BitVec.toNat_ofNat, Nat.pow_succ' (n := n) (m := 256)]
    exact (Nat.mod_mul (x := v) (a := 256) (b := 256 ^ n)).symm

/-- A word reads back as written. -/
theorem read_write_same (sp : Space) (m : Memory) (addr n v : Nat) :
    (m.write addr n v).read sp addr n = v % 256 ^ n :=
  read_of_bytes sp fun a h1 h2 => by rw [readByte_write, if_pos ⟨h1, h2⟩]

/-- A word whose bytes a write does not touch reads as before. -/
theorem read_write_disjoint (sp : Space) (m : Memory) (addr n v addr' n' : Nat)
    (h : addr' + n' ≤ addr ∨ addr + n ≤ addr') : (m.write addr n v).read sp addr' n' = m.read sp addr' n' :=
  read_congr sp fun a h1 h2 => readByte_write_outside sp m addr n v a (by omega)

theorem read_lt (sp : Space) (m : Memory) (addr n : Nat) : m.read sp addr n < 256 ^ n := by
  induction n generalizing addr with
  | zero => simp [read]
  | succ n ih =>
    have h := ih (addr + 1)
    have h8 := (m.readByte sp addr).isLt
    simp only [read, Nat.pow_succ']
    omega

/-- A write keeps the addresses strictly rising. -/
theorem wf_write {m : Memory} (h : m.wf) (addr n v : Nat) : (m.write addr n v).wf := by
  induction n generalizing m addr v with
  | zero => exact h
  | succ n ih => exact ih (wf_writeByte h _ _) _ _

/-- A write lists addresses of its own range only. -/
theorem mem_write {m : Memory} {addr n v : Nat} {c : Host.Cell} (h : c ∈ m.write addr n v) :
    (addr ≤ c.1 ∧ c.1 < addr + n) ∨ c ∈ m := by
  induction n generalizing m addr v with
  | zero => exact .inr h
  | succ n ih =>
    rcases ih h with h | h
    · exact .inl (by omega)
    · rcases mem_writeByte h with rfl | h
      · exact .inl (by simp)
      · exact .inr h

/-- A byte is listed after a write exactly if it is in the range or was listed. -/
theorem lookup_write_isSome (m : Memory) (addr n v a : Nat) :
    ((m.write addr n v).lookup a).isSome = (decide (addr ≤ a ∧ a < addr + n) || (m.lookup a).isSome) := by
  induction n generalizing m addr v with
  | zero =>
    have : ¬(addr ≤ a ∧ a < addr + 0) := by omega
    rw [decide_eq_false this]; rfl
  | succ n ih =>
    rw [write, ih]
    by_cases h1 : a = addr
    · subst h1; simp
    · rw [lookup_writeByte_ne m _ h1]
      congr 1
      exact decide_eq_decide.mpr (by omega)

end Memory

end Sys2Proof.Machine
end

