-- ==== Sys2Proof/Laws/State.lean ====
section
/-! SUPPORT. One lemma per field per named operation: what each leaves as it was, and the new value of what it sets. Later
proofs use these instead of unfolding a record update. -/

namespace Sys2Proof.Machine

/-! ### `writeArena` -/

@[simp] theorem writeArena_par (a : Nat) (v : S32) (s : State) : (writeArena a v s).par = s.par := rfl
@[simp] theorem writeArena_frame (a : Nat) (v : S32) (s : State) : (writeArena a v s).frame = s.frame := rfl
@[simp] theorem writeArena_pc (a : Nat) (v : S32) (s : State) : (writeArena a v s).pc = s.pc := rfl
@[simp] theorem writeArena_listLen (a : Nat) (v : S32) (s : State) : (writeArena a v s).listLen = s.listLen := rfl
@[simp] theorem writeArena_cmdMem (a : Nat) (v : S32) (s : State) : (writeArena a v s).cmdMem = s.cmdMem := rfl
@[simp] theorem writeArena_cmd (a : Nat) (v : S32) (s : State) : (writeArena a v s).cmd = s.cmd := rfl
@[simp] theorem writeArena_work (a : Nat) (v : S32) (s : State) : (writeArena a v s).work = s.work := rfl
@[simp] theorem writeArena_loc0 (a : Nat) (v : S32) (s : State) : (writeArena a v s).loc0 = s.loc0 := rfl
@[simp] theorem writeArena_loc1 (a : Nat) (v : S32) (s : State) : (writeArena a v s).loc1 = s.loc1 := rfl
@[simp] theorem writeArena_srf (a : Nat) (v : S32) (s : State) : (writeArena a v s).srf = s.srf := rfl
@[simp] theorem writeArena_prev (a : Nat) (v : S32) (s : State) : (writeArena a v s).prev = s.prev := rfl
@[simp] theorem writeArena_splitters (a : Nat) (v : S32) (s : State) : (writeArena a v s).splitters = s.splitters := rfl
@[simp] theorem writeArena_result (a : Nat) (v : S32) (s : State) : (writeArena a v s).result = s.result := rfl
@[simp] theorem writeArena_frameRefused (a : Nat) (v : S32) (s : State) : (writeArena a v s).frameRefused = s.frameRefused := rfl
@[simp] theorem writeArena_diag (a : Nat) (v : S32) (s : State) : (writeArena a v s).diag = s.diag := rfl
@[simp] theorem writeArena_host (a : Nat) (v : S32) (s : State) : (writeArena a v s).host = s.host := rfl
@[simp] theorem writeArena_draw (a : Nat) (v : S32) (s : State) : (writeArena a v s).draw = s.draw := rfl

/-! ### `writeSrfWord` -/

@[simp] theorem writeSrfWord_par (h k : Nat) (v : Word64) (s : State) : (writeSrfWord h k v s).par = s.par := rfl
@[simp] theorem writeSrfWord_frame (h k : Nat) (v : Word64) (s : State) : (writeSrfWord h k v s).frame = s.frame := rfl
@[simp] theorem writeSrfWord_pc (h k : Nat) (v : Word64) (s : State) : (writeSrfWord h k v s).pc = s.pc := rfl
@[simp] theorem writeSrfWord_listLen (h k : Nat) (v : Word64) (s : State) : (writeSrfWord h k v s).listLen = s.listLen := rfl
@[simp] theorem writeSrfWord_cmdMem (h k : Nat) (v : Word64) (s : State) : (writeSrfWord h k v s).cmdMem = s.cmdMem := rfl
@[simp] theorem writeSrfWord_cmd (h k : Nat) (v : Word64) (s : State) : (writeSrfWord h k v s).cmd = s.cmd := rfl
@[simp] theorem writeSrfWord_work (h k : Nat) (v : Word64) (s : State) : (writeSrfWord h k v s).work = s.work := rfl
@[simp] theorem writeSrfWord_loc0 (h k : Nat) (v : Word64) (s : State) : (writeSrfWord h k v s).loc0 = s.loc0 := rfl
@[simp] theorem writeSrfWord_loc1 (h k : Nat) (v : Word64) (s : State) : (writeSrfWord h k v s).loc1 = s.loc1 := rfl
@[simp] theorem writeSrfWord_arena (h k : Nat) (v : Word64) (s : State) : (writeSrfWord h k v s).arena = s.arena := rfl
@[simp] theorem writeSrfWord_prev (h k : Nat) (v : Word64) (s : State) : (writeSrfWord h k v s).prev = s.prev := rfl
@[simp] theorem writeSrfWord_splitters (h k : Nat) (v : Word64) (s : State) : (writeSrfWord h k v s).splitters = s.splitters := rfl
@[simp] theorem writeSrfWord_result (h k : Nat) (v : Word64) (s : State) : (writeSrfWord h k v s).result = s.result := rfl
@[simp] theorem writeSrfWord_frameRefused (h k : Nat) (v : Word64) (s : State) : (writeSrfWord h k v s).frameRefused = s.frameRefused := rfl
@[simp] theorem writeSrfWord_diag (h k : Nat) (v : Word64) (s : State) : (writeSrfWord h k v s).diag = s.diag := rfl
@[simp] theorem writeSrfWord_host (h k : Nat) (v : Word64) (s : State) : (writeSrfWord h k v s).host = s.host := rfl
@[simp] theorem writeSrfWord_draw (h k : Nat) (v : Word64) (s : State) : (writeSrfWord h k v s).draw = s.draw := rfl

/-! ### `writeEntry` -/

@[simp] theorem writeEntry_par (h : Handle) (e : Entry) (s : State) : (writeEntry h e s).par = s.par := by simp only [writeEntry, writeSrfWord_par]
@[simp] theorem writeEntry_frame (h : Handle) (e : Entry) (s : State) : (writeEntry h e s).frame = s.frame := by simp only [writeEntry, writeSrfWord_frame]
@[simp] theorem writeEntry_pc (h : Handle) (e : Entry) (s : State) : (writeEntry h e s).pc = s.pc := by simp only [writeEntry, writeSrfWord_pc]
@[simp] theorem writeEntry_listLen (h : Handle) (e : Entry) (s : State) : (writeEntry h e s).listLen = s.listLen := by simp only [writeEntry, writeSrfWord_listLen]
@[simp] theorem writeEntry_cmdMem (h : Handle) (e : Entry) (s : State) : (writeEntry h e s).cmdMem = s.cmdMem := by simp only [writeEntry, writeSrfWord_cmdMem]
@[simp] theorem writeEntry_cmd (h : Handle) (e : Entry) (s : State) : (writeEntry h e s).cmd = s.cmd := by simp only [writeEntry, writeSrfWord_cmd]
@[simp] theorem writeEntry_work (h : Handle) (e : Entry) (s : State) : (writeEntry h e s).work = s.work := by simp only [writeEntry, writeSrfWord_work]
@[simp] theorem writeEntry_loc0 (h : Handle) (e : Entry) (s : State) : (writeEntry h e s).loc0 = s.loc0 := by simp only [writeEntry, writeSrfWord_loc0]
@[simp] theorem writeEntry_loc1 (h : Handle) (e : Entry) (s : State) : (writeEntry h e s).loc1 = s.loc1 := by simp only [writeEntry, writeSrfWord_loc1]
@[simp] theorem writeEntry_arena (h : Handle) (e : Entry) (s : State) : (writeEntry h e s).arena = s.arena := by simp only [writeEntry, writeSrfWord_arena]
@[simp] theorem writeEntry_prev (h : Handle) (e : Entry) (s : State) : (writeEntry h e s).prev = s.prev := by simp only [writeEntry, writeSrfWord_prev]
@[simp] theorem writeEntry_splitters (h : Handle) (e : Entry) (s : State) : (writeEntry h e s).splitters = s.splitters := by simp only [writeEntry, writeSrfWord_splitters]
@[simp] theorem writeEntry_result (h : Handle) (e : Entry) (s : State) : (writeEntry h e s).result = s.result := by simp only [writeEntry, writeSrfWord_result]
@[simp] theorem writeEntry_frameRefused (h : Handle) (e : Entry) (s : State) : (writeEntry h e s).frameRefused = s.frameRefused := by simp only [writeEntry, writeSrfWord_frameRefused]
@[simp] theorem writeEntry_diag (h : Handle) (e : Entry) (s : State) : (writeEntry h e s).diag = s.diag := by simp only [writeEntry, writeSrfWord_diag]
@[simp] theorem writeEntry_host (h : Handle) (e : Entry) (s : State) : (writeEntry h e s).host = s.host := by simp only [writeEntry, writeSrfWord_host]
@[simp] theorem writeEntry_draw (h : Handle) (e : Entry) (s : State) : (writeEntry h e s).draw = s.draw := by simp only [writeEntry, writeSrfWord_draw]

/-! ### `zeroEntry` -/

@[simp] theorem zeroEntry_par (h : Handle) (s : State) : (zeroEntry h s).par = s.par := writeEntry_par h _ s
@[simp] theorem zeroEntry_frame (h : Handle) (s : State) : (zeroEntry h s).frame = s.frame := writeEntry_frame h _ s
@[simp] theorem zeroEntry_pc (h : Handle) (s : State) : (zeroEntry h s).pc = s.pc := writeEntry_pc h _ s
@[simp] theorem zeroEntry_listLen (h : Handle) (s : State) : (zeroEntry h s).listLen = s.listLen := writeEntry_listLen h _ s
@[simp] theorem zeroEntry_cmdMem (h : Handle) (s : State) : (zeroEntry h s).cmdMem = s.cmdMem := writeEntry_cmdMem h _ s
@[simp] theorem zeroEntry_cmd (h : Handle) (s : State) : (zeroEntry h s).cmd = s.cmd := writeEntry_cmd h _ s
@[simp] theorem zeroEntry_work (h : Handle) (s : State) : (zeroEntry h s).work = s.work := writeEntry_work h _ s
@[simp] theorem zeroEntry_loc0 (h : Handle) (s : State) : (zeroEntry h s).loc0 = s.loc0 := writeEntry_loc0 h _ s
@[simp] theorem zeroEntry_loc1 (h : Handle) (s : State) : (zeroEntry h s).loc1 = s.loc1 := writeEntry_loc1 h _ s
@[simp] theorem zeroEntry_arena (h : Handle) (s : State) : (zeroEntry h s).arena = s.arena := writeEntry_arena h _ s
@[simp] theorem zeroEntry_prev (h : Handle) (s : State) : (zeroEntry h s).prev = s.prev := writeEntry_prev h _ s
@[simp] theorem zeroEntry_splitters (h : Handle) (s : State) : (zeroEntry h s).splitters = s.splitters := writeEntry_splitters h _ s
@[simp] theorem zeroEntry_result (h : Handle) (s : State) : (zeroEntry h s).result = s.result := writeEntry_result h _ s
@[simp] theorem zeroEntry_frameRefused (h : Handle) (s : State) : (zeroEntry h s).frameRefused = s.frameRefused := writeEntry_frameRefused h _ s
@[simp] theorem zeroEntry_diag (h : Handle) (s : State) : (zeroEntry h s).diag = s.diag := writeEntry_diag h _ s
@[simp] theorem zeroEntry_host (h : Handle) (s : State) : (zeroEntry h s).host = s.host := writeEntry_host h _ s
@[simp] theorem zeroEntry_draw (h : Handle) (s : State) : (zeroEntry h s).draw = s.draw := writeEntry_draw h _ s

/-! ### `copyEntry` -/

@[simp] theorem copyEntry_par (d h : Handle) (s : State) : (copyEntry d h s).par = s.par := writeEntry_par d _ s
@[simp] theorem copyEntry_frame (d h : Handle) (s : State) : (copyEntry d h s).frame = s.frame := writeEntry_frame d _ s
@[simp] theorem copyEntry_pc (d h : Handle) (s : State) : (copyEntry d h s).pc = s.pc := writeEntry_pc d _ s
@[simp] theorem copyEntry_listLen (d h : Handle) (s : State) : (copyEntry d h s).listLen = s.listLen := writeEntry_listLen d _ s
@[simp] theorem copyEntry_cmdMem (d h : Handle) (s : State) : (copyEntry d h s).cmdMem = s.cmdMem := writeEntry_cmdMem d _ s
@[simp] theorem copyEntry_cmd (d h : Handle) (s : State) : (copyEntry d h s).cmd = s.cmd := writeEntry_cmd d _ s
@[simp] theorem copyEntry_work (d h : Handle) (s : State) : (copyEntry d h s).work = s.work := writeEntry_work d _ s
@[simp] theorem copyEntry_loc0 (d h : Handle) (s : State) : (copyEntry d h s).loc0 = s.loc0 := writeEntry_loc0 d _ s
@[simp] theorem copyEntry_loc1 (d h : Handle) (s : State) : (copyEntry d h s).loc1 = s.loc1 := writeEntry_loc1 d _ s
@[simp] theorem copyEntry_arena (d h : Handle) (s : State) : (copyEntry d h s).arena = s.arena := writeEntry_arena d _ s
@[simp] theorem copyEntry_prev (d h : Handle) (s : State) : (copyEntry d h s).prev = s.prev := writeEntry_prev d _ s
@[simp] theorem copyEntry_splitters (d h : Handle) (s : State) : (copyEntry d h s).splitters = s.splitters := writeEntry_splitters d _ s
@[simp] theorem copyEntry_result (d h : Handle) (s : State) : (copyEntry d h s).result = s.result := writeEntry_result d _ s
@[simp] theorem copyEntry_frameRefused (d h : Handle) (s : State) : (copyEntry d h s).frameRefused = s.frameRefused := writeEntry_frameRefused d _ s
@[simp] theorem copyEntry_diag (d h : Handle) (s : State) : (copyEntry d h s).diag = s.diag := writeEntry_diag d _ s
@[simp] theorem copyEntry_host (d h : Handle) (s : State) : (copyEntry d h s).host = s.host := writeEntry_host d _ s
@[simp] theorem copyEntry_draw (d h : Handle) (s : State) : (copyEntry d h s).draw = s.draw := writeEntry_draw d _ s

/-! ### `prepForked` -/

@[simp] theorem prepForked_par (h p : Handle) (ni first : Bool) (s : State) : (prepForked h p ni first s).par = s.par := by cases ni <;> cases first <;> simp [prepForked]
@[simp] theorem prepForked_frame (h p : Handle) (ni first : Bool) (s : State) : (prepForked h p ni first s).frame = s.frame := by cases ni <;> cases first <;> simp [prepForked]
@[simp] theorem prepForked_pc (h p : Handle) (ni first : Bool) (s : State) : (prepForked h p ni first s).pc = s.pc := by cases ni <;> cases first <;> simp [prepForked]
@[simp] theorem prepForked_listLen (h p : Handle) (ni first : Bool) (s : State) : (prepForked h p ni first s).listLen = s.listLen := by cases ni <;> cases first <;> simp [prepForked]
@[simp] theorem prepForked_cmdMem (h p : Handle) (ni first : Bool) (s : State) : (prepForked h p ni first s).cmdMem = s.cmdMem := by cases ni <;> cases first <;> simp [prepForked]
@[simp] theorem prepForked_cmd (h p : Handle) (ni first : Bool) (s : State) : (prepForked h p ni first s).cmd = s.cmd := by cases ni <;> cases first <;> simp [prepForked]
@[simp] theorem prepForked_work (h p : Handle) (ni first : Bool) (s : State) : (prepForked h p ni first s).work = s.work := by cases ni <;> cases first <;> simp [prepForked]
@[simp] theorem prepForked_loc0 (h p : Handle) (ni first : Bool) (s : State) : (prepForked h p ni first s).loc0 = s.loc0 := by cases ni <;> cases first <;> simp [prepForked]
@[simp] theorem prepForked_loc1 (h p : Handle) (ni first : Bool) (s : State) : (prepForked h p ni first s).loc1 = s.loc1 := by cases ni <;> cases first <;> simp [prepForked]
@[simp] theorem prepForked_arena (h p : Handle) (ni first : Bool) (s : State) : (prepForked h p ni first s).arena = s.arena := by cases ni <;> cases first <;> simp [prepForked]
@[simp] theorem prepForked_prev (h p : Handle) (ni first : Bool) (s : State) : (prepForked h p ni first s).prev = s.prev := by cases ni <;> cases first <;> simp [prepForked]
@[simp] theorem prepForked_splitters (h p : Handle) (ni first : Bool) (s : State) : (prepForked h p ni first s).splitters = s.splitters := by cases ni <;> cases first <;> simp [prepForked]
@[simp] theorem prepForked_result (h p : Handle) (ni first : Bool) (s : State) : (prepForked h p ni first s).result = s.result := by cases ni <;> cases first <;> simp [prepForked]
@[simp] theorem prepForked_frameRefused (h p : Handle) (ni first : Bool) (s : State) : (prepForked h p ni first s).frameRefused = s.frameRefused := by cases ni <;> cases first <;> simp [prepForked]
@[simp] theorem prepForked_diag (h p : Handle) (ni first : Bool) (s : State) : (prepForked h p ni first s).diag = s.diag := by cases ni <;> cases first <;> simp [prepForked]
@[simp] theorem prepForked_host (h p : Handle) (ni first : Bool) (s : State) : (prepForked h p ni first s).host = s.host := by cases ni <;> cases first <;> simp [prepForked]
@[simp] theorem prepForked_draw (h p : Handle) (ni first : Bool) (s : State) : (prepForked h p ni first s).draw = s.draw := by cases ni <;> cases first <;> simp [prepForked]

/-! ### `prepPlain` -/

@[simp] theorem prepPlain_par (h : Handle) (ni : Bool) (s : State) : (prepPlain h ni s).par = s.par := by cases ni <;> simp [prepPlain]
@[simp] theorem prepPlain_frame (h : Handle) (ni : Bool) (s : State) : (prepPlain h ni s).frame = s.frame := by cases ni <;> simp [prepPlain]
@[simp] theorem prepPlain_pc (h : Handle) (ni : Bool) (s : State) : (prepPlain h ni s).pc = s.pc := by cases ni <;> simp [prepPlain]
@[simp] theorem prepPlain_listLen (h : Handle) (ni : Bool) (s : State) : (prepPlain h ni s).listLen = s.listLen := by cases ni <;> simp [prepPlain]
@[simp] theorem prepPlain_cmdMem (h : Handle) (ni : Bool) (s : State) : (prepPlain h ni s).cmdMem = s.cmdMem := by cases ni <;> simp [prepPlain]
@[simp] theorem prepPlain_cmd (h : Handle) (ni : Bool) (s : State) : (prepPlain h ni s).cmd = s.cmd := by cases ni <;> simp [prepPlain]
@[simp] theorem prepPlain_work (h : Handle) (ni : Bool) (s : State) : (prepPlain h ni s).work = s.work := by cases ni <;> simp [prepPlain]
@[simp] theorem prepPlain_loc0 (h : Handle) (ni : Bool) (s : State) : (prepPlain h ni s).loc0 = s.loc0 := by cases ni <;> simp [prepPlain]
@[simp] theorem prepPlain_loc1 (h : Handle) (ni : Bool) (s : State) : (prepPlain h ni s).loc1 = s.loc1 := by cases ni <;> simp [prepPlain]
@[simp] theorem prepPlain_arena (h : Handle) (ni : Bool) (s : State) : (prepPlain h ni s).arena = s.arena := by cases ni <;> simp [prepPlain]
@[simp] theorem prepPlain_prev (h : Handle) (ni : Bool) (s : State) : (prepPlain h ni s).prev = s.prev := by cases ni <;> simp [prepPlain]
@[simp] theorem prepPlain_splitters (h : Handle) (ni : Bool) (s : State) : (prepPlain h ni s).splitters = s.splitters := by cases ni <;> simp [prepPlain]
@[simp] theorem prepPlain_result (h : Handle) (ni : Bool) (s : State) : (prepPlain h ni s).result = s.result := by cases ni <;> simp [prepPlain]
@[simp] theorem prepPlain_frameRefused (h : Handle) (ni : Bool) (s : State) : (prepPlain h ni s).frameRefused = s.frameRefused := by cases ni <;> simp [prepPlain]
@[simp] theorem prepPlain_diag (h : Handle) (ni : Bool) (s : State) : (prepPlain h ni s).diag = s.diag := by cases ni <;> simp [prepPlain]
@[simp] theorem prepPlain_host (h : Handle) (ni : Bool) (s : State) : (prepPlain h ni s).host = s.host := by cases ni <;> simp [prepPlain]
@[simp] theorem prepPlain_draw (h : Handle) (ni : Bool) (s : State) : (prepPlain h ni s).draw = s.draw := by cases ni <;> simp [prepPlain]

/-! ### `persistState` -/

@[simp] theorem persistState_par (t : Tap) (h : Handle) (s : State) : (persistState t h s).par = s.par := writeEntry_par h _ s
@[simp] theorem persistState_frame (t : Tap) (h : Handle) (s : State) : (persistState t h s).frame = s.frame := writeEntry_frame h _ s
@[simp] theorem persistState_pc (t : Tap) (h : Handle) (s : State) : (persistState t h s).pc = s.pc := writeEntry_pc h _ s
@[simp] theorem persistState_listLen (t : Tap) (h : Handle) (s : State) : (persistState t h s).listLen = s.listLen := writeEntry_listLen h _ s
@[simp] theorem persistState_cmdMem (t : Tap) (h : Handle) (s : State) : (persistState t h s).cmdMem = s.cmdMem := writeEntry_cmdMem h _ s
@[simp] theorem persistState_cmd (t : Tap) (h : Handle) (s : State) : (persistState t h s).cmd = s.cmd := writeEntry_cmd h _ s
@[simp] theorem persistState_work (t : Tap) (h : Handle) (s : State) : (persistState t h s).work = s.work := writeEntry_work h _ s
@[simp] theorem persistState_loc0 (t : Tap) (h : Handle) (s : State) : (persistState t h s).loc0 = s.loc0 := writeEntry_loc0 h _ s
@[simp] theorem persistState_loc1 (t : Tap) (h : Handle) (s : State) : (persistState t h s).loc1 = s.loc1 := writeEntry_loc1 h _ s
@[simp] theorem persistState_arena (t : Tap) (h : Handle) (s : State) : (persistState t h s).arena = s.arena := writeEntry_arena h _ s
@[simp] theorem persistState_prev (t : Tap) (h : Handle) (s : State) : (persistState t h s).prev = s.prev := writeEntry_prev h _ s
@[simp] theorem persistState_splitters (t : Tap) (h : Handle) (s : State) : (persistState t h s).splitters = s.splitters := writeEntry_splitters h _ s
@[simp] theorem persistState_result (t : Tap) (h : Handle) (s : State) : (persistState t h s).result = s.result := writeEntry_result h _ s
@[simp] theorem persistState_frameRefused (t : Tap) (h : Handle) (s : State) : (persistState t h s).frameRefused = s.frameRefused := writeEntry_frameRefused h _ s
@[simp] theorem persistState_diag (t : Tap) (h : Handle) (s : State) : (persistState t h s).diag = s.diag := writeEntry_diag h _ s
@[simp] theorem persistState_host (t : Tap) (h : Handle) (s : State) : (persistState t h s).host = s.host := writeEntry_host h _ s
@[simp] theorem persistState_draw (t : Tap) (h : Handle) (s : State) : (persistState t h s).draw = s.draw := writeEntry_draw h _ s

/-! ### `persistAcc` -/

@[simp] theorem persistAcc_par (h : Handle) (s : State) : (persistAcc h s).par = s.par := by simp only [persistAcc, writeSrfWord_par]
@[simp] theorem persistAcc_frame (h : Handle) (s : State) : (persistAcc h s).frame = s.frame := by simp only [persistAcc, writeSrfWord_frame]
@[simp] theorem persistAcc_pc (h : Handle) (s : State) : (persistAcc h s).pc = s.pc := by simp only [persistAcc, writeSrfWord_pc]
@[simp] theorem persistAcc_listLen (h : Handle) (s : State) : (persistAcc h s).listLen = s.listLen := by simp only [persistAcc, writeSrfWord_listLen]
@[simp] theorem persistAcc_cmdMem (h : Handle) (s : State) : (persistAcc h s).cmdMem = s.cmdMem := by simp only [persistAcc, writeSrfWord_cmdMem]
@[simp] theorem persistAcc_cmd (h : Handle) (s : State) : (persistAcc h s).cmd = s.cmd := by simp only [persistAcc, writeSrfWord_cmd]
@[simp] theorem persistAcc_work (h : Handle) (s : State) : (persistAcc h s).work = s.work := by simp only [persistAcc, writeSrfWord_work]
@[simp] theorem persistAcc_loc0 (h : Handle) (s : State) : (persistAcc h s).loc0 = s.loc0 := by simp only [persistAcc, writeSrfWord_loc0]
@[simp] theorem persistAcc_loc1 (h : Handle) (s : State) : (persistAcc h s).loc1 = s.loc1 := by simp only [persistAcc, writeSrfWord_loc1]
@[simp] theorem persistAcc_arena (h : Handle) (s : State) : (persistAcc h s).arena = s.arena := by simp only [persistAcc, writeSrfWord_arena]
@[simp] theorem persistAcc_prev (h : Handle) (s : State) : (persistAcc h s).prev = s.prev := by simp only [persistAcc, writeSrfWord_prev]
@[simp] theorem persistAcc_splitters (h : Handle) (s : State) : (persistAcc h s).splitters = s.splitters := by simp only [persistAcc, writeSrfWord_splitters]
@[simp] theorem persistAcc_result (h : Handle) (s : State) : (persistAcc h s).result = s.result := by simp only [persistAcc, writeSrfWord_result]
@[simp] theorem persistAcc_frameRefused (h : Handle) (s : State) : (persistAcc h s).frameRefused = s.frameRefused := by simp only [persistAcc, writeSrfWord_frameRefused]
@[simp] theorem persistAcc_diag (h : Handle) (s : State) : (persistAcc h s).diag = s.diag := by simp only [persistAcc, writeSrfWord_diag]
@[simp] theorem persistAcc_host (h : Handle) (s : State) : (persistAcc h s).host = s.host := by simp only [persistAcc, writeSrfWord_host]
@[simp] theorem persistAcc_draw (h : Handle) (s : State) : (persistAcc h s).draw = s.draw := by simp only [persistAcc, writeSrfWord_draw]

/-! ### `writePrev` -/

@[simp] theorem writePrev_par (v k : Nat) (x : S32) (s : State) : (writePrev v k x s).par = s.par := rfl
@[simp] theorem writePrev_frame (v k : Nat) (x : S32) (s : State) : (writePrev v k x s).frame = s.frame := rfl
@[simp] theorem writePrev_pc (v k : Nat) (x : S32) (s : State) : (writePrev v k x s).pc = s.pc := rfl
@[simp] theorem writePrev_listLen (v k : Nat) (x : S32) (s : State) : (writePrev v k x s).listLen = s.listLen := rfl
@[simp] theorem writePrev_cmdMem (v k : Nat) (x : S32) (s : State) : (writePrev v k x s).cmdMem = s.cmdMem := rfl
@[simp] theorem writePrev_cmd (v k : Nat) (x : S32) (s : State) : (writePrev v k x s).cmd = s.cmd := rfl
@[simp] theorem writePrev_work (v k : Nat) (x : S32) (s : State) : (writePrev v k x s).work = s.work := rfl
@[simp] theorem writePrev_loc0 (v k : Nat) (x : S32) (s : State) : (writePrev v k x s).loc0 = s.loc0 := rfl
@[simp] theorem writePrev_loc1 (v k : Nat) (x : S32) (s : State) : (writePrev v k x s).loc1 = s.loc1 := rfl
@[simp] theorem writePrev_srf (v k : Nat) (x : S32) (s : State) : (writePrev v k x s).srf = s.srf := rfl
@[simp] theorem writePrev_arena (v k : Nat) (x : S32) (s : State) : (writePrev v k x s).arena = s.arena := rfl
@[simp] theorem writePrev_splitters (v k : Nat) (x : S32) (s : State) : (writePrev v k x s).splitters = s.splitters := rfl
@[simp] theorem writePrev_result (v k : Nat) (x : S32) (s : State) : (writePrev v k x s).result = s.result := rfl
@[simp] theorem writePrev_frameRefused (v k : Nat) (x : S32) (s : State) : (writePrev v k x s).frameRefused = s.frameRefused := rfl
@[simp] theorem writePrev_diag (v k : Nat) (x : S32) (s : State) : (writePrev v k x s).diag = s.diag := rfl
@[simp] theorem writePrev_host (v k : Nat) (x : S32) (s : State) : (writePrev v k x s).host = s.host := rfl
@[simp] theorem writePrev_draw (v k : Nat) (x : S32) (s : State) : (writePrev v k x s).draw = s.draw := rfl

/-! ### `useDraws` -/

@[simp] theorem useDraws_par (k : Nat) (s : State) : (useDraws k s).par = s.par := rfl
@[simp] theorem useDraws_frame (k : Nat) (s : State) : (useDraws k s).frame = s.frame := rfl
@[simp] theorem useDraws_pc (k : Nat) (s : State) : (useDraws k s).pc = s.pc := rfl
@[simp] theorem useDraws_listLen (k : Nat) (s : State) : (useDraws k s).listLen = s.listLen := rfl
@[simp] theorem useDraws_cmdMem (k : Nat) (s : State) : (useDraws k s).cmdMem = s.cmdMem := rfl
@[simp] theorem useDraws_cmd (k : Nat) (s : State) : (useDraws k s).cmd = s.cmd := rfl
@[simp] theorem useDraws_work (k : Nat) (s : State) : (useDraws k s).work = s.work := rfl
@[simp] theorem useDraws_loc0 (k : Nat) (s : State) : (useDraws k s).loc0 = s.loc0 := rfl
@[simp] theorem useDraws_loc1 (k : Nat) (s : State) : (useDraws k s).loc1 = s.loc1 := rfl
@[simp] theorem useDraws_srf (k : Nat) (s : State) : (useDraws k s).srf = s.srf := rfl
@[simp] theorem useDraws_arena (k : Nat) (s : State) : (useDraws k s).arena = s.arena := rfl
@[simp] theorem useDraws_prev (k : Nat) (s : State) : (useDraws k s).prev = s.prev := rfl
@[simp] theorem useDraws_splitters (k : Nat) (s : State) : (useDraws k s).splitters = s.splitters := rfl
@[simp] theorem useDraws_result (k : Nat) (s : State) : (useDraws k s).result = s.result := rfl
@[simp] theorem useDraws_frameRefused (k : Nat) (s : State) : (useDraws k s).frameRefused = s.frameRefused := rfl
@[simp] theorem useDraws_diag (k : Nat) (s : State) : (useDraws k s).diag = s.diag := rfl
@[simp] theorem useDraws_host (k : Nat) (s : State) : (useDraws k s).host = s.host := rfl

/-! ### `setCoeffs` -/

@[simp] theorem setCoeffs_par (t : Tap) (c : Coeffs) (s : State) : (setCoeffs t c s).par = s.par := by cases t <;> rfl
@[simp] theorem setCoeffs_frame (t : Tap) (c : Coeffs) (s : State) : (setCoeffs t c s).frame = s.frame := by cases t <;> rfl
@[simp] theorem setCoeffs_pc (t : Tap) (c : Coeffs) (s : State) : (setCoeffs t c s).pc = s.pc := by cases t <;> rfl
@[simp] theorem setCoeffs_listLen (t : Tap) (c : Coeffs) (s : State) : (setCoeffs t c s).listLen = s.listLen := by cases t <;> rfl
@[simp] theorem setCoeffs_cmdMem (t : Tap) (c : Coeffs) (s : State) : (setCoeffs t c s).cmdMem = s.cmdMem := by cases t <;> rfl
@[simp] theorem setCoeffs_cmd (t : Tap) (c : Coeffs) (s : State) : (setCoeffs t c s).cmd = s.cmd := by cases t <;> rfl
@[simp] theorem setCoeffs_loc0 (t : Tap) (c : Coeffs) (s : State) : (setCoeffs t c s).loc0 = s.loc0 := by cases t <;> rfl
@[simp] theorem setCoeffs_loc1 (t : Tap) (c : Coeffs) (s : State) : (setCoeffs t c s).loc1 = s.loc1 := by cases t <;> rfl
@[simp] theorem setCoeffs_srf (t : Tap) (c : Coeffs) (s : State) : (setCoeffs t c s).srf = s.srf := by cases t <;> rfl
@[simp] theorem setCoeffs_arena (t : Tap) (c : Coeffs) (s : State) : (setCoeffs t c s).arena = s.arena := by cases t <;> rfl
@[simp] theorem setCoeffs_prev (t : Tap) (c : Coeffs) (s : State) : (setCoeffs t c s).prev = s.prev := by cases t <;> rfl
@[simp] theorem setCoeffs_splitters (t : Tap) (c : Coeffs) (s : State) : (setCoeffs t c s).splitters = s.splitters := by cases t <;> rfl
@[simp] theorem setCoeffs_result (t : Tap) (c : Coeffs) (s : State) : (setCoeffs t c s).result = s.result := by cases t <;> rfl
@[simp] theorem setCoeffs_frameRefused (t : Tap) (c : Coeffs) (s : State) : (setCoeffs t c s).frameRefused = s.frameRefused := by cases t <;> rfl
@[simp] theorem setCoeffs_diag (t : Tap) (c : Coeffs) (s : State) : (setCoeffs t c s).diag = s.diag := by cases t <;> rfl
@[simp] theorem setCoeffs_host (t : Tap) (c : Coeffs) (s : State) : (setCoeffs t c s).host = s.host := by cases t <;> rfl
@[simp] theorem setCoeffs_draw (t : Tap) (c : Coeffs) (s : State) : (setCoeffs t c s).draw = s.draw := by cases t <;> rfl

/-! ### `setDelay` -/

@[simp] theorem setDelay_par (t : Tap) (d : Delay) (s : State) : (setDelay t d s).par = s.par := by cases t <;> rfl
@[simp] theorem setDelay_frame (t : Tap) (d : Delay) (s : State) : (setDelay t d s).frame = s.frame := by cases t <;> rfl
@[simp] theorem setDelay_pc (t : Tap) (d : Delay) (s : State) : (setDelay t d s).pc = s.pc := by cases t <;> rfl
@[simp] theorem setDelay_listLen (t : Tap) (d : Delay) (s : State) : (setDelay t d s).listLen = s.listLen := by cases t <;> rfl
@[simp] theorem setDelay_cmdMem (t : Tap) (d : Delay) (s : State) : (setDelay t d s).cmdMem = s.cmdMem := by cases t <;> rfl
@[simp] theorem setDelay_cmd (t : Tap) (d : Delay) (s : State) : (setDelay t d s).cmd = s.cmd := by cases t <;> rfl
@[simp] theorem setDelay_loc0 (t : Tap) (d : Delay) (s : State) : (setDelay t d s).loc0 = s.loc0 := by cases t <;> rfl
@[simp] theorem setDelay_loc1 (t : Tap) (d : Delay) (s : State) : (setDelay t d s).loc1 = s.loc1 := by cases t <;> rfl
@[simp] theorem setDelay_srf (t : Tap) (d : Delay) (s : State) : (setDelay t d s).srf = s.srf := by cases t <;> rfl
@[simp] theorem setDelay_arena (t : Tap) (d : Delay) (s : State) : (setDelay t d s).arena = s.arena := by cases t <;> rfl
@[simp] theorem setDelay_prev (t : Tap) (d : Delay) (s : State) : (setDelay t d s).prev = s.prev := by cases t <;> rfl
@[simp] theorem setDelay_splitters (t : Tap) (d : Delay) (s : State) : (setDelay t d s).splitters = s.splitters := by cases t <;> rfl
@[simp] theorem setDelay_result (t : Tap) (d : Delay) (s : State) : (setDelay t d s).result = s.result := by cases t <;> rfl
@[simp] theorem setDelay_frameRefused (t : Tap) (d : Delay) (s : State) : (setDelay t d s).frameRefused = s.frameRefused := by cases t <;> rfl
@[simp] theorem setDelay_diag (t : Tap) (d : Delay) (s : State) : (setDelay t d s).diag = s.diag := by cases t <;> rfl
@[simp] theorem setDelay_host (t : Tap) (d : Delay) (s : State) : (setDelay t d s).host = s.host := by cases t <;> rfl
@[simp] theorem setDelay_draw (t : Tap) (d : Delay) (s : State) : (setDelay t d s).draw = s.draw := by cases t <;> rfl

/-! ### `setVol` -/

@[simp] theorem setVol_par (v : F64) (s : State) : (setVol v s).par = s.par := rfl
@[simp] theorem setVol_frame (v : F64) (s : State) : (setVol v s).frame = s.frame := rfl
@[simp] theorem setVol_pc (v : F64) (s : State) : (setVol v s).pc = s.pc := rfl
@[simp] theorem setVol_listLen (v : F64) (s : State) : (setVol v s).listLen = s.listLen := rfl
@[simp] theorem setVol_cmdMem (v : F64) (s : State) : (setVol v s).cmdMem = s.cmdMem := rfl
@[simp] theorem setVol_cmd (v : F64) (s : State) : (setVol v s).cmd = s.cmd := rfl
@[simp] theorem setVol_loc0 (v : F64) (s : State) : (setVol v s).loc0 = s.loc0 := rfl
@[simp] theorem setVol_loc1 (v : F64) (s : State) : (setVol v s).loc1 = s.loc1 := rfl
@[simp] theorem setVol_srf (v : F64) (s : State) : (setVol v s).srf = s.srf := rfl
@[simp] theorem setVol_arena (v : F64) (s : State) : (setVol v s).arena = s.arena := rfl
@[simp] theorem setVol_prev (v : F64) (s : State) : (setVol v s).prev = s.prev := rfl
@[simp] theorem setVol_splitters (v : F64) (s : State) : (setVol v s).splitters = s.splitters := rfl
@[simp] theorem setVol_result (v : F64) (s : State) : (setVol v s).result = s.result := rfl
@[simp] theorem setVol_frameRefused (v : F64) (s : State) : (setVol v s).frameRefused = s.frameRefused := rfl
@[simp] theorem setVol_diag (v : F64) (s : State) : (setVol v s).diag = s.diag := rfl
@[simp] theorem setVol_host (v : F64) (s : State) : (setVol v s).host = s.host := rfl
@[simp] theorem setVol_draw (v : F64) (s : State) : (setVol v s).draw = s.draw := rfl

/-! ### `setRamp` -/

@[simp] theorem setRamp_par (v : F64) (s : State) : (setRamp v s).par = s.par := rfl
@[simp] theorem setRamp_frame (v : F64) (s : State) : (setRamp v s).frame = s.frame := rfl
@[simp] theorem setRamp_pc (v : F64) (s : State) : (setRamp v s).pc = s.pc := rfl
@[simp] theorem setRamp_listLen (v : F64) (s : State) : (setRamp v s).listLen = s.listLen := rfl
@[simp] theorem setRamp_cmdMem (v : F64) (s : State) : (setRamp v s).cmdMem = s.cmdMem := rfl
@[simp] theorem setRamp_cmd (v : F64) (s : State) : (setRamp v s).cmd = s.cmd := rfl
@[simp] theorem setRamp_loc0 (v : F64) (s : State) : (setRamp v s).loc0 = s.loc0 := rfl
@[simp] theorem setRamp_loc1 (v : F64) (s : State) : (setRamp v s).loc1 = s.loc1 := rfl
@[simp] theorem setRamp_srf (v : F64) (s : State) : (setRamp v s).srf = s.srf := rfl
@[simp] theorem setRamp_arena (v : F64) (s : State) : (setRamp v s).arena = s.arena := rfl
@[simp] theorem setRamp_prev (v : F64) (s : State) : (setRamp v s).prev = s.prev := rfl
@[simp] theorem setRamp_splitters (v : F64) (s : State) : (setRamp v s).splitters = s.splitters := rfl
@[simp] theorem setRamp_result (v : F64) (s : State) : (setRamp v s).result = s.result := rfl
@[simp] theorem setRamp_frameRefused (v : F64) (s : State) : (setRamp v s).frameRefused = s.frameRefused := rfl
@[simp] theorem setRamp_diag (v : F64) (s : State) : (setRamp v s).diag = s.diag := rfl
@[simp] theorem setRamp_host (v : F64) (s : State) : (setRamp v s).host = s.host := rfl
@[simp] theorem setRamp_draw (v : F64) (s : State) : (setRamp v s).draw = s.draw := rfl

/-! ### `setLast` -/

@[simp] theorem setLast_par (v : F64) (s : State) : (setLast v s).par = s.par := rfl
@[simp] theorem setLast_frame (v : F64) (s : State) : (setLast v s).frame = s.frame := rfl
@[simp] theorem setLast_pc (v : F64) (s : State) : (setLast v s).pc = s.pc := rfl
@[simp] theorem setLast_listLen (v : F64) (s : State) : (setLast v s).listLen = s.listLen := rfl
@[simp] theorem setLast_cmdMem (v : F64) (s : State) : (setLast v s).cmdMem = s.cmdMem := rfl
@[simp] theorem setLast_cmd (v : F64) (s : State) : (setLast v s).cmd = s.cmd := rfl
@[simp] theorem setLast_loc0 (v : F64) (s : State) : (setLast v s).loc0 = s.loc0 := rfl
@[simp] theorem setLast_loc1 (v : F64) (s : State) : (setLast v s).loc1 = s.loc1 := rfl
@[simp] theorem setLast_srf (v : F64) (s : State) : (setLast v s).srf = s.srf := rfl
@[simp] theorem setLast_arena (v : F64) (s : State) : (setLast v s).arena = s.arena := rfl
@[simp] theorem setLast_prev (v : F64) (s : State) : (setLast v s).prev = s.prev := rfl
@[simp] theorem setLast_splitters (v : F64) (s : State) : (setLast v s).splitters = s.splitters := rfl
@[simp] theorem setLast_result (v : F64) (s : State) : (setLast v s).result = s.result := rfl
@[simp] theorem setLast_frameRefused (v : F64) (s : State) : (setLast v s).frameRefused = s.frameRefused := rfl
@[simp] theorem setLast_diag (v : F64) (s : State) : (setLast v s).diag = s.diag := rfl
@[simp] theorem setLast_host (v : F64) (s : State) : (setLast v s).host = s.host := rfl
@[simp] theorem setLast_draw (v : F64) (s : State) : (setLast v s).draw = s.draw := rfl

/-! ### `clearI` -/

@[simp] theorem clearI_par (s : State) : (clearI s).par = s.par := rfl
@[simp] theorem clearI_frame (s : State) : (clearI s).frame = s.frame := rfl
@[simp] theorem clearI_pc (s : State) : (clearI s).pc = s.pc := rfl
@[simp] theorem clearI_listLen (s : State) : (clearI s).listLen = s.listLen := rfl
@[simp] theorem clearI_cmdMem (s : State) : (clearI s).cmdMem = s.cmdMem := rfl
@[simp] theorem clearI_cmd (s : State) : (clearI s).cmd = s.cmd := rfl
@[simp] theorem clearI_loc0 (s : State) : (clearI s).loc0 = s.loc0 := rfl
@[simp] theorem clearI_loc1 (s : State) : (clearI s).loc1 = s.loc1 := rfl
@[simp] theorem clearI_srf (s : State) : (clearI s).srf = s.srf := rfl
@[simp] theorem clearI_arena (s : State) : (clearI s).arena = s.arena := rfl
@[simp] theorem clearI_prev (s : State) : (clearI s).prev = s.prev := rfl
@[simp] theorem clearI_splitters (s : State) : (clearI s).splitters = s.splitters := rfl
@[simp] theorem clearI_result (s : State) : (clearI s).result = s.result := rfl
@[simp] theorem clearI_frameRefused (s : State) : (clearI s).frameRefused = s.frameRefused := rfl
@[simp] theorem clearI_diag (s : State) : (clearI s).diag = s.diag := rfl
@[simp] theorem clearI_host (s : State) : (clearI s).host = s.host := rfl
@[simp] theorem clearI_draw (s : State) : (clearI s).draw = s.draw := rfl

/-! ### `nextI` -/

@[simp] theorem nextI_par (s : State) : (nextI s).par = s.par := rfl
@[simp] theorem nextI_frame (s : State) : (nextI s).frame = s.frame := rfl
@[simp] theorem nextI_pc (s : State) : (nextI s).pc = s.pc := rfl
@[simp] theorem nextI_listLen (s : State) : (nextI s).listLen = s.listLen := rfl
@[simp] theorem nextI_cmdMem (s : State) : (nextI s).cmdMem = s.cmdMem := rfl
@[simp] theorem nextI_cmd (s : State) : (nextI s).cmd = s.cmd := rfl
@[simp] theorem nextI_loc0 (s : State) : (nextI s).loc0 = s.loc0 := rfl
@[simp] theorem nextI_loc1 (s : State) : (nextI s).loc1 = s.loc1 := rfl
@[simp] theorem nextI_srf (s : State) : (nextI s).srf = s.srf := rfl
@[simp] theorem nextI_arena (s : State) : (nextI s).arena = s.arena := rfl
@[simp] theorem nextI_prev (s : State) : (nextI s).prev = s.prev := rfl
@[simp] theorem nextI_splitters (s : State) : (nextI s).splitters = s.splitters := rfl
@[simp] theorem nextI_result (s : State) : (nextI s).result = s.result := rfl
@[simp] theorem nextI_frameRefused (s : State) : (nextI s).frameRefused = s.frameRefused := rfl
@[simp] theorem nextI_diag (s : State) : (nextI s).diag = s.diag := rfl
@[simp] theorem nextI_host (s : State) : (nextI s).host = s.host := rfl
@[simp] theorem nextI_draw (s : State) : (nextI s).draw = s.draw := rfl

/-! ### `loadState` -/

@[simp] theorem loadState_par (t : Tap) (e : Entry) (s : State) : (loadState t e s).par = s.par := setDelay_par t _ s
@[simp] theorem loadState_frame (t : Tap) (e : Entry) (s : State) : (loadState t e s).frame = s.frame := setDelay_frame t _ s
@[simp] theorem loadState_pc (t : Tap) (e : Entry) (s : State) : (loadState t e s).pc = s.pc := setDelay_pc t _ s
@[simp] theorem loadState_listLen (t : Tap) (e : Entry) (s : State) : (loadState t e s).listLen = s.listLen := setDelay_listLen t _ s
@[simp] theorem loadState_cmdMem (t : Tap) (e : Entry) (s : State) : (loadState t e s).cmdMem = s.cmdMem := setDelay_cmdMem t _ s
@[simp] theorem loadState_cmd (t : Tap) (e : Entry) (s : State) : (loadState t e s).cmd = s.cmd := setDelay_cmd t _ s
@[simp] theorem loadState_loc0 (t : Tap) (e : Entry) (s : State) : (loadState t e s).loc0 = s.loc0 := setDelay_loc0 t _ s
@[simp] theorem loadState_loc1 (t : Tap) (e : Entry) (s : State) : (loadState t e s).loc1 = s.loc1 := setDelay_loc1 t _ s
@[simp] theorem loadState_srf (t : Tap) (e : Entry) (s : State) : (loadState t e s).srf = s.srf := setDelay_srf t _ s
@[simp] theorem loadState_arena (t : Tap) (e : Entry) (s : State) : (loadState t e s).arena = s.arena := setDelay_arena t _ s
@[simp] theorem loadState_prev (t : Tap) (e : Entry) (s : State) : (loadState t e s).prev = s.prev := setDelay_prev t _ s
@[simp] theorem loadState_splitters (t : Tap) (e : Entry) (s : State) : (loadState t e s).splitters = s.splitters := setDelay_splitters t _ s
@[simp] theorem loadState_result (t : Tap) (e : Entry) (s : State) : (loadState t e s).result = s.result := setDelay_result t _ s
@[simp] theorem loadState_frameRefused (t : Tap) (e : Entry) (s : State) : (loadState t e s).frameRefused = s.frameRefused := setDelay_frameRefused t _ s
@[simp] theorem loadState_diag (t : Tap) (e : Entry) (s : State) : (loadState t e s).diag = s.diag := setDelay_diag t _ s
@[simp] theorem loadState_host (t : Tap) (e : Entry) (s : State) : (loadState t e s).host = s.host := setDelay_host t _ s
@[simp] theorem loadState_draw (t : Tap) (e : Entry) (s : State) : (loadState t e s).draw = s.draw := setDelay_draw t _ s

/-! ### `loadAcc` -/

@[simp] theorem loadAcc_par (e : Entry) (s : State) : (loadAcc e s).par = s.par := setDelay_par .t0 _ s
@[simp] theorem loadAcc_frame (e : Entry) (s : State) : (loadAcc e s).frame = s.frame := setDelay_frame .t0 _ s
@[simp] theorem loadAcc_pc (e : Entry) (s : State) : (loadAcc e s).pc = s.pc := setDelay_pc .t0 _ s
@[simp] theorem loadAcc_listLen (e : Entry) (s : State) : (loadAcc e s).listLen = s.listLen := setDelay_listLen .t0 _ s
@[simp] theorem loadAcc_cmdMem (e : Entry) (s : State) : (loadAcc e s).cmdMem = s.cmdMem := setDelay_cmdMem .t0 _ s
@[simp] theorem loadAcc_cmd (e : Entry) (s : State) : (loadAcc e s).cmd = s.cmd := setDelay_cmd .t0 _ s
@[simp] theorem loadAcc_loc0 (e : Entry) (s : State) : (loadAcc e s).loc0 = s.loc0 := setDelay_loc0 .t0 _ s
@[simp] theorem loadAcc_loc1 (e : Entry) (s : State) : (loadAcc e s).loc1 = s.loc1 := setDelay_loc1 .t0 _ s
@[simp] theorem loadAcc_srf (e : Entry) (s : State) : (loadAcc e s).srf = s.srf := setDelay_srf .t0 _ s
@[simp] theorem loadAcc_arena (e : Entry) (s : State) : (loadAcc e s).arena = s.arena := setDelay_arena .t0 _ s
@[simp] theorem loadAcc_prev (e : Entry) (s : State) : (loadAcc e s).prev = s.prev := setDelay_prev .t0 _ s
@[simp] theorem loadAcc_splitters (e : Entry) (s : State) : (loadAcc e s).splitters = s.splitters := setDelay_splitters .t0 _ s
@[simp] theorem loadAcc_result (e : Entry) (s : State) : (loadAcc e s).result = s.result := setDelay_result .t0 _ s
@[simp] theorem loadAcc_frameRefused (e : Entry) (s : State) : (loadAcc e s).frameRefused = s.frameRefused := setDelay_frameRefused .t0 _ s
@[simp] theorem loadAcc_diag (e : Entry) (s : State) : (loadAcc e s).diag = s.diag := setDelay_diag .t0 _ s
@[simp] theorem loadAcc_host (e : Entry) (s : State) : (loadAcc e s).host = s.host := setDelay_host .t0 _ s
@[simp] theorem loadAcc_draw (e : Entry) (s : State) : (loadAcc e s).draw = s.draw := setDelay_draw .t0 _ s

/-! ### `loadQ14` -/

@[simp] theorem loadQ14_par (t : Tap) (c : Q14Params) (s : State) : (loadQ14 t c s).par = s.par := setCoeffs_par t _ s
@[simp] theorem loadQ14_frame (t : Tap) (c : Q14Params) (s : State) : (loadQ14 t c s).frame = s.frame := setCoeffs_frame t _ s
@[simp] theorem loadQ14_pc (t : Tap) (c : Q14Params) (s : State) : (loadQ14 t c s).pc = s.pc := setCoeffs_pc t _ s
@[simp] theorem loadQ14_listLen (t : Tap) (c : Q14Params) (s : State) : (loadQ14 t c s).listLen = s.listLen := setCoeffs_listLen t _ s
@[simp] theorem loadQ14_cmdMem (t : Tap) (c : Q14Params) (s : State) : (loadQ14 t c s).cmdMem = s.cmdMem := setCoeffs_cmdMem t _ s
@[simp] theorem loadQ14_cmd (t : Tap) (c : Q14Params) (s : State) : (loadQ14 t c s).cmd = s.cmd := setCoeffs_cmd t _ s
@[simp] theorem loadQ14_loc0 (t : Tap) (c : Q14Params) (s : State) : (loadQ14 t c s).loc0 = s.loc0 := setCoeffs_loc0 t _ s
@[simp] theorem loadQ14_loc1 (t : Tap) (c : Q14Params) (s : State) : (loadQ14 t c s).loc1 = s.loc1 := setCoeffs_loc1 t _ s
@[simp] theorem loadQ14_srf (t : Tap) (c : Q14Params) (s : State) : (loadQ14 t c s).srf = s.srf := setCoeffs_srf t _ s
@[simp] theorem loadQ14_arena (t : Tap) (c : Q14Params) (s : State) : (loadQ14 t c s).arena = s.arena := setCoeffs_arena t _ s
@[simp] theorem loadQ14_prev (t : Tap) (c : Q14Params) (s : State) : (loadQ14 t c s).prev = s.prev := setCoeffs_prev t _ s
@[simp] theorem loadQ14_splitters (t : Tap) (c : Q14Params) (s : State) : (loadQ14 t c s).splitters = s.splitters := setCoeffs_splitters t _ s
@[simp] theorem loadQ14_result (t : Tap) (c : Q14Params) (s : State) : (loadQ14 t c s).result = s.result := setCoeffs_result t _ s
@[simp] theorem loadQ14_frameRefused (t : Tap) (c : Q14Params) (s : State) : (loadQ14 t c s).frameRefused = s.frameRefused := setCoeffs_frameRefused t _ s
@[simp] theorem loadQ14_diag (t : Tap) (c : Q14Params) (s : State) : (loadQ14 t c s).diag = s.diag := setCoeffs_diag t _ s
@[simp] theorem loadQ14_host (t : Tap) (c : Q14Params) (s : State) : (loadQ14 t c s).host = s.host := setCoeffs_host t _ s
@[simp] theorem loadQ14_draw (t : Tap) (c : Q14Params) (s : State) : (loadQ14 t c s).draw = s.draw := setCoeffs_draw t _ s

/-! ### `loadInt` -/

@[simp] theorem loadInt_par (c : Q14Params) (s : State) : (loadInt c s).par = s.par := setCoeffs_par .t0 _ s
@[simp] theorem loadInt_frame (c : Q14Params) (s : State) : (loadInt c s).frame = s.frame := setCoeffs_frame .t0 _ s
@[simp] theorem loadInt_pc (c : Q14Params) (s : State) : (loadInt c s).pc = s.pc := setCoeffs_pc .t0 _ s
@[simp] theorem loadInt_listLen (c : Q14Params) (s : State) : (loadInt c s).listLen = s.listLen := setCoeffs_listLen .t0 _ s
@[simp] theorem loadInt_cmdMem (c : Q14Params) (s : State) : (loadInt c s).cmdMem = s.cmdMem := setCoeffs_cmdMem .t0 _ s
@[simp] theorem loadInt_cmd (c : Q14Params) (s : State) : (loadInt c s).cmd = s.cmd := setCoeffs_cmd .t0 _ s
@[simp] theorem loadInt_loc0 (c : Q14Params) (s : State) : (loadInt c s).loc0 = s.loc0 := setCoeffs_loc0 .t0 _ s
@[simp] theorem loadInt_loc1 (c : Q14Params) (s : State) : (loadInt c s).loc1 = s.loc1 := setCoeffs_loc1 .t0 _ s
@[simp] theorem loadInt_srf (c : Q14Params) (s : State) : (loadInt c s).srf = s.srf := setCoeffs_srf .t0 _ s
@[simp] theorem loadInt_arena (c : Q14Params) (s : State) : (loadInt c s).arena = s.arena := setCoeffs_arena .t0 _ s
@[simp] theorem loadInt_prev (c : Q14Params) (s : State) : (loadInt c s).prev = s.prev := setCoeffs_prev .t0 _ s
@[simp] theorem loadInt_splitters (c : Q14Params) (s : State) : (loadInt c s).splitters = s.splitters := setCoeffs_splitters .t0 _ s
@[simp] theorem loadInt_result (c : Q14Params) (s : State) : (loadInt c s).result = s.result := setCoeffs_result .t0 _ s
@[simp] theorem loadInt_frameRefused (c : Q14Params) (s : State) : (loadInt c s).frameRefused = s.frameRefused := setCoeffs_frameRefused .t0 _ s
@[simp] theorem loadInt_diag (c : Q14Params) (s : State) : (loadInt c s).diag = s.diag := setCoeffs_diag .t0 _ s
@[simp] theorem loadInt_host (c : Q14Params) (s : State) : (loadInt c s).host = s.host := setCoeffs_host .t0 _ s
@[simp] theorem loadInt_draw (c : Q14Params) (s : State) : (loadInt c s).draw = s.draw := setCoeffs_draw .t0 _ s

/-! ### `loadF32` -/

@[simp] theorem loadF32_par (t : Tap) (c : F32Params) (s : State) : (loadF32 t c s).par = s.par := by simp only [loadF32, useDraws_par, setCoeffs_par]
@[simp] theorem loadF32_frame (t : Tap) (c : F32Params) (s : State) : (loadF32 t c s).frame = s.frame := by simp only [loadF32, useDraws_frame, setCoeffs_frame]
@[simp] theorem loadF32_pc (t : Tap) (c : F32Params) (s : State) : (loadF32 t c s).pc = s.pc := by simp only [loadF32, useDraws_pc, setCoeffs_pc]
@[simp] theorem loadF32_listLen (t : Tap) (c : F32Params) (s : State) : (loadF32 t c s).listLen = s.listLen := by simp only [loadF32, useDraws_listLen, setCoeffs_listLen]
@[simp] theorem loadF32_cmdMem (t : Tap) (c : F32Params) (s : State) : (loadF32 t c s).cmdMem = s.cmdMem := by simp only [loadF32, useDraws_cmdMem, setCoeffs_cmdMem]
@[simp] theorem loadF32_cmd (t : Tap) (c : F32Params) (s : State) : (loadF32 t c s).cmd = s.cmd := by simp only [loadF32, useDraws_cmd, setCoeffs_cmd]
@[simp] theorem loadF32_loc0 (t : Tap) (c : F32Params) (s : State) : (loadF32 t c s).loc0 = s.loc0 := by simp only [loadF32, useDraws_loc0, setCoeffs_loc0]
@[simp] theorem loadF32_loc1 (t : Tap) (c : F32Params) (s : State) : (loadF32 t c s).loc1 = s.loc1 := by simp only [loadF32, useDraws_loc1, setCoeffs_loc1]
@[simp] theorem loadF32_srf (t : Tap) (c : F32Params) (s : State) : (loadF32 t c s).srf = s.srf := by simp only [loadF32, useDraws_srf, setCoeffs_srf]
@[simp] theorem loadF32_arena (t : Tap) (c : F32Params) (s : State) : (loadF32 t c s).arena = s.arena := by simp only [loadF32, useDraws_arena, setCoeffs_arena]
@[simp] theorem loadF32_prev (t : Tap) (c : F32Params) (s : State) : (loadF32 t c s).prev = s.prev := by simp only [loadF32, useDraws_prev, setCoeffs_prev]
@[simp] theorem loadF32_splitters (t : Tap) (c : F32Params) (s : State) : (loadF32 t c s).splitters = s.splitters := by simp only [loadF32, useDraws_splitters, setCoeffs_splitters]
@[simp] theorem loadF32_result (t : Tap) (c : F32Params) (s : State) : (loadF32 t c s).result = s.result := by simp only [loadF32, useDraws_result, setCoeffs_result]
@[simp] theorem loadF32_frameRefused (t : Tap) (c : F32Params) (s : State) : (loadF32 t c s).frameRefused = s.frameRefused := by simp only [loadF32, useDraws_frameRefused, setCoeffs_frameRefused]
@[simp] theorem loadF32_diag (t : Tap) (c : F32Params) (s : State) : (loadF32 t c s).diag = s.diag := by simp only [loadF32, useDraws_diag, setCoeffs_diag]
@[simp] theorem loadF32_host (t : Tap) (c : F32Params) (s : State) : (loadF32 t c s).host = s.host := by simp only [loadF32, useDraws_host, setCoeffs_host]

/-! ### `writeLoc` -/

@[simp] theorem writeLoc_par (t : Tap) (e : Entry) (s : State) : (writeLoc t e s).par = s.par := by cases t <;> rfl
@[simp] theorem writeLoc_frame (t : Tap) (e : Entry) (s : State) : (writeLoc t e s).frame = s.frame := by cases t <;> rfl
@[simp] theorem writeLoc_pc (t : Tap) (e : Entry) (s : State) : (writeLoc t e s).pc = s.pc := by cases t <;> rfl
@[simp] theorem writeLoc_listLen (t : Tap) (e : Entry) (s : State) : (writeLoc t e s).listLen = s.listLen := by cases t <;> rfl
@[simp] theorem writeLoc_cmdMem (t : Tap) (e : Entry) (s : State) : (writeLoc t e s).cmdMem = s.cmdMem := by cases t <;> rfl
@[simp] theorem writeLoc_cmd (t : Tap) (e : Entry) (s : State) : (writeLoc t e s).cmd = s.cmd := by cases t <;> rfl
@[simp] theorem writeLoc_work (t : Tap) (e : Entry) (s : State) : (writeLoc t e s).work = s.work := by cases t <;> rfl
@[simp] theorem writeLoc_srf (t : Tap) (e : Entry) (s : State) : (writeLoc t e s).srf = s.srf := by cases t <;> rfl
@[simp] theorem writeLoc_arena (t : Tap) (e : Entry) (s : State) : (writeLoc t e s).arena = s.arena := by cases t <;> rfl
@[simp] theorem writeLoc_prev (t : Tap) (e : Entry) (s : State) : (writeLoc t e s).prev = s.prev := by cases t <;> rfl
@[simp] theorem writeLoc_splitters (t : Tap) (e : Entry) (s : State) : (writeLoc t e s).splitters = s.splitters := by cases t <;> rfl
@[simp] theorem writeLoc_result (t : Tap) (e : Entry) (s : State) : (writeLoc t e s).result = s.result := by cases t <;> rfl
@[simp] theorem writeLoc_frameRefused (t : Tap) (e : Entry) (s : State) : (writeLoc t e s).frameRefused = s.frameRefused := by cases t <;> rfl
@[simp] theorem writeLoc_diag (t : Tap) (e : Entry) (s : State) : (writeLoc t e s).diag = s.diag := by cases t <;> rfl
@[simp] theorem writeLoc_host (t : Tap) (e : Entry) (s : State) : (writeLoc t e s).host = s.host := by cases t <;> rfl
@[simp] theorem writeLoc_draw (t : Tap) (e : Entry) (s : State) : (writeLoc t e s).draw = s.draw := by cases t <;> rfl

/-! ### `persistLoc` -/

@[simp] theorem persistLoc_par (t : Tap) (s : State) : (persistLoc t s).par = s.par := writeLoc_par t _ s
@[simp] theorem persistLoc_frame (t : Tap) (s : State) : (persistLoc t s).frame = s.frame := writeLoc_frame t _ s
@[simp] theorem persistLoc_pc (t : Tap) (s : State) : (persistLoc t s).pc = s.pc := writeLoc_pc t _ s
@[simp] theorem persistLoc_listLen (t : Tap) (s : State) : (persistLoc t s).listLen = s.listLen := writeLoc_listLen t _ s
@[simp] theorem persistLoc_cmdMem (t : Tap) (s : State) : (persistLoc t s).cmdMem = s.cmdMem := writeLoc_cmdMem t _ s
@[simp] theorem persistLoc_cmd (t : Tap) (s : State) : (persistLoc t s).cmd = s.cmd := writeLoc_cmd t _ s
@[simp] theorem persistLoc_work (t : Tap) (s : State) : (persistLoc t s).work = s.work := writeLoc_work t _ s
@[simp] theorem persistLoc_srf (t : Tap) (s : State) : (persistLoc t s).srf = s.srf := writeLoc_srf t _ s
@[simp] theorem persistLoc_arena (t : Tap) (s : State) : (persistLoc t s).arena = s.arena := writeLoc_arena t _ s
@[simp] theorem persistLoc_prev (t : Tap) (s : State) : (persistLoc t s).prev = s.prev := writeLoc_prev t _ s
@[simp] theorem persistLoc_splitters (t : Tap) (s : State) : (persistLoc t s).splitters = s.splitters := writeLoc_splitters t _ s
@[simp] theorem persistLoc_result (t : Tap) (s : State) : (persistLoc t s).result = s.result := writeLoc_result t _ s
@[simp] theorem persistLoc_frameRefused (t : Tap) (s : State) : (persistLoc t s).frameRefused = s.frameRefused := writeLoc_frameRefused t _ s
@[simp] theorem persistLoc_diag (t : Tap) (s : State) : (persistLoc t s).diag = s.diag := writeLoc_diag t _ s
@[simp] theorem persistLoc_host (t : Tap) (s : State) : (persistLoc t s).host = s.host := writeLoc_host t _ s
@[simp] theorem persistLoc_draw (t : Tap) (s : State) : (persistLoc t s).draw = s.draw := writeLoc_draw t _ s

/-! ### `tailCapture` -/

@[simp] theorem tailCapture_par (v : Handle) (k : S32) (r : F32) (s : State) : (tailCapture v k r s).par = s.par := by unfold tailCapture; split <;> simp only [useDraws_par, writePrev_par]
@[simp] theorem tailCapture_frame (v : Handle) (k : S32) (r : F32) (s : State) : (tailCapture v k r s).frame = s.frame := by unfold tailCapture; split <;> simp only [useDraws_frame, writePrev_frame]
@[simp] theorem tailCapture_pc (v : Handle) (k : S32) (r : F32) (s : State) : (tailCapture v k r s).pc = s.pc := by unfold tailCapture; split <;> simp only [useDraws_pc, writePrev_pc]
@[simp] theorem tailCapture_listLen (v : Handle) (k : S32) (r : F32) (s : State) : (tailCapture v k r s).listLen = s.listLen := by unfold tailCapture; split <;> simp only [useDraws_listLen, writePrev_listLen]
@[simp] theorem tailCapture_cmdMem (v : Handle) (k : S32) (r : F32) (s : State) : (tailCapture v k r s).cmdMem = s.cmdMem := by unfold tailCapture; split <;> simp only [useDraws_cmdMem, writePrev_cmdMem]
@[simp] theorem tailCapture_cmd (v : Handle) (k : S32) (r : F32) (s : State) : (tailCapture v k r s).cmd = s.cmd := by unfold tailCapture; split <;> simp only [useDraws_cmd, writePrev_cmd]
@[simp] theorem tailCapture_work (v : Handle) (k : S32) (r : F32) (s : State) : (tailCapture v k r s).work = s.work := by unfold tailCapture; split <;> simp only [useDraws_work, writePrev_work]
@[simp] theorem tailCapture_loc0 (v : Handle) (k : S32) (r : F32) (s : State) : (tailCapture v k r s).loc0 = s.loc0 := by unfold tailCapture; split <;> simp only [useDraws_loc0, writePrev_loc0]
@[simp] theorem tailCapture_loc1 (v : Handle) (k : S32) (r : F32) (s : State) : (tailCapture v k r s).loc1 = s.loc1 := by unfold tailCapture; split <;> simp only [useDraws_loc1, writePrev_loc1]
@[simp] theorem tailCapture_srf (v : Handle) (k : S32) (r : F32) (s : State) : (tailCapture v k r s).srf = s.srf := by unfold tailCapture; split <;> simp only [useDraws_srf, writePrev_srf]
@[simp] theorem tailCapture_arena (v : Handle) (k : S32) (r : F32) (s : State) : (tailCapture v k r s).arena = s.arena := by unfold tailCapture; split <;> simp only [useDraws_arena, writePrev_arena]
@[simp] theorem tailCapture_splitters (v : Handle) (k : S32) (r : F32) (s : State) : (tailCapture v k r s).splitters = s.splitters := by unfold tailCapture; split <;> simp only [useDraws_splitters, writePrev_splitters]
@[simp] theorem tailCapture_result (v : Handle) (k : S32) (r : F32) (s : State) : (tailCapture v k r s).result = s.result := by unfold tailCapture; split <;> simp only [useDraws_result, writePrev_result]
@[simp] theorem tailCapture_frameRefused (v : Handle) (k : S32) (r : F32) (s : State) : (tailCapture v k r s).frameRefused = s.frameRefused := by unfold tailCapture; split <;> simp only [useDraws_frameRefused, writePrev_frameRefused]
@[simp] theorem tailCapture_diag (v : Handle) (k : S32) (r : F32) (s : State) : (tailCapture v k r s).diag = s.diag := by unfold tailCapture; split <;> simp only [useDraws_diag, writePrev_diag]
@[simp] theorem tailCapture_host (v : Handle) (k : S32) (r : F32) (s : State) : (tailCapture v k r s).host = s.host := by unfold tailCapture; split <;> simp only [useDraws_host, writePrev_host]

/-! ### `takeRefusal` -/

@[simp] theorem takeRefusal_par (r : RefusalReason) (s : State) : (takeRefusal r s).par = s.par := rfl
@[simp] theorem takeRefusal_frame (r : RefusalReason) (s : State) : (takeRefusal r s).frame = s.frame := rfl
@[simp] theorem takeRefusal_pc (r : RefusalReason) (s : State) : (takeRefusal r s).pc = s.pc := rfl
@[simp] theorem takeRefusal_listLen (r : RefusalReason) (s : State) : (takeRefusal r s).listLen = s.listLen := rfl
@[simp] theorem takeRefusal_cmdMem (r : RefusalReason) (s : State) : (takeRefusal r s).cmdMem = s.cmdMem := rfl
@[simp] theorem takeRefusal_cmd (r : RefusalReason) (s : State) : (takeRefusal r s).cmd = s.cmd := rfl
@[simp] theorem takeRefusal_work (r : RefusalReason) (s : State) : (takeRefusal r s).work = s.work := rfl
@[simp] theorem takeRefusal_loc0 (r : RefusalReason) (s : State) : (takeRefusal r s).loc0 = s.loc0 := rfl
@[simp] theorem takeRefusal_loc1 (r : RefusalReason) (s : State) : (takeRefusal r s).loc1 = s.loc1 := rfl
@[simp] theorem takeRefusal_srf (r : RefusalReason) (s : State) : (takeRefusal r s).srf = s.srf := rfl
@[simp] theorem takeRefusal_arena (r : RefusalReason) (s : State) : (takeRefusal r s).arena = s.arena := rfl
@[simp] theorem takeRefusal_prev (r : RefusalReason) (s : State) : (takeRefusal r s).prev = s.prev := rfl
@[simp] theorem takeRefusal_splitters (r : RefusalReason) (s : State) : (takeRefusal r s).splitters = s.splitters := rfl
@[simp] theorem takeRefusal_frameRefused (r : RefusalReason) (s : State) : (takeRefusal r s).frameRefused = s.frameRefused := rfl
@[simp] theorem takeRefusal_diag (r : RefusalReason) (s : State) : (takeRefusal r s).diag = s.diag := rfl
@[simp] theorem takeRefusal_host (r : RefusalReason) (s : State) : (takeRefusal r s).host = s.host := rfl
@[simp] theorem takeRefusal_draw (r : RefusalReason) (s : State) : (takeRefusal r s).draw = s.draw := rfl

/-! ### `finish` -/

@[simp] theorem finish_par (s : State) : (finish s).par = s.par := rfl
@[simp] theorem finish_frame (s : State) : (finish s).frame = s.frame := rfl
@[simp] theorem finish_pc (s : State) : (finish s).pc = s.pc := rfl
@[simp] theorem finish_listLen (s : State) : (finish s).listLen = s.listLen := rfl
@[simp] theorem finish_cmdMem (s : State) : (finish s).cmdMem = s.cmdMem := rfl
@[simp] theorem finish_cmd (s : State) : (finish s).cmd = s.cmd := rfl
@[simp] theorem finish_work (s : State) : (finish s).work = s.work := rfl
@[simp] theorem finish_loc0 (s : State) : (finish s).loc0 = s.loc0 := rfl
@[simp] theorem finish_loc1 (s : State) : (finish s).loc1 = s.loc1 := rfl
@[simp] theorem finish_srf (s : State) : (finish s).srf = s.srf := rfl
@[simp] theorem finish_arena (s : State) : (finish s).arena = s.arena := rfl
@[simp] theorem finish_prev (s : State) : (finish s).prev = s.prev := rfl
@[simp] theorem finish_splitters (s : State) : (finish s).splitters = s.splitters := rfl
@[simp] theorem finish_frameRefused (s : State) : (finish s).frameRefused = s.frameRefused := rfl
@[simp] theorem finish_diag (s : State) : (finish s).diag = s.diag := rfl
@[simp] theorem finish_host (s : State) : (finish s).host = s.host := rfl
@[simp] theorem finish_draw (s : State) : (finish s).draw = s.draw := rfl

/-! ### `storeDescriptor` -/

@[simp] theorem storeDescriptor_par (j : Nat) (d : Descriptor) (s : State) : (storeDescriptor j d s).par = s.par := rfl
@[simp] theorem storeDescriptor_frame (j : Nat) (d : Descriptor) (s : State) : (storeDescriptor j d s).frame = s.frame := rfl
@[simp] theorem storeDescriptor_pc (j : Nat) (d : Descriptor) (s : State) : (storeDescriptor j d s).pc = s.pc := rfl
@[simp] theorem storeDescriptor_listLen (j : Nat) (d : Descriptor) (s : State) : (storeDescriptor j d s).listLen = s.listLen := rfl
@[simp] theorem storeDescriptor_cmd (j : Nat) (d : Descriptor) (s : State) : (storeDescriptor j d s).cmd = s.cmd := rfl
@[simp] theorem storeDescriptor_work (j : Nat) (d : Descriptor) (s : State) : (storeDescriptor j d s).work = s.work := rfl
@[simp] theorem storeDescriptor_loc0 (j : Nat) (d : Descriptor) (s : State) : (storeDescriptor j d s).loc0 = s.loc0 := rfl
@[simp] theorem storeDescriptor_loc1 (j : Nat) (d : Descriptor) (s : State) : (storeDescriptor j d s).loc1 = s.loc1 := rfl
@[simp] theorem storeDescriptor_srf (j : Nat) (d : Descriptor) (s : State) : (storeDescriptor j d s).srf = s.srf := rfl
@[simp] theorem storeDescriptor_arena (j : Nat) (d : Descriptor) (s : State) : (storeDescriptor j d s).arena = s.arena := rfl
@[simp] theorem storeDescriptor_prev (j : Nat) (d : Descriptor) (s : State) : (storeDescriptor j d s).prev = s.prev := rfl
@[simp] theorem storeDescriptor_splitters (j : Nat) (d : Descriptor) (s : State) : (storeDescriptor j d s).splitters = s.splitters := rfl
@[simp] theorem storeDescriptor_result (j : Nat) (d : Descriptor) (s : State) : (storeDescriptor j d s).result = s.result := rfl
@[simp] theorem storeDescriptor_frameRefused (j : Nat) (d : Descriptor) (s : State) : (storeDescriptor j d s).frameRefused = s.frameRefused := rfl
@[simp] theorem storeDescriptor_diag (j : Nat) (d : Descriptor) (s : State) : (storeDescriptor j d s).diag = s.diag := rfl
@[simp] theorem storeDescriptor_host (j : Nat) (d : Descriptor) (s : State) : (storeDescriptor j d s).host = s.host := rfl
@[simp] theorem storeDescriptor_draw (j : Nat) (d : Descriptor) (s : State) : (storeDescriptor j d s).draw = s.draw := rfl

/-! ### `latch` -/

@[simp] theorem latch_par (s : State) : (latch s).par = s.par := rfl
@[simp] theorem latch_frame (s : State) : (latch s).frame = s.frame := rfl
@[simp] theorem latch_pc (s : State) : (latch s).pc = s.pc := rfl
@[simp] theorem latch_listLen (s : State) : (latch s).listLen = s.listLen := rfl
@[simp] theorem latch_cmdMem (s : State) : (latch s).cmdMem = s.cmdMem := rfl
@[simp] theorem latch_cmd (s : State) : (latch s).cmd = nextRecord s := rfl
@[simp] theorem latch_srf (s : State) : (latch s).srf = s.srf := rfl
@[simp] theorem latch_arena (s : State) : (latch s).arena = s.arena := rfl
@[simp] theorem latch_prev (s : State) : (latch s).prev = s.prev := rfl
@[simp] theorem latch_splitters (s : State) : (latch s).splitters = s.splitters := rfl
@[simp] theorem latch_result (s : State) : (latch s).result = s.result := rfl
@[simp] theorem latch_frameRefused (s : State) : (latch s).frameRefused = s.frameRefused := rfl
@[simp] theorem latch_diag (s : State) : (latch s).diag = s.diag := rfl
@[simp] theorem latch_host (s : State) : (latch s).host = s.host := rfl
@[simp] theorem latch_draw (s : State) : (latch s).draw = s.draw := rfl

/-! ### `afterProcess` -/

@[simp] theorem afterProcess_par (s : State) : (afterProcess s).par = s.par := rfl
@[simp] theorem afterProcess_frame (s : State) : (afterProcess s).frame = s.frame := rfl
@[simp] theorem afterProcess_listLen (s : State) : (afterProcess s).listLen = s.listLen := rfl
@[simp] theorem afterProcess_cmdMem (s : State) : (afterProcess s).cmdMem = s.cmdMem := rfl
@[simp] theorem afterProcess_cmd (s : State) : (afterProcess s).cmd = s.cmd := rfl
@[simp] theorem afterProcess_work (s : State) : (afterProcess s).work = s.work := rfl
@[simp] theorem afterProcess_loc0 (s : State) : (afterProcess s).loc0 = s.loc0 := rfl
@[simp] theorem afterProcess_loc1 (s : State) : (afterProcess s).loc1 = s.loc1 := rfl
@[simp] theorem afterProcess_srf (s : State) : (afterProcess s).srf = s.srf := rfl
@[simp] theorem afterProcess_arena (s : State) : (afterProcess s).arena = s.arena := rfl
@[simp] theorem afterProcess_prev (s : State) : (afterProcess s).prev = s.prev := rfl
@[simp] theorem afterProcess_splitters (s : State) : (afterProcess s).splitters = s.splitters := rfl
@[simp] theorem afterProcess_result (s : State) : (afterProcess s).result = s.result := rfl
@[simp] theorem afterProcess_diag (s : State) : (afterProcess s).diag = s.diag := rfl
@[simp] theorem afterProcess_host (s : State) : (afterProcess s).host = s.host := rfl
@[simp] theorem afterProcess_draw (s : State) : (afterProcess s).draw = s.draw := rfl

/-! ### What is set -/

@[simp] theorem writeArena_arena (a : Nat) (v : S32) (s : State) : (writeArena a v s).arena = s.arena.write (arenaAddr a) 4 v.toNat := rfl
@[simp] theorem writeSrfWord_srf (h k : Nat) (v : Word64) (s : State) : (writeSrfWord h k v s).srf = s.srf.write (srfAddr h k) 8 v.toNat := rfl
@[simp] theorem writePrev_prev (v k : Nat) (x : S32) (s : State) : (writePrev v k x s).prev = s.prev.write (prevAddr s.par v k) 4 x.toNat := rfl
@[simp] theorem useDraws_draw (k : Nat) (s : State) : (useDraws k s).draw = s.draw + k := rfl
@[simp] theorem takeRefusal_result (r : RefusalReason) (s : State) : (takeRefusal r s).result = some (.refused r) := rfl
@[simp] theorem finish_result (s : State) : (finish s).result = some .done := rfl
@[simp] theorem afterProcess_pc (s : State) : (afterProcess s).pc = if s.pc < s.listLen then s.pc + 1 else s.pc := rfl
@[simp] theorem afterProcess_frameRefused (s : State) : (afterProcess s).frameRefused = (s.frameRefused || Result.isRefused s.result) := rfl
@[simp] theorem setVol_vol (v : F64) (s : State) : (setVol v s).work.vol = v := rfl
@[simp] theorem setRamp_ramp (v : F64) (s : State) : (setRamp v s).work.ramp = v := rfl
@[simp] theorem setLast_last (v : F64) (s : State) : (setLast v s).work.last = v := rfl
@[simp] theorem clearI_i (s : State) : (clearI s).work.i = 0#32 := rfl
@[simp] theorem nextI_i (s : State) : (nextI s).work.i = s.work.i + 1#32 := rfl
@[simp] theorem loadF32_draw (t : Tap) (c : F32Params) (s : State) : (loadF32 t c s).draw = s.draw + 5 := by simp only [loadF32, useDraws_draw, setCoeffs_draw]

/-! ### The working registers one by one -/

@[simp] theorem setVol_work_c0 (v : F64) (s : State) : (setVol v s).work.c0 = s.work.c0 := rfl
@[simp] theorem setVol_work_c1 (v : F64) (s : State) : (setVol v s).work.c1 = s.work.c1 := rfl
@[simp] theorem setVol_work_d0 (v : F64) (s : State) : (setVol v s).work.d0 = s.work.d0 := rfl
@[simp] theorem setVol_work_d1 (v : F64) (s : State) : (setVol v s).work.d1 = s.work.d1 := rfl
@[simp] theorem setVol_work_ramp (v : F64) (s : State) : (setVol v s).work.ramp = s.work.ramp := rfl
@[simp] theorem setVol_work_last (v : F64) (s : State) : (setVol v s).work.last = s.work.last := rfl
@[simp] theorem setVol_work_i (v : F64) (s : State) : (setVol v s).work.i = s.work.i := rfl
@[simp] theorem setRamp_work_c0 (v : F64) (s : State) : (setRamp v s).work.c0 = s.work.c0 := rfl
@[simp] theorem setRamp_work_c1 (v : F64) (s : State) : (setRamp v s).work.c1 = s.work.c1 := rfl
@[simp] theorem setRamp_work_d0 (v : F64) (s : State) : (setRamp v s).work.d0 = s.work.d0 := rfl
@[simp] theorem setRamp_work_d1 (v : F64) (s : State) : (setRamp v s).work.d1 = s.work.d1 := rfl
@[simp] theorem setRamp_work_vol (v : F64) (s : State) : (setRamp v s).work.vol = s.work.vol := rfl
@[simp] theorem setRamp_work_last (v : F64) (s : State) : (setRamp v s).work.last = s.work.last := rfl
@[simp] theorem setRamp_work_i (v : F64) (s : State) : (setRamp v s).work.i = s.work.i := rfl
@[simp] theorem setLast_work_c0 (v : F64) (s : State) : (setLast v s).work.c0 = s.work.c0 := rfl
@[simp] theorem setLast_work_c1 (v : F64) (s : State) : (setLast v s).work.c1 = s.work.c1 := rfl
@[simp] theorem setLast_work_d0 (v : F64) (s : State) : (setLast v s).work.d0 = s.work.d0 := rfl
@[simp] theorem setLast_work_d1 (v : F64) (s : State) : (setLast v s).work.d1 = s.work.d1 := rfl
@[simp] theorem setLast_work_vol (v : F64) (s : State) : (setLast v s).work.vol = s.work.vol := rfl
@[simp] theorem setLast_work_ramp (v : F64) (s : State) : (setLast v s).work.ramp = s.work.ramp := rfl
@[simp] theorem setLast_work_i (v : F64) (s : State) : (setLast v s).work.i = s.work.i := rfl
@[simp] theorem clearI_work_c0 (s : State) : (clearI s).work.c0 = s.work.c0 := rfl
@[simp] theorem clearI_work_c1 (s : State) : (clearI s).work.c1 = s.work.c1 := rfl
@[simp] theorem clearI_work_d0 (s : State) : (clearI s).work.d0 = s.work.d0 := rfl
@[simp] theorem clearI_work_d1 (s : State) : (clearI s).work.d1 = s.work.d1 := rfl
@[simp] theorem clearI_work_vol (s : State) : (clearI s).work.vol = s.work.vol := rfl
@[simp] theorem clearI_work_ramp (s : State) : (clearI s).work.ramp = s.work.ramp := rfl
@[simp] theorem clearI_work_last (s : State) : (clearI s).work.last = s.work.last := rfl
@[simp] theorem nextI_work_c0 (s : State) : (nextI s).work.c0 = s.work.c0 := rfl
@[simp] theorem nextI_work_c1 (s : State) : (nextI s).work.c1 = s.work.c1 := rfl
@[simp] theorem nextI_work_d0 (s : State) : (nextI s).work.d0 = s.work.d0 := rfl
@[simp] theorem nextI_work_d1 (s : State) : (nextI s).work.d1 = s.work.d1 := rfl
@[simp] theorem nextI_work_vol (s : State) : (nextI s).work.vol = s.work.vol := rfl
@[simp] theorem nextI_work_ramp (s : State) : (nextI s).work.ramp = s.work.ramp := rfl
@[simp] theorem nextI_work_last (s : State) : (nextI s).work.last = s.work.last := rfl
@[simp] theorem setCoeffs_t0_c0 (c : Coeffs) (s : State) : (setCoeffs .t0 c s).work.c0 = c := rfl
@[simp] theorem setCoeffs_t0_c1 (c : Coeffs) (s : State) : (setCoeffs .t0 c s).work.c1 = s.work.c1 := rfl
@[simp] theorem setCoeffs_t0_d0 (c : Coeffs) (s : State) : (setCoeffs .t0 c s).work.d0 = s.work.d0 := rfl
@[simp] theorem setCoeffs_t0_d1 (c : Coeffs) (s : State) : (setCoeffs .t0 c s).work.d1 = s.work.d1 := rfl
@[simp] theorem setCoeffs_t0_vol (c : Coeffs) (s : State) : (setCoeffs .t0 c s).work.vol = s.work.vol := rfl
@[simp] theorem setCoeffs_t0_ramp (c : Coeffs) (s : State) : (setCoeffs .t0 c s).work.ramp = s.work.ramp := rfl
@[simp] theorem setCoeffs_t0_last (c : Coeffs) (s : State) : (setCoeffs .t0 c s).work.last = s.work.last := rfl
@[simp] theorem setCoeffs_t0_i (c : Coeffs) (s : State) : (setCoeffs .t0 c s).work.i = s.work.i := rfl
@[simp] theorem setCoeffs_t1_c0 (c : Coeffs) (s : State) : (setCoeffs .t1 c s).work.c0 = s.work.c0 := rfl
@[simp] theorem setCoeffs_t1_c1 (c : Coeffs) (s : State) : (setCoeffs .t1 c s).work.c1 = c := rfl
@[simp] theorem setCoeffs_t1_d0 (c : Coeffs) (s : State) : (setCoeffs .t1 c s).work.d0 = s.work.d0 := rfl
@[simp] theorem setCoeffs_t1_d1 (c : Coeffs) (s : State) : (setCoeffs .t1 c s).work.d1 = s.work.d1 := rfl
@[simp] theorem setCoeffs_t1_vol (c : Coeffs) (s : State) : (setCoeffs .t1 c s).work.vol = s.work.vol := rfl
@[simp] theorem setCoeffs_t1_ramp (c : Coeffs) (s : State) : (setCoeffs .t1 c s).work.ramp = s.work.ramp := rfl
@[simp] theorem setCoeffs_t1_last (c : Coeffs) (s : State) : (setCoeffs .t1 c s).work.last = s.work.last := rfl
@[simp] theorem setCoeffs_t1_i (c : Coeffs) (s : State) : (setCoeffs .t1 c s).work.i = s.work.i := rfl
@[simp] theorem setDelay_t0_c0 (d : Delay) (s : State) : (setDelay .t0 d s).work.c0 = s.work.c0 := rfl
@[simp] theorem setDelay_t0_c1 (d : Delay) (s : State) : (setDelay .t0 d s).work.c1 = s.work.c1 := rfl
@[simp] theorem setDelay_t0_d0 (d : Delay) (s : State) : (setDelay .t0 d s).work.d0 = d := rfl
@[simp] theorem setDelay_t0_d1 (d : Delay) (s : State) : (setDelay .t0 d s).work.d1 = s.work.d1 := rfl
@[simp] theorem setDelay_t0_vol (d : Delay) (s : State) : (setDelay .t0 d s).work.vol = s.work.vol := rfl
@[simp] theorem setDelay_t0_ramp (d : Delay) (s : State) : (setDelay .t0 d s).work.ramp = s.work.ramp := rfl
@[simp] theorem setDelay_t0_last (d : Delay) (s : State) : (setDelay .t0 d s).work.last = s.work.last := rfl
@[simp] theorem setDelay_t0_i (d : Delay) (s : State) : (setDelay .t0 d s).work.i = s.work.i := rfl
@[simp] theorem setDelay_t1_c0 (d : Delay) (s : State) : (setDelay .t1 d s).work.c0 = s.work.c0 := rfl
@[simp] theorem setDelay_t1_c1 (d : Delay) (s : State) : (setDelay .t1 d s).work.c1 = s.work.c1 := rfl
@[simp] theorem setDelay_t1_d0 (d : Delay) (s : State) : (setDelay .t1 d s).work.d0 = s.work.d0 := rfl
@[simp] theorem setDelay_t1_d1 (d : Delay) (s : State) : (setDelay .t1 d s).work.d1 = d := rfl
@[simp] theorem setDelay_t1_vol (d : Delay) (s : State) : (setDelay .t1 d s).work.vol = s.work.vol := rfl
@[simp] theorem setDelay_t1_ramp (d : Delay) (s : State) : (setDelay .t1 d s).work.ramp = s.work.ramp := rfl
@[simp] theorem setDelay_t1_last (d : Delay) (s : State) : (setDelay .t1 d s).work.last = s.work.last := rfl
@[simp] theorem setDelay_t1_i (d : Delay) (s : State) : (setDelay .t1 d s).work.i = s.work.i := rfl

/-! ### The tapped registers through their readers -/

@[simp] theorem coeffs_t0 (s : State) : coeffs .t0 s = s.work.c0 := rfl
@[simp] theorem delay_t0 (s : State) : delay .t0 s = s.work.d0 := rfl
@[simp] theorem readLoc_t0 (s : State) : readLoc .t0 s = s.loc0 := rfl
@[simp] theorem coeffs_t1 (s : State) : coeffs .t1 s = s.work.c1 := rfl
@[simp] theorem delay_t1 (s : State) : delay .t1 s = s.work.d1 := rfl
@[simp] theorem readLoc_t1 (s : State) : readLoc .t1 s = s.loc1 := rfl
@[simp] theorem writeLoc_t0_loc0 (e : Entry) (s : State) : (writeLoc .t0 e s).loc0 = e := rfl
@[simp] theorem writeLoc_t0_loc1 (e : Entry) (s : State) : (writeLoc .t0 e s).loc1 = s.loc1 := rfl
@[simp] theorem writeLoc_t1_loc0 (e : Entry) (s : State) : (writeLoc .t1 e s).loc0 = s.loc0 := rfl
@[simp] theorem writeLoc_t1_loc1 (e : Entry) (s : State) : (writeLoc .t1 e s).loc1 = e := rfl
@[simp] theorem coeffs_setDelay (t u : Tap) (d : Delay) (s : State) : coeffs t (setDelay u d s) = coeffs t s := by
  cases t <;> cases u <;> rfl
@[simp] theorem delay_setDelay_same (t : Tap) (d : Delay) (s : State) : delay t (setDelay t d s) = d := by
  cases t <;> rfl
@[simp] theorem delay_setCoeffs (t u : Tap) (c : Coeffs) (s : State) : delay t (setCoeffs u c s) = delay t s := by
  cases t <;> cases u <;> rfl
@[simp] theorem coeffs_setCoeffs_same (t : Tap) (c : Coeffs) (s : State) : coeffs t (setCoeffs t c s) = c := by
  cases t <;> rfl

/-! ### The loads -/

@[simp] theorem loadState_t0_work (e : Entry) (s : State) :
    (loadState .t0 e s).work = { s.work with d0 := ⟨e.w0, e.w1, e.w2, e.w3⟩ } := rfl
@[simp] theorem loadState_t1_work (e : Entry) (s : State) :
    (loadState .t1 e s).work = { s.work with d1 := ⟨e.w0, e.w1, e.w2, e.w3⟩ } := rfl
@[simp] theorem loadAcc_work (e : Entry) (s : State) :
    (loadAcc e s).work = { s.work with d0 := { s.work.d0 with s0 := e.w0, s1 := e.w1 } } := rfl
@[simp] theorem loadQ14_t0_work (c : Q14Params) (s : State) :
    (loadQ14 .t0 c s).work = { s.work with c0 := decodeQ14 c } := rfl
@[simp] theorem loadQ14_t1_work (c : Q14Params) (s : State) :
    (loadQ14 .t1 c s).work = { s.work with c1 := decodeQ14 c } := rfl
@[simp] theorem loadF32_t0_work (c : F32Params) (s : State) :
    (loadF32 .t0 c s).work = { s.work with c0 := decodeF32 s.draw c } := rfl
@[simp] theorem loadF32_t1_work (c : F32Params) (s : State) :
    (loadF32 .t1 c s).work = { s.work with c1 := decodeF32 s.draw c } := rfl
@[simp] theorem loadInt_work (c : Q14Params) (s : State) :
    (loadInt c s).work = { s.work with c0 := decodeInt c } := rfl

end Sys2Proof.Machine
end

