-- ==== Sys2Proof/Laws/Ops.lean ====
section
/-! SUPPORT. What each shared operation of Ops.lean can do: reads after writes of samples, state entries and tail samples,
the checks of `validate`, the two ways `Process` ends, state preparation, tail capture, the canonical form of the images. -/

namespace Sys2Proof.Machine

/-! ### Samples -/

@[simp] theorem readArena_writeArena_same (a : Nat) (v : S32) (s : State) : readArena a (writeArena a v s) = v := by
  rw [readArena, writeArena_arena, Memory.read_write_same, Nat.mod_eq_of_lt (show v.toNat < 256 ^ _ from v.isLt),
    BitVec.ofNat_toNat, BitVec.setWidth_eq]

theorem readArena_writeArena_ne {a b : Nat} (v : S32) (s : State) (h : b ≠ a) :
    readArena b (writeArena a v s) = readArena b s := by
  rw [readArena, writeArena_arena, Memory.read_write_disjoint, readArena]
  simp only [arenaAddr]; omega

theorem readArena_congr {s t : State} (h : t.arena = s.arena) (a : Nat) : readArena a t = readArena a s := by
  rw [readArena, h, readArena]

/-! ### State entries -/

@[simp] theorem readSrfWord_writeSrfWord_same (h k : Nat) (v : Word64) (s : State) :
    readSrfWord h k (writeSrfWord h k v s) = v := by
  rw [readSrfWord, writeSrfWord_srf, Memory.read_write_same, Nat.mod_eq_of_lt (show v.toNat < 256 ^ _ from v.isLt),
    BitVec.ofNat_toNat, BitVec.setWidth_eq]

/-- Words of entries do not overlap. -/
theorem srfAddr_disjoint {h k h' k' : Nat} (hk : k < 4) (hk' : k' < 4) (hne : h ≠ h' ∨ k ≠ k') :
    srfAddr h k + 8 ≤ srfAddr h' k' ∨ srfAddr h' k' + 8 ≤ srfAddr h k := by
  simp only [srfAddr]; omega

theorem readSrfWord_writeSrfWord_ne {h k h' k' : Nat} (v : Word64) (s : State) (hk : k < 4) (hk' : k' < 4)
    (hne : h ≠ h' ∨ k ≠ k') : readSrfWord h k (writeSrfWord h' k' v s) = readSrfWord h k s := by
  rw [readSrfWord, writeSrfWord_srf, Memory.read_write_disjoint, readSrfWord]
  exact srfAddr_disjoint hk hk' hne

theorem readSrfWord_congr {s t : State} (h : t.srf = s.srf) (g k : Nat) : readSrfWord g k t = readSrfWord g k s := by
  rw [readSrfWord, h, readSrfWord]

theorem readEntry_congr {s t : State} (h : t.srf = s.srf) (g : Handle) : readEntry g t = readEntry g s := by
  simp only [readEntry, readSrfWord_congr h]

@[simp] theorem readEntry_writeEntry_same (h : Handle) (e : Entry) (s : State) : readEntry h (writeEntry h e s) = e := by
  simp only [readEntry, writeEntry]
  rw [readSrfWord_writeSrfWord_ne _ _ (by omega) (by omega) (.inr (by omega)),
    readSrfWord_writeSrfWord_ne _ _ (by omega) (by omega) (.inr (by omega)),
    readSrfWord_writeSrfWord_ne _ _ (by omega) (by omega) (.inr (by omega)), readSrfWord_writeSrfWord_same,
    readSrfWord_writeSrfWord_ne _ _ (by omega) (by omega) (.inr (by omega)),
    readSrfWord_writeSrfWord_ne _ _ (by omega) (by omega) (.inr (by omega)), readSrfWord_writeSrfWord_same,
    readSrfWord_writeSrfWord_ne _ _ (by omega) (by omega) (.inr (by omega)), readSrfWord_writeSrfWord_same,
    readSrfWord_writeSrfWord_same]

theorem readSrfWord_writeEntry_ne {h : Nat} {g : Handle} {k : Nat} (e : Entry) (s : State) (hk : k < 4) (hne : h ≠ g.toNat) :
    readSrfWord h k (writeEntry g e s) = readSrfWord h k s := by
  simp only [writeEntry]
  rw [readSrfWord_writeSrfWord_ne _ _ hk (by omega) (.inl hne), readSrfWord_writeSrfWord_ne _ _ hk (by omega) (.inl hne),
    readSrfWord_writeSrfWord_ne _ _ hk (by omega) (.inl hne), readSrfWord_writeSrfWord_ne _ _ hk (by omega) (.inl hne)]

theorem readEntry_writeEntry_ne {g h : Handle} (e : Entry) (s : State) (hne : h ≠ g) :
    readEntry h (writeEntry g e s) = readEntry h s := by
  have hne' : h.toNat ≠ g.toNat := fun he => hne (BitVec.eq_of_toNat_eq he)
  simp only [readEntry, readSrfWord_writeEntry_ne e s (by omega : 0 < 4) hne',
    readSrfWord_writeEntry_ne e s (by omega : 1 < 4) hne', readSrfWord_writeEntry_ne e s (by omega : 2 < 4) hne',
    readSrfWord_writeEntry_ne e s (by omega : 3 < 4) hne']

theorem readEntry_writeEntry (g h : Handle) (e : Entry) (s : State) :
    readEntry h (writeEntry g e s) = if h = g then e else readEntry h s := by
  split
  · subst h; exact readEntry_writeEntry_same g e s
  · exact readEntry_writeEntry_ne e s ‹_›

/-- A byte outside an entry is not touched by a write of the entry. -/
theorem readByte_writeEntry_outside (h : Handle) (e : Entry) (s : State) {a : Nat}
    (ha : a < srfAddr h.toNat 0 ∨ srfAddr h.toNat 0 + 32 ≤ a) :
    (writeEntry h e s).srf.readByte .srf a = s.srf.readByte .srf a := by
  simp only [writeEntry, writeSrfWord_srf]
  simp only [srfAddr] at *
  rw [Memory.readByte_write_outside _ _ _ _ _ _ (by omega), Memory.readByte_write_outside _ _ _ _ _ _ (by omega),
    Memory.readByte_write_outside _ _ _ _ _ _ (by omega), Memory.readByte_write_outside _ _ _ _ _ _ (by omega)]

/-! ### Tail samples -/

@[simp] theorem readPrev_writePrev_same (v k : Nat) (x : S32) (s : State) : readPrev v k (writePrev v k x s) = x := by
  rw [readPrev, writePrev_prev, writePrev_par, Memory.read_write_same, Nat.mod_eq_of_lt (show x.toNat < 256 ^ _ from x.isLt),
    BitVec.ofNat_toNat, BitVec.setWidth_eq]

theorem prevAddr_inj {p : Params} {v k v' k' : Nat} (hk : k < p.prevLen) (hk' : k' < p.prevLen)
    (hne : v ≠ v' ∨ k ≠ k') : prevAddr p v k + 4 ≤ prevAddr p v' k' ∨ prevAddr p v' k' + 4 ≤ prevAddr p v k := by
  simp only [prevAddr]
  rcases Nat.lt_trichotomy v v' with h | h | h
  · have := Nat.mul_le_mul_right p.prevLen (Nat.succ_le_of_lt h)
    rw [Nat.succ_mul] at this; omega
  · subst h; omega
  · have := Nat.mul_le_mul_right p.prevLen (Nat.succ_le_of_lt h)
    rw [Nat.succ_mul] at this; omega

theorem readPrev_writePrev_ne {v k v' k' : Nat} (x : S32) (s : State) (hk : k < s.par.prevLen) (hk' : k' < s.par.prevLen)
    (hne : v ≠ v' ∨ k ≠ k') : readPrev v k (writePrev v' k' x s) = readPrev v k s := by
  rw [readPrev, writePrev_prev, writePrev_par, Memory.read_write_disjoint, readPrev]
  exact prevAddr_inj hk hk' hne

theorem readPrev_congr {s t : State} (h : t.prev = s.prev) (hp : t.par = s.par) (v k : Nat) :
    readPrev v k t = readPrev v k s := by
  rw [readPrev, h, hp, readPrev]

/-! ### Spans (20_memory.md R52, R54) -/

theorem buffer_toNat_inj {k k' : S16} (h : 0 ≤ k.toInt) (h' : 0 ≤ k'.toInt) (hne : k ≠ k') :
    k.toInt.toNat ≠ k'.toInt.toNat := by
  intro he
  have : k.toInt = k'.toInt := by omega
  exact hne (BitVec.toInt_inj.mp this)

theorem sampleIndex_ne {k k' : S16} {n i j : Nat} (h : 0 ≤ k.toInt) (h' : 0 ≤ k'.toInt) (hi : i < n) (hj : j < n)
    (hne : k ≠ k' ∨ i ≠ j) : sampleIndex k n i ≠ sampleIndex k' n j := by
  simp only [sampleIndex]
  intro he
  have hm : (k.toInt.toNat * n + i) % n = (k'.toInt.toNat * n + j) % n := by rw [he]
  rw [Nat.mul_comm, Nat.mul_add_mod, Nat.mod_eq_of_lt hi, Nat.mul_comm, Nat.mul_add_mod, Nat.mod_eq_of_lt hj] at hm
  subst hm
  have hq := Nat.eq_of_mul_eq_mul_right (by omega : 0 < n) (Nat.add_right_cancel he)
  rcases hne with hk | hk
  · exact buffer_toNat_inj h h' hk hq
  · exact hk rfl

theorem sampleIndex_lt {k : S16} {nbuf n i : Nat} (h : 0 ≤ k.toInt) (h' : k.toInt < (nbuf : Int)) (hi : i < n) :
    sampleIndex k n i < nbuf * n := by
  simp only [sampleIndex]
  have := Nat.mul_le_mul_right n (show k.toInt.toNat + 1 ≤ nbuf by omega)
  rw [Nat.succ_mul] at this; omega

/-! ### `validate` and `Process` -/

theorem firstFailing_eq_none (l : List (Bool × RefusalReason)) :
    firstFailing l = none ↔ ∀ p ∈ l, p.1 = false := by
  induction l with
  | nil => simp [firstFailing]
  | cons p l ih =>
    obtain ⟨b, r⟩ := p
    cases b <;> simp [firstFailing, ih]

/-- `validate` finds nothing exactly when the command is accepted. -/
theorem validate_eq_none (i : Instr) (s : State) : validate i s = none ↔ CommandOk i s := by
  have hv : voiceBad s.par i = false ↔
      (i.ramped = true → ∀ v, i.voiceState = some v → v.toNat < s.par.nvoice) := by
    rw [voiceBad]
    cases i.ramped <;> cases i.voiceState <;> simp
  rw [validate, firstFailing_eq_none]
  simp only [checks, List.mem_cons, List.not_mem_nil, or_false, forall_eq_or_imp, forall_eq, bufferValid, Instr.wellFormed,
    hv]
  constructor
  · rintro ⟨h1, h2, h3, h4, h5, h6⟩
    refine ⟨?_, ?_, ?_, ?_, ?_, h6⟩
    · intro hf; simpa [hf] using h1
    · simpa using h2
    · simpa using h3
    · simpa using h4
    · simpa [handleBad, or_imp, forall_and] using h5
  · rintro ⟨h1, h2, h3, h4, h5, h6⟩
    refine ⟨?_, ?_, ?_, ?_, ?_, h6⟩
    · cases hf : i.useFloatCoefficients
      · rfl
      · simp [h1 hf]
    · simpa using h2
    · simpa using h3
    · simpa using h4
    · simpa [handleBad, or_imp, forall_and] using h5

theorem process_ok {i : Instr} {s : State} (h : CommandOk i s) (steps : State → State) :
    process i steps s = .next (finish (steps s)) := by
  rw [process, (validate_eq_none i s).mpr h]

/-- Everything `Process` can do: run the steps of an accepted command, or refuse and change nothing. -/
theorem process_cases (i : Instr) (steps : State → State) (s : State) :
    (CommandOk i s ∧ process i steps s = .next (finish (steps s))) ∨
      ∃ r, validate i s = some r ∧ process i steps s = .next (takeRefusal r s) := by
  cases h : validate i s with
  | none => exact .inl ⟨(validate_eq_none i s).mp h, by rw [process, h]⟩
  | some r => exact .inr ⟨r, rfl, by rw [process, h]⟩

/-- The steps of a form (44_command_process.md R180). -/
def stepsOf : Instr → State → State
  | .bqfI o c => fun s =>
    persistAcc o.state0 (kernelKI o.input o.output
      (let s := loadInt c (prepPlain o.state0 o.needsInit0 s); loadAcc (readEntry o.state0 s) s))
  | .bqfD o c => fun s =>
    persistState .t0 o.state0 (kernelKD o.input o.output
      (let s := loadQ14 .t0 c (prepPlain o.state0 o.needsInit0 s); loadState .t0 (readEntry o.state0 s) s))
  | .bqfDF o c => fun s =>
    persistState .t0 o.state0 (kernelKD o.input o.output
      (let s := loadF32 .t0 c (prepPlain o.state0 o.needsInit0 s); loadState .t0 (readEntry o.state0 s) s))
  | .bqfm o c => mixSteps o (loadQ14 .t0 c)
  | .bqfmF o c => mixSteps o (loadF32 .t0 c)
  | .bqfmR o c => mixRampSteps o (loadQ14 .t0 c)
  | .bqfmRF o c => mixRampSteps o (loadF32 .t0 c)
  | .mtbqfm o c0 c1 => multiTapSteps o (loadQ14Pair c0 c1)
  | .mtbqfmF o c0 c1 => multiTapSteps o (loadF32Pair c0 c1)
  | .mtbqfmR o c0 c1 => multiTapRampSteps o (loadQ14Pair c0 c1)
  | .mtbqfmRF o c0 c1 => multiTapRampSteps o (loadF32Pair c0 c1)

/-- Every arm of `exec` is `Process` of its form's steps. -/
theorem exec_eq_process (i : Instr) (s : State) : exec i s = process i (stepsOf i) s := by
  cases i <;> rfl

theorem exec_ok {i : Instr} {s : State} (h : CommandOk i s) : exec i s = .next (finish (stepsOf i s)) := by
  rw [exec_eq_process, process_ok h]

/-- Everything `exec` can do. -/
theorem exec_cases (i : Instr) (s : State) :
    (CommandOk i s ∧ exec i s = .next (finish (stepsOf i s))) ∨
      ∃ r, validate i s = some r ∧ exec i s = .next (takeRefusal r s) := by
  rw [exec_eq_process]
  exact process_cases i (stepsOf i) s

/-! ### State preparation -/

/-- Each branch of the preparation writes one entry, or none. -/
theorem prepForked_eq (h p : Handle) (ni first : Bool) (s : State) :
    prepForked h p ni first s =
      if ni then writeEntry h Entry.zero s
      else if first then writeEntry p (readEntry h s) s else writeEntry h (readEntry p s) s := by
  rw [prepForked, zeroEntry, copyEntry, copyEntry]

theorem prepPlain_eq (h : Handle) (ni : Bool) (s : State) :
    prepPlain h ni s = if ni then writeEntry h Entry.zero s else s := by
  rw [prepPlain, zeroEntry]

theorem readEntry_prepForked (h p g : Handle) (ni first : Bool) (s : State) :
    readEntry g (prepForked h p ni first s) =
      if ni then (if g = h then Entry.zero else readEntry g s)
      else if first then (if g = p then readEntry h s else readEntry g s)
      else (if g = h then readEntry p s else readEntry g s) := by
  rw [prepForked_eq]
  split
  · exact readEntry_writeEntry h g _ s
  · split
    · exact readEntry_writeEntry p g _ s
    · exact readEntry_writeEntry h g _ s

/-- What the filter starts from. -/
theorem readEntry_prepForked_state (h p : Handle) (ni first : Bool) (s : State) :
    readEntry h (prepForked h p ni first s) = preparedEntry h p ni first s := by
  rw [readEntry_prepForked, preparedEntry]
  cases ni <;> cases first <;> simp

theorem readEntry_prepPlain (h g : Handle) (ni : Bool) (s : State) :
    readEntry g (prepPlain h ni s) = if ni ∧ g = h then Entry.zero else readEntry g s := by
  cases ni <;> simp [prepPlain, zeroEntry, readEntry_writeEntry]

@[simp] theorem persistedEntry_loadState (t : Tap) (e : Entry) (s : State) : persistedEntry t (loadState t e s) = e := by
  simp only [persistedEntry, loadState, delay_setDelay_same]

/-! ### Tail capture -/

/-- The index of a tail sample, if it is one. -/
theorem tailCapture_cases (v : Handle) (k : S32) (r : F32) (s : State) :
    (0 ≤ k.toInt ∧ k.toInt < (s.par.prevLen : Int) ∧
      tailCapture v k r s = useDraws 1 (writePrev v.toNat k.toInt.toNat (f32ToS32Trunc s.draw r) s)) ∨
    (¬ (0 ≤ k.toInt ∧ k.toInt < (s.par.prevLen : Int)) ∧ tailCapture v k r s = s) := by
  rw [tailCapture]
  split
  · rename_i h; exact .inl ⟨h.1, h.2, rfl⟩
  · rename_i h; exact .inr ⟨h, rfl⟩

/-! ### The canonical form and the bounds of the images -/

theorem Memory.below_write {m : Memory} {n : Nat} (h : m.below n) {addr k v : Nat} (hb : addr + k ≤ n) :
    (m.write addr k v).below n := by
  intro c hc
  rcases Memory.mem_write hc with ⟨_, h2⟩ | hm
  · omega
  · exact h c hm

theorem writeArena_wf {s : State} (h : s.arena.wf) (a : Nat) (v : S32) : (writeArena a v s).arena.wf :=
  Memory.wf_write h _ _ _

theorem writeEntry_wf {s : State} (hs : s.srf.wf) (h : Handle) (e : Entry) : (writeEntry h e s).srf.wf := by
  simp only [writeEntry, writeSrfWord_srf]
  exact Memory.wf_write (Memory.wf_write (Memory.wf_write (Memory.wf_write hs _ _ _) _ _ _) _ _ _) _ _ _

theorem writeEntry_below {s : State} {n : Nat} (hs : s.srf.below (32 * n)) {h : Handle} (hh : h.toNat < n) (e : Entry) :
    (writeEntry h e s).srf.below (32 * n) := by
  simp only [writeEntry, writeSrfWord_srf]
  refine Memory.below_write (Memory.below_write (Memory.below_write (Memory.below_write hs ?_) ?_) ?_) ?_ <;>
    simp only [srfAddr] <;> omega

theorem prepForked_wf {s : State} (hs : s.srf.wf) (h p : Handle) (ni first : Bool) : (prepForked h p ni first s).srf.wf := by
  rw [prepForked_eq]
  split
  · exact writeEntry_wf hs _ _
  · split <;> exact writeEntry_wf hs _ _

theorem prepForked_below {s : State} {n : Nat} (hs : s.srf.below (32 * n)) {h p : Handle} (hh : h.toNat < n)
    (hp : p.toNat < n) (ni first : Bool) : (prepForked h p ni first s).srf.below (32 * n) := by
  rw [prepForked_eq]
  split
  · exact writeEntry_below hs hh _
  · split
    · exact writeEntry_below hs hp _
    · exact writeEntry_below hs hh _

theorem prepPlain_wf {s : State} (hs : s.srf.wf) (h : Handle) (ni : Bool) : (prepPlain h ni s).srf.wf := by
  rw [prepPlain_eq]
  split
  · exact writeEntry_wf hs _ _
  · exact hs

theorem prepPlain_below {s : State} {n : Nat} (hs : s.srf.below (32 * n)) {h : Handle} (hh : h.toNat < n) (ni : Bool) :
    (prepPlain h ni s).srf.below (32 * n) := by
  rw [prepPlain_eq]
  split
  · exact writeEntry_below hs hh _
  · exact hs

theorem storeWords_wf {m : Memory} (h : m.wf) (addr : Nat) (ws : List (BitVec 32)) : (storeWords m addr ws).wf := by
  induction ws generalizing m addr with
  | nil => exact h
  | cons w ws ih => exact ih (Memory.wf_write h _ _ _) _

end Sys2Proof.Machine
end

