-- ==== Sys2Proof/Laws/Kernels.lean ====
section
/-! SUPPORT. The sample loops once and for all: a kernel's body is a pure function of the working registers, the draw
number, the input sample and the old output sample; its loop is that function folded over the block. -/

namespace Sys2Proof.Machine

/-! ### The loop of a kernel -/

/-- One sample as a pure function: registers, draw number, input sample, old output sample to the stored sample, registers
and draw number. -/
abbrev SampleFn := Work → Nat → S32 → S32 → S32 × Work × Nat

/-- A sample function folded over a block. -/
def runBlock (f : SampleFn) : Work → Nat → List (S32 × S32) → List S32 × Work × Nat
  | w, k, [] => ([], w, k)
  | w, k, (x, old) :: rest =>
    let r := f w k x old
    let q := runBlock f r.2.1 r.2.2 rest
    (r.1 :: q.1, q.2)

/-- The `m` samples of a buffer from sample `i` on. -/
def samplesFrom (k : S16) (i m : Nat) (s : State) : List S32 :=
  (List.range' i m).map fun j => readArena (sampleIndex k s.frame.toNat j) s

theorem samples_eq_samplesFrom (k : S16) (s : State) : samples k s = samplesFrom k 0 s.frame.toNat s := by
  rw [samples, samplesFrom, List.range_eq_range']

@[simp] theorem length_samples (k : S16) (s : State) : (samples k s).length = s.frame.toNat := by simp [samples]

theorem samples_congr {s t : State} (ha : t.arena = s.arena) (hf : t.frame = s.frame) (k : S16) :
    samples k t = samples k s := by
  simp only [samples, hf, readArena_congr ha]

/-- A body is the sample function `f` at the current sample. -/
def IsBody (input output : S16) (f : SampleFn) (body : State → State) : Prop :=
  ∀ s, body s =
    (let r := f s.work s.draw (readArena (currentSample input s) s) (readArena (currentSample output s) s)
     writeArena (currentSample output s) r.1 { s with work := r.2.1, draw := r.2.2 })

/-- A sample function counts its sample. -/
def Counts (f : SampleFn) : Prop := ∀ w k x old, (f w k x old).2.1.i = w.i + 1#32

/-- What a loop leaves: only the arena, the registers and the draw number can differ. -/
theorem loop_keeps {input output : S16} {f : SampleFn} {body : State → State} (hb : IsBody input output f body) (m : Nat)
    (s : State) : loop body m s =
      { s with arena := (loop body m s).arena, work := (loop body m s).work, draw := (loop body m s).draw } := by
  induction m generalizing s with
  | zero => rfl
  | succ m ih => rw [loop, ih (body s), hb s]; rfl

theorem loop_frame {input output : S16} {f : SampleFn} {body : State → State} (hb : IsBody input output f body) (m : Nat)
    (s : State) : (loop body m s).frame = s.frame := by rw [loop_keeps hb m s]

/-- The bytes outside the written samples are kept. -/
theorem loop_readByte_outside {input output : S16} {f : SampleFn} {body : State → State} (hb : IsBody input output f body)
    (hf : Counts f) (m : Nat) (s : State) (hm : s.work.i.toNat + m ≤ s.frame.toNat) {a : Nat}
    (ha : a < arenaAddr (sampleIndex output s.frame.toNat s.work.i.toNat) ∨
      arenaAddr (sampleIndex output s.frame.toNat (s.work.i.toNat + m)) ≤ a) :
    (loop body m s).arena.readByte .arena a = s.arena.readByte .arena a := by
  induction m generalizing s with
  | zero => rfl
  | succ m ih =>
    have hlt := s.frame.isLt
    have hi : (body s).work.i.toNat = s.work.i.toNat + 1 := by
      rw [hb s, writeArena_work, hf, BitVec.toNat_add]; simp; omega
    have hfr : (body s).frame = s.frame := by rw [hb s]; rfl
    rw [loop, ih (body s) (by rw [hi, hfr]; omega) (by rw [hi, hfr]; simp only [arenaAddr, sampleIndex] at *; omega), hb s]
    simp only [writeArena_arena]
    rw [Memory.readByte_write_outside]
    simp only [currentSample, arenaAddr, sampleIndex] at *; omega

/-- The words outside the written samples are kept. -/
theorem loop_readArena_outside {input output : S16} {f : SampleFn} {body : State → State} (hb : IsBody input output f body)
    (hf : Counts f) (m : Nat) (s : State) (hm : s.work.i.toNat + m ≤ s.frame.toNat) {a : Nat}
    (ha : a < sampleIndex output s.frame.toNat s.work.i.toNat ∨
      sampleIndex output s.frame.toNat (s.work.i.toNat + m) ≤ a) :
    readArena a (loop body m s) = readArena a s := by
  rw [readArena, readArena]
  congr 1
  refine Memory.read_congr _ fun b h1 h2 => loop_readByte_outside hb hf m s hm ?_
  simp only [arenaAddr] at *; omega

/-- The loop of a kernel is its sample function folded over the block. -/
theorem loop_block {input output : S16} {f : SampleFn} {body : State → State} (hb : IsBody input output f body)
    (hf : Counts f) (hin : 0 ≤ input.toInt) (hout : 0 ≤ output.toInt) (m : Nat) (s : State)
    (hm : s.work.i.toNat + m ≤ s.frame.toNat) :
    let r := runBlock f s.work s.draw
      ((samplesFrom input s.work.i.toNat m s).zip (samplesFrom output s.work.i.toNat m s))
    samplesFrom output s.work.i.toNat m (loop body m s) = r.1 ∧ (loop body m s).work = r.2.1 ∧
      (loop body m s).draw = r.2.2 := by
  induction m generalizing s with
  | zero => exact ⟨rfl, rfl, rfl⟩
  | succ m ih =>
    have hlt := s.frame.isLt
    have hi : (body s).work.i.toNat = s.work.i.toNat + 1 := by
      rw [hb s, writeArena_work, hf, BitVec.toNat_add]; simp; omega
    have hfr : (body s).frame = s.frame := by rw [hb s]; rfl
    have hm' : (body s).work.i.toNat + m ≤ (body s).frame.toNat := by rw [hi, hfr]; omega
    have hkeep : ∀ k : S16, 0 ≤ k.toInt →
        samplesFrom k (s.work.i.toNat + 1) m (body s) = samplesFrom k (s.work.i.toNat + 1) m s := by
      intro k hk
      simp only [samplesFrom, hfr]
      refine List.map_congr_left fun j hj => ?_
      rw [List.mem_range'_1] at hj
      rw [hb s]
      exact readArena_writeArena_ne _ _
        (sampleIndex_ne hk hout (by omega) (by omega) (.inr (by omega)))
    obtain ⟨h1, h2, h3⟩ := ih (body s) hm'
    rw [hi, hkeep input hin, hkeep output hout] at h1 h2 h3
    have hw : (body s).work = (f s.work s.draw (readArena (currentSample input s) s)
        (readArena (currentSample output s) s)).2.1 := by rw [hb s]; rfl
    have hd : (body s).draw = (f s.work s.draw (readArena (currentSample input s) s)
        (readArena (currentSample output s) s)).2.2 := by rw [hb s]; rfl
    rw [hw, hd] at h1 h2 h3
    have hhead : readArena (sampleIndex output s.frame.toNat s.work.i.toNat) (loop body m (body s)) =
        (f s.work s.draw (readArena (currentSample input s) s) (readArena (currentSample output s) s)).1 := by
      rw [loop_readArena_outside hb hf m (body s) hm' (.inl (by rw [hi, hfr]; simp only [sampleIndex]; omega)), hb s]
      exact readArena_writeArena_same _ _ _
    have hfl : (loop body m (body s)).frame = s.frame := by rw [loop_frame hb, hfr]
    refine ⟨?_, ?_, ?_⟩
    · rw [loop, samplesFrom, List.range'_succ, List.map_cons, hfl, hhead]
      rw [samplesFrom, hfl] at h1
      rw [h1]
      rfl
    · rw [loop, h2]; rfl
    · rw [loop, h3]; rfl

theorem loop_wf {input output : S16} {f : SampleFn} {body : State → State} (hb : IsBody input output f body) (m : Nat)
    {s : State} (h : s.arena.wf) : (loop body m s).arena.wf := by
  induction m generalizing s with
  | zero => exact h
  | succ m ih => rw [loop]; refine ih ?_; rw [hb s]; exact writeArena_wf h _ _

/-- The loop lists no byte past the arena. -/
theorem loop_below {input output : S16} {f : SampleFn} {body : State → State} (hb : IsBody input output f body)
    (hf : Counts f) {nbuf n : Nat} (hout : 0 ≤ output.toInt ∧ output.toInt < (nbuf : Int)) (m : Nat) {s : State}
    (hm : s.work.i.toNat + m ≤ s.frame.toNat) (hn : s.frame.toNat ≤ n) (h : s.arena.below (4 * (nbuf * n))) :
    (loop body m s).arena.below (4 * (nbuf * n)) := by
  induction m generalizing s with
  | zero => exact h
  | succ m ih =>
    have hlt := s.frame.isLt
    have hi : (body s).work.i.toNat = s.work.i.toNat + 1 := by
      rw [hb s, writeArena_work, hf, BitVec.toNat_add]; simp; omega
    have hfr : (body s).frame = s.frame := by rw [hb s]; rfl
    rw [loop]
    refine ih (by rw [hi, hfr]; omega) (by rw [hfr]; exact hn) ?_
    rw [hb s]
    refine Memory.below_write h ?_
    have h1 := sampleIndex_lt (n := s.frame.toNat) (i := s.work.i.toNat) hout.1 hout.2 (by omega)
    have h2 := Nat.mul_le_mul_left nbuf hn
    simp only [arenaAddr, currentSample]
    omega

/-! ### The bodies of the four kernels

Each is first compared with its sample function for arbitrary arithmetic, so that no floating-point operation is unfolded. -/

theorem kd_shape (b : Nat → Coeffs → Delay → F64 → F64) (sat : Nat → F64 → S32) (conv : S32 → F64) (input output : S16)
    (s : State) :
    (let xin := conv (readArena (currentSample input s) s)
     let q : F64 × State :=
       (let y := b s.draw (coeffs .t0 s) (delay .t0 s) xin
        (y, useDraws 9 (setDelay .t0 (shiftDelay (delay .t0 s) xin y) s)))
     nextI (useDraws 1 (writeArena (currentSample output q.2) (sat q.2.draw q.1) q.2))) =
    (let x := readArena (currentSample input s) s
     let y := b s.draw s.work.c0 s.work.d0 (conv x)
     writeArena (currentSample output s) (sat (s.draw + 9) y)
       { s with
         work := { s.work with d0 := shiftDelay s.work.d0 (conv x) y, i := s.work.i + 1#32 }
         draw := s.draw + 10 }) := rfl

/-- One sample of `KD`. -/
def kdFn : SampleFn := fun w k x _ =>
  let y := biquadOutput k w.c0 w.d0 (i32ToF64 x)
  (satS32 (k + 9) y, { w with d0 := shiftDelay w.d0 (i32ToF64 x) y, i := w.i + 1#32 }, k + 10)

theorem kdSample_isBody (input output : S16) : IsBody input output kdFn (kdSample input output) :=
  fun s => kd_shape biquadOutput satS32 i32ToF64 input output s

theorem ki_shape (wrap : Int → Word64) (round : Word64 → Int) (input output : S16) (s : State) :
    (let x := (readArena (currentSample input s) s).toInt
     let c := s.work.c0
     let acc0 := s.work.d0.s0
     let acc1 := s.work.d0.s1
     let sample := wrap (x * c.b0.toInt + acc0.toInt)
     let o := round sample
     let s := writeArena (currentSample output s) (BitVec.ofInt 32 o) s
     nextI (setDelay .t0
       { s.work.d0 with
         s0 := wrap (acc1.toInt + c.b1.toInt * x + c.a0.toInt * o)
         s1 := wrap (c.b2.toInt * x + c.a1.toInt * o) } s)) =
    (let x := readArena (currentSample input s) s
     let w := s.work
     let sample := wrap (x.toInt * w.c0.b0.toInt + w.d0.s0.toInt)
     let o := round sample
     writeArena (currentSample output s) (BitVec.ofInt 32 o)
       { s with
         work := { w with
           d0 := { w.d0 with
             s0 := wrap (w.d0.s1.toInt + w.c0.b1.toInt * x.toInt + w.c0.a0.toInt * o)
             s1 := wrap (w.c0.b2.toInt * x.toInt + w.c0.a1.toInt * o) }
           i := w.i + 1#32 }
         draw := s.draw }) := rfl

/-- One sample of `KI`. -/
def kiFn : SampleFn := fun w k x _ =>
  let sample := wrap64 (x.toInt * w.c0.b0.toInt + w.d0.s0.toInt)
  let o := roundQ14 sample
  (BitVec.ofInt 32 o,
    { w with
      d0 := { w.d0 with
        s0 := wrap64 (w.d0.s1.toInt + w.c0.b1.toInt * x.toInt + w.c0.a0.toInt * o)
        s1 := wrap64 (w.c0.b2.toInt * x.toInt + w.c0.a1.toInt * o) }
      i := w.i + 1#32 }, k)

theorem kiSample_isBody (input output : S16) : IsBody input output kiFn (kiSample input output) :=
  fun s => ki_shape wrap64 roundQ14 input output s

/-- A sample through the filters in the registers. -/
def chainFn (T : Chain) (w : Work) (k : Nat) (xin : F64) : F64 × Work × Nat :=
  let y := biquadOutput k w.c0 w.d0 xin
  let w0 := { w with d0 := shiftDelay w.d0 xin y }
  match T with
  | .single => (y, w0, k + 9)
  | .pair =>
    let z := biquadOutput (k + 9) w.c1 w.d1 y
    (z, { w0 with d1 := shiftDelay w.d1 y z }, k + 18)

theorem chain_shape (b : Nat → Coeffs → Delay → F64 → F64) (x : F64) (s : State) :
    (let q : F64 × State :=
       (let y := b s.draw (coeffs .t0 s) (delay .t0 s) x
        (y, useDraws 9 (setDelay .t0 (shiftDelay (delay .t0 s) x y) s)))
     (let z := b q.2.draw (coeffs .t1 q.2) (delay .t1 q.2) q.1
      (z, useDraws 9 (setDelay .t1 (shiftDelay (delay .t1 q.2) q.1 z) q.2)))) =
    (let w := s.work
     let y := b s.draw w.c0 w.d0 x
     let z := b (s.draw + 9) w.c1 w.d1 y
     (z, { s with
       work := { w with d0 := shiftDelay w.d0 x y, d1 := shiftDelay w.d1 y z }
       draw := s.draw + 18 })) := rfl

theorem chain_shape_single (b : Nat → Coeffs → Delay → F64 → F64) (x : F64) (s : State) :
    (let y := b s.draw (coeffs .t0 s) (delay .t0 s) x
     (y, useDraws 9 (setDelay .t0 (shiftDelay (delay .t0 s) x y) s))) =
    (let w := s.work
     let y := b s.draw w.c0 w.d0 x
     (y, { s with work := { w with d0 := shiftDelay w.d0 x y }, draw := s.draw + 9 })) := rfl

theorem filterChain_eq (T : Chain) (xin : F64) (s : State) :
    filterChain T xin s =
      (let r := chainFn T s.work s.draw xin
       (r.1, { s with work := r.2.1, draw := r.2.2 })) := by
  cases T
  · exact chain_shape_single biquadOutput xin s
  · exact chain_shape biquadOutput xin s

theorem chainFn_i (T : Chain) (w : Work) (k : Nat) (x : F64) : (chainFn T w k x).2.1.i = w.i := by
  cases T <;> simp only [chainFn]

/-- One sample of `KM(T)`. -/
def kmFn (T : Chain) : SampleFn := fun w k x old =>
  let f := chainFn T w k (i32ToF64 x)
  let j := f.2.2
  let m := fmul j f.1 f.2.1.vol
  (satS32 (j + 2) (fadd (j + 1) (i32ToF64 old) m), { f.2.1 with i := f.2.1.i + 1#32 }, j + 3)

/-- One sample of `KMR(T)`. -/
def kmrFn (T : Chain) : SampleFn := fun w k x old =>
  let f := chainFn T w k (i32ToF64 x)
  let j := f.2.2
  let m := fmul j f.1 f.2.1.vol
  (satS32 (j + 2) (fadd (j + 1) (i32ToF64 old) m),
    { f.2.1 with last := m, vol := fadd (j + 3) f.2.1.vol f.2.1.ramp, i := f.2.1.i + 1#32 }, j + 4)

theorem km_shape (mul add : Nat → F64 → F64 → F64) (sat : Nat → F64 → S32) (conv : S32 → F64) (output : S16)
    (s : State) (y : F64) (w : Work) (j : Nat) (hi : w.i = s.work.i) :
    (let u : State := { s with work := w, draw := j }
     let m := mul u.draw y u.work.vol
     let sum := add (u.draw + 1) (conv (readArena (currentSample output u) u)) m
     nextI (useDraws 3 (writeArena (currentSample output u) (sat (u.draw + 2) sum) u))) =
    (let m := mul j y w.vol
     writeArena (currentSample output s) (sat (j + 2) (add (j + 1) (conv (readArena (currentSample output s) s)) m))
       { s with work := { w with i := w.i + 1#32 }, draw := j + 3 }) := by
  have hc : currentSample output { s with work := w, draw := j } = currentSample output s := by
    simp only [currentSample, hi]
  simp only [hc]
  rfl

theorem kmr_shape (mul add : Nat → F64 → F64 → F64) (sat : Nat → F64 → S32) (conv : S32 → F64) (output : S16)
    (s : State) (y : F64) (w : Work) (j : Nat) (hi : w.i = s.work.i) :
    (let u : State := { s with work := w, draw := j }
     let m := mul u.draw y u.work.vol
     let sum := add (u.draw + 1) (conv (readArena (currentSample output u) u)) m
     let v := useDraws 3 (writeArena (currentSample output u) (sat (u.draw + 2) sum) u)
     let v := setLast m v
     let v := useDraws 1 (setVol (add v.draw v.work.vol v.work.ramp) v)
     nextI v) =
    (let m := mul j y w.vol
     writeArena (currentSample output s) (sat (j + 2) (add (j + 1) (conv (readArena (currentSample output s) s)) m))
       { s with
         work := { w with last := m, vol := add (j + 3) w.vol w.ramp, i := w.i + 1#32 }
         draw := j + 4 }) := by
  have hc : currentSample output { s with work := w, draw := j } = currentSample output s := by
    simp only [currentSample, hi]
  simp only [hc]
  rfl

theorem kmSample_isBody (T : Chain) (input output : S16) : IsBody input output (kmFn T) (kmSample T input output) := by
  intro s
  rw [kmSample, filterChain_eq]
  exact km_shape fmul fadd satS32 i32ToF64 output s _ _ _ (chainFn_i T _ _ _)

theorem kmrSample_isBody (T : Chain) (input output : S16) : IsBody input output (kmrFn T) (kmrSample T input output) := by
  intro s
  rw [kmrSample, filterChain_eq]
  exact kmr_shape fmul fadd satS32 i32ToF64 output s _ _ _ (chainFn_i T _ _ _)

/-! Each sample function, component by component. -/

theorem kdFn_out (w : Work) (k : Nat) (x old : S32) :
    (kdFn w k x old).1 = satS32 (k + 9) (biquadOutput k w.c0 w.d0 (i32ToF64 x)) := by rw [kdFn]
theorem kdFn_work (w : Work) (k : Nat) (x old : S32) :
    (kdFn w k x old).2.1 =
      { w with d0 := shiftDelay w.d0 (i32ToF64 x) (biquadOutput k w.c0 w.d0 (i32ToF64 x)), i := w.i + 1#32 } := by rw [kdFn]
theorem kdFn_draw (w : Work) (k : Nat) (x old : S32) : (kdFn w k x old).2.2 = k + 10 := by rw [kdFn]

/-- The output of the integer kernel at a sample. -/
def kiOut (w : Work) (x : S32) : Int := roundQ14 (wrap64 (x.toInt * w.c0.b0.toInt + w.d0.s0.toInt))

theorem kiFn_out (w : Work) (k : Nat) (x old : S32) : (kiFn w k x old).1 = BitVec.ofInt 32 (kiOut w x) := by
  rw [kiFn, kiOut]
theorem kiFn_work (w : Work) (k : Nat) (x old : S32) :
    (kiFn w k x old).2.1 =
      { w with
        d0 := { w.d0 with
          s0 := wrap64 (w.d0.s1.toInt + w.c0.b1.toInt * x.toInt + w.c0.a0.toInt * kiOut w x)
          s1 := wrap64 (w.c0.b2.toInt * x.toInt + w.c0.a1.toInt * kiOut w x) }
        i := w.i + 1#32 } := by
  rw [kiFn, kiOut]
theorem kiFn_draw (w : Work) (k : Nat) (x old : S32) : (kiFn w k x old).2.2 = k := by rw [kiFn]

theorem kmFn_out (T : Chain) (w : Work) (k : Nat) (x old : S32) :
    (kmFn T w k x old).1 =
      satS32 ((chainFn T w k (i32ToF64 x)).2.2 + 2)
        (fadd ((chainFn T w k (i32ToF64 x)).2.2 + 1) (i32ToF64 old)
          (fmul (chainFn T w k (i32ToF64 x)).2.2 (chainFn T w k (i32ToF64 x)).1 (chainFn T w k (i32ToF64 x)).2.1.vol)) := by rw [kmFn]
theorem kmFn_work (T : Chain) (w : Work) (k : Nat) (x old : S32) :
    (kmFn T w k x old).2.1 =
      { (chainFn T w k (i32ToF64 x)).2.1 with i := (chainFn T w k (i32ToF64 x)).2.1.i + 1#32 } := by rw [kmFn]
theorem kmFn_draw (T : Chain) (w : Work) (k : Nat) (x old : S32) :
    (kmFn T w k x old).2.2 = (chainFn T w k (i32ToF64 x)).2.2 + 3 := by rw [kmFn]

theorem kmrFn_out (T : Chain) (w : Work) (k : Nat) (x old : S32) :
    (kmrFn T w k x old).1 =
      satS32 ((chainFn T w k (i32ToF64 x)).2.2 + 2)
        (fadd ((chainFn T w k (i32ToF64 x)).2.2 + 1) (i32ToF64 old)
          (fmul (chainFn T w k (i32ToF64 x)).2.2 (chainFn T w k (i32ToF64 x)).1 (chainFn T w k (i32ToF64 x)).2.1.vol)) := by rw [kmrFn]
theorem kmrFn_work (T : Chain) (w : Work) (k : Nat) (x old : S32) :
    (kmrFn T w k x old).2.1 =
      { (chainFn T w k (i32ToF64 x)).2.1 with
        last := fmul (chainFn T w k (i32ToF64 x)).2.2 (chainFn T w k (i32ToF64 x)).1 (chainFn T w k (i32ToF64 x)).2.1.vol
        vol := fadd ((chainFn T w k (i32ToF64 x)).2.2 + 3) (chainFn T w k (i32ToF64 x)).2.1.vol
          (chainFn T w k (i32ToF64 x)).2.1.ramp
        i := (chainFn T w k (i32ToF64 x)).2.1.i + 1#32 } := by rw [kmrFn]
theorem kmrFn_draw (T : Chain) (w : Work) (k : Nat) (x old : S32) :
    (kmrFn T w k x old).2.2 = (chainFn T w k (i32ToF64 x)).2.2 + 4 := by rw [kmrFn]

theorem kdFn_counts : Counts kdFn := fun w k x old => by rw [kdFn_work]
theorem kiFn_counts : Counts kiFn := fun w k x old => by rw [kiFn_work]
theorem kmFn_counts (T : Chain) : Counts (kmFn T) := fun w k x old => by rw [kmFn_work, chainFn_i]
theorem kmrFn_counts (T : Chain) : Counts (kmrFn T) := fun w k x old => by rw [kmrFn_work]; exact congrArg (· + 1#32) (chainFn_i T w k _)

theorem runBlock_cons (f : SampleFn) (w : Work) (k : Nat) (x old : S32) (rest : List (S32 × S32)) :
    runBlock f w k ((x, old) :: rest) =
      ((f w k x old).1 :: (runBlock f (f w k x old).2.1 (f w k x old).2.2 rest).1,
        (runBlock f (f w k x old).2.1 (f w k x old).2.2 rest).2) := by rw [runBlock]

theorem kdList_cons (k : Nat) (c : Coeffs) (d : Delay) (x : S32) (xs : List S32) :
    kdList k c d (x :: xs) =
      (let y := biquadOutput k c d (i32ToF64 x)
       (satS32 (k + 9) y :: (kdList (k + 10) c (shiftDelay d (i32ToF64 x) y) xs).1,
        (kdList (k + 10) c (shiftDelay d (i32ToF64 x) y) xs).2)) := by rw [kdList]

theorem kmList_cons (k : Nat) (fs : List Filter) (vol : F64) (x old : S32) (rest : List (S32 × S32)) :
    kmList k fs vol ((x, old) :: rest) =
      (let f := chainList k fs (i32ToF64 x)
       let j := k + 9 * fs.length
       (satS32 (j + 2) (fadd (j + 1) (i32ToF64 old) (fmul j f.1 vol)) :: (kmList (j + 3) f.2 vol rest).1,
        (kmList (j + 3) f.2 vol rest).2)) := by rw [kmList]

theorem kmrList_cons (k : Nat) (fs : List Filter) (vol ramp last : F64) (x old : S32) (rest : List (S32 × S32)) :
    kmrList k fs vol ramp last ((x, old) :: rest) =
      (let f := chainList k fs (i32ToF64 x)
       let j := k + 9 * fs.length
       let m := fmul j f.1 vol
       let r := kmrList (j + 4) f.2 (fadd (j + 3) vol ramp) ramp m rest
       { r with out := satS32 (j + 2) (fadd (j + 1) (i32ToF64 old) m) :: r.out }) := by rw [kmrList]

/-! ### The kernels as functions of sample lists -/

theorem runBlock_kd (w : Work) (k : Nat) (pairs : List (S32 × S32)) :
    (runBlock kdFn w k pairs).1 = (kdList k w.c0 w.d0 (pairs.map Prod.fst)).1 ∧
      (runBlock kdFn w k pairs).2.1 =
        { w with d0 := (kdList k w.c0 w.d0 (pairs.map Prod.fst)).2, i := w.i + BitVec.ofNat 32 pairs.length } ∧
      (runBlock kdFn w k pairs).2.2 = k + 10 * pairs.length := by
  induction pairs generalizing w k with
  | nil => simp [runBlock, kdList]
  | cons p rest ih =>
    obtain ⟨x, old⟩ := p
    obtain ⟨h1, h2, h3⟩ := ih (kdFn w k x old).2.1 (kdFn w k x old).2.2
    rw [runBlock_cons, List.map_cons, kdList_cons, List.length_cons, h1, h2, h3, kdFn_out, kdFn_work, kdFn_draw]
    refine ⟨rfl, ?_, by omega⟩
    rw [BitVec.add_assoc, ← BitVec.ofNat_add, Nat.add_comm 1]

theorem toInt_wrap64 (z : Int) : (wrap64 z).toInt = wrapInt64 z := by
  rw [wrap64, wrapInt64, BitVec.toInt_ofInt]

theorem roundQ14_eq (v : Word64) :
    roundQ14 v = max int32Min (min int32Max (wrapInt64 (v.toInt + 8192) / 16384)) := by
  rw [roundQ14, asr, toInt_wrap64, clampS32, Int.fdiv_eq_ediv_of_nonneg _ (by decide)]
  simp only [int32Min, int32Max, show (2 : Int) ^ 14 = 16384 from rfl]
  split
  · omega
  · split <;> omega

theorem roundQ14_bounds (v : Word64) : int32Min ≤ roundQ14 v ∧ roundQ14 v ≤ int32Max := by
  rw [roundQ14_eq]
  simp only [int32Min, int32Max]
  omega

theorem toInt_ofInt_roundQ14 (v : Word64) : (BitVec.ofInt 32 (roundQ14 v)).toInt = roundQ14 v := by
  have h := roundQ14_bounds v
  simp only [int32Min, int32Max] at h
  rw [BitVec.toInt_ofInt]
  exact Int.bmod_eq_of_le (by omega) (by omega)

/-- The integer kernel's registers as integers. -/
theorem runBlock_ki (w : Work) (k : Nat) (pairs : List (S32 × S32)) :
    let r := kiList wrapInt64 w.c0.b0.toInt w.c0.b1.toInt w.c0.b2.toInt w.c0.a0.toInt w.c0.a1.toInt w.d0.s0.toInt
      w.d0.s1.toInt (pairs.map fun p => p.1.toInt)
    (runBlock kiFn w k pairs).1.map BitVec.toInt = r.1 ∧
      (runBlock kiFn w k pairs).2.1.d0.s0.toInt = r.2.1 ∧ (runBlock kiFn w k pairs).2.1.d0.s1.toInt = r.2.2 ∧
      (runBlock kiFn w k pairs).2.1 =
        { w with
          d0 := { w.d0 with
            s0 := (runBlock kiFn w k pairs).2.1.d0.s0
            s1 := (runBlock kiFn w k pairs).2.1.d0.s1 }
          i := w.i + BitVec.ofNat 32 pairs.length } ∧
      (runBlock kiFn w k pairs).2.2 = k := by
  induction pairs generalizing w k with
  | nil => simp [runBlock, kiList]
  | cons p rest ih =>
    obtain ⟨x, old⟩ := p
    obtain ⟨h1, h2, h3, h4, h5⟩ := ih (kiFn w k x old).2.1 (kiFn w k x old).2.2
    have ho : kiOut w x = max int32Min (min int32Max
        (wrapInt64 (wrapInt64 (x.toInt * w.c0.b0.toInt + w.d0.s0.toInt) + 8192) / 16384)) := by
      rw [kiOut, roundQ14_eq, toInt_wrap64]
    have hs0 : (kiFn w k x old).2.1.d0.s0.toInt =
        wrapInt64 (w.d0.s1.toInt + w.c0.b1.toInt * x.toInt + w.c0.a0.toInt * kiOut w x) := by
      rw [kiFn_work, toInt_wrap64]
    have hs1 : (kiFn w k x old).2.1.d0.s1.toInt =
        wrapInt64 (w.c0.b2.toInt * x.toInt + w.c0.a1.toInt * kiOut w x) := by
      rw [kiFn_work, toInt_wrap64]
    have hc : (kiFn w k x old).2.1.c0 = w.c0 := by rw [kiFn_work]
    have hout : (kiFn w k x old).1.toInt = kiOut w x := by rw [kiFn_out, kiOut, toInt_ofInt_roundQ14]
    rw [hs0, hs1, hc] at h1 h2 h3
    rw [runBlock_cons, List.map_cons, List.map_cons, kiList, List.length_cons, hout, h1, ← ho]
    refine ⟨rfl, h2, h3, ?_, h5.trans (kiFn_draw w k x old)⟩
    refine h4.trans ?_
    rw [kiFn_work]
    simp only [BitVec.add_assoc, ← BitVec.ofNat_add, Nat.add_comm 1]

/-- The filters in the registers. -/
def filtersOf (T : Chain) (w : Work) : List Filter :=
  match T with
  | .single => [⟨w.c0, w.d0⟩]
  | .pair => [⟨w.c0, w.d0⟩, ⟨w.c1, w.d1⟩]

theorem filtersOf_congr {w v : Work} (h0 : v.c0 = w.c0) (h1 : v.d0 = w.d0) (h2 : v.c1 = w.c1) (h3 : v.d1 = w.d1)
    (T : Chain) : filtersOf T v = filtersOf T w := by
  cases T
  · simp only [filtersOf, h0, h1]
  · simp only [filtersOf, h0, h1, h2, h3]

/-- Registers that differ in their delay lines at most: both of a pair, the first of a single. -/
def DelaysOnly (T : Chain) (w v : Work) : Prop :=
  v.c0 = w.c0 ∧ v.c1 = w.c1 ∧ v.ramp = w.ramp ∧ (T = .single → v.d1 = w.d1)

theorem chainFn_eq (T : Chain) (w : Work) (k : Nat) (x : F64) :
    (chainFn T w k x).1 = (chainList k (filtersOf T w) x).1 ∧
      filtersOf T (chainFn T w k x).2.1 = (chainList k (filtersOf T w) x).2 ∧
      (chainFn T w k x).2.2 = k + 9 * (filtersOf T w).length ∧ DelaysOnly T w (chainFn T w k x).2.1 ∧
      (chainFn T w k x).2.1.vol = w.vol ∧ (chainFn T w k x).2.1.last = w.last := by
  cases T
  · simp only [filtersOf, chainList]
    rw [chainFn]
    exact ⟨rfl, rfl, rfl, ⟨rfl, rfl, rfl, fun _ => rfl⟩, rfl, rfl⟩
  · simp only [filtersOf, chainList]
    rw [chainFn]
    exact ⟨rfl, rfl, rfl, ⟨rfl, rfl, rfl, fun h => Chain.noConfusion h⟩, rfl, rfl⟩

theorem length_chainList (k : Nat) (fs : List Filter) (x : F64) : (chainList k fs x).2.length = fs.length := by
  induction fs generalizing k x with
  | nil => rfl
  | cons f fs ih => simp only [chainList, List.length_cons, ih]

theorem runBlock_km (T : Chain) (w : Work) (k : Nat) (pairs : List (S32 × S32)) :
    (runBlock (kmFn T) w k pairs).1 = (kmList k (filtersOf T w) w.vol pairs).1 ∧
      filtersOf T (runBlock (kmFn T) w k pairs).2.1 = (kmList k (filtersOf T w) w.vol pairs).2 ∧
      (runBlock (kmFn T) w k pairs).2.2 = k + (9 * (filtersOf T w).length + 3) * pairs.length ∧
      DelaysOnly T w (runBlock (kmFn T) w k pairs).2.1 ∧
      (runBlock (kmFn T) w k pairs).2.1.vol = w.vol ∧ (runBlock (kmFn T) w k pairs).2.1.last = w.last ∧
      (runBlock (kmFn T) w k pairs).2.1.i = w.i + BitVec.ofNat 32 pairs.length := by
  induction pairs generalizing w k with
  | nil => simp [runBlock, kmList, DelaysOnly]
  | cons p rest ih =>
    obtain ⟨x, old⟩ := p
    obtain ⟨h1, h2, h3, h4, h5, h6, h7⟩ := ih (kmFn T w k x old).2.1 (kmFn T w k x old).2.2
    obtain ⟨c1, c2, c3, c4, c5, c6⟩ := chainFn_eq T w k (i32ToF64 x)
    have hfil : filtersOf T (kmFn T w k x old).2.1 = (chainList k (filtersOf T w) (i32ToF64 x)).2 := by
      rw [← c2, kmFn_work]; exact filtersOf_congr rfl rfl rfl rfl T
    have hvol : (kmFn T w k x old).2.1.vol = w.vol := by rw [kmFn_work, c5]
    have hdraw : (kmFn T w k x old).2.2 = k + 9 * (filtersOf T w).length + 3 := by rw [kmFn_draw, c3]
    have hout : (kmFn T w k x old).1 = satS32 (k + 9 * (filtersOf T w).length + 2)
        (fadd (k + 9 * (filtersOf T w).length + 1) (i32ToF64 old)
          (fmul (k + 9 * (filtersOf T w).length) (chainList k (filtersOf T w) (i32ToF64 x)).1 w.vol)) := by
      rw [kmFn_out, c1, c3, c5]
    have hdel : DelaysOnly T w (kmFn T w k x old).2.1 := by rw [kmFn_work]; exact c4
    have hi := kmFn_counts T w k x old
    rw [runBlock_cons, kmList_cons, List.length_cons]
    refine ⟨?_, ?_, ?_, ?_, ?_, ?_, ?_⟩
    · rw [h1, hfil, hvol, hdraw, hout]
    · rw [h2, hfil, hvol, hdraw]
    · rw [h3, hfil, hdraw, length_chainList]; ring
    · obtain ⟨d1, d2, d3, d4⟩ := h4
      obtain ⟨e1, e2, e3, e4⟩ := hdel
      exact ⟨d1.trans e1, d2.trans e2, d3.trans e3, fun h => (d4 h).trans (e4 h)⟩
    · rw [h5, hvol]
    · rw [h6, kmFn_work, c6]
    · rw [h7, hi, BitVec.add_assoc, ← BitVec.ofNat_add, Nat.add_comm 1]

theorem runBlock_kmr (T : Chain) (w : Work) (k : Nat) (pairs : List (S32 × S32)) :
    let q := kmrList k (filtersOf T w) w.vol w.ramp w.last pairs
    (runBlock (kmrFn T) w k pairs).1 = q.out ∧ filtersOf T (runBlock (kmrFn T) w k pairs).2.1 = q.filters ∧
      (runBlock (kmrFn T) w k pairs).2.1.last = q.last ∧ (runBlock (kmrFn T) w k pairs).2.2 = q.draw ∧
      DelaysOnly T w (runBlock (kmrFn T) w k pairs).2.1 ∧
      (runBlock (kmrFn T) w k pairs).2.1.i = w.i + BitVec.ofNat 32 pairs.length := by
  induction pairs generalizing w k with
  | nil => simp [runBlock, kmrList, DelaysOnly]
  | cons p rest ih =>
    obtain ⟨x, old⟩ := p
    obtain ⟨h1, h2, h3, h4, h5, h6⟩ := ih (kmrFn T w k x old).2.1 (kmrFn T w k x old).2.2
    obtain ⟨c1, c2, c3, c4, c5, c6⟩ := chainFn_eq T w k (i32ToF64 x)
    have hfil : filtersOf T (kmrFn T w k x old).2.1 = (chainList k (filtersOf T w) (i32ToF64 x)).2 := by
      rw [← c2, kmrFn_work]; exact filtersOf_congr rfl rfl rfl rfl T
    have hdel : DelaysOnly T w (kmrFn T w k x old).2.1 := by rw [kmrFn_work]; exact c4
    have hramp : (kmrFn T w k x old).2.1.ramp = w.ramp := hdel.2.2.1
    have hvol : (kmrFn T w k x old).2.1.vol = fadd (k + 9 * (filtersOf T w).length + 3) w.vol w.ramp := by
      rw [kmrFn_work, c3, c5, c4.2.2.1]
    have hlast : (kmrFn T w k x old).2.1.last =
        fmul (k + 9 * (filtersOf T w).length) (chainList k (filtersOf T w) (i32ToF64 x)).1 w.vol := by
      rw [kmrFn_work, c1, c3, c5]
    have hdraw : (kmrFn T w k x old).2.2 = k + 9 * (filtersOf T w).length + 4 := by rw [kmrFn_draw, c3]
    have hout : (kmrFn T w k x old).1 = satS32 (k + 9 * (filtersOf T w).length + 2)
        (fadd (k + 9 * (filtersOf T w).length + 1) (i32ToF64 old)
          (fmul (k + 9 * (filtersOf T w).length) (chainList k (filtersOf T w) (i32ToF64 x)).1 w.vol)) := by
      rw [kmrFn_out, c1, c3, c5]
    have hi := kmrFn_counts T w k x old
    rw [hfil, hvol, hramp, hlast, hdraw] at h1 h2 h3 h4
    rw [hdraw] at h5 h6
    rw [runBlock_cons, kmrList_cons, List.length_cons, hdraw]
    refine ⟨?_, h2, h3, h4, ?_, ?_⟩
    · rw [h1, hout]
    · obtain ⟨d1, d2, d3, d4⟩ := h5
      obtain ⟨e1, e2, e3, e4⟩ := hdel
      exact ⟨d1.trans e1, d2.trans e2, d3.trans e3, fun h => (d4 h).trans (e4 h)⟩
    · rw [h6, hi, BitVec.add_assoc, ← BitVec.ofNat_add, Nat.add_comm 1]

/-! ### The four kernels -/

/-- What every kernel leaves alone: everything but the arena, the working registers and the draw number, and in the arena
every byte outside the output span; the image keeps its form and its bound. -/
structure KernelKeeps (output : S16) (s t : State) : Prop where
  keeps : t = { s with arena := t.arena, work := t.work, draw := t.draw }
  bytes : ∀ a, (a < arenaAddr (sampleIndex output s.frame.toNat 0) ∨
    arenaAddr (sampleIndex output s.frame.toNat s.frame.toNat) ≤ a) → t.arena.readByte .arena a = s.arena.readByte .arena a
  form : s.arena.wf → t.arena.wf
  bound : ∀ nbuf n : Nat, 0 ≤ output.toInt → output.toInt < (nbuf : Int) → s.frame.toNat ≤ n →
    s.arena.below (4 * (nbuf * n)) → t.arena.below (4 * (nbuf * n))

theorem loop_kernelKeeps {input output : S16} {f : SampleFn} {body : State → State} (hb : IsBody input output f body)
    (hf : Counts f) (s : State) : KernelKeeps output s (loop body s.frame.toNat (clearI s)) where
  keeps := by
    have h := loop_keeps hb s.frame.toNat (clearI s)
    exact h
  bytes a ha := by
    have h := loop_readByte_outside hb hf s.frame.toNat (clearI s) (by simp) (a := a)
      (by simpa using ha)
    simpa using h
  form h := loop_wf hb _ h
  bound nbuf n h1 h2 h3 h4 := loop_below hb hf ⟨h1, h2⟩ s.frame.toNat (by simp) h3 h4

theorem loop_samples {input output : S16} {f : SampleFn} {body : State → State} (hb : IsBody input output f body)
    (hf : Counts f) (hin : 0 ≤ input.toInt) (hout : 0 ≤ output.toInt) (s : State) :
    let r := runBlock f (clearI s).work s.draw ((samples input s).zip (samples output s))
    samples output (loop body s.frame.toNat (clearI s)) = r.1 ∧
      (loop body s.frame.toNat (clearI s)).work = r.2.1 ∧ (loop body s.frame.toNat (clearI s)).draw = r.2.2 := by
  have h := loop_block hb hf hin hout s.frame.toNat (clearI s) (by simp)
  have hs : ∀ k, samplesFrom k 0 s.frame.toNat (clearI s) = samples k s := fun k =>
    (samples_eq_samplesFrom k (clearI s)).symm.trans (samples_congr rfl rfl k)
  simp only [clearI_i, BitVec.toNat_ofNat, Nat.zero_mod, hs, clearI_draw] at h
  rw [samples_eq_samplesFrom output (loop body s.frame.toNat (clearI s)), loop_frame hb]
  exact h

theorem zip_fst_samples (k k' : S16) (s : State) : ((samples k s).zip (samples k' s)).map Prod.fst = samples k s :=
  List.map_fst_zip (by simp)

theorem kernelKD_keeps (input output : S16) (s : State) : KernelKeeps output s (kernelKD input output s) :=
  loop_kernelKeeps (kdSample_isBody input output) kdFn_counts s

/-- `KD` is `kdList` of the input span (R122). -/
theorem kernelKD_spec {input output : S16} (hin : 0 ≤ input.toInt) (hout : 0 ≤ output.toInt) (s : State) :
    let r := kdList s.draw s.work.c0 s.work.d0 (samples input s)
    samples output (kernelKD input output s) = r.1 ∧
      (kernelKD input output s).work = { s.work with d0 := r.2, i := BitVec.ofNat 32 s.frame.toNat } ∧
      (kernelKD input output s).draw = s.draw + 10 * s.frame.toNat := by
  obtain ⟨h1, h2, h3⟩ := loop_samples (kdSample_isBody input output) kdFn_counts hin hout s
  obtain ⟨r1, r2, r3⟩ := runBlock_kd (clearI s).work s.draw ((samples input s).zip (samples output s))
  rw [r1] at h1; rw [r2] at h2; rw [r3] at h3
  simp only [zip_fst_samples, clearI_work_c0, clearI_work_d0, clearI_i, List.length_zip, length_samples, Nat.min_self,
    BitVec.zero_add] at h1 h2 h3
  exact ⟨h1, h2, h3⟩

theorem kernelKI_keeps (input output : S16) (s : State) : KernelKeeps output s (kernelKI input output s) :=
  loop_kernelKeeps (kiSample_isBody input output) kiFn_counts s

/-- `KI` is `kiList` of the input span (R124). -/
theorem kernelKI_spec {input output : S16} (hin : 0 ≤ input.toInt) (hout : 0 ≤ output.toInt) (s : State) :
    let c := s.work.c0
    let r := kiList wrapInt64 c.b0.toInt c.b1.toInt c.b2.toInt c.a0.toInt c.a1.toInt s.work.d0.s0.toInt s.work.d0.s1.toInt
      ((samples input s).map BitVec.toInt)
    let t := kernelKI input output s
    (samples output t).map BitVec.toInt = r.1 ∧ t.work.d0.s0.toInt = r.2.1 ∧ t.work.d0.s1.toInt = r.2.2 ∧
      t.work = { s.work with
        d0 := { s.work.d0 with s0 := t.work.d0.s0, s1 := t.work.d0.s1 }
        i := BitVec.ofNat 32 s.frame.toNat } ∧ t.draw = s.draw := by
  intro c r t
  obtain ⟨h1, h2, h3⟩ := loop_samples (kiSample_isBody input output) kiFn_counts hin hout s
  obtain ⟨r1, r2, r3, r4, r5⟩ := runBlock_ki (clearI s).work s.draw ((samples input s).zip (samples output s))
  have hfst : ((samples input s).zip (samples output s)).map (fun p => p.1.toInt) = (samples input s).map BitVec.toInt := by
    conv_rhs => rw [← zip_fst_samples input output s, List.map_map]
    rfl
  rw [hfst] at r1 r2 r3
  rw [← h2] at r2 r3 r4
  rw [List.length_zip, length_samples, length_samples, Nat.min_self] at r4
  refine ⟨(congrArg _ h1).trans r1, r2, r3, ?_, h3.trans r5⟩
  refine r4.trans ?_
  simp only [clearI_work_c0, clearI_work_c1, clearI_work_d0, clearI_work_d1, clearI_work_vol, clearI_work_ramp,
    clearI_work_last, clearI_i, BitVec.zero_add]
  rfl

/-- What the start of a mix kernel does: it sets `vol` and `last` and takes one draw number. -/
theorem mixStart_eq (v : F32) (s : State) : mixStart v s =
    { s with work := { s.work with vol := f32ToF64 s.draw v, last := 0#64 }, draw := s.draw + 1 } := rfl

@[simp] theorem mixStart_frame (v : F32) (s : State) : (mixStart v s).frame = s.frame := rfl
@[simp] theorem mixStart_draw (v : F32) (s : State) : (mixStart v s).draw = s.draw + 1 := rfl

theorem kernelKM_keeps (T : Chain) (input output : S16) (v : F32) (s : State) :
    KernelKeeps output s (kernelKM T input output v s) := by
  have h := loop_kernelKeeps (kmSample_isBody T input output) (kmFn_counts T) (mixStart v s)
  exact ⟨h.keeps, h.bytes, h.form, h.bound⟩

/-- `KM(T)` is `kmList` of the input and the output span (R141). -/
theorem kernelKM_spec (T : Chain) {input output : S16} (hin : 0 ≤ input.toInt) (hout : 0 ≤ output.toInt) (v : F32)
    (s : State) :
    let r := kmList (s.draw + 1) (filtersOf T s.work) (f32ToF64 s.draw v) ((samples input s).zip (samples output s))
    let t := kernelKM T input output v s
    samples output t = r.1 ∧ filtersOf T t.work = r.2 ∧
      t.draw = s.draw + 1 + (9 * (filtersOf T s.work).length + 3) * s.frame.toNat ∧
      DelaysOnly T s.work t.work ∧ t.work.last = 0#64 := by
  intro r t
  obtain ⟨h1, h2, h3⟩ := loop_samples (kmSample_isBody T input output) (kmFn_counts T) hin hout
    (mixStart v s)
  obtain ⟨r1, r2, r3, r4, r5, r6, _⟩ := runBlock_km T (clearI (mixStart v s)).work (mixStart v s).draw
    ((samples input (mixStart v s)).zip (samples output (mixStart v s)))
  rw [← h1] at r1
  rw [← h2] at r2 r4 r6
  rw [← h3] at r3
  have hin' : samples input (mixStart v s) = samples input s := samples_congr rfl rfl _
  have hout' : samples output (mixStart v s) = samples output s := samples_congr rfl rfl _
  have hfil : filtersOf T (clearI (mixStart v s)).work = filtersOf T s.work :=
    filtersOf_congr rfl rfl rfl rfl T
  rw [hin', hout', hfil] at r1 r2 r3
  rw [List.length_zip, length_samples, length_samples, Nat.min_self] at r3
  exact ⟨r1, r2, r3, r4, r6⟩

/-- A mix command without ramp leaves `last` at its kernel's start (R22). -/
theorem mixSteps_last {o : BqfmOperands} (hin : 0 ≤ o.input.toInt) (hout : 0 ≤ o.output.toInt) (codec : State → State)
    (s : State) : (mixSteps o codec s).work.last = 0#64 := by
  rw [mixSteps, persistState_work]
  exact (kernelKM_spec .single hin hout _ _).2.2.2.2

/-- So does a multi-tap command without ramp. -/
theorem multiTapSteps_last {o : MtOperands} (hin : 0 ≤ o.input.toInt) (hout : 0 ≤ o.output.toInt) (codec : State → State)
    (s : State) : (multiTapSteps o codec s).work.last = 0#64 := by
  simp only [multiTapSteps, multiTapAfter, writeEntry_work, persistLoc_work]
  exact (kernelKM_spec .pair hin hout _ _).2.2.2.2

/-- The registers at the start of a ramped kernel's loop (R142). -/
def kmrStart (v v' : F32) (s : State) : State :=
  let s1 := mixStart v s
  if s1.frame = 0#32 then s1 else useDraws 4 (setRamp (rampStep s1.draw v v' s1.frame) s1)

theorem kernelKMR_eq (T : Chain) (input output : S16) (v v' : F32) (s : State) :
    kernelKMR T input output v v' s =
      (let t := loop (kmrSample T input output) (kmrStart v v' s).frame.toNat (clearI (kmrStart v v' s))
       (f64ToF32 t.draw t.work.last, useDraws 1 t)) := by
  rw [kernelKMR, kmrStart]

theorem kmrStart_cases (v v' : F32) (s : State) :
    (s.frame = 0#32 ∧ kmrStart v v' s = mixStart v s) ∨
      (s.frame ≠ 0#32 ∧ kmrStart v v' s =
        useDraws 4 (setRamp (rampStep (s.draw + 1) v v' s.frame)
          (mixStart v s))) := by
  rw [kmrStart]
  simp only [mixStart_frame, mixStart_draw]
  by_cases h : s.frame = 0#32
  · exact .inl ⟨h, if_pos h⟩
  · exact .inr ⟨h, if_neg h⟩

/-- What the start sets, and that it leaves the rest. -/
theorem kmrStart_facts (T : Chain) (v v' : F32) (s : State) :
    kmrStart v v' s = { s with work := (kmrStart v v' s).work, draw := rampLoopDraw s.draw s.frame } ∧
      filtersOf T (kmrStart v v' s).work = filtersOf T s.work ∧ (kmrStart v v' s).work.vol = f32ToF64 s.draw v ∧
      (kmrStart v v' s).work.last = 0#64 ∧ (kmrStart v v' s).work.c0 = s.work.c0 ∧ (kmrStart v v' s).work.c1 = s.work.c1 ∧
      (kmrStart v v' s).work.d1 = s.work.d1 ∧
      (s.frame ≠ 0#32 → (kmrStart v v' s).work.ramp = rampStep (s.draw + 1) v v' s.frame) := by
  rcases kmrStart_cases v v' s with ⟨h0, h⟩ | ⟨h0, h⟩
  · rw [h, rampLoopDraw, if_pos h0, mixStart_eq]
    exact ⟨rfl, filtersOf_congr rfl rfl rfl rfl T, rfl, rfl, rfl, rfl, rfl, fun hc => absurd h0 hc⟩
  · rw [h, rampLoopDraw, if_neg h0, mixStart_eq]
    generalize rampStep (s.draw + 1) v v' s.frame = g
    generalize f32ToF64 s.draw v = u
    exact ⟨rfl, filtersOf_congr rfl rfl rfl rfl T, rfl, rfl, rfl, rfl, rfl, fun _ => rfl⟩

theorem kernelKMR_keeps (T : Chain) (input output : S16) (v v' : F32) (s : State) :
    KernelKeeps output s (kernelKMR T input output v v' s).2 := by
  have h := loop_kernelKeeps (kmrSample_isBody T input output) (kmrFn_counts T) (kmrStart v v' s)
  have he := (kmrStart_facts T v v' s).1
  rw [kernelKMR_eq]
  generalize loop (kmrSample T input output) (kmrStart v v' s).frame.toNat (clearI (kmrStart v v' s)) = t at *
  obtain ⟨h1, h2, h3, h4⟩ := h
  rw [he] at h1 h2 h3 h4
  exact ⟨congrArg (useDraws 1) h1, h2, h3, h4⟩

/-- With no sample the increment does not matter. -/
theorem kmrList_nil (k : Nat) (fs : List Filter) (vol ramp ramp' last : F64) :
    kmrList k fs vol ramp last [] = kmrList k fs vol ramp' last [] := by rw [kmrList, kmrList]

/-- `KMR(T)` is `kmrBlock` of the input and the output span (R142). -/
theorem kernelKMR_spec (T : Chain) {input output : S16} (hin : 0 ≤ input.toInt) (hout : 0 ≤ output.toInt) (v v' : F32)
    (s : State) :
    let r := kmrBlock s.draw (filtersOf T s.work) v v' s.frame ((samples input s).zip (samples output s))
    let t := (kernelKMR T input output v v' s).2
    samples output t = r.out ∧ filtersOf T t.work = r.filters ∧ t.draw = r.draw + 1 ∧
      (kernelKMR T input output v v' s).1 = f64ToF32 r.draw r.last ∧
      t.work.c0 = s.work.c0 ∧ t.work.c1 = s.work.c1 ∧ (T = .single → t.work.d1 = s.work.d1) := by
  intro r t
  obtain ⟨he, hfil, hvol, hlast, hc0, hc1, hd1, hramp⟩ := kmrStart_facts T v v' s
  obtain ⟨h1, h2, h3⟩ := loop_samples (kmrSample_isBody T input output) (kmrFn_counts T) hin hout (kmrStart v v' s)
  obtain ⟨r1, r2, r3, r4, r5, _⟩ := runBlock_kmr T (clearI (kmrStart v v' s)).work (kmrStart v v' s).draw
    ((samples input (kmrStart v v' s)).zip (samples output (kmrStart v v' s)))
  have hfr : (kmrStart v v' s).frame = s.frame := by rw [he]
  have hin' : samples input (kmrStart v v' s) = samples input s := samples_congr (by rw [he]) hfr _
  have hout' : samples output (kmrStart v v' s) = samples output s := samples_congr (by rw [he]) hfr _
  have hdr : (kmrStart v v' s).draw = rampLoopDraw s.draw s.frame := by rw [he]
  have hfil' : filtersOf T (clearI (kmrStart v v' s)).work = filtersOf T s.work :=
    (filtersOf_congr rfl rfl rfl rfl T).trans hfil
  have hq : kmrList (kmrStart v v' s).draw (filtersOf T (clearI (kmrStart v v' s)).work) (clearI (kmrStart v v' s)).work.vol
      (clearI (kmrStart v v' s)).work.ramp (clearI (kmrStart v v' s)).work.last
      ((samples input (kmrStart v v' s)).zip (samples output (kmrStart v v' s))) = r := by
    rw [hin', hout', hdr, hfil', clearI_work_vol, clearI_work_last, clearI_work_ramp, hvol, hlast]
    by_cases hn : s.frame = 0#32
    · have hz : samples input s = [] := List.length_eq_zero_iff.mp (by rw [length_samples, hn]; rfl)
      simp only [r, kmrBlock, hz, List.zip_nil_left]
      exact kmrList_nil _ _ _ _ _ _
    · rw [hramp hn]
      rfl
  rw [← h1] at r1
  rw [← h2] at r2 r3 r5
  rw [← h3] at r4
  rw [hq] at r1 r2 r3 r4
  have ht : t = useDraws 1 (loop (kmrSample T input output) (kmrStart v v' s).frame.toNat (clearI (kmrStart v v' s))) := by
    simp only [t, kernelKMR_eq]
  rw [kernelKMR_eq, ht]
  refine ⟨(samples_congr rfl rfl output).trans r1, r2, congrArg (· + 1) r4, congrArg₂ f64ToF32 r4 r3, ?_, ?_, ?_⟩
  · exact r5.1.trans hc0
  · exact r5.2.1.trans hc1
  · intro hT; exact (r5.2.2.2 hT).trans hd1

/-! ### Draw numbers only matter where a NaN appears -/

/-- A recurrence output that is not a NaN does not depend on the draw number: a NaN of any of its nine operations would
reach it. -/
theorem biquadOutput_draw {k : Nat} (j : Nat) {c : Coeffs} {d : Delay} {x : F64}
    (h : f64IsNaN (biquadOutput k c d x) = false) : biquadOutput j c d x = biquadOutput k c d x := by
  simp only [biquadOutput] at h ⊢
  obtain ⟨h3, m4⟩ := fadd_not_nan h
  obtain ⟨h2, m3⟩ := fadd_not_nan h3
  obtain ⟨h1, m2⟩ := fadd_not_nan h2
  obtain ⟨m0, m1⟩ := fadd_not_nan h1
  rw [fmul_draw j m0, fmul_draw (j + 1) m1, fmul_draw (j + 2) m2, fmul_draw (j + 3) m3, fmul_draw (j + 4) m4,
    fadd_draw (j + 5) h1, fadd_draw (j + 6) h2, fadd_draw (j + 7) h3, fadd_draw (j + 8) h]

theorem outputsList_cons (k : Nat) (c : Coeffs) (d : Delay) (x : S32) (xs : List S32) :
    outputsList k c d (x :: xs) = biquadOutput k c d (i32ToF64 x) ::
      outputsList (k + 10) c (shiftDelay d (i32ToF64 x) (biquadOutput k c d (i32ToF64 x))) xs := by
  rw [outputsList]

/-- A block's outputs, none of them a NaN, do not depend on the draw number. -/
theorem outputsList_draw {k : Nat} (j : Nat) {c : Coeffs} {d : Delay} {xs : List S32}
    (h : ∀ y ∈ outputsList k c d xs, f64IsNaN y = false) : outputsList j c d xs = outputsList k c d xs := by
  induction xs generalizing k j d with
  | nil => rw [outputsList, outputsList]
  | cons x xs ih =>
    rw [outputsList_cons] at h
    have h0 := biquadOutput_draw j (h _ List.mem_cons_self)
    rw [outputsList_cons, outputsList_cons, h0, ih _ fun y hy => h y (List.mem_cons_of_mem _ hy)]

/-- A recurrence output that is not a NaN came from an input that was none. -/
theorem biquadOutput_input {k : Nat} {c : Coeffs} {d : Delay} {x : F64} (h : f64IsNaN (biquadOutput k c d x) = false) :
    f64IsNaN x = false :=
  (fmul_not_nan (fadd_not_nan (fadd_not_nan (fadd_not_nan (fadd_not_nan h).1).1).1).1).1

/-- Coefficients that differ at most in which NaN they are give the same outputs: coefficients are only multiplied with. -/
theorem biquadOutput_nan_congr (k : Nat) {c c' : Coeffs} (d : Delay) (x : F64)
    (h0 : c'.b0 = c.b0 ∨ (f64IsNaN c.b0 = true ∧ f64IsNaN c'.b0 = true))
    (h1 : c'.b1 = c.b1 ∨ (f64IsNaN c.b1 = true ∧ f64IsNaN c'.b1 = true))
    (h2 : c'.b2 = c.b2 ∨ (f64IsNaN c.b2 = true ∧ f64IsNaN c'.b2 = true))
    (h3 : c'.a0 = c.a0 ∨ (f64IsNaN c.a0 = true ∧ f64IsNaN c'.a0 = true))
    (h4 : c'.a1 = c.a1 ∨ (f64IsNaN c.a1 = true ∧ f64IsNaN c'.a1 = true)) :
    biquadOutput k c' d x = biquadOutput k c d x := by
  simp only [biquadOutput, fmul_nan_congr _ _ h0, fmul_nan_congr _ _ h1, fmul_nan_congr _ _ h2, fmul_nan_congr _ _ h3,
    fmul_nan_congr _ _ h4]

theorem chainList_cons (k : Nat) (f : Filter) (fs : List Filter) (x : F64) :
    chainList k (f :: fs) x =
      ((chainList (k + 9) fs (biquadOutput k f.c f.d x)).1,
        ⟨f.c, shiftDelay f.d x (biquadOutput k f.c f.d x)⟩ :: (chainList (k + 9) fs (biquadOutput k f.c f.d x)).2) := by
  rw [chainList]

/-- A chain's output that is not a NaN came from an input that was none. -/
theorem chainList_input {k : Nat} {fs : List Filter} {x : F64} (h : f64IsNaN (chainList k fs x).1 = false) :
    f64IsNaN x = false := by
  induction fs generalizing k x with
  | nil => exact h
  | cons f fs ih => rw [chainList_cons] at h; exact biquadOutput_input (ih h)

/-- A chain whose last output is not a NaN does not depend on the draw number. -/
theorem chainList_draw {k : Nat} (j : Nat) {fs : List Filter} {x : F64} (h : f64IsNaN (chainList k fs x).1 = false) :
    chainList j fs x = chainList k fs x := by
  induction fs generalizing k j x with
  | nil => rw [chainList, chainList]
  | cons f fs ih =>
    rw [chainList_cons] at h
    rw [chainList_cons, chainList_cons, biquadOutput_draw j (chainList_input h), ih (j + 9) h]

theorem mixSums_cons (k : Nat) (fs : List Filter) (vol : F64) (ramp : Option F64) (x old : S32) (rest : List (S32 × S32)) :
    mixSums k fs vol ramp ((x, old) :: rest) =
      (let f := chainList k fs (i32ToF64 x)
       let j := k + 9 * fs.length
       fadd (j + 1) (i32ToF64 old) (fmul j f.1 vol) ::
         match ramp with
         | none => mixSums (j + 3) f.2 vol none rest
         | some r => mixSums (j + 4) f.2 (fadd (j + 3) vol r) (some r) rest) := by
  cases ramp <;> simp only [mixSums]

/-- Mixed sums, none of them a NaN, do not depend on the draw number. -/
theorem mixSums_draw {k : Nat} (j : Nat) {fs : List Filter} {vol : F64} {ramp : Option F64} {pairs : List (S32 × S32)}
    (h : ∀ v ∈ mixSums k fs vol ramp pairs, f64IsNaN v = false) : mixSums j fs vol ramp pairs = mixSums k fs vol ramp pairs := by
  induction pairs generalizing k j fs vol with
  | nil => rw [mixSums, mixSums]
  | cons p rest ih =>
    obtain ⟨x, old⟩ := p
    rw [mixSums_cons] at h
    have hs := h _ List.mem_cons_self
    have hm := (fadd_not_nan hs).2
    have hf := chainList_draw j (fmul_not_nan hm).1
    have hr := fun v hv => h v (List.mem_cons_of_mem _ hv)
    rw [mixSums_cons, mixSums_cons]
    simp only [hf]
    rw [fmul_draw (j + 9 * fs.length) hm, fadd_draw (j + 9 * fs.length + 1) hs]
    congr 1
    cases ramp with
    | none => exact ih _ hr
    | some r =>
      cases rest with
      | nil => simp only [mixSums]
      | cons q rest =>
        have hn : f64IsNaN (fadd (k + 9 * fs.length + 3) vol r) = false := by
          have h1 := hr
          simp only at h1
          rw [mixSums_cons] at h1
          exact (fmul_not_nan (fadd_not_nan (h1 _ List.mem_cons_self)).2).2
        simp only at hr ⊢
        rw [fadd_draw (j + 9 * fs.length + 3) hn]
        exact ih _ hr

/-- A volume increment that is not a NaN does not depend on the draw number. -/
theorem rampStep_draw {k j : Nat} {v v' : F32} {n : U32} (h : f64IsNaN (rampStep j v v' n) = false) :
    rampStep k v v' n = rampStep j v v' n := by
  rw [rampStep] at h ⊢
  have hs := (fdiv_not_nan h).1
  have hw : ∀ {i : Nat} {u : F32}, f64IsNaN (f32ToF64 i u) = false → f32IsNaN u = false := by
    intro i u hu
    by_contra hc
    rw [Bool.not_eq_false] at hc
    simp [f32ToF64, hc] at hu
  have h1 := hw (fadd_not_nan hs).1
  have h0 : f32IsNaN v = false := by
    by_contra hc
    rw [Bool.not_eq_false] at hc
    have hn : f64IsNaN (f64Neg (f32ToF64 j v)) = true := by
      rw [f32ToF64, hc]
      simp only [if_true]
      rw [f64IsNaN_neg]; simp
    rw [fsub, fadd_nan_right _ _ hn] at hs
    simp at hs
  rw [rampStep, f32ToF64_draw (j := j + 1) h1, f32ToF64_draw (j := j) h0, fsub_draw (k + 2) hs, fdiv_draw (k + 3) h]

theorem chainOutputs_cons (k : Nat) (fs : List Filter) (x : S32) (xs : List S32) :
    chainOutputs k fs (x :: xs) = (chainList k fs (i32ToF64 x)).2.map (fun f => f.d.s2) ++
      chainOutputs (k + 9 * fs.length) (chainList k fs (i32ToF64 x)).2 xs := by
  rw [chainOutputs]

/-- A chain none of whose outputs is a NaN does not depend on the draw number. -/
theorem chainList_outputs_draw {k : Nat} (j : Nat) {fs : List Filter} {x : F64}
    (h : ∀ y ∈ (chainList k fs x).2.map (fun f => f.d.s2), f64IsNaN y = false) : chainList j fs x = chainList k fs x := by
  induction fs generalizing k j x with
  | nil => rw [chainList, chainList]
  | cons f fs ih =>
    rw [chainList_cons, List.map_cons] at h
    rw [chainList_cons, chainList_cons, biquadOutput_draw j (h _ List.mem_cons_self),
      ih (j + 9) fun y hy => h y (List.mem_cons_of_mem _ hy)]

/-- The outputs of a chain over a block, none of them a NaN, do not depend on the draw number. -/
theorem chainOutputs_draw {k : Nat} (j : Nat) {fs : List Filter} {xs : List S32}
    (h : ∀ y ∈ chainOutputs k fs xs, f64IsNaN y = false) : chainOutputs j fs xs = chainOutputs k fs xs := by
  induction xs generalizing k j fs with
  | nil => rw [chainOutputs, chainOutputs]
  | cons x xs ih =>
    rw [chainOutputs_cons] at h
    rw [chainOutputs_cons, chainOutputs_cons,
      chainList_outputs_draw j fun y hy => h y (List.mem_append_left _ hy),
      ih (j + 9 * fs.length) fun y hy => h y (List.mem_append_right _ hy)]

end Sys2Proof.Machine
end

