-- ==== Sys2Proof/Laws/PerInstr.lean ====
section
/-! SUPPORT. Statements about every instruction as syntax, one lemma per constructor (LAWS.json). -/

namespace Sys2Proof.Laws

/-- The header word a command encodes to is selected by the row of the opcode map with the command's mnemonic, and that
row needs `HW_REV` ≥ 15 exactly when the command has float coefficients (30_encoding.md R90). -/
def HeaderRow.Statement (i : Instr) : Prop :=
  ∃ r ∈ Machine.headerRows, r.mnemonic = i.mnemonic ∧ r.selects i.header = true ∧ r.float = i.useFloatCoefficients

theorem HeaderRow.bqfI (o : BqfOperands) (c : Q14Params) : HeaderRow.Statement (.bqfI o c) :=
  have h : ∀ b, Machine.HeaderRow.selects ⟨"BQF.I", 0x00000001#32, 0xFFFFFFEF#32, false⟩
      (headerWord 1#4 b false false false false false) = true := by decide
  ⟨⟨"BQF.I", 0x00000001#32, 0xFFFFFFEF#32, false⟩, by simp [Machine.headerRows], rfl, h o.needsInit0, rfl⟩

theorem HeaderRow.bqfD (o : BqfOperands) (c : Q14Params) : HeaderRow.Statement (.bqfD o c) :=
  have h : ∀ b, Machine.HeaderRow.selects ⟨"BQF.D", 0x00000101#32, 0xFFFFFFEF#32, false⟩
      (headerWord 1#4 b false false false true false) = true := by decide
  ⟨⟨"BQF.D", 0x00000101#32, 0xFFFFFFEF#32, false⟩, by simp [Machine.headerRows], rfl, h o.needsInit0, rfl⟩

theorem HeaderRow.bqfDF (o : BqfOperands) (c : F32Params) : HeaderRow.Statement (.bqfDF o c) :=
  have h : ∀ b, Machine.HeaderRow.selects ⟨"BQF.DF", 0x00000301#32, 0xFFFFFFEF#32, true⟩
      (headerWord 1#4 b false false false true true) = true := by decide
  ⟨⟨"BQF.DF", 0x00000301#32, 0xFFFFFFEF#32, true⟩, by simp [Machine.headerRows], rfl, h o.needsInit0, rfl⟩

theorem HeaderRow.bqfm (o : BqfmOperands) (c : Q14Params) : HeaderRow.Statement (.bqfm o c) :=
  have h : ∀ b f, Machine.HeaderRow.selects ⟨"BQFM", 0x00000102#32, 0xFFFFFF6F#32, false⟩
      (headerWord 2#4 b false false f true false) = true := by decide
  ⟨⟨"BQFM", 0x00000102#32, 0xFFFFFF6F#32, false⟩, by simp [Machine.headerRows], rfl, h o.needsInit0 o.isFirstMixBuffer, rfl⟩

theorem HeaderRow.bqfmF (o : BqfmOperands) (c : F32Params) : HeaderRow.Statement (.bqfmF o c) :=
  have h : ∀ b f, Machine.HeaderRow.selects ⟨"BQFM.F", 0x00000302#32, 0xFFFFFF6F#32, true⟩
      (headerWord 2#4 b false false f true true) = true := by decide
  ⟨⟨"BQFM.F", 0x00000302#32, 0xFFFFFF6F#32, true⟩, by simp [Machine.headerRows], rfl, h o.needsInit0 o.isFirstMixBuffer, rfl⟩

theorem HeaderRow.bqfmR (o : BqfmOperands) (c : Q14Params) : HeaderRow.Statement (.bqfmR o c) :=
  have h : ∀ b f, Machine.HeaderRow.selects ⟨"BQFM.R", 0x00000142#32, 0xFFFFFF6F#32, false⟩
      (headerWord 2#4 b false true f true false) = true := by decide
  ⟨⟨"BQFM.R", 0x00000142#32, 0xFFFFFF6F#32, false⟩, by simp [Machine.headerRows], rfl, h o.needsInit0 o.isFirstMixBuffer, rfl⟩

theorem HeaderRow.bqfmRF (o : BqfmOperands) (c : F32Params) : HeaderRow.Statement (.bqfmRF o c) :=
  have h : ∀ b f, Machine.HeaderRow.selects ⟨"BQFM.RF", 0x00000342#32, 0xFFFFFF6F#32, true⟩
      (headerWord 2#4 b false true f true true) = true := by decide
  ⟨⟨"BQFM.RF", 0x00000342#32, 0xFFFFFF6F#32, true⟩, by simp [Machine.headerRows], rfl, h o.needsInit0 o.isFirstMixBuffer, rfl⟩

theorem HeaderRow.mtbqfm (o : MtOperands) (c0 c1 : Q14Params) : HeaderRow.Statement (.mtbqfm o c0 c1) :=
  have h : ∀ b b1 f, Machine.HeaderRow.selects ⟨"MTBQFM", 0x00000103#32, 0xFFFFFF4F#32, false⟩
      (headerWord 3#4 b b1 false f true false) = true := by decide
  ⟨⟨"MTBQFM", 0x00000103#32, 0xFFFFFF4F#32, false⟩, by simp [Machine.headerRows], rfl, h o.needsInit0 o.needsInit1 o.isFirstMixBuffer, rfl⟩

theorem HeaderRow.mtbqfmF (o : MtOperands) (c0 c1 : F32Params) : HeaderRow.Statement (.mtbqfmF o c0 c1) :=
  have h : ∀ b b1 f, Machine.HeaderRow.selects ⟨"MTBQFM.F", 0x00000303#32, 0xFFFFFF4F#32, true⟩
      (headerWord 3#4 b b1 false f true true) = true := by decide
  ⟨⟨"MTBQFM.F", 0x00000303#32, 0xFFFFFF4F#32, true⟩, by simp [Machine.headerRows], rfl, h o.needsInit0 o.needsInit1 o.isFirstMixBuffer, rfl⟩

theorem HeaderRow.mtbqfmR (o : MtOperands) (c0 c1 : Q14Params) : HeaderRow.Statement (.mtbqfmR o c0 c1) :=
  have h : ∀ b b1 f, Machine.HeaderRow.selects ⟨"MTBQFM.R", 0x00000143#32, 0xFFFFFF4F#32, false⟩
      (headerWord 3#4 b b1 true f true false) = true := by decide
  ⟨⟨"MTBQFM.R", 0x00000143#32, 0xFFFFFF4F#32, false⟩, by simp [Machine.headerRows], rfl, h o.needsInit0 o.needsInit1 o.isFirstMixBuffer, rfl⟩

theorem HeaderRow.mtbqfmRF (o : MtOperands) (c0 c1 : F32Params) : HeaderRow.Statement (.mtbqfmRF o c0 c1) :=
  have h : ∀ b b1 f, Machine.HeaderRow.selects ⟨"MTBQFM.RF", 0x00000343#32, 0xFFFFFF4F#32, true⟩
      (headerWord 3#4 b b1 true f true true) = true := by decide
  ⟨⟨"MTBQFM.RF", 0x00000343#32, 0xFFFFFF4F#32, true⟩, by simp [Machine.headerRows], rfl, h o.needsInit0 o.needsInit1 o.isFirstMixBuffer, rfl⟩

end Sys2Proof.Laws
end

