-- ==== Sys2Proof/Laws/Sequencer.lean ====
section
/-! SUPPORT. What the sequencer can do: every `Process` gives a next state, a step is one of three things, and command
memory reads back what was stored in it. -/

namespace Sys2Proof.Machine

/-! ### `Process` -/

/-- No form faults or is left without a meaning. -/
theorem exec_next (i : Instr) (s : State) : ∃ t, exec i s = .next t := by
  rcases exec_cases i s with ⟨_, h⟩ | ⟨r, _, h⟩ <;> exact ⟨_, h⟩

/-- The record while the list has a command at `pc`. -/
theorem nextRecord_of_lt {s : State} (h : s.pc < s.listLen) :
    nextRecord s = (decode s.par.hwRev (listElement s.pc s)).toOption := if_pos h

/-- The record after the list's last command. -/
theorem nextRecord_of_le {s : State} (h : s.listLen ≤ s.pc) : nextRecord s = s.cmd := if_neg (Nat.not_lt.mpr h)

theorem nextRecord_ok {s : State} {i : Instr} (h : s.pc < s.listLen)
    (hd : decode s.par.hwRev (listElement s.pc s) = .ok i) : nextRecord s = some i := by
  rw [nextRecord_of_lt h, hd]; rfl

theorem nextRecord_error {s : State} {e : DecodeError} (h : s.pc < s.listLen)
    (hd : decode s.par.hwRev (listElement s.pc s) = .error e) : nextRecord s = none := by
  rw [nextRecord_of_lt h, hd]; rfl

/-- Everything `processNext` can do. -/
theorem processNext_cases (s : State) :
    (nextRecord s = none ∧
      processNext s = .next (afterProcess (takeRefusal .illegalDescriptor { s with cmd := none }))) ∨
    (∃ i t, nextRecord s = some i ∧ exec i { s with cmd := some i } = .next t ∧
      processNext s = .next (afterProcess t)) := by
  rw [processNext]
  cases hd : nextRecord s with
  | none => exact .inl ⟨rfl, by simp only [latch, hd]⟩
  | some i =>
    obtain ⟨t, ht⟩ := exec_next i { s with cmd := some i }
    exact .inr ⟨i, t, rfl, ht, by simp only [latch, hd, ht]⟩

/-- Every selected operation gives a next state. -/
theorem operate_next (select : BitVec 2) (s : State) : ∃ t, operate select s = .next t := by
  rw [operate]
  split
  · rcases processNext_cases s with ⟨_, h⟩ | ⟨_, _, _, _, h⟩ <;> exact ⟨_, h⟩
  · (repeat' split) <;> exact ⟨_, rfl⟩

/-! ### A step -/

theorem step_hostOp {s : State} {op : HostOp} {rest : List HostOp} (h : s.host = op :: rest) :
    step s = performHostOp op { s with host := rest } := by
  rw [step, stepOnce, h]

theorem step_process {s : State} (h : s.host = []) (hp : s.pc < s.listLen) : step s = processNext s := by
  rw [step, stepOnce, h]
  simp only [hp, if_true]

theorem step_idle {s : State} (h : s.host = []) (hp : s.listLen ≤ s.pc) : step s = .next s := by
  rw [step, stepOnce, h]
  simp only [Nat.not_lt.mpr hp, if_false]

/-! ### Decoding -/

/-- A decoded command is legal on the revision it was decoded for. -/
theorem decode_wellFormed {hwRev : Int} {d : Descriptor} {i : Instr} (h : decode hwRev d = .ok i) :
    i.wellFormed hwRev = true := by
  have hb : i = d.build ∧ headerError hwRev (d.word 0) = none := by
    rw [decode] at h
    split at h
    · cases h
    · split at h
      · cases h
      · rename_i hn
        exact ⟨by injection h with h; exact h.symm, hn⟩
  obtain ⟨rfl, hn⟩ := hb
  have hf : headerFloatCoefficients (d.word 0) = false ∨ 15 ≤ hwRev := by
    rw [or_iff_not_imp_left, Bool.not_eq_false]
    intro hc
    by_contra hr
    simp only [headerError, hc] at hn
    have : decide (hwRev < 15) = true := decide_eq_true (by omega)
    rw [this] at hn
    simp only [Bool.and_true, if_true] at hn
    repeat' split at hn
    all_goals cases hn
  have hu : d.build.useFloatCoefficients = true → headerFloatCoefficients (d.word 0) = true := by
    rw [Descriptor.build]
    intro hu
    by_contra hc
    rw [Bool.not_eq_true] at hc
    simp only [hc] at hu
    (repeat' split at hu) <;> simp_all [Instr.useFloatCoefficients]
  rw [Instr.wellFormed]
  rcases hf with hf | hf
  · have : d.build.useFloatCoefficients = false := by
      rw [← Bool.not_eq_true]
      intro h
      rw [hu h] at hf
      cases hf
    rw [this]; rfl
  · rw [decide_eq_true hf, Bool.or_true]

/-- The record an operation acts on is legal, where the one latched last is. -/
theorem nextRecord_wellFormed {s : State} {i : Instr} (hs : ∀ j, s.cmd = some j → j.wellFormed s.par.hwRev = true)
    (h : nextRecord s = some i) : i.wellFormed s.par.hwRev = true := by
  rw [nextRecord] at h
  split at h
  · cases hd : decode s.par.hwRev (listElement s.pc s) with
    | error e => rw [hd] at h; cases h
    | ok j => rw [hd] at h; cases h; exact decode_wellFormed hd
  · exact hs i h

/-! ### Splitter blobs -/

theorem splitterAccepts_iff {p : Params} {b : SplitterParams} {r : Splitter} :
    splitterAccepts p b r = true ↔ b.id = r.id ∧ b.magic = p.splitterMagic := by
  simp only [splitterAccepts, Bool.and_eq_true, beq_iff_eq]

@[simp] theorem blobVolumes_length (p : Params) (k : Nat) (b : SplitterParams) : (blobVolumes p k b).length = p.nchan := by
  rw [blobVolumes, List.length_map, List.length_range]

@[simp] theorem blobRev12_length (p : Params) (k : Nat) (l : List SlotParams) : (blobRev12 p k l).length = p.nbqRev12 := by
  rw [blobRev12, List.length_map, List.length_range]

/-- A channel gets the blob's volume, if the blob has one. -/
theorem blobVolumes_getElem {p : Params} {k c : Nat} {b : SplitterParams} {v : F32} (hc : c < p.nchan)
    (hv : b.mixVolumes[c]? = some v) : (blobVolumes p k b)[c]? = some v := by
  simp [blobVolumes, List.getElem?_map, List.getElem?_range hc, List.getD_eq_getElem?_getD, hv]

theorem blobRev12_getElem {p : Params} {k j : Nat} {l : List SlotParams} {q : SlotParams} (hj : j < p.nbqRev12)
    (hq : l[j]? = some q) : (blobRev12 p k l)[j]? = some q := by
  simp [blobRev12, List.getElem?_map, List.getElem?_range hj, List.getD_eq_getElem?_getD, hq]

/-- A blob of the record's lengths is stored as it is. -/
theorem blobVolumes_eq {p : Params} {b : SplitterParams} (h : b.mixVolumes.length = p.nchan) (k : Nat) :
    blobVolumes p k b = b.mixVolumes := by
  refine List.ext_getElem? fun c => ?_
  by_cases hc : c < p.nchan
  · exact blobVolumes_getElem hc (List.getElem?_eq_getElem (h ▸ hc)) |>.trans (List.getElem?_eq_getElem (h ▸ hc)).symm
  · rw [List.getElem?_eq_none (by simpa using hc), List.getElem?_eq_none (by omega)]

/-! ### Command memory -/

theorem readByte_storeWords_outside (m : Memory) (addr : Nat) (ws : List (BitVec 32)) (a : Nat)
    (h : a < addr ∨ addr + 4 * ws.length ≤ a) :
    (storeWords m addr ws).readByte .command a = m.readByte .command a := by
  induction ws generalizing m addr with
  | nil => rfl
  | cons w ws ih =>
    rw [List.length_cons] at h
    rw [storeWords, ih _ _ (by omega), Memory.readByte_write_outside _ _ _ _ _ _ (by omega)]

theorem readWords_congr {m m' : Memory} (addr k : Nat)
    (h : ∀ a, addr ≤ a → a < addr + 4 * k → m'.readByte .command a = m.readByte .command a) :
    readWords m' addr k = readWords m addr k := by
  induction k generalizing addr with
  | zero => rfl
  | succ k ih =>
    rw [readWords, readWords, ih (addr + 4) fun a h1 h2 => h a (by omega) (by omega)]
    rw [Memory.read_congr _ fun a h1 h2 => h a (by omega) (by omega)]

theorem readWords_storeWords (m : Memory) (addr : Nat) (ws : List (BitVec 32)) :
    readWords (storeWords m addr ws) addr ws.length = ws := by
  induction ws generalizing m addr with
  | nil => rfl
  | cons w ws ih =>
    rw [List.length_cons, readWords, storeWords, ih]
    rw [Memory.read_congr (m := storeWords (m.write addr 4 w.toNat) (addr + 4) ws) (m' := m.write addr 4 w.toNat)
      (addr := addr) (n := 4) _ fun a h1 h2 => readByte_storeWords_outside _ _ _ _ (by omega)]
    rw [Memory.read_write_same]
    congr 1
    apply BitVec.eq_of_toNat_eq
    have := w.isLt
    simp only [BitVec.toNat_ofNat]
    omega

/-- A stored descriptor reads back, and every other one is kept. -/
theorem listElement_storeDescriptor {j : Nat} {d : Descriptor} (hd : d.wellFormed = true) (s : State) (j' : Nat) :
    listElement j' (storeDescriptor j d s) = if j' = j then d else listElement j' s := by
  have hl : d.length = 20 := by simpa [Descriptor.wellFormed] using hd
  split
  · rename_i h
    subst h
    simp only [listElement, storeDescriptor]
    conv_lhs => rw [← hl]
    exact readWords_storeWords _ _ _
  · simp only [listElement, storeDescriptor]
    refine readWords_congr _ _ fun a h1 h2 => readByte_storeWords_outside _ _ _ _ ?_
    simp only [descriptorAddr, hl] at *
    omega

/-- Storing a list changes command memory alone. -/
theorem storeList_eq (j : Nat) (l : List Descriptor) (s : State) :
    storeList j l s = { s with cmdMem := (storeList j l s).cmdMem } := by
  induction l generalizing j s with
  | nil => rfl
  | cons d l ih => rw [storeList, ih]; rfl

/-- A stored list reads back element by element, and the elements before it are kept. -/
theorem listElement_storeList {l : List Descriptor} (hl : ∀ d ∈ l, d.wellFormed = true) (j : Nat) (s : State) :
    (∀ k d, l[k]? = some d → listElement (j + k) (storeList j l s) = d) ∧
    (∀ j', j' < j → listElement j' (storeList j l s) = listElement j' s) := by
  induction l generalizing j s with
  | nil => exact ⟨fun k d h => by simp at h, fun j' _ => rfl⟩
  | cons d l ih =>
    obtain ⟨h1, h2⟩ := ih (fun d' h => hl d' (List.mem_cons_of_mem _ h)) (j + 1) (storeDescriptor j d s)
    have hd := hl d List.mem_cons_self
    constructor
    · intro k d' hk
      rw [storeList]
      cases k with
      | zero =>
        rw [Nat.add_zero, h2 j (by omega), listElement_storeDescriptor hd, if_pos rfl]
        simpa using hk
      | succ k =>
        rw [show j + (k + 1) = j + 1 + k by omega]
        exact h1 k d' (by simpa using hk)
    · intro j' hj
      rw [storeList, h2 j' (by omega), listElement_storeDescriptor hd, if_neg (by omega)]

end Sys2Proof.Machine
end

