-- ==== Sys2Proof/Tests/Slice0.lean ====
section
/-! SUPPORT. Tests. Every expected value is from spec/95_test_vectors.md (its section or vector is named at each test), every
descriptor word is written out from 30_encoding.md R82 to R84 or copied from section 9. -/

namespace Sys2Proof.Tests
open Sys2Proof.Machine

-- The kernel evaluates one test after the other, so that not every one of them claims a thread's stack at once.
set_option Elab.async false

/-! ### Small states -/

/-- Words of `width` bytes from address `a` on. -/
def fill (width : Nat) : Nat → List Nat → Memory → Memory
  | _, [], m => m
  | a, v :: vs, m => fill width (a + width) vs (m.write a width v)

/-- The reset state with `n` samples a frame, an arena, state words and previous samples. -/
def start (n : Nat) (arena : List Int) (srf : List Nat) (prev : List Int) : State :=
  let patterns (l : List Int) := l.map fun v => (BitVec.ofInt 32 v).toNat
  { State.reset with
    frame := BitVec.ofNat 32 n
    arena := fill 4 0 (patterns arena) []
    srf := fill 8 0 srf []
    prev := fill 4 0 (patterns prev) [] }

/-- `Process` of a form answers a next state with this property. -/
def after (i : Instr) (s : State) (p : State → Bool) : Bool :=
  match exec i s with
  | .next t => p t
  | .fault _ => false
  | .refused _ => false

/-- A step answers a next state with this property. -/
def stepped (s : State) (p : State → Bool) : Bool :=
  match step s with
  | .next t => p t
  | .fault _ => false
  | .refused _ => false

/-- The samples of a buffer are these. -/
def holds (k : S16) (l : List Int) (t : State) : Bool := (samples k t).map BitVec.toInt == l

/-- The words of a state entry are these. -/
def entryIs (h : Handle) (l : List Nat) (t : State) : Bool :=
  let e := readEntry h t
  [e.w0.toNat, e.w1.toNat, e.w2.toNat, e.w3.toNat] == l

/-- The previous samples of voice 0 are these. -/
def prevIs (l : List Int) (t : State) : Bool := (List.range 4).map (fun k => (readPrev 0 k t).toInt) == l

/-- `H`, `ID`, `F0`, `F1` of section 95. -/
def coeffH : Q14Params := ⟨0x2000#16, 0#16, 0#16, 0#16, 0#16⟩
def coeffID : Q14Params := ⟨0x4000#16, 0#16, 0#16, 0#16, 0#16⟩
def coeffF0 : Q14Params := ⟨0x2000#16, 0x1000#16, 0x0800#16, 0x2000#16, 0xF000#16⟩
def coeffF1 : Q14Params := ⟨0x2000#16, 0x2000#16, 0#16, 0#16, 0#16⟩
/-- `F0`, `F1` and the identity as float coefficients. -/
def floatF0 : F32Params := ⟨0x3F000000#32, 0x3E800000#32, 0x3E000000#32, 0x3F000000#32, 0xBE800000#32⟩
def floatF1 : F32Params := ⟨0x3F000000#32, 0x3F000000#32, 0#32, 0#32, 0#32⟩
def floatID : F32Params := ⟨0x3F800000#32, 0#32, 0#32, 0#32, 0#32⟩

/-- `in = 0, out = 1, st = 0`. -/
def bq (init : Bool) : BqfOperands := ⟨0#16, 1#16, 0#32, init⟩

/-- `in = 0, out = 1, st = 0, pv = 1, voice = 0`. -/
def mix (index : S32) (v0 v1 : F32) (init first : Bool) : BqfmOperands :=
  ⟨0#16, 1#16, 0#32, 1#32, 0#32, index, v0, v1, init, first⟩

/-- `in = 0, out = 1, st = (0, 1), pv = (2, 3), voice = 0`. -/
def tap (index : S32) (v0 v1 : F32) (init0 init1 first : Bool) : MtOperands :=
  ⟨0#16, 1#16, 0#32, 1#32, 2#32, 3#32, 0#32, index, v0, v1, init0, init1, first⟩

/-! ### Ill-formed terms are refused (R81, R89 g, R8) -/

theorem test_illformed_float_form : Instr.wellFormed 14 (.bqfDF (bq true) floatID) = false ∧
    Instr.wellFormed 15 (.bqfDF (bq true) floatID) = true ∧ Instr.wellFormed 14 (.bqfD (bq true) coeffID) = true := by decide

theorem test_illformed_descriptor : Descriptor.wellFormed (List.replicate 19 1#32) = false ∧
    decode 15 (List.replicate 21 1#32) = .error .badLength := by decide

theorem test_illformed_params : Params.ok Config.resetParams = true ∧
    [{ Config.resetParams with nstate := 0 }, { Config.resetParams with nbuf := 0 }, { Config.resetParams with nbuf := 32769 },
     { Config.resetParams with maxSampleCount := 2 ^ 32 }, { Config.resetParams with prevLen := 2 ^ 31 },
     { Config.resetParams with nchan := 0 }].all (fun p => !p.ok) = true := by decide

/-- Section 7.1, the illegal rows, in its order. -/
theorem test_illegal_headers :
    [0x00000000#32, 0x00000004#32, 0x0000010F#32, 0x00000501#32, 0x80000101#32, 0x00000121#32, 0x00000141#32, 0x00000181#32,
      0x00000122#32, 0x00000002#32, 0x00000003#32, 0x00000201#32].map (headerError 15) =
    [some .reservedOpcode, some .reservedOpcode, some .reservedOpcode, some .reservedHeaderBits, some .reservedHeaderBits,
      some .bqfFlagBits, some .bqfFlagBits, some .bqfFlagBits, some .bqfmSecondTap, some .integerMix, some .integerMix,
      some .integerFloatCoefficients] ∧ headerError 14 0x00000301#32 = some .floatRevision := by decide

/-! ### Decoding: words from 30_encoding.md, section 9 of the vectors where it writes the command out -/

/-- P1, second command. -/
theorem test_decode_bqfI :
    decode 15 [0x00000011#32, 0x00010001#32, 1#32, 0#32, 0#32, 0#32, 0#32, 0#32, 0#32, 0#32, 0x2000#32, 0#32, 0#32, 0x2000#32,
      0#32, 0#32, 0#32, 0#32, 0#32, 0#32] =
    .ok (.bqfI ⟨1#16, 1#16, 1#32, true⟩ ⟨0x2000#16, 0#16, 0#16, 0x2000#16, 0#16⟩) := by decide

/-- P1, first command, with its unused words set. -/
theorem test_decode_bqfD :
    decode 15 [0x00000111#32, 0x00010000#32, 0#32, 0xFFFFFFFF#32, 0xFFFFFFFF#32, 0xFFFFFFFF#32, 0xFFFFFFFF#32, 0xFFFFFFFF#32,
      0xFFFFFFFF#32, 0xFFFFFFFF#32, 0x1000#32, 0x2000#32, 0x1000#32, 0x2000#32, 0xABCDF000#32, 0xFFFFFFFF#32, 0xFFFFFFFF#32,
      0xFFFFFFFF#32, 0xFFFFFFFF#32, 0xFFFFFFFF#32] =
    .ok (.bqfD ⟨0#16, 1#16, 0#32, true⟩ ⟨0x1000#16, 0x2000#16, 0x1000#16, 0x2000#16, 0xF000#16⟩) := by decide

/-- V6. -/
theorem test_decode_bqfDF :
    decode 15 [0x00000311#32, 0x00010000#32, 0#32, 0#32, 0#32, 0#32, 0#32, 0#32, 0#32, 0#32, 0x3DCCCCCD#32, 0#32, 0#32,
      0x3F000000#32, 0#32, 0#32, 0#32, 0#32, 0#32, 0#32] =
    .ok (.bqfDF (bq true) ⟨0x3DCCCCCD#32, 0#32, 0#32, 0x3F000000#32, 0#32⟩) := by decide

/-- M1. -/
theorem test_decode_bqfm :
    decode 15 [0x00000112#32, 0x00010000#32, 0#32, 0#32, 1#32, 0#32, 0#32, 0#32, 0x3F000000#32, 0#32, 0x2000#32, 0#32, 0#32,
      0#32, 0#32, 0#32, 0#32, 0#32, 0#32, 0#32] = .ok (.bqfm (mix 0#32 0x3F000000#32 0#32 true false) coeffH) := by decide

/-- A BQFM.F with every field apart from the others. -/
theorem test_decode_bqfmF :
    decode 15 [0x00000382#32, 0x80017FFF#32, 2#32, 3#32, 4#32, 5#32, 6#32, 0x80000007#32, 8#32, 9#32, 10#32, 11#32, 12#32, 13#32,
      14#32, 15#32, 16#32, 17#32, 18#32, 19#32] =
    .ok (.bqfmF ⟨0x7FFF#16, 0x8001#16, 2#32, 4#32, 6#32, 0x80000007#32, 8#32, 9#32, false, true⟩
      ⟨10#32, 11#32, 12#32, 13#32, 14#32⟩) := by decide

/-- P3, frame 2, second command. -/
theorem test_decode_bqfmR :
    decode 15 [0x00000142#32, 0x00020000#32, 0#32, 0#32, 1#32, 0#32, 0#32, 1#32, 0x3F000000#32, 0x3F000000#32, 0x2000#32,
      0x2000#32, 0#32, 0x1000#32, 0#32, 0#32, 0#32, 0#32, 0#32, 0#32] =
    .ok (.bqfmR ⟨0#16, 2#16, 0#32, 1#32, 0#32, 1#32, 0x3F000000#32, 0x3F000000#32, false, false⟩
      ⟨0x2000#16, 0x2000#16, 0#16, 0x1000#16, 0#16⟩) := by decide

/-- `W0 = 0x3D2` of section 7.1: `BQFM.RF`, `first`; here with `init`. -/
theorem test_decode_bqfmRF :
    decode 15 [0x000003D2#32, 0x00010000#32, 0#32, 0#32, 1#32, 0#32, 0#32, 2#32, 0#32, 0x3F800000#32, 0x3F800000#32, 0#32, 0#32,
      0#32, 0#32, 0#32, 0#32, 0#32, 0#32, 0#32] = .ok (.bqfmRF (mix 2#32 0#32 0x3F800000#32 true true) floatID) := by decide

/-- X1, all twenty words. -/
theorem test_decode_mtbqfm :
    decode 15 [0x00000133#32, 0x00010000#32, 0#32, 1#32, 2#32, 3#32, 0#32, 0#32, 0x3F800000#32, 0#32, 0x2000#32, 0x1000#32,
      0x0800#32, 0x2000#32, 0xF000#32, 0x4000#32, 0#32, 0#32, 0#32, 0#32] =
    .ok (.mtbqfm (tap 0#32 0x3F800000#32 0#32 true true false) coeffF0 coeffID) := by decide

/-- A MTBQFM.F with every field apart from the others. -/
theorem test_decode_mtbqfmF :
    decode 15 [0x00000323#32, 0x80017FFF#32, 2#32, 3#32, 4#32, 5#32, 6#32, 0x80000007#32, 8#32, 9#32, 10#32, 11#32, 12#32, 13#32,
      14#32, 15#32, 16#32, 17#32, 18#32, 19#32] =
    .ok (.mtbqfmF ⟨0x7FFF#16, 0x8001#16, 2#32, 3#32, 4#32, 5#32, 6#32, 0x80000007#32, 8#32, 9#32, false, true, false⟩
      ⟨10#32, 11#32, 12#32, 13#32, 14#32⟩ ⟨15#32, 16#32, 17#32, 18#32, 19#32⟩) := by decide

/-- P2, first command. -/
theorem test_decode_mtbqfmR :
    decode 15 [0x000001F3#32, 0x00010000#32, 0#32, 1#32, 2#32, 3#32, 0#32, 1#32, 0#32, 0x40000000#32, 0x2000#32, 0x1000#32,
      0x0800#32, 0x2000#32, 0xF000#32, 0x2000#32, 0x2000#32, 0#32, 0#32, 0#32] =
    .ok (.mtbqfmR (tap 1#32 0#32 0x40000000#32 true true true) coeffF0 coeffF1) := by decide

/-- X3F. -/
theorem test_decode_mtbqfmRF :
    decode 15 [0x00000373#32, 0x00010000#32, 0#32, 1#32, 2#32, 3#32, 0#32, 1#32, 0#32, 0x40000000#32, 0x3F000000#32,
      0x3E800000#32, 0x3E000000#32, 0x3F000000#32, 0xBE800000#32, 0x3F000000#32, 0x3F000000#32, 0#32, 0#32, 0#32] =
    .ok (.mtbqfmRF (tap 1#32 0#32 0x40000000#32 true true false) floatF0 floatF1) := by decide

/-- The rows of the opcode table, by their match words. -/
theorem test_table_words :
    [0x001, 0x101, 0x301, 0x102, 0x302, 0x142, 0x342, 0x103, 0x303, 0x143, 0x343].map
      (fun w => (decodeTableWord 32 w).map Instr.mnemonic) =
    [some "BQF.I", some "BQF.D", some "BQF.DF", some "BQFM", some "BQFM.F", some "BQFM.R", some "BQFM.RF", some "MTBQFM",
      some "MTBQFM.F", some "MTBQFM.R", some "MTBQFM.RF"] := by decide

/-- A placed word is the next command a step runs; here X3's header, whose command is accepted. -/
theorem test_fetch_word : stepped (State.reset.withFetchWord 32 0x173) (fun t =>
    (t.cmd.map Instr.mnemonic == some "MTBQFM.R") && t.result == some .done && t.pc == 1) = true := by decide +kernel

/-! ### The codec (section 2) -/

theorem test_q14 : [0x0000#16, 0x0001#16, 0x7FFF#16, 0x8000#16, 0xF000#16, 0xFFFF#16].map q14ToF64 =
    [0#64, 0x3F10000000000000#64, 0x3FFFFFC000000000#64, 0xC000000000000000#64, 0xBFD0000000000000#64,
      0xBF10000000000000#64] := by decide +kernel

theorem test_widen : [0x3DCCCCCD#32, 0xBE800000#32, 0x00000001#32, 0x7F800000#32].map (f32ToF64 0) =
    [0x3FB99999A0000000#64, 0xBFD0000000000000#64, 0x36A0000000000000#64, 0x7FF0000000000000#64] ∧
    f64IsNaN (f32ToF64 0 0x7FC00000#32) = true := by
  refine ⟨by decide +kernel, ?_⟩
  rw [f32ToF64, if_pos (by decide)]
  exact f64IsNaN_free 0

/-- Section 5.3: the accumulated volumes at samples 6 to 9. -/
theorem test_ramp_accumulates :
    let ramp := rampStep 0 0#32 0x3F800000#32 10#32
    let volumes := (List.range 10).foldl (fun (l : List F64) _ => l ++ [fadd 0 (l.getLastD 0#64) ramp]) [0#64]
    ramp = 0x3FB999999999999A#64 ∧ (volumes.drop 6).take 4 =
      [0x3FE3333333333333#64, 0x3FE6666666666666#64, 0x3FE9999999999999#64, 0x3FECCCCCCCCCCCCC#64] := by decide +kernel

/-! ### The forms -/

/-- I3: rounding to nearest, the clamped output fed back, negative accumulators. -/
theorem test_bqfI : after (.bqfI (bq true) coeffF0) (start 4 [100, -50, 7, 0] [] []) (fun t =>
    holds 1#16 [50, 25, 4, -9] t && entryIs 0#32 [0xFFFFFFFFFFFED800, 0x9000, 0, 0] t) = true := by decide +kernel

/-- I7: the wrapping sum; here with words 2 and 3 set, which the kernel keeps (I6). -/
theorem test_bqfI_wraps : after (.bqfI (bq false) coeffID) (start 1 [1] [0x7FFFFFFFFFFFFFFF, 0, 0x1111, 0x2222] []) (fun t =>
    holds 1#16 [-2147483648] t && entryIs 0#32 [0, 0, 0x1111, 0x2222] t) = true := by decide +kernel

/-- V2: feedback, history, truncation; the delay line unrounded. -/
theorem test_bqfD : after (.bqfD (bq true) coeffF0) (start 4 [100, -50, 7, 0] [] []) (fun t =>
    holds 1#16 [50, 25, 3, -9] t &&
    entryIs 0#32 [0, 0x401C000000000000, 0xC022000000000000, 0x400C000000000000] t) = true := by decide +kernel

/-- V3: saturation of the stored sample alone. -/
theorem test_bqfD_saturates : after (.bqfD (bq true) ⟨0x7FFF#16, 0#16, 0#16, 0#16, 0#16⟩)
    (start 3 [2147483647, -2147483648, -2147483648] [] []) (fun t =>
      holds 1#16 [2147483647, -2147483648, -2147483648] t &&
      entryIs 0#32 [0xC1E0000000000000, 0xC1E0000000000000, 0xC1EFFFC000000000, 0xC1EFFFC000000000] t) = true := by
  decide +kernel

/-- V6: the coefficient is the widened float. -/
theorem test_bqfDF : after (.bqfDF (bq true) ⟨0x3DCCCCCD#32, 0#32, 0#32, 0x3F000000#32, 0#32⟩)
    (start 3 [1000, 2000, 3000] [] []) (fun t =>
      holds 1#16 [100, 250, 425] t &&
      entryIs 0#32 [0x40A7700000000000, 0x409F400000000000, 0x407A900006A40000, 0x406F400007D00000] t) = true := by
  decide +kernel

/-- V6 on revision 14 is refused and nothing else changes. -/
theorem test_bqfDF_revision : after (.bqfDF (bq true) floatID)
    { start 1 [5] [] [] with par := { Config.resetParams with hwRev := 14 } } (fun t =>
      t.result == some (.refused .illegalDescriptor) && t.srf == [] && t.draw == 0) = true := by decide +kernel

/-- M4: the mixed sum truncates; the delay line does not see the volume. -/
theorem test_bqfm : after (.bqfm (mix 0#32 0x3F000000#32 0#32 true false) coeffH) (start 2 [3, -3, 1, -1] [] []) (fun t =>
    holds 1#16 [1, -1] t && entryIs 0#32 [0xC008000000000000, 0x4008000000000000, 0xBFF8000000000000, 0x3FF8000000000000] t)
    = true := by decide +kernel

/-- 10_state.md R22: a mix kernel without ramp also starts with `last` at `+0.0`, and only a ramped one writes it after that. -/
theorem test_bqfm_clears_last : after (.bqfm (mix 0#32 0x3F000000#32 0#32 true false) coeffH)
    (setLast 7#64 (start 2 [3, -3, 1, -1] [] [])) (fun t => t.work.last == 0#64) = true := by decide +kernel

/-- M3: in place. -/
theorem test_bqfm_in_place : after (.bqfm ⟨0#16, 0#16, 0#32, 1#32, 0#32, 0#32, 0x3F000000#32, 0#32, true, false⟩ coeffH)
    (start 3 [1000, 2000, 3000] [] []) (holds 0#16 [1250, 2500, 3750]) = true := by decide +kernel

/-- MF2. -/
theorem test_bqfmF : after (.bqfmF (mix 0#32 0x3F800000#32 0#32 true false) ⟨0x3DCCCCCD#32, 0#32, 0#32, 0#32, 0#32⟩)
    (start 3 [1000, 2000, 3000, 10, 20, 30] [] []) (fun t => holds 1#16 [110, 220, 330] t &&
      entryIs 0#32 [0x40A7700000000000, 0x409F400000000000, 0x4072C00004B00000, 0x4069000006400000] t) = true := by
  decide +kernel

/-- RP1: the increment comes after use; the tail at index 2. -/
theorem test_bqfmR : after (.bqfmR (mix 2#32 0#32 0x3F800000#32 true false) coeffID)
    (start 4 [1000, 1000, 1000, 1000, 0, 0, 0, 0] [] [77, 77, 77, 77]) (fun t =>
      holds 1#16 [0, 250, 500, 750] t && prevIs [77, 77, 750, 77] t) = true := by decide +kernel

/-- RP6: the last sample is narrowed to binary32, to even, before it is truncated. -/
theorem test_bqfmR_narrows : after (.bqfmR (mix 0#32 0x3F800000#32 0x3F800000#32 true false) coeffID)
    (start 1 [16777217, 0] [] [77, 77, 77, 77]) (fun t => holds 1#16 [16777217] t && prevIs [16777216, 77, 77, 77] t) = true := by
  decide +kernel

/-- RP1F. -/
theorem test_bqfmRF : after (.bqfmRF (mix 2#32 0#32 0x3F800000#32 true false) floatID)
    (start 4 [1000, 1000, 1000, 1000, 0, 0, 0, 0] [] [77, 77, 77, 77]) (fun t =>
      holds 1#16 [0, 250, 500, 750] t && prevIs [77, 77, 750, 77] t) = true := by decide +kernel

/-- X2: two filters in series, full precision between them. -/
theorem test_mtbqfm : after (.mtbqfm (tap 0#32 0x40000000#32 0#32 true true false) coeffF0 coeffF1)
    (start 4 [100, -50, 7, 0, 1, 1, 1, 1] [] []) (fun t => holds 1#16 [51, 76, 29, -4] t &&
      entryIs 1#32 [0xC022000000000000, 0x400C000000000000, 0xC006000000000000, 0x402C800000000000] t) = true := by
  decide +kernel

/-- X4: one entry for both taps: each tap keeps its own snapshot and tap 1 is written back last. -/
theorem test_mtbqfm_aliased : after
    (.mtbqfm ⟨0#16, 1#16, 0#32, 0#32, 2#32, 2#32, 0#32, 0#32, 0x3F800000#32, 0#32, true, false, false⟩ coeffID
      ⟨0x2000#16, 0x2000#16, 0#16, 0#16, 0x2000#16⟩)
    (start 2 [100, -50, 0, 0] [0, 0, 0, 0, 0, 0, 0, 0, 0x3FF0000000000000, 0x4000000000000000, 0x4008000000000000,
      0x4010000000000000] []) (fun t => holds 1#16 [52, 26] t &&
      entryIs 0#32 [0xC049000000000000, 0x4059000000000000, 0x403A800000000000, 0x404A400000000000] t) = true := by
  decide +kernel

/-- X2F. -/
theorem test_mtbqfmF : after (.mtbqfmF (tap 0#32 0x40000000#32 0#32 true true false) floatF0 floatF1)
    (start 4 [100, -50, 7, 0, 1, 1, 1, 1] [] []) (fun t => holds 1#16 [51, 76, 29, -4] t &&
      entryIs 0#32 [0, 0x401C000000000000, 0xC022000000000000, 0x400C000000000000] t) = true := by decide +kernel

/-- X3: ramp and tail behind a cascade, the tail truncated toward zero. -/
theorem test_mtbqfmR : after (.mtbqfmR (tap 1#32 0#32 0x40000000#32 true true false) coeffF0 coeffF1)
    (start 4 [100, -50, 7, 0, 1, 1, 1, 1] [] [77, 77, 77, 77]) (fun t =>
      holds 1#16 [1, 19, 15, -3] t && prevIs [77, -4, 77, 77] t) = true := by decide +kernel

/-- X3F. -/
theorem test_mtbqfmRF : after (.mtbqfmRF (tap 1#32 0#32 0x40000000#32 true true false) floatF0 floatF1)
    (start 4 [100, -50, 7, 0, 1, 1, 1, 1] [] [77, 77, 77, 77]) (fun t =>
      holds 1#16 [1, 19, 15, -3] t && prevIs [77, -4, 77, 77] t) = true := by decide +kernel

/-! ### Preparation, refusals, the splitter record -/

/-- Section 7.3, the four rows: (5, 6, 7, 8) and (1, 2, 3, 4) are doubles. -/
theorem test_preparation :
    let words := [0x3FF0000000000000, 0x4000000000000000, 0x4008000000000000, 0x4010000000000000, 0x4014000000000000,
      0x4018000000000000, 0x401C000000000000, 0x4020000000000000]
    let run (init first : Bool) (p : State → Bool) :=
      after (.bqfm (mix 0#32 0x3F800000#32 0#32 init first) coeffID) (start 1 [100, 0] words []) p
    let x := 0x4059000000000000
    (run true true fun t => entryIs 0#32 [x, 0, x, 0] t && entryIs 1#32 (words.drop 4) t) = true ∧
    (run false true fun t => entryIs 0#32 [x, 0x3FF0000000000000, x, 0x4008000000000000] t &&
      entryIs 1#32 (words.take 4) t) = true ∧
    (run false false fun t => entryIs 0#32 [x, 0x4014000000000000, x, 0x401C000000000000] t &&
      entryIs 1#32 (words.drop 4) t) = true := by decide +kernel

/-- Section 7.2: the order of the checks. -/
theorem test_refusals :
    let run (n : Nat) (i : Instr) (r : RefusalReason) := after i (start n [] [] []) (fun t => t.result == some (.refused r))
    run 9 (.bqfD ⟨2#16, 1#16, 0#32, true⟩ coeffH) .badSampleCount = true ∧
    run 3 (.bqfD ⟨0xFFFF#16, 1#16, 4#32, true⟩ coeffH) .badBufferIndex = true ∧
    run 3 (.bqfm ⟨0#16, 1#16, 0#32, 4#32, 0#32, 0#32, 0#32, 0#32, true, false⟩ coeffH) .badStateHandle = true ∧
    run 3 (.bqfmR ⟨0#16, 1#16, 0#32, 1#32, 1#32, 0#32, 0#32, 0#32, true, false⟩ coeffH) .badVoiceHandle = true := by
  decide +kernel

/-- Section 7.6, S1 to S3, on record 0. -/
theorem test_splitter_update :
    let r := Splitter.constructed Config.resetParams 0
    let blob (magic : BitVec 32) (id : S32) : SplitterParams :=
      ⟨magic, id, 3#32, [0x3F000000#32, 0x3E800000#32], true, false, none⟩
    splitterUpdate Config.resetParams 0 (blob 0x12345679#32 0#32) false r = r ∧
    splitterUpdate Config.resetParams 0 (blob 0x12345678#32 1#32) false r = r ∧
    (let r' := splitterUpdate Config.resetParams 0 (blob 0x12345678#32 0#32) false r
     r'.mixVolumes = [0x3F000000#32, 0x3E800000#32] ∧ r'.prevMixVolumes = [0x3F000000#32, 0x3E800000#32] ∧ r'.inUse = true ∧ r'.needUpdate = false ∧
       splitterConfigured Config.resetParams r' = true) := by decide

/-- R230: an `Update` of a wrong `id` is a silent no-op whatever its arrays' lengths; R213: of a longer array the record's
channels are read. -/
theorem test_splitter_ill_sized :
    let blob (id : S32) (volumes : List F32) : SplitterParams := ⟨0x12345678#32, id, 3#32, volumes, true, false, none⟩
    let run (b : SplitterParams) := stepped { State.reset with host := [.splitterUpdate 0 b false] }
    run (blob 1#32 []) (fun t => t == State.reset) = true ∧
    run (blob 0#32 [1#32, 2#32, 3#32]) (fun t => (t.splitters[0]?.map (·.mixVolumes)) == some [1#32, 2#32]) = true := by
  decide +kernel

/-- R91, R232, R41: after a frame's last command the reserved select is refused and `VERIFY` answers for the record latched
last; without a record it is refused. -/
theorem test_operations_after_the_list :
    let s : State := { State.reset with cmd := some (.bqfI (bq true) coeffH), listLen := 1, pc := 1 }
    stepped { s with host := [.operate 3#2] } (fun t => t.result == some (.refused .reservedOperation)) = true ∧
    stepped { s with host := [.operate 1#2] } (fun t => t.result == some (.valid true)) = true ∧
    stepped { State.reset with host := [.operate 1#2] } (fun t => t.result == some (.refused .illegalDescriptor)) = true := by
  decide +kernel

/-! ### Witnesses: states and operands that meet the hypotheses of the statements of Certificates/Slice0 -/

/-- One operand set of each kind, with every tap initialised. -/
def someMix : BqfmOperands := mix 2#32 0#32 0x3F800000#32 true false
def someTap : MtOperands := tap 2#32 0#32 0x3F800000#32 true true false
/-- Two samples a frame, buffers [100, -50] and [0, 0], two entries of doubles, previous samples. -/
def someState : State :=
  start 2 [100, -50, 0, 0] [0x3FF0000000000000, 0x4000000000000000, 0x4008000000000000, 0x4010000000000000,
    0x4014000000000000, 0x4018000000000000, 0x401C000000000000, 0x4020000000000000] [77, 77, 77, 77]
/-- The same state with a list of this command latched next. -/
def loaded (i : Instr) : State := withDescriptor (encode i) someState

/-- Acceptance is decided by `validate`. -/
theorem accepted {i : Instr} {s : State} (h : (validate i s == none) = true) : CommandOk i s :=
  (validate_eq_none i s).mp (by simpa using h)

theorem witness_DecodeInvertsEncode : Instr.wellFormed 15 (.mtbqfmRF someTap floatF0 floatF1) = true ∧
    Instr.wellFormed 0 (.bqfI (bq true) coeffF0) = true := by decide

theorem witness_IllegalExactlyInListedCases :
    Descriptor.wellFormed (encode (.bqfD (bq true) coeffH)) = true ∧
    ∃ (s : State) (e : DecodeError), s.host = [] ∧ s.pc < s.listLen ∧ decode s.par.hwRev (listElement s.pc s) = .error e :=
  ⟨by decide, withDescriptor (List.replicate 20 0#32) someState, .reservedOpcode, rfl, by decide, by decide +kernel⟩

theorem witness_RowsSelectTheirForms : Descriptor.wellFormed (encode (.bqfmRF someMix floatF0)) = true ∧
    (⟨"BQFM.RF", 0x00000342#32, 0xFFFFFF6F#32, true⟩ : Machine.HeaderRow) ∈ headerRows ∧
    ∀ r ∈ headerRows, r.selects (Descriptor.word (List.replicate 20 0#32) 0) = false := by decide

/-- Two different descriptors of the form `BQFM` that agree where it looks. -/
theorem witness_UnusedWordsAreIgnored : ∃ d d' : Descriptor, d ≠ d' ∧ d.wellFormed = true ∧ d'.wellFormed = true ∧
    d.word 0 = d'.word 0 ∧ d.word 1 = d'.word 1 ∧ d.word 2 = d'.word 2 ∧ (d.word 0).toNat % 16 = 2 ∧
    d.word 4 = d'.word 4 ∧ (∀ j, 6 ≤ j → j ≤ 9 → d.word j = d'.word j) ∧
    (∀ j, 10 ≤ j → j ≤ 14 → (d.word j).extractLsb' 0 16 = (d'.word j).extractLsb' 0 16 ∧
      ((d.word 0).getLsbD 9 = true → d.word j = d'.word j)) := by
  refine ⟨encode (.bqfm someMix coeffF0), ((encode (.bqfm someMix coeffF0)).set 3 7#32).set 10 0xABCD2000#32, by decide, by decide,
    by decide, by decide, by decide, by decide, by decide, by decide, ?_, ?_⟩
  · intro j h1 h2
    have : ∀ j : Fin 4, (encode (.bqfm someMix coeffF0)).word (6 + j.val) =
        Descriptor.word (((encode (.bqfm someMix coeffF0)).set 3 7#32).set 10 0xABCD2000#32) (6 + j.val) := by decide
    have h := this ⟨j - 6, by omega⟩
    rwa [show 6 + (j - 6) = j by omega] at h
  · intro j h1 h2
    have : ∀ j : Fin 5, ((encode (.bqfm someMix coeffF0)).word (10 + j.val)).extractLsb' 0 16 =
        (Descriptor.word (((encode (.bqfm someMix coeffF0)).set 3 7#32).set 10 0xABCD2000#32) (10 + j.val)).extractLsb' 0 16 := by
      decide
    have h := this ⟨j - 10, by omega⟩
    rw [show 10 + (j - 10) = j by omega] at h
    exact ⟨h, fun hf => absurd hf (by decide)⟩

theorem witness_StepRunsTheDecodedCommand : ∃ (s : State) (i : Instr), s.host = [] ∧ s.pc < s.listLen ∧
    decode s.par.hwRev (listElement s.pc s) = .ok i :=
  ⟨loaded (.bqfmR someMix coeffF0), .bqfmR someMix coeffF0, rfl, by decide, by decide +kernel⟩

/-- For the four selects: a legal record at `pc`, and one latched last with the list at its end. -/
theorem witness_operations (select : BitVec 2) :
    (∃ (s : State) (rest : List HostOp) (i : Instr), s.host = .operate select :: rest ∧ s.pc < s.listLen ∧
      LatchedNext s (some i)) ∧
    (∃ (s : State) (rest : List HostOp) (i : Instr), s.host = .operate select :: rest ∧ s.listLen ≤ s.pc ∧
      LatchedNext s (some i)) :=
  ⟨⟨{ loaded (.bqfI (bq true) coeffH) with host := [.operate select] }, [], .bqfI (bq true) coeffH, rfl, Nat.one_pos,
      .inl ⟨Nat.one_pos, .inl ⟨_, (by decide +kernel :
        decode 15 (listElement 0 (loaded (.bqfI (bq true) coeffH))) = .ok (.bqfI (bq true) coeffH)), rfl⟩⟩⟩,
    ⟨{ State.reset with cmd := some (.bqfI (bq true) coeffH), listLen := 1, pc := 1, host := [.operate select] }, [],
      .bqfI (bq true) coeffH, rfl, Nat.le_refl 1, .inr ⟨Nat.le_refl 1, rfl⟩⟩⟩

/-- An illegal element at `pc`, and no record at all. -/
theorem witness_NoRecordIsRefused (select : BitVec 2) :
    (∃ (s : State) (rest : List HostOp), s.host = .operate select :: rest ∧ s.pc < s.listLen ∧ LatchedNext s none) ∧
    (∃ (s : State) (rest : List HostOp), s.host = .operate select :: rest ∧ s.listLen ≤ s.pc ∧ LatchedNext s none) :=
  ⟨⟨{ withDescriptor (List.replicate 20 0#32) someState with host := [.operate select] }, [], rfl, Nat.one_pos,
      .inl ⟨Nat.one_pos, .inr ⟨_, (by decide +kernel :
        decode 15 (listElement 0 (withDescriptor (List.replicate 20 0#32) someState)) = .error .reservedOpcode), rfl⟩⟩⟩,
    ⟨{ State.reset with host := [.operate select] }, [], rfl, Nat.le_refl 0, .inr ⟨Nat.le_refl 0, rfl⟩⟩⟩

theorem witness_EndOfListIsIdle : State.reset.host = [] ∧ State.reset.listLen ≤ State.reset.pc := ⟨rfl, Nat.le_refl 0⟩

theorem witness_FrameStartStoresTheList : ∃ (s : State) (list : List Descriptor) (rest : List HostOp),
    s.host = .startFrame list :: rest ∧ s.listLen ≤ s.pc ∧ list.length = 2 ∧ ∀ d ∈ list, d.wellFormed = true :=
  ⟨{ someState with host := [.startFrame [encode (.bqfI (bq true) coeffH), encode (.bqfD (bq false) coeffH)]] }, _, _, rfl,
    Nat.le_refl 0, rfl, by decide⟩

/-- A refused command at `pc`; and a marked frame in which a step is taken. -/
theorem witness_RefusalMarkIsSticky :
    (∃ (s t : State) (r : RefusalReason), s.host = [] ∧ s.pc < s.listLen ∧ step s = .next t ∧ t.result = some (.refused r)) ∧
    (∃ s t : State, s.frameRefused = true ∧ (∀ list rest, s.host ≠ .startFrame list :: rest) ∧ step s = .next t) := by
  constructor
  · refine ⟨withDescriptor (List.replicate 20 0#32) someState, afterProcess (takeRefusal .illegalDescriptor
      { withDescriptor (List.replicate 20 0#32) someState with cmd := none }), .illegalDescriptor, rfl, Nat.one_pos, ?_, rfl⟩
    rw [step_process rfl Nat.one_pos]
    rcases processNext_cases (withDescriptor (List.replicate 20 0#32) someState) with ⟨_, h⟩ | ⟨i, _, h, _⟩
    · exact h
    · exact absurd ((nextRecord_error Nat.one_pos (by decide +kernel :
        decode (withDescriptor (List.replicate 20 0#32) someState).par.hwRev
          (listElement 0 (withDescriptor (List.replicate 20 0#32) someState)) = .error .reservedOpcode)).symm.trans h) (by simp)
  · exact ⟨{ State.reset with frameRefused := true }, { State.reset with frameRefused := true }, rfl,
      fun _ _ h => (List.cons_ne_nil _ _ h.symm), step_idle (s := { State.reset with frameRefused := true }) rfl (Nat.le_refl 0)⟩

/-- For the statements about `exec i s = .next t` and `step s = .next t`: every form completes, and a step from the legal
state `loaded i` does. -/
theorem witness_exec (i : Instr) : ∃ t, exec i someState = .next t := exec_next i someState

theorem witness_step : ∃ t, step (loaded (.bqfmR someMix coeffF0)) = .next t := by
  rw [step_process rfl Nat.one_pos]
  rcases processNext_cases (loaded (.bqfmR someMix coeffF0)) with ⟨_, h⟩ | ⟨_, _, _, _, h⟩
  · exact ⟨_, h⟩
  · exact ⟨_, h⟩

/-- Every form is accepted in `someState`: the hypothesis of the result statements. -/
theorem witness_CommandOk :
    CommandOk (.bqfI (bq true) coeffF0) someState ∧ CommandOk (.bqfD (bq false) coeffF0) someState ∧
    CommandOk (.bqfDF (bq false) floatF0) someState ∧ CommandOk (.bqfm someMix coeffF0) someState ∧
    CommandOk (.bqfmF someMix floatF0) someState ∧ CommandOk (.bqfmR someMix coeffF0) someState ∧
    CommandOk (.bqfmRF someMix floatF0) someState ∧ CommandOk (.mtbqfm someTap coeffF0 coeffF1) someState ∧
    CommandOk (.mtbqfmF someTap floatF0 floatF1) someState ∧ CommandOk (.mtbqfmR someTap coeffF0 coeffF1) someState ∧
    CommandOk (.mtbqfmRF someTap floatF0 floatF1) someState := by
  refine ⟨?_, ?_, ?_, ?_, ?_, ?_, ?_, ?_, ?_, ?_, ?_⟩ <;> exact accepted (by decide +kernel)

/-- At the largest legal sample count, buffer index and handle. -/
theorem witness_CommandOk_boundary :
    CommandOk (.mtbqfmR ⟨1#16, 0#16, 3#32, 3#32, 3#32, 3#32, 0#32, 0xFFFFFFFF#32, 0#32, 0#32, false, false, true⟩ coeffF0 coeffF1)
      { someState with frame := 8#32 } := accepted (by decide +kernel)

/-- Each check fails alone, the output index's among them, and an illegal descriptor is at `pc`. -/
theorem witness_FirstFailingCheckDecides :
    let failing (i : Instr) (s : State) (r : RefusalReason) := validate i s == some r
    failing (.bqfDF (bq true) floatF0) { someState with par := { Config.resetParams with hwRev := 14 } } .illegalDescriptor = true ∧
    failing (.bqfI (bq true) coeffF0) { someState with frame := 9#32 } .badSampleCount = true ∧
    failing (.bqfI ⟨2#16, 1#16, 0#32, true⟩ coeffF0) someState .badBufferIndex = true ∧
    failing (.bqfI ⟨1#16, 2#16, 0#32, true⟩ coeffF0) someState .badBufferIndex = true ∧
    failing (.bqfI ⟨1#16, 0xFFFF#16, 0#32, true⟩ coeffF0) someState .badBufferIndex = true ∧
    failing (.mtbqfm { someTap with previousState1 := 4#32 } coeffF0 coeffF1) someState .badStateHandle = true ∧
    failing (.mtbqfmR { someTap with voiceState := 1#32 } coeffF0 coeffF1) someState .badVoiceHandle = true ∧
    decode 15 (List.replicate 20 0#32) = .error .reservedOpcode := by decide +kernel

/-- The boundary words the host may write; the frame register before and after a frame's commands; a running frame. -/
theorem witness_HostWritesTakeEffect :
    let s := loaded (.bqfI (bq true) coeffH)
    s.pc = 0 ∧ s.pc < s.listLen ∧ State.reset.listLen ≤ State.reset.pc ∧
    15 < s.par.nbuf * s.par.maxSampleCount ∧ 3 < s.par.nstate ∧ 0 < s.par.nvoice ∧ 3 < s.par.prevLen ∧
    0 < s.listLen ∧ Descriptor.wellFormed (encode (.bqfI (bq true) coeffH)) = true := by decide

theorem witness_SampleCountIsConstantWithinAFrame : ∃ s t : State, 0 < s.pc ∧ s.pc < s.listLen ∧ step s = .next t :=
  ⟨{ State.reset with listLen := 2, pc := 1, host := [.writeArena 0 1#32] }, _, Nat.one_pos, Nat.one_lt_two,
    step_hostOp (s := { State.reset with listLen := 2, pc := 1, host := [.writeArena 0 1#32] }) rfl⟩

theorem witness_IntegerOutputRoundsToNearest : (0x7FFFFFFFFFFFDFFF#64).toInt < 2 ^ 63 - 8192 ∧
    (0x8000000000000000#64).toInt < 2 ^ 63 - 8192 := by decide

/-- For the frames: a form without ramp is accepted in one state and refused in another. -/
theorem witness_frames_last :
    let i := Instr.bqfm (mix 0#32 0x3F000000#32 0#32 true false) coeffH
    i.ramped = false ∧ CommandOk i someState ∧ ¬ CommandOk i { someState with frame := 0xFFFFFFFF#32 } := by
  refine ⟨rfl, (validate_eq_none _ _).mp (by decide +kernel), fun h => absurd h.sampleCount (by decide)⟩

/-- For the frames: a ramped form that snapshots, and bytes outside what it stores. -/
theorem witness_frames : outsideSpan 1#16 someState 7 ∧ outsideSpan 1#16 someState 16 ∧ outsideEntry 1#32 31 ∧
    outsideEntry 1#32 64 ∧ outsideTail someState.par 0#32 2#32 7 ∧ outsideTail someState.par 0#32 2#32 12 ∧
    snapshots false true := by
  refine ⟨.inl (by decide), .inr (by decide), .inl (by decide), .inr (by decide), fun _ _ => .inl (by decide),
    fun _ _ => .inr (by decide), rfl, rfl⟩

theorem witness_FloatWidensExactly : f32IsFinite 0x007FFFFF#32 = true ∧ f32IsFinite 0xFF7FFFFF#32 = true ∧
    f32IsInf 0xFF800000#32 = true ∧ f32IsNaN 0x7F800001#32 = true := by decide

/-- 1 and 3: the sum, difference, product and quotient are finite; the divisor is not zero. -/
theorem witness_ArithmeticRoundsToNearestEven :
    let a := 0x3FF0000000000000#64
    let b := 0x4008000000000000#64
    f64IsFinite a = true ∧ f64IsFinite b = true ∧ f64IsZero b = false ∧ f64IsFinite (fadd 0 a b) = true ∧
    f64IsFinite (fsub 0 a b) = true ∧ f64IsFinite (fmul 0 a b) = true ∧ f64IsFinite (fdiv 0 a b) = true := by decide +kernel

/-- Doubles the largest finite value: the sum overflows; the largest and half a place more do, too. -/
theorem witness_overflow :
    let a := 0x7FEFFFFFFFFFFFFF#64
    let halfPlace := 0x7C90000000000000#64
    f64IsFinite a = true ∧ f64IsFinite halfPlace = true ∧ (overflow64 : Int) = f64Units a + f64Units halfPlace ∧
    f64IsInf (fadd 0 a halfPlace) = true ∧ f64IsInf (fadd 0 a (halfPlace - 1#64)) = false := by
  unfold overflow64
  decide +kernel

/-- An infinity, a NaN, both zeros and a finite value. -/
theorem witness_ArithmeticOnSpecialValues : f64IsInf 0xFFF0000000000000#64 = true ∧ f64IsNaN 0x7FF0000000000001#64 = true ∧
    f64IsZero 0x8000000000000000#64 = true ∧ f64IsZero 0#64 = true ∧ f64IsFinite 0x3FF0000000000000#64 = true ∧
    f64Units 0x8000000000000000#64 + f64Units 0#64 = 0 ∧ f64Units 0x3FF0000000000000#64 - f64Units 0x3FF0000000000000#64 = 0 ∧
    f64IsZero (fmul 0 0x8000000000000000#64 0x3FF0000000000000#64) = true ∧
    f64IsZero (fdiv 0 0x8000000000000000#64 0x3FF0000000000000#64) = true := by decide +kernel

/-- The largest float, the smallest double that narrows to an infinity, an infinity, a NaN. -/
theorem witness_narrowing : f64IsFinite 0x47EFFFFFF0000000#64 = true ∧
    (overflow32 : Int) = f64Units 0x47EFFFFFF0000000#64 ∧ f32IsInf (f64ToF32 0 0x47EFFFFFF0000000#64) = true ∧
    f64IsInf 0x7FF0000000000000#64 = true ∧ f64IsNaN 0xFFF8000000000000#64 = true := by
  unfold overflow32
  decide +kernel

theorem witness_ConversionsRoundToNearestEven : f64IsFinite 0x47EFFFFFE0000000#64 = true ∧
    f32IsFinite (f64ToF32 0 0x47EFFFFFE0000000#64) = true := by decide +kernel

/-- A NaN, an infinity, just below the range, just above it, and both of its ends. -/
theorem witness_SaturationClampsThenTruncates :
    f64IsNaN 0x7FF0000000000001#64 = true ∧ f64IsInf 0xFFF0000000000000#64 = true ∧
    (f64IsFinite 0xC1E0000000000001#64 = true ∧ f64Units 0xC1E0000000000001#64 < -2147483648 * (one64 : Int)) ∧
    (f64IsFinite 0x41DFFFFFFFC00001#64 = true ∧ 2147483647 * (one64 : Int) < f64Units 0x41DFFFFFFFC00001#64) ∧
    (f64IsFinite 0xC1E0000000000000#64 = true ∧ f64Units 0xC1E0000000000000#64 = -2147483648 * (one64 : Int)) ∧
    (f64IsFinite 0x41DFFFFFFFC00000#64 = true ∧ f64Units 0x41DFFFFFFFC00000#64 = 2147483647 * (one64 : Int)) := by
  decide +kernel

/-- -4.125 truncates to -4 (X3); 2^31 and the value below -2^31 are out of range; so is a NaN. -/
theorem witness_TailTruncation :
    (let r := 0xC0840000#32
     f32IsFinite r = true ∧ |(-4 : Int)| * 2 ^ 149 ≤ |f32Units r| ∧ |f32Units r| < (|(-4 : Int)| + 1) * 2 ^ 149 ∧
       f32Units r < 0) ∧
    (f32IsFinite 0x4F000000#32 = true ∧ 2147483648 * 2 ^ 149 ≤ f32Units 0x4F000000#32) ∧
    (f32IsFinite 0xCF000001#32 = true ∧ f32Units 0xCF000001#32 ≤ -2147483649 * 2 ^ 149) ∧
    f32IsFinite 0x7FC00000#32 = false := by decide +kernel

theorem witness_TailCaptureStoresOneWord : 0 ≤ (3#32).toInt ∧ (3#32).toInt < (someState.par.prevLen : Int) ∧
    (someState.par.prevLen : Int) ≤ (4#32).toInt ∧ (0xFFFFFFFF#32).toInt < 0 := by decide

theorem witness_SpansAreEqualOrDisjoint : bufferValid Config.resetParams 1#16 = true ∧
    bufferValid Config.resetParams 0#16 = true ∧ sampleIndex 1#16 2 0 = sampleIndex 1#16 2 0 ∧ 0 < 2 := by decide

/-- For `BQF.D`, `BQF.DF`, `BQF.I` with `needs_init`, the first input sample 100. -/
theorem witness_FirstSampleAfterInit : (bq true).needsInit0 = true ∧
    (samples (bq true).input someState).head? = some 100#32 ∧
    (∀ v ∈ [floatF0.b0, floatF0.b1, floatF0.b2, floatF0.a0, floatF0.a1], f32IsFinite v = true) ∧
    CommandOk (.bqfD (bq true) coeffF0) someState ∧ CommandOk (.bqfDF (bq true) floatF0) someState ∧
    CommandOk (.bqfI (bq true) coeffF0) someState :=
  ⟨rfl, by decide +kernel, List.all_eq_true.mp (by decide +kernel), accepted (by decide +kernel), accepted (by decide +kernel),
    accepted (by decide +kernel)⟩

/-- The block [100, -50] as [100] and then [-50], for each form of `BQF`. -/
theorem witness_SplittingABlockChangesNothing (i : Bool → Instr) (codec : Nat)
    (h : (i = (fun ni => .bqfI (bq ni) coeffF0) ∧ codec = 0) ∨ (i = (fun ni => .bqfD (bq ni) coeffF0) ∧ codec = 0) ∨
      (i = (fun ni => .bqfDF (bq ni) floatF0) ∧ codec = 5)) : ∃ s s1 s2 t1 : State,
    CommandOk (i true) s ∧ CommandOk (i true) s1 ∧ CommandOk (i false) s2 ∧
    samples 0#16 s = samples 0#16 s1 ++ samples 0#16 s2 ∧ readEntry 0#32 s1 = readEntry 0#32 s ∧ s1.draw = s.draw ∧
    exec (i true) s1 = .next t1 ∧ readEntry 0#32 s2 = readEntry 0#32 t1 ∧ s2.draw + codec = t1.draw := by
  have ok : CommandOk (i true) someState ∧ CommandOk (i true) { someState with frame := 1#32 } ∧
      CommandOk (i false) { someState with frame := 1#32 } ∧
      codec ≤ (stepsOf (i true) { someState with frame := 1#32 }).draw := by
    rcases h with ⟨rfl, rfl⟩ | ⟨rfl, rfl⟩ | ⟨rfl, rfl⟩ <;>
      exact ⟨accepted (by decide +kernel), accepted (by decide +kernel), accepted (by decide +kernel), by decide +kernel⟩
  let t1 := finish (stepsOf (i true) { someState with frame := 1#32 })
  let s2 : State := { someState with
    frame := 1#32, arena := fill 4 0 [0xFFFFFFCE, 0] [], srf := t1.srf, draw := t1.draw - codec }
  refine ⟨someState, { someState with frame := 1#32 }, s2, t1, ok.1, ok.2.1, ⟨ok.2.2.1.revision, ok.2.2.1.sampleCount,
    ok.2.2.1.input, ok.2.2.1.output, ok.2.2.1.handles, ok.2.2.1.voice⟩, ?_, rfl, rfl, exec_ok ok.2.1, readEntry_congr rfl _,
    Nat.sub_add_cancel ok.2.2.2⟩
  have e : samples 0#16 s2 = samples 0#16 { someState with frame := 1#32, arena := fill 4 0 [0xFFFFFFCE, 0] [] } :=
    samples_congr rfl rfl _
  rw [e]
  decide +kernel

/-- Finite outputs at draw number 0 are finite at every draw number. -/
theorem finite_outputs {c : Coeffs} {d : Delay} {xs : List S32} (h : (outputsList 0 c d xs).all f64IsFinite = true) (k : Nat) :
    ∀ y ∈ outputsList k c d xs, f64IsFinite y = true ∧ f64IsNaN y = false := by
  rw [List.all_eq_true] at h
  rw [outputsList_draw k fun y hy => (f64_finite_kind (h y hy)).1]
  exact fun y hy => ⟨h y hy, (f64_finite_kind (h y hy)).1⟩

theorem witness_UnityMixOntoSilenceOverwrites (q : Bool) :
    let ob := bq true
    let om := mix 0#32 0x3F800000#32 0#32 true false
    let plain : Instr := if q then .bqfD ob coeffF0 else .bqfDF ob floatF0
    let mixed : Instr := if q then .bqfm om coeffF0 else .bqfmF om floatF0
    let c := if q then decodeQ14 coeffF0 else decodeF32 someState.draw floatF0
    om.input = ob.input ∧ om.output = ob.output ∧ om.state0 = ob.state0 ∧ om.volume0 = 0x3F800000#32 ∧
    preparedEntry om.state0 om.previousState0 om.needsInit0 om.isFirstMixBuffer someState =
      (if ob.needsInit0 then Entry.zero else readEntry ob.state0 someState) ∧
    (∀ x ∈ samples ob.output someState, x = 0#32) ∧
    (∀ k, ∀ y ∈ outputsList k c
      (preparedEntry om.state0 om.previousState0 om.needsInit0 om.isFirstMixBuffer someState).toDelay
      (samples ob.input someState), f64IsNaN y = false) ∧
    CommandOk plain someState ∧ CommandOk mixed someState := by
  cases q <;>
    exact ⟨rfl, rfl, rfl, rfl, by decide +kernel,
      fun x hx => eq_of_beq (List.all_eq_true.mp (by decide +kernel : (samples 1#16 someState).all (· == 0#32) = true) x hx),
      fun k y hy => (finite_outputs (by decide +kernel) k y hy).2,
      accepted (by decide +kernel), accepted (by decide +kernel)⟩

/-- A ramped pair of forms with float coefficients, with tails in range; the sums do not depend on the draw numbers, which
`mixSums_draw` says. -/
theorem witness_IdentityCascadeEqualsSingle :
    let om := mix 1#32 0x3F000000#32 0x3F800000#32 false true
    let oc : MtOperands := ⟨0#16, 1#16, 0#32, 2#32, 1#32, 3#32, 0#32, 1#32, 0x3F000000#32, 0x3F800000#32, false, true, true⟩
    let c := decodeF32 someState.draw floatF0
    IdentityPair om oc someState.draw c (.bqfmRF om floatF0) (.mtbqfmRF oc floatF0 identityF32) ∧ SameBut1 om oc ∧
    oc.state1 ≠ oc.state0 ∧ (readEntry oc.state1 (afterPrep1 oc someState)).finite ∧
    (∀ k, ∀ y ∈ outputsList k c
      (preparedEntry om.state0 om.previousState0 om.needsInit0 om.isFirstMixBuffer someState).toDelay
      (samples om.input someState), f64IsFinite y = true) ∧
    (∀ k k', ∀ v ∈ mixSums k (mixFilters om c someState) (f32ToF64 k' om.volume0)
      (some (rampStep k' om.volume0 om.volume1 someState.frame))
      ((samples om.input someState).zip (samples om.output someState)), f64IsNaN v = false) ∧
    TailDefined (kmrBlock 0 (mixFilters om c someState) om.volume0 om.volume1 someState.frame
      ((samples om.input someState).zip (samples om.output someState))).last ∧
    CommandOk (.bqfmRF om floatF0) someState ∧ CommandOk (.mtbqfmRF oc floatF0 identityF32) someState := by
  refine ⟨.inr (.inr (.inr ⟨_, rfl, rfl, rfl⟩)), ⟨rfl, rfl, rfl, rfl, rfl, rfl, rfl, rfl, rfl, rfl⟩, by decide, ?_,
    fun k y hy => (finite_outputs (by decide +kernel) k y hy).1, ?_, by unfold TailDefined; decide +kernel,
    accepted (by decide +kernel), accepted (by decide +kernel)⟩
  · exact List.all_eq_true.mp (by decide +kernel)
  · intro k k'
    have hv : f32ToF64 k' 0x3F000000#32 = f32ToF64 0 0x3F000000#32 := f32ToF64_draw (by decide)
    have hr : rampStep k' 0x3F000000#32 0x3F800000#32 someState.frame = rampStep 0 0x3F000000#32 0x3F800000#32 someState.frame :=
      rampStep_draw (by decide +kernel)
    refine fun v hv' => ?_
    simp only [mix] at hv'
    rw [hv, hr] at hv'
    have h0 : (mixSums 0 (mixFilters (mix 1#32 0x3F000000#32 0x3F800000#32 false true) (decodeF32 someState.draw floatF0) someState)
        (f32ToF64 0 0x3F000000#32) (some (rampStep 0 0x3F000000#32 0x3F800000#32 someState.frame))
        ((samples 0#16 someState).zip (samples 1#16 someState))).all (fun v => !f64IsNaN v) = true := by decide +kernel
    have h1 := List.all_eq_true.mp h0
    rw [mixSums_draw k fun v hv => by simpa using h1 v hv] at hv'
    simpa using h1 v hv'

/-- A first pass and two later ones, at another volume, with a ramp, and onto another buffer; and a cascade. -/
theorem witness_FanOutKeepsTheFrameStartState :
    let o := mix 0#32 0x3F800000#32 0#32 false true
    let o' := mix 1#32 0x3F000000#32 0x3F800000#32 false false
    let o'' : BqfmOperands := { o' with output := 0#16 }
    let p := tap 0#32 0x3F800000#32 0#32 false false true
    let p' := tap 0#32 0x3F000000#32 0#32 false false false
    (FirstPass (.bqfmR o coeffF0) ∧ HandlesDistinct (.bqfmR o coeffF0) ∧ CommandOk (.bqfmR o coeffF0) someState ∧
      ∀ i ∈ [Instr.bqfmR o' coeffF0, Instr.bqfmF o'' floatF1],
        LaterPass i ∧ SameEntries (.bqfmR o coeffF0) i ∧ CommandOk i someState) ∧
    (FirstPass (.mtbqfmF p floatF0 floatF1) ∧ HandlesDistinct (.mtbqfmF p floatF0 floatF1) ∧
      CommandOk (.mtbqfmF p floatF0 floatF1) someState ∧
      ∀ i ∈ [Instr.mtbqfmR p' coeffF0 coeffF1],
        LaterPass i ∧ SameEntries (.mtbqfmF p floatF0 floatF1) i ∧ CommandOk i someState) := by
  refine ⟨⟨by unfold FirstPass; decide, by unfold HandlesDistinct; decide, accepted (by decide +kernel), fun i hi => ?_⟩,
    ⟨by unfold FirstPass; decide, by unfold HandlesDistinct; decide, accepted (by decide +kernel), fun i hi => ?_⟩⟩
  · rcases List.mem_cons.mp hi with rfl | hi
    · exact ⟨by unfold LaterPass; decide, ⟨rfl, rfl⟩, accepted (by decide +kernel)⟩
    · rcases List.mem_singleton.mp hi with rfl
      exact ⟨by unfold LaterPass; decide, ⟨rfl, rfl⟩, accepted (by decide +kernel)⟩
  · rcases List.mem_singleton.mp hi with rfl
    exact ⟨by unfold LaterPass; decide, ⟨rfl, rfl⟩, accepted (by decide +kernel)⟩

/-- A cascade onto another buffer than its input, and a later pass with a ramp. -/
theorem witness_FanOutPassesAgree :
    let first : Instr := .mtbqfm (tap 0#32 0x3F800000#32 0#32 false false true) coeffF0 coeffF1
    let second : Instr := .mtbqfmR (tap 1#32 0x3F000000#32 0x3F800000#32 false false false) coeffF0 coeffF1
    FirstPass first ∧ LaterPass second ∧ HandlesDistinct first ∧ SameEntries first second ∧
    (∀ k, formCoeffs k second = formCoeffs k first) ∧
    (∀ k, ∀ y ∈ chainOutputs k
      (List.zipWith (fun c h => ⟨c, (readEntry h someState).toDelay⟩) (formCoeffs someState.draw first) first.states)
      (samples first.input someState), f64IsNaN y = false) ∧
    CommandOk first someState ∧ CommandOk second someState ∧
    ∃ t, exec first someState = .next t ∧ samples second.input t = samples first.input someState := by
  refine ⟨by unfold FirstPass; decide, by unfold LaterPass; decide, by unfold HandlesDistinct; decide, ⟨rfl, rfl⟩, fun _ => rfl,
    ?_, accepted (by decide +kernel), accepted (by decide +kernel), _, exec_ok (accepted (by decide +kernel)), by decide +kernel⟩
  intro k y hy
  have h0 : (chainOutputs 0 (List.zipWith (fun c h => (⟨c, (readEntry h someState).toDelay⟩ : Filter))
      [decodeQ14 coeffF0, decodeQ14 coeffF1] [0#32, 1#32]) (samples 0#16 someState)).all (fun v => !f64IsNaN v) = true := by
    decide +kernel
  have h1 := List.all_eq_true.mp h0
  have e := chainOutputs_draw k fun v hv => by simpa using h1 v hv
  exact (by simpa using h1 y (e ▸ hy))

/-- One form of each kind, in the state with no samples; the tail index is in range. -/
theorem witness_ZeroSamplesOnlyPrepare :
    let s := { someState with frame := 0#32 }
    s.frame = 0#32 ∧ CommandOk (.bqfI (bq false) coeffF0) s ∧ CommandOk (.bqfmR someMix coeffF0) s ∧
    CommandOk (.mtbqfmRF someTap floatF0 floatF1) s ∧
    HandlesDistinct (.mtbqfmRF someTap floatF0 floatF1) ∧
    Instr.ramped (.mtbqfmRF someTap floatF0 floatF1) = true ∧ 0 ≤ someTap.lastSampleIndex.toInt ∧
    someTap.lastSampleIndex.toInt < (s.par.prevLen : Int) :=
  ⟨rfl, accepted (by decide +kernel), accepted (by decide +kernel), accepted (by decide +kernel), by unfold HandlesDistinct; decide,
    by decide, by decide, by decide⟩

/-- Two different states that agree on the storage. -/
theorem witness_OutcomeDependsOnStorageAlone : ∃ s s' : State, s ≠ s' ∧ s'.par = s.par ∧ s'.frame = s.frame ∧
    s'.srf = s.srf ∧ s'.arena = s.arena ∧ s'.prev = s.prev ∧ s'.draw = s.draw :=
  ⟨someState, { someState with pc := 1, loc0 := ⟨1#64, 2#64, 3#64, 4#64⟩ }, fun h => absurd (congrArg State.pc h) (by decide),
    rfl, rfl, rfl, rfl, rfl, rfl⟩

theorem witness_EveryStepKeepsStatesLegal : StateOk (loaded (.bqfmR someMix coeffF0)) :=
  { params := by decide
    arenaForm := by decide +kernel
    srfForm := by decide +kernel
    prevForm := by decide +kernel
    commandForm := by decide +kernel
    arenaBound := by unfold Memory.below; decide +kernel
    srfBound := by unfold Memory.below; decide +kernel
    prevBound := by unfold Memory.below; decide +kernel
    index := by decide
    record := fun i h => by cases h
    slots := rfl
    records := fun r hr => by
      rcases List.mem_map.mp hr with ⟨k, _, rfl⟩
      exact ⟨by simp [Splitter.constructed, loaded, withDescriptor, storeDescriptor, someState, start, State.reset],
        by simp [Splitter.constructed, loaded, withDescriptor, storeDescriptor, someState, start, State.reset],
        by simp [Splitter.constructed, loaded, withDescriptor, storeDescriptor, someState, start, State.reset],
        by simp [Splitter.constructed, loaded, withDescriptor, storeDescriptor, someState, start, State.reset],
        fun k h => by cases h⟩ }

/-- For every splitter statement: record 0 of the reset pool and an action of the host on it. -/
theorem witness_splitter (op : HostOp) : ∃ (s : State) (r : Splitter) (rest : List HostOp), s.host = op :: rest ∧
    s.splitters[0]? = some r ∧ r.mixVolumes.length = s.par.nchan ∧ r.prevMixVolumes.length = s.par.nchan ∧ r.inUse = false :=
  ⟨{ State.reset with host := [op] }, _, [], rfl, rfl, rfl, rfl, rfl⟩

/-- For `SplitterUpdateEffect` and `SplitterUpdateGating`: blobs that match record 0, with and without the rev12 set, and
blobs that do not match it. -/
theorem witness_splitter_blobs :
    let p := Config.resetParams
    let r := Splitter.constructed p 0
    let good : SplitterParams := ⟨p.splitterMagic, r.id, 3#32, [0x3F000000#32, 0x3E800000#32], true, true, none⟩
    let full : SplitterParams := { good with rev12 := some [⟨1#32, 2#32, 3#32, 4#32, 5#32⟩] }
    splitterAccepts p good r = true ∧ splitterAccepts p full r = true ∧ good.inUse = true ∧ r.inUse = false ∧
    full.mixVolumes[p.nchan - 1]? = some 0x3E800000#32 ∧ full.rev12 = some [⟨1#32, 2#32, 3#32, 4#32, 5#32⟩] ∧
    { good with id := 1#32 }.id ≠ r.id ∧ { good with magic := 0#32 }.magic ≠ p.splitterMagic := by decide

/-- `SplitterUpdateGating`'s step exists and its record is read back. -/
theorem witness_SplitterUpdateGating :
    let b : SplitterParams := ⟨0x12345678#32, 0#32, 3#32, [0x3F000000#32, 0x3E800000#32], true, false, none⟩
    let s : State := { State.reset with host := [.splitterUpdate 0 b false] }
    ∃ (t : State) (r' : Splitter), step s = .next t ∧ t.splitters[0]? = some r' ∧ b.inUse = true ∧
      b.magic = s.par.splitterMagic :=
  let b : SplitterParams := ⟨0x12345678#32, 0#32, 3#32, [0x3F000000#32, 0x3E800000#32], true, false, none⟩
  let r' := splitterUpdate Config.resetParams 0 b false (Splitter.constructed Config.resetParams 0)
  ⟨{ State.reset with splitters := State.reset.splitters.set 0 r', draw := 1 }, r',
    step_hostOp (s := { State.reset with host := [.splitterUpdate 0 b false] }) rfl, rfl, rfl, rfl⟩

end Sys2Proof.Tests
end

/-! ## The scope's rules: what no step changes, and the arithmetic (00_scope.md)

### `Process` leaves the control state alone (R180) -/

namespace Sys2Proof.Machine

theorem ControlKept.refl (s : State) : ControlKept s s := ⟨rfl, rfl, rfl, rfl, rfl, rfl, rfl, rfl, rfl, rfl⟩

theorem ControlKept.trans {s t u : State} (h : ControlKept s t) (h' : ControlKept t u) : ControlKept s u where
  par := h'.par.trans h.par
  frame := h'.frame.trans h.frame
  pc := h'.pc.trans h.pc
  listLen := h'.listLen.trans h.listLen
  cmdMem := h'.cmdMem.trans h.cmdMem
  cmd := h'.cmd.trans h.cmd
  splitters := h'.splitters.trans h.splitters
  frameRefused := h'.frameRefused.trans h.frameRefused
  diag := h'.diag.trans h.diag
  host := h'.host.trans h.host

theorem KernelKeeps.controlKept {output : S16} {s t : State} (h : KernelKeeps output s t) : ControlKept s t := by
  rw [h.keeps]
  exact ⟨rfl, rfl, rfl, rfl, rfl, rfl, rfl, rfl, rfl, rfl⟩

theorem writeEntry_controlKept (h : Handle) (e : Entry) (s : State) : ControlKept s (writeEntry h e s) := by
  constructor <;> simp

theorem persistAcc_controlKept (h : Handle) (s : State) : ControlKept s (persistAcc h s) := by
  constructor <;> simp

theorem prepPlain_controlKept (h : Handle) (ni : Bool) (s : State) : ControlKept s (prepPlain h ni s) := by
  constructor <;> simp

theorem prepForked_controlKept (h p : Handle) (ni first : Bool) (s : State) :
    ControlKept s (prepForked h p ni first s) := by
  constructor <;> simp

theorem setCoeffs_controlKept (t : Tap) (c : Coeffs) (s : State) : ControlKept s (setCoeffs t c s) := by
  constructor <;> simp

theorem setDelay_controlKept (t : Tap) (d : Delay) (s : State) : ControlKept s (setDelay t d s) := by
  constructor <;> simp

theorem loadF32_controlKept (t : Tap) (c : F32Params) (s : State) : ControlKept s (loadF32 t c s) := by
  constructor <;> simp

theorem writeLoc_controlKept (t : Tap) (e : Entry) (s : State) : ControlKept s (writeLoc t e s) := by
  constructor <;> simp

theorem tailCapture_controlKept (v : Handle) (k : S32) (r : F32) (s : State) :
    ControlKept s (tailCapture v k r s) := by
  constructor <;> simp

theorem loadQ14Pair_controlKept (c0 c1 : Q14Params) (s : State) : ControlKept s (loadQ14Pair c0 c1 s) :=
  (setCoeffs_controlKept .t0 _ s).trans (setCoeffs_controlKept .t1 _ _)

theorem loadF32Pair_controlKept (c0 c1 : F32Params) (s : State) : ControlKept s (loadF32Pair c0 c1 s) :=
  (loadF32_controlKept .t0 c0 s).trans (loadF32_controlKept .t1 c1 _)

theorem prepTap_controlKept (t : Tap) (h p : Handle) (ni first : Bool) (s : State) :
    ControlKept s (prepTap t h p ni first s) :=
  (prepForked_controlKept h p ni first s).trans (writeLoc_controlKept t _ _)

theorem multiTapAfter_controlKept (o : MtOperands) (s : State) : ControlKept s (multiTapAfter o s) :=
  ((writeLoc_controlKept .t0 _ s).trans (writeLoc_controlKept .t1 _ _)).trans
    ((writeEntry_controlKept _ _ _).trans (writeEntry_controlKept _ _ _))

section Codec
variable {codec : State → State} (hcodec : ∀ s, ControlKept s (codec s))
include hcodec

theorem mixBefore_controlKept (o : BqfmOperands) (s : State) :
    ControlKept s (let t := codec (prepForked o.state0 o.previousState0 o.needsInit0 o.isFirstMixBuffer s)
      loadState .t0 (readEntry o.state0 t) t) :=
  ((prepForked_controlKept _ _ _ _ s).trans (hcodec _)).trans (setDelay_controlKept .t0 _ _)

theorem mixSteps_controlKept (o : BqfmOperands) (s : State) : ControlKept s (mixSteps o codec s) :=
  ((mixBefore_controlKept hcodec o s).trans (kernelKM_keeps .single _ _ _ _).controlKept).trans
    (writeEntry_controlKept _ _ _)

theorem mixRampSteps_controlKept (o : BqfmOperands) (s : State) : ControlKept s (mixRampSteps o codec s) :=
  (((mixBefore_controlKept hcodec o s).trans (kernelKMR_keeps .single _ _ _ _ _).controlKept).trans
    (writeEntry_controlKept _ _ _)).trans (tailCapture_controlKept _ _ _ _)

theorem multiTapBefore_controlKept (o : MtOperands) (s : State) : ControlKept s (multiTapBefore o codec s) :=
  ((prepTap_controlKept _ _ _ _ _ s).trans (prepTap_controlKept _ _ _ _ _ _)).trans
    ((hcodec _).trans ((setDelay_controlKept .t0 _ _).trans (setDelay_controlKept .t1 _ _)))

theorem multiTapSteps_controlKept (o : MtOperands) (s : State) : ControlKept s (multiTapSteps o codec s) :=
  ((multiTapBefore_controlKept hcodec o s).trans (kernelKM_keeps .pair _ _ _ _).controlKept).trans
    (multiTapAfter_controlKept o _)

theorem multiTapRampSteps_controlKept (o : MtOperands) (s : State) :
    ControlKept s (multiTapRampSteps o codec s) :=
  (((multiTapBefore_controlKept hcodec o s).trans (kernelKMR_keeps .pair _ _ _ _ _).controlKept).trans
    (multiTapAfter_controlKept o _)).trans (tailCapture_controlKept _ _ _ _)

end Codec

/-- The steps of every form keep the control state. -/
theorem stepsOf_controlKept (i : Instr) (s : State) : ControlKept s (stepsOf i s) := by
  cases i with
  | bqfI o c =>
    simp only [stepsOf]
    exact ((((prepPlain_controlKept _ _ s).trans (setCoeffs_controlKept .t0 _ _)).trans
      (setDelay_controlKept .t0 _ _)).trans (kernelKI_keeps _ _ _).controlKept).trans (persistAcc_controlKept _ _)
  | bqfD o c =>
    simp only [stepsOf]
    exact ((((prepPlain_controlKept _ _ s).trans (setCoeffs_controlKept .t0 _ _)).trans
      (setDelay_controlKept .t0 _ _)).trans (kernelKD_keeps _ _ _).controlKept).trans (writeEntry_controlKept _ _ _)
  | bqfDF o c =>
    simp only [stepsOf]
    exact ((((prepPlain_controlKept _ _ s).trans (loadF32_controlKept .t0 c _)).trans
      (setDelay_controlKept .t0 _ _)).trans (kernelKD_keeps _ _ _).controlKept).trans (writeEntry_controlKept _ _ _)
  | bqfm o c => exact mixSteps_controlKept (setCoeffs_controlKept .t0 _) o s
  | bqfmF o c => exact mixSteps_controlKept (loadF32_controlKept .t0 c) o s
  | bqfmR o c => exact mixRampSteps_controlKept (setCoeffs_controlKept .t0 _) o s
  | bqfmRF o c => exact mixRampSteps_controlKept (loadF32_controlKept .t0 c) o s
  | mtbqfm o c0 c1 => exact multiTapSteps_controlKept (loadQ14Pair_controlKept c0 c1) o s
  | mtbqfmF o c0 c1 => exact multiTapSteps_controlKept (loadF32Pair_controlKept c0 c1) o s
  | mtbqfmR o c0 c1 => exact multiTapRampSteps_controlKept (loadQ14Pair_controlKept c0 c1) o s
  | mtbqfmRF o c0 c1 => exact multiTapRampSteps_controlKept (loadF32Pair_controlKept c0 c1) o s

/-- Whatever form `Process` runs, accepted or refused, the control state is kept (R180). -/
theorem exec_controlKept {i : Instr} {s t : State} (h : exec i s = .next t) : ControlKept s t := by
  rcases exec_cases i s with ⟨_, hrun⟩ | ⟨r, _, hrefuse⟩
  · obtain rfl := Host.Outcome.next.inj (hrun.symm.trans h)
    exact (stepsOf_controlKept i s).trans ⟨rfl, rfl, rfl, rfl, rfl, rfl, rfl, rfl, rfl, rfl⟩
  · obtain rfl := Host.Outcome.next.inj (hrefuse.symm.trans h)
    exact ⟨rfl, rfl, rfl, rfl, rfl, rfl, rfl, rfl, rfl, rfl⟩

/-! ### Parameters and splitter identities (R8, R210) -/

/-- The parameters and the identity of every splitter record, in its place, are the same in both states. -/
def IdentityKept (s t : State) : Prop :=
  t.par = s.par ∧ t.splitters.map Splitter.id = s.splitters.map Splitter.id

/-- A host action that gives a next state was not stopped by its guard. -/
theorem next_of_guard {c : Prop} [Decidable c] {f : Fault} {o : Host.Outcome State Fault Refusal} {t : State}
    (h : (if c then .fault f else o) = .next t) : o = .next t := by
  split at h
  · cases h
  · exact h

theorem processNext_identityKept {s t : State} (h : processNext s = .next t) : IdentityKept s t := by
  rcases processNext_cases s with ⟨_, hrefuse⟩ | ⟨i, u, _, hexec, hrun⟩
  · obtain rfl := Host.Outcome.next.inj (hrefuse.symm.trans h)
    exact ⟨rfl, rfl⟩
  · obtain rfl := Host.Outcome.next.inj (hrun.symm.trans h)
    have hk := exec_controlKept hexec
    exact ⟨hk.par, congrArg (List.map Splitter.id) hk.splitters⟩

theorem operate_identityKept {select : BitVec 2} {s t : State} (h : operate select s = .next t) :
    IdentityKept s t := by
  rw [operate] at h
  split at h
  · exact processNext_identityKept h
  · split at h
    · obtain rfl := Host.Outcome.next.inj h
      rw [verifyNext]
      split <;> exact ⟨rfl, rfl⟩
    · split at h
      · obtain rfl := Host.Outcome.next.inj h
        rw [dumpNext]
        split <;> exact ⟨rfl, rfl⟩
      · obtain rfl := Host.Outcome.next.inj h
        exact ⟨rfl, rfl⟩

/-- Replacing a record by one of its identity keeps every identity. -/
theorem map_id_set {l : List Splitter} {slot : Nat} {r r' : Splitter} (hr : l[slot]? = some r) (hid : r'.id = r.id) :
    (l.set slot r').map Splitter.id = l.map Splitter.id := by
  obtain ⟨hlt, rfl⟩ := List.getElem?_eq_some_iff.mp hr
  rw [List.map_set, hid, ← List.getElem_map Splitter.id (h := by simpa using hlt), List.set_getElem_self]

theorem onSplitter_identityKept {slot : Nat} {f : Splitter → Splitter} {s t : State}
    (h : onSplitter slot f s = .next t) (hf : ∀ r, (f r).id = r.id) : IdentityKept s t := by
  rw [onSplitter] at h
  split at h
  · cases h
  · next r hr =>
    obtain rfl := Host.Outcome.next.inj h
    exact ⟨rfl, map_id_set hr (hf r)⟩

theorem fromSplitter_identityKept {slot : Nat} {f : Splitter → Result} {s t : State}
    (h : fromSplitter slot f s = .next t) : IdentityKept s t := by
  rw [fromSplitter] at h
  split at h
  · cases h
  · obtain rfl := Host.Outcome.next.inj h
    exact ⟨rfl, rfl⟩

theorem splitterUpdate_id (p : Params) (k : Nat) (b : SplitterParams) (rps : Bool) (r : Splitter) :
    (splitterUpdate p k b rps r).id = r.id := by
  rw [splitterUpdate]
  split <;> rfl

theorem updateSplitter_identityKept {slot : Nat} {b : SplitterParams} {rps : Bool} {s t : State}
    (h : updateSplitter slot b rps s = .next t) : IdentityKept s t := by
  rw [updateSplitter] at h
  split at h
  · cases h
  · next r hr =>
    split at h
    · obtain rfl := Host.Outcome.next.inj h
      exact ⟨rfl, map_id_set hr (splitterUpdate_id _ _ _ _ r)⟩
    · obtain rfl := Host.Outcome.next.inj h
      exact ⟨rfl, rfl⟩

theorem startFrame_identityKept {list : List Descriptor} {s t : State} (h : startFrame list s = .next t) :
    IdentityKept s t := by
  obtain rfl := Host.Outcome.next.inj (next_of_guard (next_of_guard h))
  rw [storeList_eq]
  exact ⟨rfl, rfl⟩

theorem performHostOp_identityKept {op : HostOp} {s t : State} (h : performHostOp op s = .next t) :
    IdentityKept s t := by
  cases op with
  | startFrame list => exact startFrame_identityKept h
  | writeCommand j d =>
    obtain rfl := Host.Outcome.next.inj (next_of_guard (next_of_guard h))
    exact ⟨rfl, rfl⟩
  | writeSampleCount n | writeArena a v | writeSrf e k v | writePrev w k x =>
    obtain rfl := Host.Outcome.next.inj (next_of_guard h)
    exact ⟨rfl, rfl⟩
  | operate select => exact operate_identityKept h
  | splitterUpdate slot b rps => exact updateSplitter_identityKept h
  | splitterMark slot | splitterUpdateInternal slot => exact onSplitter_identityKept h fun _ => rfl
  | splitterIsConfigured slot | getMixVolume slot c | getMixVolumePrev slot c => exact fromSplitter_identityKept h
  | writeBiquadNew slot j p | linkNext slot next => exact onSplitter_identityKept (next_of_guard h) fun _ => rfl

/-- Settles O16: a step is a host action, a `Process` or idle, and each keeps the parameters and the identities. -/
theorem parametersAndIdentitiesAreFixed : Obligations.ParametersAndIdentitiesAreFixed := by
  intro s t h
  cases hhost : s.host with
  | cons op rest =>
    rw [step_hostOp hhost] at h
    have hk := performHostOp_identityKept h
    exact hk
  | nil =>
    rcases Nat.lt_or_ge s.pc s.listLen with hpc | hpc
    · exact processNext_identityKept (step_process hhost hpc ▸ h)
    · obtain rfl := Host.Outcome.next.inj ((step_idle hhost hpc).symm.trans h)
      exact ⟨rfl, rfl⟩

end Sys2Proof.Machine

/-! ### Rounding with a sign (R10): one argument for both widths -/

namespace Sys2Proof.Machine

/-- The number of units with this sign and magnitude. -/
def signedUnits (negative : Bool) (u : Nat) : Int := if negative then -(u : Int) else (u : Int)

theorem f64Units_eq (a : F64) : f64Units a = signedUnits (f64Sign a) (f64Abs a) := rfl

theorem f32Units_eq (v : F32) : f32Units v = signedUnits (f32Sign v) (f32Abs v) := rfl

@[simp] theorem signedUnits_zero (negative : Bool) : signedUnits negative 0 = 0 := by
  cases negative <;> rfl

@[simp] theorem abs_signedUnits (negative : Bool) (u : Nat) : |signedUnits negative u| = u := by
  cases negative <;> simp [signedUnits]

theorem signedUnits_neg_iff {negative : Bool} {u : Nat} (hu : 0 < u) : signedUnits negative u < 0 ↔ negative = true := by
  cases negative
  · simp [signedUnits]
  · simpa [signedUnits] using hu

theorem signedUnits_decide (z : Int) : signedUnits (decide (z < 0)) z.natAbs = z := by
  rw [signedUnits]
  split
  · next h => have := of_decide_eq_true h; omega
  · next h => have := of_decide_eq_false (Bool.eq_false_iff.mpr h); omega

theorem signedUnits_mul (neg neg' : Bool) (u v : Nat) :
    signedUnits neg u * signedUnits neg' v = signedUnits (neg ^^ neg') (u * v) := by
  cases neg <;> cases neg' <;> simp [signedUnits]

/-- With the value's own sign the distance is that of the magnitudes. -/
theorem dist_signedUnits (negative : Bool) (u den num : Nat) :
    |signedUnits negative u * (den : Int) - signedUnits negative num| = |(den : Int) * u - num| := by
  cases negative
  · simp only [signedUnits, Bool.false_eq_true, if_false, mul_comm]
  · rw [← abs_neg]
    simp only [signedUnits, if_true]
    ring_nf

/-- With either sign the distance is no less. -/
theorem dist_le_signedUnits (neg neg' : Bool) (u den num : Nat) :
    |(den : Int) * u - num| ≤ |signedUnits neg' u * (den : Int) - signedUnits neg num| := by
  have h := abs_abs_sub_abs_le (signedUnits neg' u * (den : Int)) (signedUnits neg num)
  rwa [abs_mul, abs_signedUnits, abs_signedUnits, Nat.abs_cast, mul_comm] at h

/-- With the other sign the distance is more, unless one of the two is zero. -/
theorem signedUnits_eq_of_dist_eq {neg neg' : Bool} {u den num : Nat} (hden : 0 < den) (hnum : 0 < num)
    (h : |signedUnits neg' u * (den : Int) - signedUnits neg num| = |(den : Int) * u - num|) :
    signedUnits neg' u = signedUnits neg u := by
  rcases Nat.eq_zero_or_pos u with rfl | hu
  · rw [signedUnits_zero, signedUnits_zero]
  · by_cases hs : neg' = neg
    · rw [hs]
    · have hopp : signedUnits neg' u * (den : Int) - signedUnits neg num = signedUnits neg' (den * u + num) := by
        cases neg <;> cases neg' <;> simp [signedUnits] at hs ⊢ <;> ring
      have hpos := Nat.mul_pos hden hu
      rw [hopp, abs_signedUnits, ← Nat.cast_mul] at h
      rcases abs_cases (((den * u : Nat) : Int) - num) with h' | h' <;> omega

/-- Rounding the magnitude and keeping the sign is rounding to nearest, ties to even. -/
theorem roundMag_nearest_even {p : Nat} (hp : 0 < p) (neg neg' : Bool) {num den : Nat} (hden : 0 < den) (m : Nat) :
    let r := signedUnits neg (magUnits p (roundMag p num den))
    let c := signedUnits neg' (magUnits p m)
    let z := signedUnits neg num
    |r * den - z| ≤ |c * den - z| ∧ (|c * den - z| = |r * den - z| → c ≠ r → roundMag p num den % 2 = 0) := by
  have hr := dist_signedUnits neg (magUnits p (roundMag p num den)) den num
  have hnear := roundMag_nearest p num den m hden
  have hc := dist_le_signedUnits neg neg' (magUnits p m) den num
  refine ⟨hr.trans_le (hnear.trans hc), fun htie hne => ?_⟩
  rcases Nat.eq_zero_or_pos num with rfl | hnum
  · rw [roundMag_zero p den hden]
  · have hdist : |(den : Int) * magUnits p m - num| = |(den : Int) * magUnits p (roundMag p num den) - num| := by
      rw [hr] at htie; exact (hc.trans htie.le).antisymm hnear
    refine roundMag_tie_even p num den m hden ?_ hdist hp
    rintro rfl
    exact hne (signedUnits_eq_of_dist_eq hden hnum (htie.trans hr))

/-- Which of two points is nearer is decided by the middle between them. -/
theorem dist_le_iff {a b n : Int} (hab : a < b) :
    (|a - n| ≤ |b - n| ↔ 2 * n ≤ a + b) ∧ (|b - n| ≤ |a - n| ↔ a + b ≤ 2 * n) := by
  rcases abs_cases (a - n) with h | h <;> rcases abs_cases (b - n) with h' | h' <;> omega

/-- Rounding reaches an even magnitude from halfway below it on. -/
theorem lt_roundMag_iff {p : Nat} (hp : 0 < p) {num den m : Nat} (hden : 0 < den) (heven : (m + 1) % 2 = 0) :
    m < roundMag p num den ↔ den * (magUnits p m + magUnits p (m + 1)) ≤ 2 * num := by
  have hlt : ∀ {i j}, i < j → ((den * magUnits p i : Nat) : Int) < (den * magUnits p j : Nat) := fun h =>
    Int.ofNat_lt.mpr (Nat.mul_lt_mul_of_pos_left (magUnits_strictMono p h) hden)
  have hnear := fun i => roundMag_nearest p num den i hden
  have htie := roundMag_tie_even p num den (m + 1) hden
  simp only [← Nat.cast_mul] at hnear htie
  rw [Nat.mul_add]
  constructor
  · intro h
    have hmid := (dist_le_iff (hlt h)).2.mp (hnear m)
    have hle : den * magUnits p (m + 1) ≤ den * magUnits p (roundMag p num den) :=
      Nat.mul_le_mul_left den ((magUnits_strictMono p).monotone h)
    omega
  · intro h
    by_contra hge
    have hd := dist_le_iff (n := num) (hlt (show roundMag p num den < m + 1 by omega))
    have hmid := hd.1.mp (hnear (m + 1))
    have hm : roundMag p num den = m := by
      by_contra hne
      have := hlt (show roundMag p num den < m by omega)
      omega
    have := htie (by omega) ((hd.2.mpr (by rw [hm]; omega)).antisymm (hnear (m + 1))) hp
    omega

/-! ### Overflow -/

/-- The middle between the largest finite magnitude, at place `e`, and the infinity after it. -/
theorem magUnits_middle (p e : Nat) :
    magUnits p ((e + 1) * 2 ^ p + (2 ^ p - 1)) + magUnits p ((e + 2) * 2 ^ p) = (2 ^ (p + 2) - 1) * 2 ^ e := by
  have hpos := Nat.two_pow_pos p
  have hlast := magUnits_block p e (2 ^ p - 1) (by omega)
  have hinf := magUnits_block p (e + 1) 0 hpos
  rw [Nat.add_zero, Nat.add_zero, Nat.pow_succ 2 e, Nat.mul_comm (2 ^ e), ← Nat.mul_assoc] at hinf
  rw [hlast, hinf, ← Nat.add_mul, Nat.pow_add]
  congr 1
  omega

theorem middle64 : magUnits fracBits64 (infMag64 - 1) + magUnits fracBits64 (infMag64 - 1 + 1) = 2 * overflow64 := by
  obtain ⟨e, he⟩ : ∃ e, e = 970 := ⟨_, rfl⟩
  obtain ⟨n, hn⟩ : ∃ n, n = 1074 := ⟨_, rfl⟩
  have h := magUnits_middle 52 (e + 1 + n)
  have hlast : infMag64 - 1 = (e + 1 + n + 1) * 2 ^ 52 + (2 ^ 52 - 1) := by rw [infMag64]; omega
  have hinf : infMag64 - 1 + 1 = (e + 1 + n + 2) * 2 ^ 52 := by rw [infMag64]; omega
  rw [hinf, hlast, fracBits64, h, overflow64, one64_eq_pow hn, ← he, Nat.pow_add, Nat.pow_succ]
  ring

theorem unit32_eq_pow {n : Nat} (h : n = 925) : unit32 = 2 ^ n := by
  unfold unit32
  exact congrArg (2 ^ ·) h.symm

theorem unit32_pos : 0 < unit32 := by
  obtain ⟨n, hn⟩ : ∃ n, n = 925 := ⟨_, rfl⟩
  rw [unit32_eq_pow hn]
  exact Nat.two_pow_pos n

theorem middle32 :
    (magUnits fracBits32 (infMag32 - 1) + magUnits fracBits32 (infMag32 - 1 + 1)) * unit32 = 2 * overflow32 := by
  obtain ⟨e, he⟩ : ∃ e, e = 253 := ⟨_, rfl⟩
  obtain ⟨d, hd⟩ : ∃ d, d = 103 := ⟨_, rfl⟩
  obtain ⟨n, hn⟩ : ∃ n, n = 1074 := ⟨_, rfl⟩
  obtain ⟨u, hu⟩ : ∃ u, u = 925 := ⟨_, rfl⟩
  have hexp : 2 ^ e * 2 ^ u = 2 * (2 ^ d * 2 ^ n) := by
    rw [← Nat.pow_add, ← Nat.pow_add, ← Nat.pow_succ', show e + u = d + n + 1 by omega]
  have h := magUnits_middle 23 e
  have hlast : infMag32 - 1 = (e + 1) * 2 ^ 23 + (2 ^ 23 - 1) := by rw [infMag32]; omega
  have hinf : infMag32 - 1 + 1 = (e + 2) * 2 ^ 23 := by rw [infMag32]; omega
  rw [hinf, hlast, fracBits32, h, overflow32, one64_eq_pow hn, ← hd, unit32_eq_pow hu, Nat.mul_assoc, hexp]
  ring

/-- A value rounds to a binary64 infinity from the threshold on. -/
theorem infMag64_le_roundMag_iff {num den : Nat} (hden : 0 < den) :
    infMag64 ≤ roundMag fracBits64 num den ↔ overflow64 * den ≤ num := by
  have h := lt_roundMag_iff (p := fracBits64) (m := infMag64 - 1) (by decide) (num := num) hden (by decide)
  rw [middle64, Nat.mul_left_comm, Nat.mul_le_mul_left_iff (by decide), Nat.mul_comm] at h
  exact h

/-- A value in units of binary64 narrows to a binary32 infinity from the threshold on. -/
theorem infMag32_le_roundMag_iff (num : Nat) : infMag32 ≤ roundMag fracBits32 num unit32 ↔ overflow32 ≤ num := by
  have h := lt_roundMag_iff (p := fracBits32) (m := infMag32 - 1) (by decide) (num := num) unit32_pos (by decide)
  rw [Nat.mul_comm, middle32, Nat.mul_le_mul_left_iff (by decide)] at h
  exact h

theorem overflow64_pos : 0 < overflow64 := by
  have h := magUnits_strictMono fracBits64 (show 0 < infMag64 - 1 + 1 by decide)
  have := middle64
  omega

/-! ### Finite operands (R10) -/

/-- A rounded magnitude below the infinity is the encoding's own. -/
theorem f64Units_round {negative : Bool} {num den : Nat} (h : f64IsFinite (f64Round negative num den) = true) :
    f64Mag (f64Round negative num den) = roundMag fracBits64 num den ∧
      f64Units (f64Round negative num den) =
        signedUnits negative (magUnits fracBits64 (roundMag fracBits64 num den)) := by
  have hmag : f64Mag (f64Round negative num den) = roundMag fracBits64 num den := by
    rw [f64IsFinite, decide_eq_true_eq, f64Mag_round] at h
    rw [f64Mag_round]
    omega
  exact ⟨hmag, by rw [f64Units_eq, f64Sign_round, f64Abs, hmag]⟩

theorem f64IsInf_round_iff (negative : Bool) (num : Nat) {den : Nat} (hden : 0 < den) :
    f64IsInf (f64Round negative num den) = true ↔ overflow64 * den ≤ num := by
  rw [f64IsInf, f64Mag_round, beq_iff_eq, min_eq_right_iff, infMag64_le_roundMag_iff hden]

/-- `f64Round` is correct rounding of the signed quotient. -/
theorem rounded64_round (negative : Bool) (num : Nat) {den : Nat} (hden : 0 < den) :
    Rounded64 (f64Round negative num den) (signedUnits negative num) den where
  notNaN := f64IsNaN_round _ _ _
  overflow := by
    rw [f64IsInf_round_iff negative num hden, abs_signedUnits]
    exact_mod_cast Iff.rfl
  sign h := by
    have hnum := (Nat.mul_pos overflow64_pos hden).trans_le ((f64IsInf_round_iff negative num hden).mp h)
    rw [f64Sign_round, signedUnits_neg_iff hnum]
  nearest h c _ := by
    obtain ⟨hmag, hunits⟩ := f64Units_round h
    rw [hunits, hmag]
    exact roundMag_nearest_even (by decide) negative (f64Sign c) hden (f64Mag c)

/-- The sum of finite values rounds the exact sum; an exact zero is negative only if both are. -/
theorem fadd_finite (k : Nat) {a b : F64} (ha : f64IsFinite a = true) (hb : f64IsFinite b = true) :
    fadd k a b = f64Round
      (if f64Units a + f64Units b = 0 then f64Sign a && f64Sign b else decide (f64Units a + f64Units b < 0))
      (f64Units a + f64Units b).natAbs 1 := by
  obtain ⟨hna, hia⟩ := f64_finite_kind ha
  obtain ⟨hnb, hib⟩ := f64_finite_kind hb
  simp only [fadd, hna, hnb, hia, hib, Bool.or_self, Bool.false_eq_true, if_false]
  split
  · next h => rw [h]; exact (f64Round_exact _ Nat.one_pos (Nat.zero_le _) (by simp)).symm
  · rfl

theorem fmul_finite (k : Nat) {a b : F64} (ha : f64IsFinite a = true) (hb : f64IsFinite b = true) :
    fmul k a b = f64Round (f64Sign a ^^ f64Sign b) (f64Abs a * f64Abs b) one64 := by
  obtain ⟨hna, hia⟩ := f64_finite_kind ha
  obtain ⟨hnb, hib⟩ := f64_finite_kind hb
  simp only [fmul, hna, hnb, hia, hib, Bool.or_self, Bool.false_eq_true, if_false]

theorem fdiv_finite (k : Nat) {a b : F64} (ha : f64IsFinite a = true) (hb : f64IsFinite b = true)
    (hz : f64IsZero b = false) :
    fdiv k a b = f64Round (f64Sign a ^^ f64Sign b) (f64Abs a * one64) (f64Abs b) := by
  obtain ⟨hna, hia⟩ := f64_finite_kind ha
  obtain ⟨hnb, hib⟩ := f64_finite_kind hb
  simp only [fdiv, hna, hnb, hia, hib, hz, Bool.or_self, Bool.false_eq_true, if_false]

theorem fadd_rounded (k : Nat) {a b : F64} (ha : f64IsFinite a = true) (hb : f64IsFinite b = true) :
    Rounded64 (fadd k a b) (f64Units a + f64Units b) 1 := by
  rw [fadd_finite k ha hb]
  generalize f64Units a + f64Units b = z
  split
  · next h => subst h; simpa using rounded64_round (f64Sign a && f64Sign b) 0 Nat.one_pos
  · simpa only [signedUnits_decide] using rounded64_round (decide (z < 0)) z.natAbs Nat.one_pos

theorem fmul_rounded (k : Nat) {a b : F64} (ha : f64IsFinite a = true) (hb : f64IsFinite b = true) :
    Rounded64 (fmul k a b) (f64Units a * f64Units b) one64 := by
  rw [fmul_finite k ha hb, f64Units_eq, f64Units_eq, signedUnits_mul]
  exact rounded64_round _ _ one64_pos

theorem sign_f64Units {b : F64} (hz : f64IsZero b = false) : (f64Units b).sign = signedUnits (f64Sign b) 1 := by
  have hpos := f64Abs_pos.mpr hz
  rw [f64Units_eq, signedUnits, signedUnits]
  split
  · rw [Int.sign_neg, Int.sign_eq_one_of_pos (by omega)]; rfl
  · rw [Int.sign_eq_one_of_pos (by omega)]; rfl

theorem fdiv_rounded (k : Nat) {a b : F64} (ha : f64IsFinite a = true) (hb : f64IsFinite b = true)
    (hz : f64IsZero b = false) :
    Rounded64 (fdiv k a b) (f64Units a * one64 * (f64Units b).sign) (f64Abs b) := by
  have hnum : f64Units a * one64 * (f64Units b).sign = signedUnits (f64Sign a ^^ f64Sign b) (f64Abs a * one64) := by
    rw [sign_f64Units hz, mul_right_comm, f64Units_eq, signedUnits_mul, Nat.mul_one]
    exact (signedUnits_mul _ false _ one64).trans (by rw [Bool.xor_false])
  rw [fdiv_finite k ha hb hz, hnum]
  exact rounded64_round _ _ (f64Abs_pos.mpr hz)

/-- Settles O32: each operation on finite operands is `f64Round` of its exact result, and that is correct rounding. -/
theorem arithmeticRoundsToNearestEven : Obligations.ArithmeticRoundsToNearestEven := by
  intro k a b ha hb
  refine ⟨fadd_rounded k ha hb, ?_, fmul_rounded k ha hb, fdiv_rounded k ha hb⟩
  have h := fadd_rounded k ha ((f64IsFinite_neg b).trans hb)
  rwa [f64Units_neg, ← sub_eq_add_neg] at h

end Sys2Proof.Machine

/-! ### Infinities, NaNs and zeros (R10, R123 (d), G3) -/

namespace Sys2Proof.Machine

theorem inf_kind {a : F64} (h : f64IsInf a = true) : f64IsNaN a = false ∧ f64IsZero a = false := by
  rw [f64IsInf, beq_iff_eq] at h
  rw [f64IsNaN, f64IsZero, h]
  decide

theorem f64Pack_inf (negative : Bool) :
    f64IsInf (f64Pack negative infMag64) = true ∧ f64Sign (f64Pack negative infMag64) = negative :=
  ⟨by rw [f64IsInf, f64Mag_pack _ (by decide), beq_self_eq_true], f64Sign_pack _ (by decide)⟩

theorem f64Pack_zero (negative : Bool) :
    f64IsZero (f64Pack negative 0) = true ∧ f64Sign (f64Pack negative 0) = negative :=
  ⟨by rw [f64IsZero, f64Mag_pack _ (by decide), beq_self_eq_true], f64Sign_pack _ (by decide)⟩

section
variable (k : Nat) {a b : F64}

/-- A NaN operand gives a NaN. -/
theorem arithmetic_nan (h : f64IsNaN a = true ∨ f64IsNaN b = true) :
    ∀ r ∈ [fadd k a b, fsub k a b, fmul k a b, fdiv k a b], f64IsNaN r = true := by
  have hor : (f64IsNaN a || f64IsNaN b) = true := by simpa using h
  simp [fadd, fsub, fmul, fdiv, hor]

theorem fadd_inf_left (ha : f64IsInf a = true) (hb : f64IsFinite b = true) : fadd k a b = a := by
  simp [fadd, ha, (inf_kind ha).1, f64_finite_kind hb]

theorem fadd_inf_right (ha : f64IsFinite a = true) (hb : f64IsInf b = true) : fadd k a b = b := by
  simp [fadd, hb, (inf_kind hb).1, f64_finite_kind ha]

/-- Infinities of one sign add to that infinity, of two signs to a NaN. -/
theorem fadd_inf_inf (ha : f64IsInf a = true) (hb : f64IsInf b = true) :
    fadd k a b = if f64Sign a ^^ f64Sign b then f64FreeNaN k else a := by
  simp [fadd, ha, hb, (inf_kind ha).1, (inf_kind hb).1]

theorem fmul_inf_left (ha : f64IsInf a = true) (hb : f64IsNaN b = false) :
    fmul k a b = if f64IsZero b then f64FreeNaN k else f64Pack (f64Sign a ^^ f64Sign b) infMag64 := by
  simp [fmul, ha, hb, inf_kind ha]

theorem fmul_inf_right (ha : f64IsNaN a = false) (hb : f64IsInf b = true) :
    fmul k a b = if f64IsZero a then f64FreeNaN k else f64Pack (f64Sign a ^^ f64Sign b) infMag64 := by
  simp [fmul, ha, hb, inf_kind hb]

theorem fdiv_inf_left (ha : f64IsInf a = true) (hb : f64IsFinite b = true) :
    fdiv k a b = f64Pack (f64Sign a ^^ f64Sign b) infMag64 := by
  simp [fdiv, ha, (inf_kind ha).1, f64_finite_kind hb]

theorem fdiv_inf_right (ha : f64IsFinite a = true) (hb : f64IsInf b = true) :
    fdiv k a b = f64Pack (f64Sign a ^^ f64Sign b) 0 := by
  simp [fdiv, hb, (inf_kind hb).1, f64_finite_kind ha]

theorem fdiv_inf_inf (ha : f64IsInf a = true) (hb : f64IsInf b = true) : fdiv k a b = f64FreeNaN k := by
  simp [fdiv, ha, hb, (inf_kind ha).1, (inf_kind hb).1]

theorem fdiv_zero (ha : f64IsFinite a = true) (hb : f64IsZero b = true) :
    fdiv k a b = if f64IsZero a then f64FreeNaN k else f64Pack (f64Sign a ^^ f64Sign b) infMag64 := by
  simp [fdiv, hb, f64_finite_kind ha, zero_kind hb]

/-- The sign of a quotient of finite values that is no NaN. -/
theorem fdiv_sign (ha : f64IsFinite a = true) (hb : f64IsFinite b = true) (h : f64IsNaN (fdiv k a b) = false) :
    f64Sign (fdiv k a b) = (f64Sign a ^^ f64Sign b) := by
  cases hz : f64IsZero b
  · rw [fdiv_finite k ha hb hz, f64Sign_round]
  · rw [fdiv_zero k ha hz] at h ⊢
    split at h
    · simp at h
    · next hza => rw [if_neg hza]; exact (f64Pack_inf _).2

theorem fadd_exact_zero (ha : f64IsFinite a = true) (hb : f64IsFinite b = true) (h : f64Units a + f64Units b = 0) :
    fadd k a b = f64Pack (f64Sign a && f64Sign b) 0 := by
  rw [fadd_finite k ha hb, if_pos h, h]
  exact f64Round_exact _ Nat.one_pos (Nat.zero_le _) (by simp)

end

/-- Settles O33, one clause per kind of operands. -/
theorem arithmeticOnSpecialValues : Obligations.ArithmeticOnSpecialValues := by
  intro k a b
  dsimp only
  refine ⟨arithmetic_nan k, fun ha hb => ?_, fun ha hb => ?_, fun ha hb => ?_, fun ha hb => ?_, fun ha hb => ?_⟩
  · refine ⟨?_, ?_, ?_, ?_⟩
    · rw [fadd_inf_inf k ha hb]
      split
      · exact f64IsNaN_free k
      · rfl
    · rw [fsub, fadd_inf_inf k ha ((f64IsInf_neg b).trans hb), f64Sign_neg, Bool.xor_not]
      cases f64Sign a ^^ f64Sign b
      · exact f64IsNaN_free k
      · rfl
    · rw [fmul_inf_left k ha (inf_kind hb).1, (inf_kind hb).2]
      exact f64Pack_inf _
    · rw [fdiv_inf_inf k ha hb, f64IsNaN_free]
  · refine ⟨fadd_inf_left k ha hb, fadd_inf_left k ha ((f64IsFinite_neg b).trans hb), ?_, ?_⟩
    · rw [fdiv_inf_left k ha hb]
      exact f64Pack_inf _
    · rw [fmul_inf_left k ha (f64_finite_kind hb).1]
      split
      · exact f64IsNaN_free k
      · exact f64Pack_inf _
  · refine ⟨fadd_inf_right k ha hb, fadd_inf_right k ha ((f64IsInf_neg b).trans hb), ?_, ?_⟩
    · rw [fdiv_inf_right k ha hb]
      exact f64Pack_zero _
    · rw [fmul_inf_right k (f64_finite_kind ha).1 hb]
      split
      · exact f64IsNaN_free k
      · exact f64Pack_inf _
  · rw [fdiv_zero k ha hb]
    split
    · exact f64IsNaN_free k
    · exact f64Pack_inf _
  · refine ⟨fun _ => ?_, fun hz => fdiv_sign k ha hb (zero_kind hz).1, fun h => ?_, fun h => ?_⟩
    · rw [fmul_finite k ha hb, f64Sign_round]
    · rw [fadd_exact_zero k ha hb h]
      exact f64Pack_zero _
    · rw [fsub, fadd_exact_zero k ha ((f64IsFinite_neg b).trans hb) (by rw [f64Units_neg, ← sub_eq_add_neg, h]),
        f64Sign_neg]
      exact f64Pack_zero _

end Sys2Proof.Machine

/-! ### Conversions (R10, R145, D34) -/

namespace Sys2Proof.Machine

theorem f32Pack_toNat (negative : Bool) {mag : Nat} (h : mag < 2 ^ 31) :
    (f32Pack negative mag).toNat = (if negative then 2 ^ 31 else 0) + mag := by
  rw [f32Pack, BitVec.toNat_ofNat, Nat.mod_eq_of_lt]
  split <;> omega

theorem f32Sign_pack (negative : Bool) {mag : Nat} (h : mag < 2 ^ 31) : f32Sign (f32Pack negative mag) = negative := by
  rw [f32Sign, BitVec.msb_eq_decide, f32Pack_toNat negative h]
  cases negative
  · exact decide_eq_false (by simp; omega)
  · exact decide_eq_true (by simp)

theorem f32Mag_pack (negative : Bool) {mag : Nat} (h : mag < 2 ^ 31) : f32Mag (f32Pack negative mag) = mag := by
  rw [f32Mag, f32Pack_toNat negative h]
  split <;> omega

theorem f32IsNaN_exp_all_ones (sign : BitVec 1) (frac : BitVec 23) (h : 0 < frac.toNat) :
    f32IsNaN (sign ++ 0xFF#8 ++ frac) = true := by
  have hval : (sign ++ 0xFF#8 ++ frac).toNat = sign.toNat * 2 ^ 31 + 0xFF * 2 ^ 23 + frac.toNat := by
    rw [BitVec.toNat_append, ← Nat.shiftLeft_add_eq_or_of_lt frac.isLt, BitVec.toNat_append,
      ← Nat.shiftLeft_add_eq_or_of_lt (BitVec.isLt _), Nat.shiftLeft_eq, Nat.shiftLeft_eq, BitVec.toNat_ofNat]
    omega
  have := frac.isLt
  rw [f32IsNaN, f32Mag, hval, infMag32, decide_eq_true_eq]
  omega

/-- A free NaN of binary32 is a NaN, whatever it is. -/
theorem f32IsNaN_free (k : Nat) : f32IsNaN (f32FreeNaN k) = true := by
  rw [f32FreeNaN]
  apply f32IsNaN_exp_all_ones
  split
  · decide
  · next h => exact Nat.pos_of_ne_zero fun h0 => h (BitVec.eq_of_toNat_eq h0)

theorem f64ToF32_finite (k : Nat) {a : F64} (ha : f64IsFinite a = true) :
    f64ToF32 k a = f32Pack (f64Sign a) (min (roundMag fracBits32 (f64Abs a) unit32) infMag32) := by
  simp [f64ToF32, f64_finite_kind ha]

theorem f64ToF32_inf (k : Nat) {a : F64} (ha : f64IsInf a = true) :
    f64ToF32 k a = f32Pack (f64Sign a) infMag32 := by
  simp [f64ToF32, ha, (inf_kind ha).1]

/-- What a finite double narrows to: its sign, and its magnitude rounded, at most the infinity. -/
theorem narrowed_sign_mag (k : Nat) {a : F64} (ha : f64IsFinite a = true) :
    f32Sign (f64ToF32 k a) = f64Sign a ∧
      f32Mag (f64ToF32 k a) = min (roundMag fracBits32 (f64Abs a) unit32) infMag32 := by
  have hlt : min (roundMag fracBits32 (f64Abs a) unit32) infMag32 < 2 ^ 31 := (Nat.min_le_right _ _).trans_lt (by decide)
  rw [f64ToF32_finite k ha]
  exact ⟨f32Sign_pack _ hlt, f32Mag_pack _ hlt⟩

theorem narrowing_not_nan (k : Nat) {a : F64} (ha : f64IsFinite a = true) : f32IsNaN (f64ToF32 k a) = false := by
  rw [f32IsNaN, (narrowed_sign_mag k ha).2, decide_eq_false_iff_not, not_lt]
  exact Nat.min_le_right _ _

theorem narrowing_overflow_iff (k : Nat) {a : F64} (ha : f64IsFinite a = true) :
    f32IsInf (f64ToF32 k a) = true ↔ (overflow32 : Int) ≤ |f64Units a| := by
  rw [f32IsInf, (narrowed_sign_mag k ha).2, beq_iff_eq, min_eq_right_iff, infMag32_le_roundMag_iff, f64Units_eq,
    abs_signedUnits, Nat.cast_le]

theorem narrowing_nearest (k : Nat) {a : F64} (ha : f64IsFinite a = true) (hr : f32IsFinite (f64ToF32 k a) = true) :
    NearestEven32 (f64ToF32 k a) (f64Units a) unit32 := by
  obtain ⟨hsign, hmin⟩ := narrowed_sign_mag k ha
  have hmag : f32Mag (f64ToF32 k a) = roundMag fracBits32 (f64Abs a) unit32 := by
    rw [f32IsFinite, decide_eq_true_eq] at hr
    omega
  intro c _
  rw [f32Units_eq (f64ToF32 k a), hsign, f32Abs, hmag]
  exact roundMag_nearest_even (by decide) (f64Sign a) (f32Sign c) unit32_pos (f32Mag c)

theorem u32_natAbs_lt (n : U32) : ((n.toNat : Int)).natAbs < 2 ^ 53 := by
  have := n.isLt
  omega

/-- Settles O34: integers have their encoding, and narrowing rounds the magnitude and keeps the sign. -/
theorem conversionsRoundToNearestEven : Obligations.ConversionsRoundToNearestEven := by
  refine ⟨fun n => ⟨i32ToF64_finite n, i32ToF64_units n⟩,
    fun n => ⟨(intToF64_exact (u32_natAbs_lt n)).1, intToF64_units (u32_natAbs_lt n)⟩, fun k a => ⟨fun h => ?_, fun h => ?_,
      fun h => ⟨narrowing_not_nan k h, (narrowed_sign_mag k h).1, narrowing_overflow_iff k h, narrowing_nearest k h⟩⟩⟩
  · rw [f64ToF32, if_pos h]
    exact f32IsNaN_free k
  · rw [f64ToF32_inf k h]
    exact ⟨by rw [f32IsInf, f32Mag_pack _ (by decide), beq_self_eq_true], f32Sign_pack _ (by decide)⟩

/-! ### Saturation (R11) -/

/-- A whole number of the range is a sample. -/
theorem toInt_ofInt_of_range {q : Int} (hlo : int32Min ≤ q) (hhi : q ≤ int32Max) : (BitVec.ofInt 32 q).toInt = q := by
  rw [int32Min] at hlo
  rw [int32Max] at hhi
  exact BitVec.toInt_ofInt_eq_self (by decide) hlo (by omega)

theorem one64_cast_pos : (0 : Int) < one64 := by exact_mod_cast one64_pos

theorem mul_one64_tdiv (q : Int) : (q * (one64 : Int)).tdiv one64 = q := Int.mul_tdiv_cancel q one64_cast_pos.ne'

/-- What saturation stores: the clamped value truncated. -/
theorem satS32_toInt (k : Nat) {y : F64} {q : Int} (hn : f64IsNaN y = false) (hq : (f64ClampUnits y).tdiv one64 = q)
    (hlo : int32Min ≤ q) (hhi : q ≤ int32Max) : (satS32 k y).toInt = q := by
  rw [satS32, hn, if_neg Bool.false_ne_true, hq, toInt_ofInt_of_range hlo hhi]

theorem f64ClampUnits_inf {y : F64} (h : f64IsInf y = true) :
    f64ClampUnits y = (if f64Sign y then int32Min else int32Max) * (one64 : Int) := by
  rw [f64ClampUnits, if_pos h]

theorem f64ClampUnits_below {y : F64} (h : f64IsFinite y = true) (hlt : f64Units y < int32Min * (one64 : Int)) :
    f64ClampUnits y = int32Min * (one64 : Int) := by
  simp [f64ClampUnits, f64_finite_kind h, hlt]

theorem f64ClampUnits_above {y : F64} (h : f64IsFinite y = true) (hlt : int32Max * (one64 : Int) < f64Units y) :
    f64ClampUnits y = int32Max * (one64 : Int) := by
  have hge : ¬ f64Units y < int32Min * (one64 : Int) := by
    rw [int32Max] at hlt
    rw [int32Min]
    omega
  simp [f64ClampUnits, f64_finite_kind h, hlt, hge]

theorem f64ClampUnits_within {y : F64} (h : f64IsFinite y = true) (hlo : int32Min * (one64 : Int) ≤ f64Units y)
    (hhi : f64Units y ≤ int32Max * (one64 : Int)) : f64ClampUnits y = f64Units y := by
  simp [f64ClampUnits, f64_finite_kind h, not_lt.mpr hlo, not_lt.mpr hhi]

/-- Truncation toward zero: the magnitude is the quotient's floor, the sign is kept. -/
theorem tdiv_truncates (z : Int) {d : Int} (hd : 0 < d) :
    |z.tdiv d| * d ≤ |z| ∧ |z| < (|z.tdiv d| + 1) * d ∧ (0 < z.tdiv d → 0 < z) ∧ (z.tdiv d < 0 → z < 0) := by
  have hfloor : ∀ w : Int, 0 ≤ w → 0 ≤ w / d ∧ w / d * d ≤ w ∧ w < (w / d + 1) * d ∧ (0 < w / d → 0 < w) := fun w hw =>
    ⟨Int.ediv_nonneg hw hd.le, Int.ediv_mul_le w hd.ne', Int.lt_ediv_add_one_mul_self w hd,
      fun hq => (Int.mul_pos hq hd).trans_le (Int.ediv_mul_le w hd.ne')⟩
  rcases Int.le_total 0 z with hz | hz
  · obtain ⟨hq, hle, hlt, hpos⟩ := hfloor z hz
    rw [Int.tdiv_eq_ediv_of_nonneg hz, abs_of_nonneg hq, abs_of_nonneg hz]
    exact ⟨hle, hlt, hpos, fun h => absurd h hq.not_gt⟩
  · obtain ⟨w, rfl⟩ : ∃ w, z = -w := ⟨-z, (neg_neg z).symm⟩
    obtain ⟨hq, hle, hlt, hpos⟩ := hfloor w (by omega)
    rw [Int.neg_tdiv, Int.tdiv_eq_ediv_of_nonneg (by omega), abs_neg, abs_neg, abs_of_nonneg hq, abs_of_nonneg (by omega)]
    exact ⟨hle, hlt, fun h => absurd h (by omega), fun h => by have := hpos (by omega); omega⟩

/-- In range, saturation is truncation toward zero. -/
theorem satS32_within (k : Nat) {y : F64} (h : f64IsFinite y = true) (hlo : int32Min * (one64 : Int) ≤ f64Units y)
    (hhi : f64Units y ≤ int32Max * (one64 : Int)) : (satS32 k y).toInt = (f64Units y).tdiv one64 := by
  have hlo' := Int.tdiv_le_tdiv one64_cast_pos hlo
  have hhi' := Int.tdiv_le_tdiv one64_cast_pos hhi
  rw [mul_one64_tdiv] at hlo' hhi'
  exact satS32_toInt k (f64_finite_kind h).1 (by rw [f64ClampUnits_within h hlo hhi]) hlo' hhi'

/-- Settles O35: the clamp leaves a bound or the value itself, and the bounds are whole numbers. -/
theorem saturationClampsThenTruncates : Obligations.SaturationClampsThenTruncates := by
  intro k y
  refine ⟨fun h => ?_, fun h => ?_, fun h => ⟨fun hlt => ?_, fun hlt => ?_, fun hlo hhi => ?_⟩⟩
  · rw [satS32, if_pos h]
  · refine satS32_toInt k (inf_kind h).1 (by rw [f64ClampUnits_inf h, mul_one64_tdiv]; rfl) ?_ ?_
    all_goals split <;> decide
  · exact satS32_toInt k (f64_finite_kind h).1 (by rw [f64ClampUnits_below h hlt, mul_one64_tdiv]; rfl) (by decide)
      (by decide)
  · exact satS32_toInt k (f64_finite_kind h).1 (by rw [f64ClampUnits_above h hlt, mul_one64_tdiv]; rfl) (by decide)
      (by decide)
  · rw [satS32_within k h hlo hhi]
    exact tdiv_truncates _ one64_cast_pos

end Sys2Proof.Machine

/-! ## The state's rules: the sequencer, the host's writes, legal states (10_state.md)

### What a host action that gives a next state has done -/

namespace Sys2Proof.Machine

/-- The guard of a host action that gives a next state did not hold. -/
theorem guard_passed {c : Prop} [Decidable c] {f : Fault} {o : Host.Outcome State Fault Refusal} {t : State}
    (h : (if c then .fault f else o) = .next t) : ¬ c := by
  intro hc
  rw [if_pos hc] at h
  cases h

theorem onSplitter_next {slot : Nat} {f : Splitter → Splitter} {s t : State} (h : onSplitter slot f s = .next t) :
    ∃ r, s.splitters[slot]? = some r ∧ t = { s with splitters := s.splitters.set slot (f r) } := by
  rw [onSplitter] at h
  split at h
  · cases h
  · next r hr => exact ⟨r, hr, (Host.Outcome.next.inj h).symm⟩

theorem fromSplitter_next {slot : Nat} {f : Splitter → Result} {s t : State} (h : fromSplitter slot f s = .next t) :
    t = { s with result := t.result } := by
  rw [fromSplitter] at h
  split at h
  · cases h
  · obtain rfl := Host.Outcome.next.inj h
    rfl

/-- An update whose blob is not accepted stores the record back as it is. -/
theorem updateSplitter_next {slot : Nat} {b : SplitterParams} {rps : Bool} {s t : State}
    (h : updateSplitter slot b rps s = .next t) :
    ∃ r, s.splitters[slot]? = some r ∧
      t = { s with splitters := s.splitters.set slot (splitterUpdate s.par s.draw b rps r), draw := t.draw } := by
  rw [updateSplitter] at h
  split at h
  · cases h
  · next r hr =>
    refine ⟨r, hr, ?_⟩
    split at h
    · obtain rfl := Host.Outcome.next.inj h
      rfl
    · next hno =>
      obtain rfl := Host.Outcome.next.inj h
      obtain ⟨hlt, rfl⟩ := List.getElem?_eq_some_iff.mp hr
      rw [splitterUpdate, if_neg hno, List.set_getElem_self]

theorem startFrame_next {list : List Descriptor} {s t : State} (h : startFrame list s = .next t) :
    s.listLen ≤ s.pc ∧ t = { s with
      cmdMem := (storeList 0 list s).cmdMem, pc := 0, listLen := list.length, frameRefused := false } := by
  obtain rfl := Host.Outcome.next.inj (next_of_guard (next_of_guard h))
  exact ⟨Nat.not_lt.mp (guard_passed h), by rw [storeList_eq]⟩

theorem verifyNext_eq (s : State) :
    verifyNext s = { latch s with result := (verifyNext s).result, diag := (verifyNext s).diag } := by
  rw [verifyNext]
  split <;> rfl

theorem dumpNext_eq (s : State) :
    dumpNext s = { latch s with result := (dumpNext s).result, diag := (dumpNext s).diag } := by
  rw [dumpNext]
  split <;> rfl

/-- The four operations: `PROCESS`; `VERIFY` and `DUMP`, which latch and return; the reserved one (R91). -/
theorem operate_cases {select : BitVec 2} {s t : State} (h : operate select s = .next t) :
    processNext s = .next t ∨ t = { latch s with result := t.result, diag := t.diag } ∨ t = reservedOperation s := by
  rw [operate] at h
  split at h
  · exact .inl h
  · split at h
    · obtain rfl := Host.Outcome.next.inj h
      exact .inr (.inl (verifyNext_eq s))
    · split at h
      · obtain rfl := Host.Outcome.next.inj h
        exact .inr (.inl (dumpNext_eq s))
      · exact .inr (.inr (Host.Outcome.next.inj h).symm)

/-! ### The sequencer (R26, R91) -/

theorem nextRecord_of_latchedNext {s : State} {r : Option Instr} (h : LatchedNext s r) : nextRecord s = r := by
  rcases h with ⟨hpc, ⟨i, hd, rfl⟩ | ⟨e, hd, rfl⟩⟩ | ⟨hpc, rfl⟩
  · exact nextRecord_ok hpc hd
  · exact nextRecord_error hpc hd
  · exact nextRecord_of_le hpc

/-- `PROCESS` of a record: `exec` on the latched state, then the sequencer's part on what `Process` kept. -/
theorem processNext_of_record {s : State} {i : Instr} (h : nextRecord s = some i) :
    ∃ t, exec i { s with cmd := some i } = .next t ∧
      processNext s = .next { t with
        pc := if s.pc < s.listLen then s.pc + 1 else s.pc
        frameRefused := s.frameRefused || Result.isRefused t.result } := by
  rcases processNext_cases s with ⟨hnone, _⟩ | ⟨j, t, hj, hexec, hrun⟩
  · cases hnone.symm.trans h
  · obtain rfl := Option.some.inj (hj.symm.trans h)
    have hk := exec_controlKept hexec
    exact ⟨t, hexec, by rw [hrun, afterProcess, hk.pc, hk.listLen, hk.frameRefused]⟩

/-- Everything a step that gives a next state can be: a host action, a `Process`, idle. -/
theorem step_cases {s t : State} (h : step s = .next t) :
    (∃ op rest, s.host = op :: rest ∧ performHostOp op { s with host := rest } = .next t) ∨
      processNext s = .next t ∨ t = s := by
  cases hhost : s.host with
  | cons op rest => exact .inl ⟨op, rest, rfl, step_hostOp hhost ▸ h⟩
  | nil =>
    rcases Nat.lt_or_ge s.pc s.listLen with hpc | hpc
    · exact .inr (.inl (step_process hhost hpc ▸ h))
    · exact .inr (.inr (Host.Outcome.next.inj ((step_idle hhost hpc).symm.trans h)).symm)

/-- Settles O6: a pending `PROCESS` and a step without one are the same `processNext`. -/
theorem stepRunsTheDecodedCommand : Obligations.StepRunsTheDecodedCommand := by
  refine ⟨fun s i hhost hpc hd => ?_, fun s i rest hhost hl => ?_⟩
  · obtain ⟨t, hexec, hrun⟩ := processNext_of_record (nextRecord_ok hpc hd)
    exact ⟨t, hexec, by rw [step_process hhost hpc, hrun, if_pos hpc]⟩
  · obtain ⟨t, hexec, hrun⟩ := processNext_of_record (s := { s with host := rest }) (nextRecord_of_latchedNext hl)
    exact ⟨t, hexec, (step_hostOp hhost).trans hrun⟩

/-- Settles O7: without an action and without a command there is nothing to do. -/
theorem endOfListIsIdle : Obligations.EndOfListIsIdle :=
  fun _ hhost hpc => step_idle hhost hpc

theorem startFrame_ok {list : List Descriptor} {s : State} (hend : s.listLen ≤ s.pc)
    (hwf : ∀ d ∈ list, d.wellFormed = true) :
    startFrame list s = .next { storeList 0 list s with pc := 0, listLen := list.length, frameRefused := false } := by
  have hall : list.all Descriptor.wellFormed = true := List.all_eq_true.mpr hwf
  rw [startFrame, if_neg (Nat.not_lt.mpr hend), hall]
  rfl

/-- Settles O8: the list is stored element by element from element 0 on, and nothing else is. -/
theorem frameStartStoresTheList : Obligations.FrameStartStoresTheList := by
  intro s list rest hhost hend hwf
  refine ⟨_, (step_hostOp hhost).trans (startFrame_ok hend hwf), ?_⟩
  rw [storeList_eq]
  refine ⟨rfl, rfl, rfl, rfl, rfl, rfl, rfl, rfl, fun j d hj => ?_⟩
  have hread := (listElement_storeList hwf 0 { s with host := rest }).1 j d hj
  rw [Nat.zero_add] at hread
  exact hread

/-! ### The frame register (R25, R253) -/

theorem processNext_frame {s t : State} (h : processNext s = .next t) : t.frame = s.frame := by
  rcases processNext_cases s with ⟨_, hrefuse⟩ | ⟨i, u, _, hexec, hrun⟩
  · obtain rfl := Host.Outcome.next.inj (hrefuse.symm.trans h)
    rfl
  · obtain rfl := Host.Outcome.next.inj (hrun.symm.trans h)
    exact (exec_controlKept hexec).frame

theorem operate_frame {select : BitVec 2} {s t : State} (h : operate select s = .next t) : t.frame = s.frame := by
  rcases operate_cases h with hrun | hlatch | rfl
  · exact processNext_frame hrun
  · rw [hlatch, latch_frame]
  · rfl

/-- Within a frame the two host actions that begin a frame or write its register stop; no other touches the register. -/
theorem performHostOp_frame {op : HostOp} {s t : State} (hfirst : 0 < s.pc) (hlast : s.pc < s.listLen)
    (h : performHostOp op s = .next t) : t.frame = s.frame := by
  cases op with
  | startFrame list => exact absurd (startFrame_next h).1 (Nat.not_le.mpr hlast)
  | writeSampleCount n => exact absurd ⟨hfirst, hlast⟩ (guard_passed h)
  | writeCommand j d =>
    obtain rfl := Host.Outcome.next.inj (next_of_guard (next_of_guard h))
    rfl
  | writeArena a v | writeSrf e k v | writePrev w k x =>
    obtain rfl := Host.Outcome.next.inj (next_of_guard h)
    rfl
  | operate select => exact operate_frame h
  | splitterUpdate slot b rps =>
    obtain ⟨_, _, ht⟩ := updateSplitter_next h
    rw [ht]
  | splitterMark slot | splitterUpdateInternal slot =>
    obtain ⟨_, _, rfl⟩ := onSplitter_next h
    rfl
  | splitterIsConfigured slot | getMixVolume slot c | getMixVolumePrev slot c => rw [fromSplitter_next h]
  | writeBiquadNew slot j p | linkNext slot next =>
    obtain ⟨_, _, rfl⟩ := onSplitter_next (next_of_guard h)
    rfl

/-- Settles O18: within a frame a step is a host action, none of which writes the register then, or a `Process`. -/
theorem sampleCountIsConstantWithinAFrame : Obligations.SampleCountIsConstantWithinAFrame := by
  intro s t hfirst hlast h
  rcases step_cases h with ⟨op, rest, _, hop⟩ | hrun | rfl
  · exact performHostOp_frame (s := { s with host := rest }) hfirst hlast hop
  · exact processNext_frame hrun
  · rfl

/-! ### The host's writes (R25, R36, R240, R253, R261) -/

/-- Settles O17: each write is one store into one image, which reads back and keeps the bytes outside it. -/
theorem hostWritesTakeEffect : Obligations.HostWritesTakeEffect := by
  intro s rest
  refine ⟨fun n hhost hout => ?_, fun a v hhost ha => ?_, fun e k v hhost he hk => ?_, fun w k v hhost hw hk => ?_,
    fun j d hhost hj hd => ?_⟩
  · have hno : ¬ (0 < s.pc ∧ s.pc < s.listLen) := by omega
    rw [step_hostOp hhost]
    exact if_neg hno
  · refine ⟨writeArena a v { s with host := rest }, ?_, rfl, readArena_writeArena_same _ _ _, fun x hx => ?_⟩
    · rw [step_hostOp hhost]
      exact if_neg (Nat.not_le.mpr ha)
    · exact Memory.readByte_write_outside _ _ _ _ _ _ hx
  · refine ⟨writeSrfWord e k v { s with host := rest }, ?_, rfl, readSrfWord_writeSrfWord_same _ _ _ _, fun x hx => ?_⟩
    · have hno : ¬ (s.par.nstate ≤ e ∨ 4 ≤ k) := by omega
      rw [step_hostOp hhost]
      exact if_neg hno
    · exact Memory.readByte_write_outside _ _ _ _ _ _ hx
  · refine ⟨writePrev w k v { s with host := rest }, ?_, rfl, readPrev_writePrev_same _ _ _ _, fun x hx => ?_⟩
    · have hno : ¬ (s.par.nvoice ≤ w ∨ s.par.prevLen ≤ k) := by omega
      rw [step_hostOp hhost]
      exact if_neg hno
    · exact Memory.readByte_write_outside _ _ _ _ _ _ hx
  · refine ⟨storeDescriptor j d { s with host := rest }, ?_, rfl, ?_, fun j' hne => ?_⟩
    · rw [step_hostOp hhost, performHostOp, if_neg (Nat.not_le.mpr hj), hd]
      rfl
    · rw [listElement_storeDescriptor hd, if_pos rfl]
    · rw [listElement_storeDescriptor hd, if_neg hne]
      rfl

end Sys2Proof.Machine

namespace Sys2Proof.Machine

/-! ### The filters a form starts with (R146, R165, R185) -/

/-- A codec for one filter loads filter 0's coefficients, `c` of the draw number, and takes `n` draws (R110). -/
def LoadsFirst (codec : State → State) (c : Nat → Coeffs) (n : Nat) : Prop :=
  ∀ s, codec s = { s with work := { s.work with c0 := c s.draw }, draw := s.draw + n }

/-- A codec for both taps of a multi-tap command (R165). -/
def LoadsBoth (codec : State → State) (c0 c1 : Nat → Coeffs) (n : Nat) : Prop :=
  ∀ s, codec s = { s with work := { s.work with c0 := c0 s.draw, c1 := c1 s.draw }, draw := s.draw + n }

theorem setCoeffs_t0_eq (c : Coeffs) (s : State) : setCoeffs .t0 c s = { s with work := { s.work with c0 := c } } := rfl

theorem setCoeffs_both_eq (c0 c1 : Coeffs) (s : State) :
    setCoeffs .t1 c1 (setCoeffs .t0 c0 s) = { s with work := { s.work with c0 := c0, c1 := c1 } } := rfl

theorem setCoeffs_both_draws_eq (c0 c1 : Coeffs) (s : State) :
    useDraws 5 (setCoeffs .t1 c1 (useDraws 5 (setCoeffs .t0 c0 s))) =
      { s with work := { s.work with c0 := c0, c1 := c1 }, draw := s.draw + 10 } := rfl

theorem loadQ14_loadsFirst (c : Q14Params) : LoadsFirst (loadQ14 .t0 c) (fun _ => decodeQ14 c) 0 :=
  fun s => setCoeffs_t0_eq (decodeQ14 c) s

theorem loadF32_loadsFirst (c : F32Params) : LoadsFirst (loadF32 .t0 c) (fun k => decodeF32 k c) 5 :=
  fun s => congrArg (useDraws 5) (setCoeffs_t0_eq (decodeF32 s.draw c) s)

theorem loadQ14Pair_loadsBoth (c0 c1 : Q14Params) :
    LoadsBoth (loadQ14Pair c0 c1) (fun _ => decodeQ14 c0) (fun _ => decodeQ14 c1) 0 :=
  fun s => setCoeffs_both_eq (decodeQ14 c0) (decodeQ14 c1) s

theorem loadF32Pair_loadsBoth (c0 c1 : F32Params) :
    LoadsBoth (loadF32Pair c0 c1) (fun k => decodeF32 k c0) (fun k => decodeF32 (k + 5) c1) 10 := by
  intro s
  rw [loadF32Pair, loadF32, loadF32_draw, loadF32]
  exact setCoeffs_both_draws_eq (decodeF32 s.draw c0) (decodeF32 (s.draw + 5) c1) s

/-- Coefficients and delay line of filter 0 loaded, the latter from an entry as it stands (R185). -/
def loadFilter (h : Handle) (codec : State → State) (s : State) : State :=
  loadState .t0 (readEntry h (codec s)) (codec s)

theorem loadFilter_eq {codec : State → State} {c : Nat → Coeffs} {n : Nat} (hc : LoadsFirst codec c n) (h : Handle)
    (s : State) : loadFilter h codec s =
      { s with work := { s.work with c0 := c s.draw, d0 := (readEntry h s).toDelay }, draw := s.draw + n } := by
  rw [loadFilter, hc s]
  rfl

/-- The steps of a double-precision `BQF` around its codec (R128, R129). -/
def filterSteps (o : BqfOperands) (codec : State → State) (s : State) : State :=
  persistState .t0 o.state0
    (kernelKD o.input o.output (loadFilter o.state0 codec (prepPlain o.state0 o.needsInit0 s)))

theorem stepsOf_bqfD (o : BqfOperands) (c : Q14Params) : stepsOf (.bqfD o c) = filterSteps o (loadQ14 .t0 c) := rfl

theorem stepsOf_bqfDF (o : BqfOperands) (c : F32Params) : stepsOf (.bqfDF o c) = filterSteps o (loadF32 .t0 c) := rfl

theorem mixSteps_eq (o : BqfmOperands) (codec : State → State) (s : State) :
    mixSteps o codec s = persistState .t0 o.state0 (kernelKM .single o.input o.output o.volume0
      (loadFilter o.state0 codec (prepForked o.state0 o.previousState0 o.needsInit0 o.isFirstMixBuffer s))) := by
  rw [mixSteps, loadFilter]

theorem mixRampSteps_eq (o : BqfmOperands) (codec : State → State) (s : State) :
    mixRampSteps o codec s =
      (let q := kernelKMR .single o.input o.output o.volume0 o.volume1
         (loadFilter o.state0 codec (prepForked o.state0 o.previousState0 o.needsInit0 o.isFirstMixBuffer s))
       tailCapture o.voiceState o.lastSampleIndex q.1 (persistState .t0 o.state0 q.2)) := by
  rw [mixRampSteps, loadFilter]

theorem multiTapRampSteps_eq (o : MtOperands) (codec : State → State) (s : State) :
    multiTapRampSteps o codec s =
      (let q := kernelKMR .pair o.input o.output o.volume0 o.volume1 (multiTapBefore o codec s)
       tailCapture o.voiceState o.lastSampleIndex q.1 (multiTapAfter o q.2)) := by
  rw [multiTapRampSteps]

theorem writeEntry_writeLoc (t : Tap) (e e' : Entry) (h : Handle) (s : State) :
    writeEntry h e' (writeLoc t e s) = writeLoc t e (writeEntry h e' s) := by
  have hword : ∀ (k : Nat) (v : Word64) (u : State),
      writeSrfWord h.toNat k v (writeLoc t e u) = writeLoc t e (writeSrfWord h.toNat k v u) := by
    intro k v u
    cases t <;> rfl
  simp only [writeEntry, hword]

theorem prepForked_writeLoc (t : Tap) (e : Entry) (h p : Handle) (ni first : Bool) (s : State) :
    prepForked h p ni first (writeLoc t e s) = writeLoc t e (prepForked h p ni first s) := by
  simp only [prepForked_eq, readEntry_congr (writeLoc_srf t e s), writeEntry_writeLoc]
  split
  · rfl
  · split <;> rfl

theorem writeLoc_both_eq (e0 e1 : Entry) (s : State) :
    writeLoc .t1 e1 (writeLoc .t0 e0 s) = { s with loc0 := e0, loc1 := e1 } := rfl

/-- Both taps prepared and snapshotted: each snapshot is its entry right after the tap's own preparation (R165). -/
theorem prepTaps_eq (o : MtOperands) (s : State) :
    prepTap .t1 o.state1 o.previousState1 o.needsInit1 o.isFirstMixBuffer
        (prepTap .t0 o.state0 o.previousState0 o.needsInit0 o.isFirstMixBuffer s) =
      { afterPrep1 o s with
        loc0 := readEntry o.state0 (afterPrep0 o s), loc1 := readEntry o.state1 (afterPrep1 o s) } := by
  rw [prepTap, prepTap, prepForked_writeLoc, readEntry_congr (writeLoc_srf _ _ _), writeLoc_both_eq, ← afterPrep0,
    ← afterPrep1]

/-- Delay lines loaded from the snapshots. -/
theorem loadStates_eq (s : State) :
    loadState .t1 (readLoc .t1 (loadState .t0 (readLoc .t0 s) s)) (loadState .t0 (readLoc .t0 s) s) =
      { s with work := { s.work with d0 := s.loc0.toDelay, d1 := s.loc1.toDelay } } := rfl

/-- A multi-tap command before its kernel (R165). -/
theorem multiTapBefore_eq {codec : State → State} {c0 c1 : Nat → Coeffs} {n : Nat} (hc : LoadsBoth codec c0 c1 n)
    (o : MtOperands) (s : State) : multiTapBefore o codec s =
      (let e0 := readEntry o.state0 (afterPrep0 o s)
       let e1 := readEntry o.state1 (afterPrep1 o s)
       { afterPrep1 o s with
         work := { s.work with c0 := c0 s.draw, c1 := c1 s.draw, d0 := e0.toDelay, d1 := e1.toDelay }
         loc0 := e0
         loc1 := e1
         draw := s.draw + n }) := by
  have hwork : (afterPrep1 o s).work = s.work := by simp only [afterPrep1, afterPrep0, prepForked_work]
  have hdraw : (afterPrep1 o s).draw = s.draw := by simp only [afterPrep1, afterPrep0, prepForked_draw]
  rw [multiTapBefore, prepTaps_eq, hc, loadStates_eq, ← hwork, ← hdraw]

/-- The write-back is tap 0's filter, then tap 1's (R165). -/
theorem multiTapAfter_eq (o : MtOperands) (s : State) : multiTapAfter o s =
    (let e0 := persistedEntry .t0 s
     let e1 := persistedEntry .t1 s
     writeEntry o.state1 e1 (writeEntry o.state0 e0 { s with loc0 := e0, loc1 := e1 })) := by
  rw [multiTapAfter, readLoc_t1, writeEntry_loc1]
  rfl

end Sys2Proof.Machine

namespace Sys2Proof.Machine

/-! ### The byte images through a `Process` (R30, R37, R38) -/

/-- What a legal state says of the three storages, and a frame that fits in them: what every operation of a `Process`
keeps, for fixed parameters `p`. -/
structure ImagesOk (p : Params) (s : State) : Prop where
  par : s.par = p
  sampleCount : s.frame.toNat ≤ p.maxSampleCount
  arenaForm : s.arena.wf
  srfForm : s.srf.wf
  prevForm : s.prev.wf
  arenaBound : s.arena.below (4 * (p.nbuf * p.maxSampleCount))
  srfBound : s.srf.below (32 * p.nstate)
  prevBound : s.prev.below (4 * (p.nvoice * p.prevLen))

theorem StateOk.imagesOk {s : State} (hs : StateOk s) (hn : s.frame.toNat ≤ s.par.maxSampleCount) :
    ImagesOk s.par s :=
  { hs with par := rfl, sampleCount := hn }

/-- A word of the state register file that exists lies within its image. -/
theorem srfAddr_le {h k n : Nat} (hh : h < n) (hk : k < 4) : srfAddr h k + 8 ≤ 32 * n := by
  simp only [srfAddr]
  omega

/-- An entry of a previous-samples array that exists lies within its image. -/
theorem prevAddr_le {p : Params} {v k : Nat} (hv : v < p.nvoice) (hk : k < p.prevLen) :
    prevAddr p v k + 4 ≤ 4 * (p.nvoice * p.prevLen) := by
  have hrow := Nat.mul_le_mul_right p.prevLen (Nat.succ_le_of_lt hv)
  rw [Nat.succ_mul] at hrow
  simp only [prevAddr]
  omega

namespace ImagesOk
variable {p : Params} {s : State}

theorem writeSrfWord (hs : ImagesOk p s) {h k : Nat} (hh : h < p.nstate) (hk : k < 4) (v : Word64) :
    ImagesOk p (writeSrfWord h k v s) :=
  { hs with
    srfForm := Memory.wf_write hs.srfForm _ _ _
    srfBound := Memory.below_write hs.srfBound (srfAddr_le hh hk) }

theorem writeEntry (hs : ImagesOk p s) {h : Handle} (hh : h.toNat < p.nstate) (e : Entry) :
    ImagesOk p (writeEntry h e s) :=
  (((hs.writeSrfWord hh (by decide) _).writeSrfWord hh (by decide) _).writeSrfWord hh (by decide) _).writeSrfWord hh
    (by decide) _

theorem prepForked (hs : ImagesOk p s) {h q : Handle} (hh : h.toNat < p.nstate) (hq : q.toNat < p.nstate)
    (ni first : Bool) : ImagesOk p (prepForked h q ni first s) := by
  rw [prepForked_eq]
  split
  · exact hs.writeEntry hh _
  · split
    · exact hs.writeEntry hq _
    · exact hs.writeEntry hh _

theorem prepPlain (hs : ImagesOk p s) {h : Handle} (hh : h.toNat < p.nstate) (ni : Bool) :
    ImagesOk p (prepPlain h ni s) := by
  rw [prepPlain_eq]
  split
  · exact hs.writeEntry hh _
  · exact hs

theorem persistAcc (hs : ImagesOk p s) {h : Handle} (hh : h.toNat < p.nstate) : ImagesOk p (persistAcc h s) :=
  (hs.writeSrfWord hh (by decide) _).writeSrfWord hh (by decide) _

theorem loadFilter (hs : ImagesOk p s) {codec : State → State} {c : Nat → Coeffs} {n : Nat} (hc : LoadsFirst codec c n)
    (h : Handle) : ImagesOk p (loadFilter h codec s) := by
  rw [loadFilter_eq hc]
  exact { hs with }

theorem loadAcc (hs : ImagesOk p s) (c : Q14Params) (e : Entry) : ImagesOk p (loadAcc e (loadInt c s)) :=
  { hs with }

theorem kernel (hs : ImagesOk p s) {output : S16} {t : State} (hk : KernelKeeps output s t)
    (hout : 0 ≤ output.toInt ∧ output.toInt < (p.nbuf : Int)) : ImagesOk p t := by
  obtain ⟨hkeeps, _, hform, hbound⟩ := hk
  have harena := hbound p.nbuf p.maxSampleCount hout.1 hout.2 hs.sampleCount hs.arenaBound
  rw [hkeeps]
  exact { hs with arenaForm := hform hs.arenaForm, arenaBound := harena }

theorem tailCapture (hs : ImagesOk p s) {v : Handle} (hv : v.toNat < p.nvoice) (k : S32) (r : F32) :
    ImagesOk p (tailCapture v k r s) := by
  obtain rfl := hs.par
  rcases tailCapture_cases v k r s with ⟨hlo, hhi, htail⟩ | ⟨_, htail⟩
  · rw [htail]
    exact { hs with
      prevForm := Memory.wf_write hs.prevForm _ _ _
      prevBound := Memory.below_write hs.prevBound (prevAddr_le hv (by omega)) }
  · rw [htail]
    exact hs

section Forms
variable {codec : State → State} {n : Nat}

theorem filterSteps (hs : ImagesOk p s) {o : BqfOperands} {c : Nat → Coeffs} (hc : LoadsFirst codec c n)
    (hh : ∀ h ∈ [o.state0], h.toNat < p.nstate) (hout : 0 ≤ o.output.toInt ∧ o.output.toInt < (p.nbuf : Int)) :
    ImagesOk p (filterSteps o codec s) := by
  have h0 := hh o.state0 (by simp)
  exact (((hs.prepPlain h0 _).loadFilter hc _).kernel (kernelKD_keeps _ _ _) hout).writeEntry h0 _

section Mix
variable {o : BqfmOperands} {c : Nat → Coeffs} (hc : LoadsFirst codec c n)
  (hh : ∀ h ∈ [o.state0, o.previousState0], h.toNat < p.nstate)
  (hout : 0 ≤ o.output.toInt ∧ o.output.toInt < (p.nbuf : Int))
include hc hh

theorem mixBefore (hs : ImagesOk p s) : ImagesOk p (Machine.loadFilter o.state0 codec
    (Machine.prepForked o.state0 o.previousState0 o.needsInit0 o.isFirstMixBuffer s)) :=
  (hs.prepForked (hh _ (by simp)) (hh _ (by simp)) _ _).loadFilter hc _

include hout

theorem mixSteps (hs : ImagesOk p s) : ImagesOk p (mixSteps o codec s) := by
  rw [mixSteps_eq]
  exact ((hs.mixBefore hc hh).kernel (kernelKM_keeps _ _ _ _ _) hout).writeEntry (hh _ (by simp)) _

theorem mixRampSteps (hs : ImagesOk p s) (hv : o.voiceState.toNat < p.nvoice) :
    ImagesOk p (mixRampSteps o codec s) := by
  rw [mixRampSteps_eq]
  exact (((hs.mixBefore hc hh).kernel (kernelKMR_keeps _ _ _ _ _ _) hout).writeEntry (hh _ (by simp)) _).tailCapture
    hv _ _

end Mix

section MultiTap
variable {o : MtOperands} {c0 c1 : Nat → Coeffs} (hc : LoadsBoth codec c0 c1 n)
  (hh : ∀ h ∈ [o.state0, o.state1, o.previousState0, o.previousState1], h.toNat < p.nstate)
  (hout : 0 ≤ o.output.toInt ∧ o.output.toInt < (p.nbuf : Int))
include hh

theorem multiTapAfter (hs : ImagesOk p s) : ImagesOk p (multiTapAfter o s) := by
  have hlocs : ImagesOk p (persistLoc .t1 (persistLoc .t0 s)) := { hs with }
  exact (hlocs.writeEntry (hh _ (by simp)) _).writeEntry (hh _ (by simp)) _

include hc

theorem multiTapBefore (hs : ImagesOk p s) : ImagesOk p (multiTapBefore o codec s) := by
  have hprep : ImagesOk p (afterPrep1 o s) :=
    (hs.prepForked (hh _ (by simp)) (hh _ (by simp)) _ _).prepForked (hh _ (by simp)) (hh _ (by simp)) _ _
  rw [multiTapBefore_eq hc]
  exact { hprep with }

include hout

theorem multiTapSteps (hs : ImagesOk p s) : ImagesOk p (multiTapSteps o codec s) :=
  ((hs.multiTapBefore hc hh).kernel (kernelKM_keeps _ _ _ _ _) hout).multiTapAfter hh

theorem multiTapRampSteps (hs : ImagesOk p s) (hv : o.voiceState.toNat < p.nvoice) :
    ImagesOk p (multiTapRampSteps o codec s) := by
  rw [multiTapRampSteps_eq]
  exact (((hs.multiTapBefore hc hh).kernel (kernelKMR_keeps _ _ _ _ _ _) hout).multiTapAfter hh).tailCapture hv _ _

end MultiTap
end Forms

/-- The steps of an accepted form keep the images: what it writes, `validate` found to exist (R182). -/
theorem stepsOf {i : Instr} (hok : CommandOk i s) (hs : ImagesOk s.par s) : ImagesOk s.par (stepsOf i s) := by
  obtain ⟨_, _, _, hout, hh, hv⟩ := hok
  cases i with
  | bqfI o c =>
    have h0 := hh o.state0 (by simp [Instr.states])
    exact (((hs.prepPlain h0 _).loadAcc c _).kernel (kernelKI_keeps _ _ _) hout).persistAcc h0
  | bqfD o c =>
    rw [stepsOf_bqfD]
    exact hs.filterSteps (loadQ14_loadsFirst c) hh hout
  | bqfDF o c =>
    rw [stepsOf_bqfDF]
    exact hs.filterSteps (loadF32_loadsFirst c) hh hout
  | bqfm o c => exact hs.mixSteps (loadQ14_loadsFirst c) hh hout
  | bqfmF o c => exact hs.mixSteps (loadF32_loadsFirst c) hh hout
  | bqfmR o c => exact hs.mixRampSteps (loadQ14_loadsFirst c) hh hout (hv rfl _ rfl)
  | bqfmRF o c => exact hs.mixRampSteps (loadF32_loadsFirst c) hh hout (hv rfl _ rfl)
  | mtbqfm o c0 c1 => exact hs.multiTapSteps (loadQ14Pair_loadsBoth c0 c1) hh hout
  | mtbqfmF o c0 c1 => exact hs.multiTapSteps (loadF32Pair_loadsBoth c0 c1) hh hout
  | mtbqfmR o c0 c1 => exact hs.multiTapRampSteps (loadQ14Pair_loadsBoth c0 c1) hh hout (hv rfl _ rfl)
  | mtbqfmRF o c0 c1 => exact hs.multiTapRampSteps (loadF32Pair_loadsBoth c0 c1) hh hout (hv rfl _ rfl)

end ImagesOk
end Sys2Proof.Machine

namespace Sys2Proof.Machine

/-! ### Every step keeps states legal -/

/-- Where the control state is kept, a state is legal again once its images are. -/
theorem StateOk.of_images {s t : State} (hs : StateOk s) (hk : ControlKept s t) (ht : ImagesOk s.par t) : StateOk t := by
  obtain ⟨hpar, _, hpc, hlen, hmem, hcmd, hsplit, _⟩ := hk
  exact
    { params := by rw [hpar]; exact hs.params
      arenaForm := ht.arenaForm
      srfForm := ht.srfForm
      prevForm := ht.prevForm
      commandForm := by rw [hmem]; exact hs.commandForm
      arenaBound := by rw [hpar]; exact ht.arenaBound
      srfBound := by rw [hpar]; exact ht.srfBound
      prevBound := by rw [hpar]; exact ht.prevBound
      index := by rw [hpc, hlen]; exact hs.index
      record := by rw [hpar, hcmd]; exact hs.record
      slots := by rw [hpar, hsplit]; exact hs.slots
      records := by rw [hpar, hsplit]; exact hs.records }

theorem exec_stateOk {i : Instr} {s t : State} (hs : StateOk s) (h : exec i s = .next t) : StateOk t := by
  have hk := exec_controlKept h
  rcases exec_cases i s with ⟨hok, hrun⟩ | ⟨r, _, hrefuse⟩
  · obtain rfl := Host.Outcome.next.inj (hrun.symm.trans h)
    exact hs.of_images hk { (hs.imagesOk hok.sampleCount).stepsOf hok with }
  · obtain rfl := Host.Outcome.next.inj (hrefuse.symm.trans h)
    exact { hs with }

/-- The latch takes a decoded record, which is legal (R89), or keeps the legal one it has. -/
theorem latch_stateOk {s : State} (hs : StateOk s) : StateOk (latch s) :=
  { hs with record := fun _ h => nextRecord_wellFormed (s := s) hs.record h }

theorem afterProcess_stateOk {s : State} (hs : StateOk s) : StateOk (afterProcess s) :=
  { hs with
    index := by
      have := hs.index
      rw [afterProcess_pc, afterProcess_listLen]
      split <;> omega }

theorem processNext_stateOk {s t : State} (hs : StateOk s) (h : processNext s = .next t) : StateOk t := by
  have hl := latch_stateOk hs
  rw [latch] at hl
  rcases processNext_cases s with ⟨hnone, hrefuse⟩ | ⟨i, u, hi, hexec, hrun⟩
  · obtain rfl := Host.Outcome.next.inj (hrefuse.symm.trans h)
    rw [hnone] at hl
    exact afterProcess_stateOk { hl with }
  · obtain rfl := Host.Outcome.next.inj (hrun.symm.trans h)
    rw [hi] at hl
    exact afterProcess_stateOk (exec_stateOk hl hexec)

theorem operate_stateOk {select : BitVec 2} {s t : State} (hs : StateOk s) (h : operate select s = .next t) :
    StateOk t := by
  rcases operate_cases h with hrun | hlatch | rfl
  · exact processNext_stateOk hs hrun
  · rw [hlatch]
    exact { latch_stateOk hs with }
  · exact { hs with }

theorem storeList_wf {s : State} (h : s.cmdMem.wf) (j : Nat) (l : List Descriptor) : (storeList j l s).cmdMem.wf := by
  induction l generalizing j s with
  | nil => exact h
  | cons d l ih => exact ih (s := storeDescriptor j d s) (storeWords_wf h _ _) (j + 1)

theorem startFrame_stateOk {list : List Descriptor} {s t : State} (hs : StateOk s) (h : startFrame list s = .next t) :
    StateOk t := by
  obtain ⟨_, rfl⟩ := startFrame_next h
  exact { hs with commandForm := storeList_wf hs.commandForm 0 list, index := Nat.zero_le _ }

/-! The splitter pool (R210) -/

/-- A legal state stays legal when a record of the pool is replaced by a legal one. -/
theorem StateOk.set_splitter {s : State} (hs : StateOk s) (slot : Nat) {r : Splitter} (hr : SplitterOk s.par r) :
    StateOk { s with splitters := s.splitters.set slot r } :=
  { hs with
    slots := by rw [List.length_set]; exact hs.slots
    records := fun q hq => (List.mem_or_eq_of_mem_set hq).elim (hs.records q) fun he => he ▸ hr }

theorem onSplitter_stateOk {slot : Nat} {f : Splitter → Splitter} {s t : State} (hs : StateOk s)
    (h : onSplitter slot f s = .next t) (hf : ∀ r, SplitterOk s.par r → SplitterOk s.par (f r)) : StateOk t := by
  obtain ⟨r, hr, rfl⟩ := onSplitter_next h
  exact hs.set_splitter slot (hf r (hs.records r (List.mem_of_getElem? hr)))

theorem splitterUpdate_ok {p : Params} {r : Splitter} (hr : SplitterOk p r) (k : Nat) (b : SplitterParams) (rps : Bool) :
    SplitterOk p (splitterUpdate p k b rps r) := by
  rw [splitterUpdate]
  split
  · exact
      { hr with
        mixVolumes := blobVolumes_length p k b
        prevMixVolumes := by
          dsimp only
          split
          · exact blobVolumes_length p k b
          · exact hr.prevMixVolumes
        biquadRev12 := by
          cases b.rev12 with
          | none => exact hr.biquadRev12
          | some l => exact blobRev12_length p k l }
  · exact hr

theorem splitterUpdateInternal_ok {p : Params} {r : Splitter} (hr : SplitterOk p r) :
    SplitterOk p (splitterUpdateInternal r) :=
  { hr with
    prevMixVolumes := by
      rw [splitterUpdateInternal]
      dsimp only
      split
      · exact hr.mixVolumes
      · exact hr.prevMixVolumes }

theorem updateSplitter_stateOk {slot : Nat} {b : SplitterParams} {rps : Bool} {s t : State} (hs : StateOk s)
    (h : updateSplitter slot b rps s = .next t) : StateOk t := by
  obtain ⟨r, hr, ht⟩ := updateSplitter_next h
  rw [ht]
  exact { hs.set_splitter slot (splitterUpdate_ok (hs.records r (List.mem_of_getElem? hr)) s.draw b rps) with }

/-- No record is linked to one that does not exist. -/
theorem linkNext_lt {next : Option Nat} {n : Nat} (h : ¬ (next.map fun k => decide (n ≤ k)).getD false = true) {k : Nat}
    (hk : next = some k) : k < n := by
  subst hk
  simpa using h

theorem performHostOp_stateOk {op : HostOp} {s t : State} (hs : StateOk s) (h : performHostOp op s = .next t) :
    StateOk t := by
  cases op with
  | startFrame list => exact startFrame_stateOk hs h
  | writeCommand j d =>
    obtain rfl := Host.Outcome.next.inj (next_of_guard (next_of_guard h))
    exact { hs with commandForm := storeWords_wf hs.commandForm _ _ }
  | writeSampleCount n =>
    obtain rfl := Host.Outcome.next.inj (next_of_guard h)
    exact { hs with }
  | writeArena a v =>
    have ha := guard_passed h
    obtain rfl := Host.Outcome.next.inj (next_of_guard h)
    exact { hs with
      arenaForm := writeArena_wf hs.arenaForm a v
      arenaBound := Memory.below_write hs.arenaBound (by rw [arenaAddr]; omega) }
  | writeSrf e k v =>
    have hno := guard_passed h
    obtain rfl := Host.Outcome.next.inj (next_of_guard h)
    exact { hs with
      srfForm := Memory.wf_write hs.srfForm _ _ _
      srfBound := Memory.below_write hs.srfBound (srfAddr_le (by omega) (by omega)) }
  | writePrev w k x =>
    have hno := guard_passed h
    obtain rfl := Host.Outcome.next.inj (next_of_guard h)
    exact { hs with
      prevForm := Memory.wf_write hs.prevForm _ _ _
      prevBound := Memory.below_write hs.prevBound (prevAddr_le (by omega) (by omega)) }
  | operate select => exact operate_stateOk hs h
  | splitterUpdate slot b rps => exact updateSplitter_stateOk hs h
  | splitterMark slot => exact onSplitter_stateOk hs h fun _ hr => { hr with }
  | splitterUpdateInternal slot => exact onSplitter_stateOk hs h fun _ hr => splitterUpdateInternal_ok hr
  | splitterIsConfigured slot | getMixVolume slot c | getMixVolumePrev slot c =>
    rw [fromSplitter_next h]
    exact { hs with }
  | writeBiquadNew slot j q =>
    exact onSplitter_stateOk hs (next_of_guard h) fun r hr =>
      { hr with biquadNew := by rw [List.length_set]; exact hr.biquadNew }
  | linkNext slot next =>
    have hno := guard_passed h
    exact onSplitter_stateOk hs (next_of_guard h) fun r hr =>
      { hr with next := fun k hk => hs.slots ▸ linkNext_lt hno hk }

/-- Settles O53: a step is a host action, a `Process` or idle, and each keeps every part of a legal state. -/
theorem everyStepKeepsStatesLegal : Obligations.EveryStepKeepsStatesLegal := by
  intro s t hs h
  rcases step_cases h with ⟨op, rest, _, hop⟩ | hrun | rfl
  · exact performHostOp_stateOk (s := { s with host := rest }) { hs with } hop
  · exact processNext_stateOk hs hrun
  · exact hs

/-! ### Reset (R41, R251, R220) -/

theorem splitterOk_constructed (p : Params) (slot : Nat) : SplitterOk p (Splitter.constructed p slot) where
  mixVolumes := List.length_replicate
  prevMixVolumes := List.length_replicate
  biquadNew := List.length_replicate
  biquadRev12 := List.length_replicate
  next k h := by cases h

/-- Settles O54: the images are empty, the list is empty, no record is latched, the splitter records are constructed. -/
theorem resetIsLegal : Obligations.ResetIsLegal where
  params := by decide
  arenaForm := List.Pairwise.nil
  srfForm := List.Pairwise.nil
  prevForm := List.Pairwise.nil
  commandForm := List.Pairwise.nil
  arenaBound _ hc := by cases hc
  srfBound _ hc := by cases hc
  prevBound _ hc := by cases hc
  index := Nat.le_refl 0
  record _ h := by cases h
  slots := rfl
  records r hr := by
    obtain ⟨slot, _, rfl⟩ := List.mem_map.mp hr
    exact splitterOk_constructed _ slot

/-- Settles O55: the machine is idle because the list is empty; every record is `Splitter.constructed` of its slot. -/
theorem resetState : Obligations.ResetState := by
  refine ⟨rfl, rfl, rfl, rfl, rfl, rfl, step_idle rfl (Nat.le_refl 0), fun r hr => ?_⟩
  obtain ⟨slot, _, rfl⟩ := List.mem_map.mp hr
  exact ⟨rfl, fun _ => List.eq_of_mem_replicate, fun _ => List.eq_of_mem_replicate, rfl, rfl,
    fun _ => List.eq_of_mem_replicate, fun _ => List.eq_of_mem_replicate, rfl, rfl⟩

end Sys2Proof.Machine

namespace Sys2Proof.Machine

/-! ### What a `Process` stores depends on the storage alone (R21, R23, R262)

Two runs side by side: they keep the same storage, and from the load on the same filters in the registers. -/

/-- Two states with the same parameters, frame register, storages and next free value. -/
structure SameStorage (s s' : State) : Prop where
  par : s'.par = s.par
  frame : s'.frame = s.frame
  srf : s'.srf = s.srf
  arena : s'.arena = s.arena
  prev : s'.prev = s.prev
  draw : s'.draw = s.draw

/-- The same storage, and a part `V` of the working registers with the same contents. -/
structure SameView {α : Type} (V : Work → α) (s s' : State) : Prop extends SameStorage s s' where
  view : V s'.work = V s.work

/-- The coefficients of filter 0 and the two accumulators: what the integer kernel reads (R22, R124). -/
def accView (w : Work) : Coeffs × Word64 × Word64 := (w.c0, w.d0.s0, w.d0.s1)

/-- What the mix kernel's loop reads (R141). -/
def mixView (T : Chain) (w : Work) : List Filter × F64 := (filtersOf T w, w.vol)

/-- What the ramped mix kernel's loop reads (R142). -/
def rampView (T : Chain) (w : Work) : List Filter × F64 × F64 × F64 := (filtersOf T w, w.vol, w.ramp, w.last)

/-- What is left of the ramped loop's registers when it ends: the filters and the last mixed value (R142). -/
def endView (T : Chain) (w : Work) : List Filter × F64 := (filtersOf T w, w.last)

namespace SameStorage
variable {s s' : State}

theorem writeEntry (h : SameStorage s s') (g : Handle) (e : Entry) :
    SameStorage (writeEntry g e s) (writeEntry g e s') where
  par := by rw [writeEntry_par, writeEntry_par, h.par]
  frame := by rw [writeEntry_frame, writeEntry_frame, h.frame]
  srf := by simp only [Machine.writeEntry, writeSrfWord_srf, h.srf]
  arena := by rw [writeEntry_arena, writeEntry_arena, h.arena]
  prev := by rw [writeEntry_prev, writeEntry_prev, h.prev]
  draw := by rw [writeEntry_draw, writeEntry_draw, h.draw]

theorem prepForked (h : SameStorage s s') (g q : Handle) (ni first : Bool) :
    SameStorage (prepForked g q ni first s) (prepForked g q ni first s') := by
  simp only [prepForked_eq, readEntry_congr h.srf]
  split
  · exact h.writeEntry _ _
  · split <;> exact h.writeEntry _ _

theorem prepPlain (h : SameStorage s s') (g : Handle) (ni : Bool) :
    SameStorage (prepPlain g ni s) (prepPlain g ni s') := by
  simp only [prepPlain_eq]
  split
  · exact h.writeEntry _ _
  · exact h

theorem tailCapture (h : SameStorage s s') (v : Handle) (k : S32) (r : F32) :
    SameStorage (tailCapture v k r s) (tailCapture v k r s') := by
  simp only [Machine.tailCapture, h.par, h.draw]
  split
  · exact { h with
      prev := by simp only [useDraws_prev, writePrev_prev, h.par, h.prev]
      draw := by simp only [useDraws_draw, writePrev_draw, h.draw] }
  · exact h

theorem mixStart (h : SameStorage s s') (v : F32) : SameStorage (mixStart v s) (mixStart v s') := by
  rw [mixStart_eq, mixStart_eq, h.draw]
  exact { h with draw := rfl }

/-- After its load filter 0 is the same in both. -/
theorem loadFilter (h : SameStorage s s') {codec : State → State} {c : Nat → Coeffs} {n : Nat}
    (hc : LoadsFirst codec c n) (g : Handle) :
    SameView (filtersOf .single) (loadFilter g codec s) (loadFilter g codec s') := by
  simp only [loadFilter_eq hc, readEntry_congr h.srf, h.draw]
  exact { h with draw := rfl, view := rfl }

theorem loadAcc (h : SameStorage s s') (c : Q14Params) (g : Handle) :
    SameView accView (loadAcc (readEntry g (loadInt c s)) (loadInt c s))
      (loadAcc (readEntry g (loadInt c s')) (loadInt c s')) := by
  have hint : SameStorage (loadInt c s) (loadInt c s') := { h with }
  rw [readEntry_congr hint.srf]
  generalize readEntry g (loadInt c s) = e
  exact { hint with view := by simp only [accView, loadAcc_work, loadInt_work] }

/-- After the loads both filters of a multi-tap command are the same. -/
theorem multiTapBefore (h : SameStorage s s') {codec : State → State} {c0 c1 : Nat → Coeffs} {n : Nat}
    (hc : LoadsBoth codec c0 c1 n) (o : MtOperands) :
    SameView (filtersOf .pair) (multiTapBefore o codec s) (multiTapBefore o codec s') := by
  have h0 : SameStorage (afterPrep0 o s) (afterPrep0 o s') := h.prepForked _ _ _ _
  have h1 : SameStorage (afterPrep1 o s) (afterPrep1 o s') := h0.prepForked _ _ _ _
  simp only [multiTapBefore_eq hc, readEntry_congr h0.srf, readEntry_congr h1.srf, h.draw]
  exact { h1 with draw := rfl, view := rfl }

end SameStorage

/-! The kernels -/

/-- Of the working registers, the part `V` alone decides what a sample function stores, what it leaves in `V`, and the draws
it takes. -/
def Reads {α : Type} (V : Work → α) (f : SampleFn) : Prop :=
  ∀ w w' k x old, V w' = V w →
    (f w' k x old).1 = (f w k x old).1 ∧ V (f w' k x old).2.1 = V (f w k x old).2.1 ∧
      (f w' k x old).2.2 = (f w k x old).2.2

theorem loop_sameView {α : Type} {V : Work → α} {input output : S16} {f : SampleFn} {body : State → State}
    (hb : IsBody input output f body) (hf : Counts f) (hr : Reads V f) (m : Nat) {s s' : State} (h : SameView V s s')
    (hi : s'.work.i = s.work.i) : SameView V (loop body m s) (loop body m s') := by
  induction m generalizing s s' with
  | zero => exact h
  | succ m ih =>
    have hcur : ∀ k, currentSample k s' = currentSample k s := fun k => by
      rw [currentSample, h.frame, hi, currentSample]
    obtain ⟨hout, hview, hdraw⟩ := hr s.work s'.work s.draw (readArena (currentSample input s) s)
      (readArena (currentSample output s) s) h.view
    have hbody : SameView V (body s) (body s') := by
      rw [hb s, hb s']
      simp only [hcur, readArena_congr h.arena, h.draw, hout]
      exact { h with arena := by simp only [writeArena_arena, h.arena], draw := hdraw, view := hview }
    refine ih hbody ?_
    rw [hb s, hb s', writeArena_work, writeArena_work, hf, hf, hi]

theorem filtersOf_single_iff {w w' : Work} :
    filtersOf .single w' = filtersOf .single w ↔ w'.c0 = w.c0 ∧ w'.d0 = w.d0 := by simp [filtersOf]

theorem filtersOf_pair_iff {w w' : Work} :
    filtersOf .pair w' = filtersOf .pair w ↔ (w'.c0 = w.c0 ∧ w'.d0 = w.d0) ∧ w'.c1 = w.c1 ∧ w'.d1 = w.d1 := by
  simp [filtersOf]

theorem kdFn_reads : Reads (filtersOf .single) kdFn := by
  intro w w' k x old hv
  obtain ⟨hc, hd⟩ := filtersOf_single_iff.mp hv
  simp only [kdFn_out, kdFn_work, kdFn_draw, hc, hd, filtersOf, and_self]

theorem kiFn_reads : Reads accView kiFn := by
  intro w w' k x old hv
  simp only [accView, Prod.mk.injEq] at hv
  obtain ⟨hc, hs0, hs1⟩ := hv
  simp only [kiFn_out, kiFn_work, kiFn_draw, kiOut, accView, hc, hs0, hs1, and_self]

/-- A chain's output, its filters afterwards and its draws depend on the filters before alone. -/
theorem chainFn_reads {T : Chain} {w w' : Work} (h : filtersOf T w' = filtersOf T w) (k : Nat) (x : F64) :
    (chainFn T w' k x).1 = (chainFn T w k x).1 ∧
      filtersOf T (chainFn T w' k x).2.1 = filtersOf T (chainFn T w k x).2.1 ∧
      (chainFn T w' k x).2.2 = (chainFn T w k x).2.2 := by
  obtain ⟨hy, hfs, hk, _⟩ := chainFn_eq T w k x
  obtain ⟨hy', hfs', hk', _⟩ := chainFn_eq T w' k x
  rw [h] at hy' hfs' hk'
  exact ⟨hy'.trans hy.symm, hfs'.trans hfs.symm, hk'.trans hk.symm⟩

/-- The filters are in the coefficient and delay registers alone. -/
theorem filtersOf_mk (T : Chain) (w : Work) (vol ramp last : F64) (i : U32) :
    filtersOf T ⟨w.c0, w.c1, w.d0, w.d1, vol, ramp, last, i⟩ = filtersOf T w := filtersOf_congr rfl rfl rfl rfl T

theorem kmFn_reads (T : Chain) : Reads (mixView T) (kmFn T) := by
  intro w w' k x old hv
  simp only [mixView, Prod.mk.injEq] at hv
  obtain ⟨hfs, hvol⟩ := hv
  obtain ⟨hy, hfil, hk⟩ := chainFn_reads hfs k (i32ToF64 x)
  obtain ⟨_, _, _, _, hw, _⟩ := chainFn_eq T w k (i32ToF64 x)
  obtain ⟨_, _, _, _, hw', _⟩ := chainFn_eq T w' k (i32ToF64 x)
  simp only [kmFn_out, kmFn_work, kmFn_draw, mixView, filtersOf_mk, hy, hfil, hk, hw, hw', hvol, and_self]

theorem kmrFn_reads (T : Chain) : Reads (rampView T) (kmrFn T) := by
  intro w w' k x old hv
  simp only [rampView, Prod.mk.injEq] at hv
  obtain ⟨hfs, hvol, hramp, _⟩ := hv
  obtain ⟨hy, hfil, hk⟩ := chainFn_reads hfs k (i32ToF64 x)
  obtain ⟨_, _, _, ⟨_, _, hr, _⟩, hw, _⟩ := chainFn_eq T w k (i32ToF64 x)
  obtain ⟨_, _, _, ⟨_, _, hr', _⟩, hw', _⟩ := chainFn_eq T w' k (i32ToF64 x)
  simp only [kmrFn_out, kmrFn_work, kmrFn_draw, rampView, filtersOf_mk, hy, hfil, hk, hw, hw', hr, hr', hvol, hramp,
    and_self]

namespace SameView
variable {s s' : State} {T : Chain}

theorem kernelKD (h : SameView (filtersOf .single) s s') (input output : S16) :
    SameView (filtersOf .single) (kernelKD input output s) (kernelKD input output s') := by
  rw [Machine.kernelKD, Machine.kernelKD, h.frame]
  exact loop_sameView (kdSample_isBody input output) kdFn_counts kdFn_reads _ (s := clearI s) (s' := clearI s')
    { h with } rfl

theorem kernelKI (h : SameView accView s s') (input output : S16) :
    SameView accView (kernelKI input output s) (kernelKI input output s') := by
  rw [Machine.kernelKI, Machine.kernelKI, h.frame]
  exact loop_sameView (kiSample_isBody input output) kiFn_counts kiFn_reads _ (s := clearI s) (s' := clearI s')
    { h with } rfl

theorem kernelKM (h : SameView (filtersOf T) s s') (input output : S16) (v : F32) :
    SameView (filtersOf T) (kernelKM T input output v s) (kernelKM T input output v s') := by
  have hstart : SameView (mixView T) (clearI (mixStart v s)) (clearI (mixStart v s')) :=
    { h.mixStart v with view := by simp only [mixView, clearI, mixStart_eq, filtersOf_mk, h.view, h.draw] }
  have hloop := loop_sameView (kmSample_isBody T input output) (kmFn_counts T) (kmFn_reads T) s.frame.toNat hstart rfl
  rw [Machine.kernelKM, Machine.kernelKM, mixStart_frame, mixStart_frame, h.frame]
  exact { hloop with view := congrArg Prod.fst hloop.view }

/-- The ramped kernel sets `ramp` only where there is a sample to use it on (D16). -/
theorem kmrStart (h : SameView (filtersOf T) s s') (v v' : F32) :
    SameView (endView T) (kmrStart v v' s) (kmrStart v v' s') ∧
      (s.frame ≠ 0#32 → SameView (rampView T) (kmrStart v v' s) (kmrStart v v' s')) := by
  obtain ⟨he, hfil, hvol, hlast, _, _, _, hramp⟩ := kmrStart_facts T v v' s
  obtain ⟨he', hfil', hvol', hlast', _, _, _, hramp'⟩ := kmrStart_facts T v v' s'
  rw [h.draw] at hvol'
  rw [h.draw, h.frame] at hramp'
  have hstorage : SameStorage (Machine.kmrStart v v' s) (Machine.kmrStart v v' s') := by
    rw [he, he', h.draw, h.frame]
    exact { h with frame := rfl, draw := rfl }
  refine ⟨{ hstorage with view := ?_ }, fun hn => { hstorage with view := ?_ }⟩
  · simp only [endView, hfil, hfil', hlast, hlast', h.view]
  · simp only [rampView, hfil, hfil', hvol, hvol', hlast, hlast', hramp hn, hramp' hn, h.view]

theorem kmrLoop (h : SameView (filtersOf T) s s') (input output : S16) (v v' : F32) :
    SameView (endView T) (loop (kmrSample T input output) s.frame.toNat (clearI (Machine.kmrStart v v' s)))
      (loop (kmrSample T input output) s.frame.toNat (clearI (Machine.kmrStart v v' s'))) := by
  obtain ⟨hend, hramp⟩ := h.kmrStart v v'
  by_cases hn : s.frame = 0#32
  · rw [hn]
    exact { hend with }
  · have hloop := loop_sameView (kmrSample_isBody T input output) (kmrFn_counts T) (kmrFn_reads T) s.frame.toNat
      (s := clearI (Machine.kmrStart v v' s)) (s' := clearI (Machine.kmrStart v v' s')) { hramp hn with } rfl
    exact { hloop with view := congrArg (fun q => (q.1, q.2.2.2)) hloop.view }

theorem kernelKMR (h : SameView (filtersOf T) s s') (input output : S16) (v v' : F32) :
    (kernelKMR T input output v v' s').1 = (kernelKMR T input output v v' s).1 ∧
      SameView (filtersOf T) (kernelKMR T input output v v' s).2 (kernelKMR T input output v v' s').2 := by
  have hloop := h.kmrLoop input output v v'
  have hfr : (Machine.kmrStart v v' s).frame = s.frame := by rw [(kmrStart_facts T v v' s).1]
  have hfr' : (Machine.kmrStart v v' s').frame = s.frame := by rw [(kmrStart_facts T v v' s').1, h.frame]
  rw [kernelKMR_eq, kernelKMR_eq, hfr, hfr']
  refine ⟨congrArg₂ f64ToF32 hloop.draw (congrArg Prod.snd hloop.view), ?_⟩
  exact { hloop with draw := congrArg (· + 1) hloop.draw, view := congrArg Prod.fst hloop.view }

theorem persistState (h : SameView (filtersOf .single) s s') (g : Handle) :
    SameStorage (persistState .t0 g s) (persistState .t0 g s') := by
  have he : persistedEntry .t0 s' = persistedEntry .t0 s := by
    simp only [persistedEntry, delay_t0, (filtersOf_single_iff.mp h.view).2]
  rw [Machine.persistState, Machine.persistState, he]
  exact h.toSameStorage.writeEntry g _

theorem persistAcc (h : SameView accView s s') (g : Handle) : SameStorage (persistAcc g s) (persistAcc g s') := by
  obtain ⟨⟨hpar, hframe, hsrf, harena, hprev, hdraw⟩, hview⟩ := h
  simp only [accView, Prod.mk.injEq] at hview
  obtain ⟨_, hs0, hs1⟩ := hview
  exact
    { par := by simp only [persistAcc_par, hpar]
      frame := by simp only [persistAcc_frame, hframe]
      srf := by simp only [Machine.persistAcc, writeSrfWord_srf, hsrf, hs0, hs1]
      arena := by simp only [persistAcc_arena, harena]
      prev := by simp only [persistAcc_prev, hprev]
      draw := by simp only [persistAcc_draw, hdraw] }

theorem multiTapAfter (h : SameView (filtersOf .pair) s s') (o : MtOperands) :
    SameStorage (multiTapAfter o s) (multiTapAfter o s') := by
  obtain ⟨⟨_, hd0⟩, _, hd1⟩ := filtersOf_pair_iff.mp h.view
  have he0 : persistedEntry .t0 s' = persistedEntry .t0 s := by simp only [persistedEntry, delay_t0, hd0]
  have he1 : persistedEntry .t1 s' = persistedEntry .t1 s := by simp only [persistedEntry, delay_t1, hd1]
  rw [multiTapAfter_eq, multiTapAfter_eq, he0, he1]
  have hlocs : ∀ e0 e1 : Entry, SameStorage { s with loc0 := e0, loc1 := e1 } { s' with loc0 := e0, loc1 := e1 } :=
    fun _ _ => { h.toSameStorage with }
  exact ((hlocs _ _).writeEntry _ _).writeEntry _ _

end SameView

/-! The forms -/

section Forms
variable {s s' : State} {codec : State → State} {n : Nat}

theorem filterSteps_same (h : SameStorage s s') {c : Nat → Coeffs} (hc : LoadsFirst codec c n) (o : BqfOperands) :
    SameStorage (filterSteps o codec s) (filterSteps o codec s') :=
  (((h.prepPlain _ _).loadFilter hc _).kernelKD _ _).persistState _

theorem mixSteps_same (h : SameStorage s s') {c : Nat → Coeffs} (hc : LoadsFirst codec c n) (o : BqfmOperands) :
    SameStorage (mixSteps o codec s) (mixSteps o codec s') := by
  rw [mixSteps_eq, mixSteps_eq]
  exact (((h.prepForked _ _ _ _).loadFilter hc _).kernelKM _ _ _).persistState _

theorem mixRampSteps_same (h : SameStorage s s') {c : Nat → Coeffs} (hc : LoadsFirst codec c n) (o : BqfmOperands) :
    SameStorage (mixRampSteps o codec s) (mixRampSteps o codec s') := by
  obtain ⟨hr, hend⟩ := ((h.prepForked _ _ _ _).loadFilter hc _).kernelKMR o.input o.output o.volume0 o.volume1
  rw [mixRampSteps_eq, mixRampSteps_eq]
  dsimp only
  rw [hr]
  exact (hend.persistState _).tailCapture _ _ _

theorem multiTapSteps_same (h : SameStorage s s') {c0 c1 : Nat → Coeffs} (hc : LoadsBoth codec c0 c1 n)
    (o : MtOperands) : SameStorage (multiTapSteps o codec s) (multiTapSteps o codec s') :=
  ((h.multiTapBefore hc o).kernelKM _ _ _).multiTapAfter o

theorem multiTapRampSteps_same (h : SameStorage s s') {c0 c1 : Nat → Coeffs} (hc : LoadsBoth codec c0 c1 n)
    (o : MtOperands) : SameStorage (multiTapRampSteps o codec s) (multiTapRampSteps o codec s') := by
  obtain ⟨hr, hend⟩ := (h.multiTapBefore hc o).kernelKMR o.input o.output o.volume0 o.volume1
  rw [multiTapRampSteps_eq, multiTapRampSteps_eq]
  dsimp only
  rw [hr]
  exact (hend.multiTapAfter o).tailCapture _ _ _

end Forms

/-- The steps of every form keep two states' storage the same. -/
theorem stepsOf_same {s s' : State} (h : SameStorage s s') (i : Instr) : SameStorage (stepsOf i s) (stepsOf i s') := by
  cases i with
  | bqfI o c => exact (((h.prepPlain _ _).loadAcc c _).kernelKI _ _).persistAcc _
  | bqfD o c =>
    rw [stepsOf_bqfD]
    exact filterSteps_same h (loadQ14_loadsFirst c) o
  | bqfDF o c =>
    rw [stepsOf_bqfDF]
    exact filterSteps_same h (loadF32_loadsFirst c) o
  | bqfm o c => exact mixSteps_same h (loadQ14_loadsFirst c) o
  | bqfmF o c => exact mixSteps_same h (loadF32_loadsFirst c) o
  | bqfmR o c => exact mixRampSteps_same h (loadQ14_loadsFirst c) o
  | bqfmRF o c => exact mixRampSteps_same h (loadF32_loadsFirst c) o
  | mtbqfm o c0 c1 => exact multiTapSteps_same h (loadQ14Pair_loadsBoth c0 c1) o
  | mtbqfmF o c0 c1 => exact multiTapSteps_same h (loadF32Pair_loadsBoth c0 c1) o
  | mtbqfmR o c0 c1 => exact multiTapRampSteps_same h (loadQ14Pair_loadsBoth c0 c1) o
  | mtbqfmRF o c0 c1 => exact multiTapRampSteps_same h (loadF32Pair_loadsBoth c0 c1) o

/-- The checks read the parameters and the frame register alone (R182). -/
theorem validate_congr {s s' : State} (hpar : s'.par = s.par) (hframe : s'.frame = s.frame) (i : Instr) :
    validate i s' = validate i s := by
  simp only [validate, checks, hpar, hframe]

/-- Settles O52: both states pass the same checks or fail the same one; accepted, the form's steps keep their storage the
same. -/
theorem outcomeDependsOnStorageAlone : Obligations.OutcomeDependsOnStorageAlone := by
  intro i s s' hpar hframe hsrf harena hprev hdraw
  have hvalid := validate_congr hpar hframe i
  have hsteps := stepsOf_same ⟨hpar, hframe, hsrf, harena, hprev, hdraw⟩ i
  rw [exec_eq_process, exec_eq_process, process, process, hvalid]
  cases validate i s with
  | some r => exact ⟨_, _, rfl, rfl, hsrf, harena, hprev, rfl, hdraw⟩
  | none => exact ⟨_, _, rfl, rfl, hsteps.srf, hsteps.arena, hsteps.prev, rfl, hsteps.draw⟩

end Sys2Proof.Machine

/-! ## The memory's rules: spans and byte images (20_memory.md)

The byte images are the same statement four times: a word of `n` bytes stored little-endian. It is said once, for the bytes
of a bit vector of any width, and each storage only names its address. -/

namespace Sys2Proof.Machine

/-! ### Spans (R52, R54) -/

/-- R52. -/
theorem bufferValid_iff {p : Params} {k : S16} :
    bufferValid p k = true ↔ 0 ≤ k.toInt ∧ k.toInt < (p.nbuf : Int) := by
  rw [bufferValid, Bool.and_eq_true, decide_eq_true_iff, decide_eq_true_iff]

/-- Settles O42: valid buffers that differ, or samples that differ, have different words. -/
theorem spansAreEqualOrDisjoint : Obligations.SpansAreEqualOrDisjoint := by
  intro p k k' n i j hk hk' hi hj hsame
  obtain ⟨hlo, _⟩ := bufferValid_iff.mp hk
  obtain ⟨hlo', _⟩ := bufferValid_iff.mp hk'
  by_contra hdiffer
  exact sampleIndex_ne hlo hlo' hi hj (not_and_or.mp hdiffer) hsame

/-- Settles O43. -/
theorem sampleAddressesAreInside : Obligations.SampleAddressesAreInside := by
  intro p k n i hk hi
  obtain ⟨hlo, hhi⟩ := bufferValid_iff.mp hk
  exact sampleIndex_lt hlo hhi hi

/-! ### Byte images (R58 to R61) -/

/-- Byte `b` of a word, as `MemWrite` cuts it off, is its bits `8b+7..8b`. -/
theorem ofNat_div_eq_extractLsb' {w : Nat} (v : BitVec w) (b : Nat) :
    BitVec.ofNat 8 (v.toNat / 256 ^ b) = v.extractLsb' (8 * b) 8 := by
  rw [BitVec.extractLsb', Nat.shiftRight_eq_div_pow, Nat.pow_mul]

/-- The bytes of a stored bit vector are its own, least significant first; every other byte is as before (R58). -/
theorem readByte_write_toNat (sp : Space) (m : Memory) (addr n : Nat) {w : Nat} (v : BitVec w) (a : Nat) :
    (m.write addr n v.toNat).readByte sp a =
      if addr ≤ a ∧ a < addr + n then v.extractLsb' (8 * (a - addr)) 8 else m.readByte sp a := by
  rw [Memory.readByte_write, ofNat_div_eq_extractLsb']

/-- Within a stored list, each word's bytes are where the word stands (R61). -/
theorem readByte_storeWords_inside (m : Memory) {addr : Nat} {ws : Descriptor} {a : Nat} (hlo : addr ≤ a)
    (hhi : a < addr + 4 * ws.length) : (storeWords m addr ws).readByte .command a =
      (ws.word ((a - addr) / 4)).extractLsb' (8 * ((a - addr) % 4)) 8 := by
  induction ws generalizing m addr with
  | nil => exact absurd hhi (Nat.not_lt.mpr hlo)
  | cons w ws ih =>
    rw [List.length_cons] at hhi
    rw [storeWords]
    by_cases hfirst : a < addr + 4
    · have hword : (a - addr) / 4 = 0 := by omega
      have hbyte : (a - addr) % 4 = a - addr := by omega
      rw [readByte_storeWords_outside _ _ _ _ (.inl hfirst), readByte_write_toNat, if_pos ⟨hlo, hfirst⟩, hword, hbyte]
      rfl
    · have hword : (a - addr) / 4 = (a - (addr + 4)) / 4 + 1 := by omega
      have hbyte : (a - addr) % 4 = (a - (addr + 4)) % 4 := by omega
      rw [ih _ (by omega) (by omega), hword, hbyte]
      rfl

/-- The bytes of a stored descriptor, and every other byte of command memory (R61). -/
theorem readByte_storeDescriptor {j : Nat} {d : Descriptor} (hd : d.wellFormed = true) (s : State) (x : Nat) :
    (storeDescriptor j d s).cmdMem.readByte .command x =
      if 80 * j ≤ x ∧ x < 80 * j + 80 then (d.word ((x - 80 * j) / 4)).extractLsb' (8 * ((x - 80 * j) % 4)) 8
      else s.cmdMem.readByte .command x := by
  have hlen : d.length = 20 := beq_iff_eq.mp hd
  rw [storeDescriptor, descriptorAddr]
  split
  · next hin => exact readByte_storeWords_inside _ hin.1 (by omega)
  · exact readByte_storeWords_outside _ _ _ _ (by omega)

/-- Settles O44: the four kinds of word read back, and each is one store at its own address. -/
theorem byteImagesAreLittleEndian : Obligations.ByteImagesAreLittleEndian := by
  intro s x
  refine ⟨fun h k v => ⟨readSrfWord_writeSrfWord_same h k v s, ?_⟩, fun a v => ⟨readArena_writeArena_same a v s, ?_⟩,
    fun w k v => ⟨readPrev_writePrev_same w k v s, ?_⟩, fun j d hd => ⟨?_, readByte_storeDescriptor hd s x⟩⟩
  · exact readByte_write_toNat .srf s.srf (srfAddr h k) 8 v x
  · exact readByte_write_toNat .arena s.arena (arenaAddr a) 4 v x
  · exact readByte_write_toNat .prev s.prev (prevAddr s.par w k) 4 v x
  · rw [listElement_storeDescriptor hd, if_pos rfl]

end Sys2Proof.Machine

/-! ## The encoding (30_encoding.md)

A header word is its eight fields (R82). Legality, the form of a command and the rows of the opcode map are said of the
fields, and the raw bits of the statements are read as fields once. -/

namespace Sys2Proof

/-! ### The legality of a header (R82, R87) -/

/-- What R82 and R87 ask of the header of a legal descriptor. -/
structure HeaderLegal (hwRev : Int) (w0 : BitVec 32) : Prop where
  opcode : headerOpcode w0 = 1#4 ∨ headerOpcode w0 = 2#4 ∨ headerOpcode w0 = 3#4
  reserved : headerReserved w0 = 0#22
  bqf : headerOpcode w0 = 1#4 → headerNeedsInit1 w0 = false ∧ headerRamp w0 = false ∧ headerFirst w0 = false
  bqfm : headerOpcode w0 = 2#4 → headerNeedsInit1 w0 = false
  mix : headerOpcode w0 ≠ 1#4 → headerFloatProcessing w0 = true
  floats : headerFloatProcessing w0 = false → headerFloatCoefficients w0 = false
  revision : headerFloatCoefficients w0 = true → 15 ≤ hwRev

/-- A check in a chain of checks lets a header pass. -/
theorem check_eq_none {c : Bool} {e : DecodeError} {o : Option DecodeError} :
    (if c then some e else o) = none ↔ c = false ∧ o = none := by
  cases c <;> simp

/-- No check of R87 stops a header exactly when it is legal. -/
theorem headerError_eq_none_iff {hwRev : Int} {w0 : BitVec 32} :
    headerError hwRev w0 = none ↔ HeaderLegal hwRev w0 := by
  simp only [headerError, check_eq_none]
  constructor
  · rintro ⟨hop, hres, hbqf, hbqfm, hmix, hfloats, hrev, -⟩
    exact ⟨by simpa [or_iff_not_imp_left] using hop, by simpa using hres, by simpa [and_assoc] using hbqf,
      by simpa using hbqfm, by simpa using hmix, by simpa using hfloats, by simpa using hrev⟩
  · rintro ⟨hop, hres, hbqf, hbqfm, hmix, hfloats, hrev⟩
    exact ⟨by simpa [or_iff_not_imp_left] using hop, by simpa using hres, by simpa [and_assoc] using hbqf,
      by simpa using hbqfm, by simpa using hmix, by simpa using hfloats, by simpa using hrev, trivial⟩

/-- Decoding of twenty words gives the command they stand for exactly when the header is legal. -/
theorem decode_eq_ok_iff {hwRev : Int} {d : Descriptor} {i : Instr} (hd : d.wellFormed = true) :
    decode hwRev d = .ok i ↔ HeaderLegal hwRev (d.word 0) ∧ d.build = i := by
  rw [← headerError_eq_none_iff, decode, hd]
  cases headerError hwRev (d.word 0) <;> simp

theorem exists_decode_error_iff {hwRev : Int} {d : Descriptor} (hd : d.wellFormed = true) :
    (∃ e, decode hwRev d = .error e) ↔ ¬ HeaderLegal hwRev (d.word 0) := by
  rw [← headerError_eq_none_iff, decode, hd]
  cases headerError hwRev (d.word 0) <;> simp

/-! ### Header words by field -/

/-- Header words with the same fields are the same. -/
theorem header_ext {w w' : BitVec 32} (hop : headerOpcode w = headerOpcode w')
    (h0 : headerNeedsInit0 w = headerNeedsInit0 w') (h1 : headerNeedsInit1 w = headerNeedsInit1 w')
    (hr : headerRamp w = headerRamp w') (hf : headerFirst w = headerFirst w')
    (hp : headerFloatProcessing w = headerFloatProcessing w')
    (hc : headerFloatCoefficients w = headerFloatCoefficients w') (hres : headerReserved w = headerReserved w') :
    w = w' := by
  refine BitVec.eq_of_getLsbD_eq fun i hi => ?_
  rcases Nat.lt_or_ge i 4 with hlow | hlow
  · simpa [headerOpcode, hlow] using congrArg (BitVec.getLsbD · i) hop
  · rcases Nat.lt_or_ge i 10 with hflag | hhigh
    · interval_cases i
      exacts [h0, h1, hr, hf, hp, hc]
    · simpa [headerReserved, Nat.add_sub_cancel' hhigh, show i - 10 < 22 by omega]
        using congrArg (BitVec.getLsbD · (i - 10)) hres

/-- A header word without reserved bits is the word of its fields. -/
theorem headerWord_fields {w : BitVec 32} (h : headerReserved w = 0#22) :
    w = headerWord (headerOpcode w) (headerNeedsInit0 w) (headerNeedsInit1 w) (headerRamp w) (headerFirst w)
      (headerFloatProcessing w) (headerFloatCoefficients w) := by
  apply header_ext <;> simp [h]

/-- The legal headers, kind by kind. -/
theorem HeaderLegal.cases {hwRev : Int} {w : BitVec 32} (h : HeaderLegal hwRev w) :
    (∃ n0 p c, w = headerWord 1#4 n0 false false false p c ∧ (p = false → c = false)) ∨
    (∃ n0 r f c, w = headerWord 2#4 n0 false r f true c) ∨
    (∃ n0 n1 r f c, w = headerWord 3#4 n0 n1 r f true c) := by
  have hw := headerWord_fields h.reserved
  rcases h.opcode with hop | hop | hop
  · obtain ⟨h1, hr, hf⟩ := h.bqf hop
    rw [hop, h1, hr, hf] at hw
    exact .inl ⟨_, _, _, hw, h.floats⟩
  · rw [hop, h.bqfm hop, h.mix (by simp [hop])] at hw
    exact .inr (.inl ⟨_, _, _, _, hw⟩)
  · rw [hop, h.mix (by simp [hop])] at hw
    exact .inr (.inr ⟨_, _, _, _, _, hw⟩)

/-! ### The fields of a masked header word -/

section Masked
variable (w m : BitVec 32)

theorem headerOpcode_and : headerOpcode (w &&& m) = headerOpcode w &&& headerOpcode m := BitVec.extractLsb'_and

theorem headerReserved_and : headerReserved (w &&& m) = (headerReserved w &&& headerReserved m) :=
  BitVec.extractLsb'_and

@[simp] theorem headerNeedsInit1_and : headerNeedsInit1 (w &&& m) = (headerNeedsInit1 w && headerNeedsInit1 m) :=
  BitVec.getLsbD_and

@[simp] theorem headerRamp_and : headerRamp (w &&& m) = (headerRamp w && headerRamp m) := BitVec.getLsbD_and

@[simp] theorem headerFirst_and : headerFirst (w &&& m) = (headerFirst w && headerFirst m) := BitVec.getLsbD_and

@[simp] theorem headerFloatProcessing_and :
    headerFloatProcessing (w &&& m) = (headerFloatProcessing w && headerFloatProcessing m) := BitVec.getLsbD_and

@[simp] theorem headerFloatCoefficients_and :
    headerFloatCoefficients (w &&& m) = (headerFloatCoefficients w && headerFloatCoefficients m) := BitVec.getLsbD_and

end Masked

/-! ### The raw bits of a header word -/

theorem headerOpcode_eq_iff {w : BitVec 32} {op : BitVec 4} : headerOpcode w = op ↔ w.toNat % 16 = op.toNat := by
  rw [← BitVec.toNat_inj, headerOpcode, BitVec.extractLsb'_toNat]
  rfl

theorem headerReserved_eq_zero_iff {w : BitVec 32} : headerReserved w = 0#22 ↔ w.toNat / 1024 = 0 := by
  have := w.isLt
  rw [← BitVec.toNat_inj, headerReserved, BitVec.extractLsb'_toNat, Nat.shiftRight_eq_div_pow]
  simp only [BitVec.toNat_ofNat]
  omega

/-! ### The form of a record (R86) -/

section Build
variable {d : Descriptor} {n0 n1 r f p c : Bool}

theorem build_bqf (h : d.word 0 = headerWord 1#4 n0 false false false p c) :
    d.build = if p then (if c then .bqfDF d.bqfOperands (d.f32At 10) else .bqfD d.bqfOperands (d.q14At 10))
      else .bqfI d.bqfOperands (d.q14At 10) := by
  cases p <;> cases c <;> simp [Descriptor.build, h]

theorem build_bqfm (h : d.word 0 = headerWord 2#4 n0 n1 r f p c) :
    d.build = if r then (if c then .bqfmRF d.bqfmOperands (d.f32At 10) else .bqfmR d.bqfmOperands (d.q14At 10))
      else (if c then .bqfmF d.bqfmOperands (d.f32At 10) else .bqfm d.bqfmOperands (d.q14At 10)) := by
  cases r <;> cases c <;> simp [Descriptor.build, h]

theorem build_mtbqfm (h : d.word 0 = headerWord 3#4 n0 n1 r f p c) :
    d.build = if r then (if c then .mtbqfmRF d.mtOperands (d.f32At 10) (d.f32At 15)
        else .mtbqfmR d.mtOperands (d.q14At 10) (d.q14At 15))
      else (if c then .mtbqfmF d.mtOperands (d.f32At 10) (d.f32At 15)
        else .mtbqfm d.mtOperands (d.q14At 10) (d.q14At 15)) := by
  cases r <;> cases c <;> simp [Descriptor.build, h]

end Build

/-- The command a legal descriptor decodes to encodes to the same header. -/
theorem header_build {hwRev : Int} {d : Descriptor} (h : HeaderLegal hwRev (d.word 0)) :
    d.build.header = d.word 0 := by
  rcases h.cases with ⟨n0, p, c, hw, hpc⟩ | ⟨n0, r, f, c, hw⟩ | ⟨n0, n1, r, f, c, hw⟩
  · rw [build_bqf hw, hw]
    cases p <;> cases c <;> simp_all [Instr.header, Descriptor.bqfOperands]
  · rw [build_bqfm hw, hw]
    cases r <;> cases c <;> simp [Instr.header, Descriptor.bqfmOperands, hw]
  · rw [build_mtbqfm hw, hw]
    cases r <;> cases c <;> simp [Instr.header, Descriptor.mtOperands, hw]

theorem decode_ok_header {hwRev : Int} {d : Descriptor} {i : Instr} (hd : d.wellFormed = true)
    (h : decode hwRev d = .ok i) : i.header = d.word 0 := by
  obtain ⟨hlegal, rfl⟩ := (decode_eq_ok_iff hd).mp h
  exact header_build hlegal

/-! ### The words of an encoded command (R83, R84) -/

@[simp] theorem Descriptor.word_cons_zero (w : BitVec 32) (l : List (BitVec 32)) : Descriptor.word (w :: l) 0 = w := rfl

theorem Descriptor.word_append (l r : List (BitVec 32)) (k : Nat) :
    Descriptor.word (l ++ r) (l.length + k) = Descriptor.word r k := by
  rw [Descriptor.word, Descriptor.word, List.getD_append_right _ _ _ _ (Nat.le_add_right _ _), Nat.add_sub_cancel_left]

/-- Q14 coefficients are read back from the slots they were written to, the upper halves being zero. -/
theorem q14At_slots (l r : List (BitVec 32)) (c : Q14Params) :
    Descriptor.q14At (l ++ (c.slots ++ r)) l.length = c := by
  have hfirst := Descriptor.word_append l (c.slots ++ r) 0
  rw [Nat.add_zero] at hfirst
  simp only [Descriptor.q14At, hfirst, Descriptor.word_append]
  simp [Descriptor.word, Q14Params.slots]

theorem f32At_slots (l r : List (BitVec 32)) (c : F32Params) :
    Descriptor.f32At (l ++ (c.slots ++ r)) l.length = c := by
  have hfirst := Descriptor.word_append l (c.slots ++ r) 0
  rw [Nat.add_zero] at hfirst
  simp only [Descriptor.f32At, hfirst, Descriptor.word_append]
  rfl

section Operands
variable {op : BitVec 4} {n0 n1 r f p c : Bool} (l : List (BitVec 32))

theorem bqfOperands_words (o : BqfOperands) :
    Descriptor.bqfOperands (headerWord op o.needsInit0 n1 r f p c :: (o.words ++ l)) = o := by
  simp [Descriptor.bqfOperands, Descriptor.word, BqfOperands.words]

theorem bqfmOperands_words (o : BqfmOperands) :
    Descriptor.bqfmOperands (headerWord op o.needsInit0 n1 r o.isFirstMixBuffer p c :: (o.words ++ l)) = o := by
  simp [Descriptor.bqfmOperands, Descriptor.word, BqfmOperands.words]

theorem mtOperands_words (o : MtOperands) :
    Descriptor.mtOperands (headerWord op o.needsInit0 o.needsInit1 r o.isFirstMixBuffer p c :: (o.words ++ l)) = o := by
  simp [Descriptor.mtOperands, Descriptor.word, MtOperands.words]

end Operands

@[simp] theorem encode_wellFormed (i : Instr) : (encode i).wellFormed = true := by cases i <;> rfl

@[simp] theorem encode_word_zero (i : Instr) : (encode i).word 0 = i.header := rfl

@[simp] theorem headerFloatCoefficients_header (i : Instr) :
    headerFloatCoefficients i.header = i.useFloatCoefficients := by
  cases i <;> simp [Instr.header, Instr.useFloatCoefficients]

/-- A command that is legal on a revision has a header that is legal on it. -/
theorem headerLegal_header {hwRev : Int} {i : Instr} (hi : i.wellFormed hwRev = true) : HeaderLegal hwRev i.header where
  opcode := by cases i <;> simp [Instr.header]
  reserved := by cases i <;> simp [Instr.header]
  bqf := by cases i <;> simp [Instr.header]
  bqfm := by cases i <;> simp [Instr.header]
  mix := by cases i <;> simp [Instr.header]
  floats := by cases i <;> simp [Instr.header]
  revision := by
    rw [headerFloatCoefficients_header]
    intro hf
    simpa [Instr.wellFormed, hf] using hi

/-- The form and every operand of a command are read back from its words. -/
theorem build_encode (i : Instr) : (encode i).build = i := by
  cases i with
  | bqfI o c | bqfD o c =>
    exact (build_bqf rfl).trans
      (congrArg₂ _ (bqfOperands_words _ o) (q14At_slots (_ :: o.words) unusedSlots c))
  | bqfDF o c =>
    exact (build_bqf rfl).trans
      (congrArg₂ _ (bqfOperands_words _ o) (f32At_slots (_ :: o.words) unusedSlots c))
  | bqfm o c | bqfmR o c =>
    exact (build_bqfm rfl).trans
      (congrArg₂ _ (bqfmOperands_words _ o) (q14At_slots (_ :: o.words) unusedSlots c))
  | bqfmF o c | bqfmRF o c =>
    exact (build_bqfm rfl).trans
      (congrArg₂ _ (bqfmOperands_words _ o) (f32At_slots (_ :: o.words) unusedSlots c))
  | mtbqfm o c0 c1 | mtbqfmR o c0 c1 =>
    exact (build_mtbqfm rfl).trans (congr
      (congrArg₂ _ (mtOperands_words _ o) (q14At_slots (_ :: o.words) c1.slots c0))
      (q14At_slots (_ :: (o.words ++ c0.slots)) [] c1))
  | mtbqfmF o c0 c1 | mtbqfmRF o c0 c1 =>
    exact (build_mtbqfm rfl).trans (congr
      (congrArg₂ _ (mtOperands_words _ o) (f32At_slots (_ :: o.words) c1.slots c0))
      (f32At_slots (_ :: (o.words ++ c0.slots)) [] c1))

/-! ### What decoding reads (R84, R85) -/

/-- Descriptors with one header decode to the same, if they stand for the same command where the header is legal. -/
theorem decode_congr {hwRev : Int} {d d' : Descriptor} (hd : d.wellFormed = true) (hd' : d'.wellFormed = true)
    (h0 : d.word 0 = d'.word 0) (hb : HeaderLegal hwRev (d.word 0) → d.build = d'.build) :
    decode hwRev d = decode hwRev d' := by
  rw [← headerError_eq_none_iff] at hb
  rw [decode, decode, hd, hd', ← h0]
  cases hcheck : headerError hwRev (d.word 0) with
  | some e => rfl
  | none => rw [hb hcheck]

section Congruence
variable {d d' : Descriptor}

theorem q14At_congr {j : Nat}
    (h : ∀ k, j ≤ k → k ≤ j + 4 → (d.word k).extractLsb' 0 16 = (d'.word k).extractLsb' 0 16) :
    d.q14At j = d'.q14At j := by
  simp only [Descriptor.q14At, h j (by omega) (by omega), h (j + 1) (by omega) (by omega),
    h (j + 2) (by omega) (by omega), h (j + 3) (by omega) (by omega), h (j + 4) (by omega) (by omega)]

theorem f32At_congr {j : Nat} (h : ∀ k, j ≤ k → k ≤ j + 4 → d.word k = d'.word k) : d.f32At j = d'.f32At j := by
  simp only [Descriptor.f32At, h j (by omega) (by omega), h (j + 1) (by omega) (by omega),
    h (j + 2) (by omega) (by omega), h (j + 3) (by omega) (by omega), h (j + 4) (by omega) (by omega)]

theorem bqfOperands_congr (h0 : d.word 0 = d'.word 0) (h1 : d.word 1 = d'.word 1) (h2 : d.word 2 = d'.word 2) :
    d.bqfOperands = d'.bqfOperands := by
  simp only [Descriptor.bqfOperands, h0, h1, h2]

theorem bqfmOperands_congr (h0 : d.word 0 = d'.word 0) (h1 : d.word 1 = d'.word 1) (h2 : d.word 2 = d'.word 2)
    (h4 : d.word 4 = d'.word 4) (h69 : ∀ j, 6 ≤ j → j ≤ 9 → d.word j = d'.word j) :
    d.bqfmOperands = d'.bqfmOperands := by
  simp only [Descriptor.bqfmOperands, h0, h1, h2, h4, h69 6 (by omega) (by omega), h69 7 (by omega) (by omega),
    h69 8 (by omega) (by omega), h69 9 (by omega) (by omega)]

theorem mtOperands_congr (h0 : d.word 0 = d'.word 0) (h1 : d.word 1 = d'.word 1) (h2 : d.word 2 = d'.word 2)
    (h3 : d.word 3 = d'.word 3) (h4 : d.word 4 = d'.word 4) (h5 : d.word 5 = d'.word 5)
    (h69 : ∀ j, 6 ≤ j → j ≤ 9 → d.word j = d'.word j) : d.mtOperands = d'.mtOperands := by
  simp only [Descriptor.mtOperands, h0, h1, h2, h3, h4, h5, h69 6 (by omega) (by omega), h69 7 (by omega) (by omega),
    h69 8 (by omega) (by omega), h69 9 (by omega) (by omega)]

end Congruence

end Sys2Proof

namespace Sys2Proof.Machine

/-! ### Encoding and decoding -/

/-- Settles O1: the header of a legal command is legal, and the record built from its words is the command. -/
theorem decodeInvertsEncode : Obligations.DecodeInvertsEncode :=
  fun _ i hi => (decode_eq_ok_iff (encode_wellFormed i)).mpr ⟨headerLegal_header hi, build_encode i⟩

/-! ### Illegal descriptors (R89) -/

/-- `PROCESS` of an illegal descriptor of the list is refused. -/
theorem step_illegal {s : State} {e : DecodeError} (hhost : s.host = []) (hpc : s.pc < s.listLen)
    (hd : decode s.par.hwRev (listElement s.pc s) = .error e) :
    ∃ t, step s = .next t ∧ t.result = some (.refused .illegalDescriptor) := by
  rw [step_process hhost hpc]
  rcases processNext_cases s with ⟨_, hrefuse⟩ | ⟨i, _, hi, _, _⟩
  · exact ⟨_, hrefuse, rfl⟩
  · cases (nextRecord_error hpc hd).symm.trans hi

/-- Settles O2: each case of R89 is the failure of one condition on a legal header. -/
theorem illegalExactlyInListedCases : Obligations.IllegalExactlyInListedCases := by
  refine ⟨fun hwRev d hd => (exists_decode_error_iff hd).trans ⟨fun hno => ?_, fun hcase hlegal => ?_⟩,
    fun s e => step_illegal⟩
  · by_contra hlisted
    simp only [not_or, not_and, Bool.not_eq_true, Bool.not_eq_false, not_lt, not_not] at hlisted
    obtain ⟨⟨ha0, ha4⟩, hb, hc, hd', he, hf, hg⟩ := hlisted
    refine hno ⟨?_, headerReserved_eq_zero_iff.mpr hb, fun h => hc (headerOpcode_eq_iff.mp h),
      fun h => hd' (headerOpcode_eq_iff.mp h), fun h => he ?_, hf, hg⟩
    · simp only [headerOpcode_eq_iff, BitVec.toNat_ofNat]
      omega
    · simp only [ne_eq, headerOpcode_eq_iff, BitVec.toNat_ofNat] at h
      omega
  · have hop := hlegal.opcode
    have hbqf := hlegal.bqf
    have hbqfm := hlegal.bqfm
    have hmix := hlegal.mix
    simp only [ne_eq, headerOpcode_eq_iff, BitVec.toNat_ofNat] at hop hbqf hbqfm hmix
    rcases hcase with ha | hb | ⟨hc, hbit⟩ | ⟨hd', hbit⟩ | ⟨he, hbit⟩ | ⟨h8, h9⟩ | ⟨h9, hrev⟩
    · omega
    · exact hb (headerReserved_eq_zero_iff.mp hlegal.reserved)
    · obtain ⟨h5, h6, h7⟩ := hbqf hc
      rcases hbit with hbit | hbit | hbit
      exacts [Bool.false_ne_true (h5.symm.trans hbit), Bool.false_ne_true (h6.symm.trans hbit),
        Bool.false_ne_true (h7.symm.trans hbit)]
    · exact Bool.false_ne_true ((hbqfm hd').symm.trans hbit)
    · exact Bool.false_ne_true (hbit.symm.trans (hmix (by omega)))
    · exact Bool.false_ne_true ((hlegal.floats h8).symm.trans h9)
    · exact absurd (hlegal.revision h9) (Int.not_le.mpr hrev)

/-! ### The opcode map (R90) -/

/-- Two rows that select one header word are the same: no other two agree on the bits that both masks keep. -/
theorem headerRow_eq_of_selects {r r' : HeaderRow} {w : BitVec 32} (hr : r ∈ headerRows) (hr' : r' ∈ headerRows)
    (h : r.selects w = true) (h' : r'.selects w = true) : r = r' := by
  have hdistinct : ∀ r ∈ headerRows, ∀ r' ∈ headerRows,
      r.pattern &&& r'.mask = r'.pattern &&& r.mask → r = r' := by decide
  rw [HeaderRow.selects, beq_iff_eq] at h h'
  refine hdistinct r hr r' hr' ?_
  rw [← h, ← h', BitVec.and_assoc, BitVec.and_assoc, BitVec.and_comm r.mask]

theorem headerRow_eq_of_mnemonic {r r' : HeaderRow} (hr : r ∈ headerRows) (hr' : r' ∈ headerRows)
    (h : r.mnemonic = r'.mnemonic) : r = r' := by
  have hdistinct : ∀ r ∈ headerRows, ∀ r' ∈ headerRows, r.mnemonic = r'.mnemonic → r = r' := by decide
  exact hdistinct r hr r' hr' h

/-- Every command has its row. -/
theorem exists_headerRow (i : Instr) :
    ∃ r ∈ headerRows, r.mnemonic = i.mnemonic ∧ r.selects i.header = true ∧ r.float = i.useFloatCoefficients := by
  cases i with
  | bqfI o c => exact Laws.HeaderRow.bqfI o c
  | bqfD o c => exact Laws.HeaderRow.bqfD o c
  | bqfDF o c => exact Laws.HeaderRow.bqfDF o c
  | bqfm o c => exact Laws.HeaderRow.bqfm o c
  | bqfmF o c => exact Laws.HeaderRow.bqfmF o c
  | bqfmR o c => exact Laws.HeaderRow.bqfmR o c
  | bqfmRF o c => exact Laws.HeaderRow.bqfmRF o c
  | mtbqfm o c0 c1 => exact Laws.HeaderRow.mtbqfm o c0 c1
  | mtbqfmF o c0 c1 => exact Laws.HeaderRow.mtbqfmF o c0 c1
  | mtbqfmR o c0 c1 => exact Laws.HeaderRow.mtbqfmR o c0 c1
  | mtbqfmRF o c0 c1 => exact Laws.HeaderRow.mtbqfmRF o c0 c1

/-- A decoded descriptor is selected by the row of its command, and the revision is one the row asks for. -/
theorem exists_headerRow_of_decode {hwRev : Int} {d : Descriptor} {i : Instr} (hd : d.wellFormed = true)
    (h : decode hwRev d = .ok i) :
    ∃ r ∈ headerRows, r.mnemonic = i.mnemonic ∧ r.selects (d.word 0) = true ∧ (r.float = true → 15 ≤ hwRev) := by
  obtain ⟨r, hr, hmnemonic, hsel, hfloat⟩ := exists_headerRow i
  refine ⟨r, hr, hmnemonic, decode_ok_header hd h ▸ hsel, fun hf => ?_⟩
  simpa [Instr.wellFormed, ← hfloat, hf] using decode_wellFormed h

/-- What the mask of a row keeps: every field but `needs_init0`, `needs_init1` of the cascades and `is_first_mix_buffer` of
the mixes and cascades. -/
theorem headerRow_mask {r : HeaderRow} (hr : r ∈ headerRows) :
    headerOpcode r.mask = BitVec.allOnes 4 ∧ headerReserved r.mask = BitVec.allOnes 22 ∧ headerRamp r.mask = true ∧
      headerFloatProcessing r.mask = true ∧ headerFloatCoefficients r.mask = true ∧
      (headerOpcode r.pattern ≠ 3#4 → headerNeedsInit1 r.mask = true) ∧
      (headerOpcode r.pattern = 1#4 → headerFirst r.mask = true) := by
  revert r
  decide

/-- The pattern of a row is a legal header where the row's revision is. -/
theorem headerRow_pattern {r : HeaderRow} (hr : r ∈ headerRows) :
    headerError 15 r.pattern = none ∧ headerFloatCoefficients r.pattern = r.float := by
  revert r
  decide

/-- A header that a row selects has the fields of the row's pattern that the mask keeps, and is legal with the pattern. -/
theorem headerLegal_of_selects {hwRev : Int} {r : HeaderRow} {w : BitVec 32} (hr : r ∈ headerRows)
    (h : r.selects w = true) (hrev : r.float = true → 15 ≤ hwRev) : HeaderLegal hwRev w := by
  obtain ⟨mop, mres, mr, mp, mc, m1, mf⟩ := headerRow_mask hr
  obtain ⟨hnone, hfloat⟩ := headerRow_pattern hr
  have hlegal := headerError_eq_none_iff.mp hnone
  rw [← (beq_iff_eq.mp h : w &&& r.mask = r.pattern)] at hlegal hfloat m1 mf
  have hop : headerOpcode (w &&& r.mask) = headerOpcode w := by rw [headerOpcode_and, mop, BitVec.and_allOnes]
  have hres : headerReserved (w &&& r.mask) = headerReserved w := by rw [headerReserved_and, mres, BitVec.and_allOnes]
  rw [hop] at m1 mf
  exact {
    opcode := hop ▸ hlegal.opcode
    reserved := hres ▸ hlegal.reserved
    bqf := fun h1 => by simpa [mr, mf h1, m1 (by simp [h1])] using hlegal.bqf (hop.trans h1)
    bqfm := fun h2 => by simpa [m1 (by simp [h2])] using hlegal.bqfm (hop.trans h2)
    mix := by simpa [hop, mp] using hlegal.mix
    floats := by simpa [mp, mc] using hlegal.floats
    revision := fun hf => hrev (by simpa [mc, hf] using hfloat.symm) }

/-- Settles O3: a decoded command's row selects its header and no other row does, and what a row selects is legal. -/
theorem rowsSelectTheirForms : Obligations.RowsSelectTheirForms := by
  refine ⟨fun hwRev d hd r hr => ⟨?_, ?_⟩, fun w => ?_, fun hwRev d hd hnone => ?_⟩
  · rintro ⟨i, hi, hmnemonic⟩
    obtain ⟨r', hr', hmnemonic', hsel, hrev⟩ := exists_headerRow_of_decode hd hi
    obtain rfl := headerRow_eq_of_mnemonic hr hr' (hmnemonic.symm.trans hmnemonic'.symm)
    exact ⟨hsel, hrev⟩
  · rintro ⟨hsel, hrev⟩
    have hi := (decode_eq_ok_iff hd).mpr ⟨headerLegal_of_selects hr hsel hrev, rfl⟩
    obtain ⟨r', hr', hmnemonic, hsel', -⟩ := exists_headerRow_of_decode hd hi
    obtain rfl := headerRow_eq_of_selects hr hr' hsel hsel'
    exact ⟨_, hi, hmnemonic.symm⟩
  · have hnodup : (headerRows.filter fun r => r.selects w).Nodup := List.Nodup.filter _ (by decide)
    rw [← List.toFinset_card_of_nodup hnodup, Finset.card_le_one]
    simp only [List.mem_toFinset, List.mem_filter]
    exact fun r ⟨hr, hsel⟩ r' ⟨hr', hsel'⟩ => headerRow_eq_of_selects hr hr' hsel hsel'
  · rw [exists_decode_error_iff hd]
    intro hlegal
    obtain ⟨r, hr, -, hsel, -⟩ := exists_headerRow_of_decode hd ((decode_eq_ok_iff hd).mpr ⟨hlegal, rfl⟩)
    exact Bool.false_ne_true ((hnone r hr).symm.trans hsel)

/-! ### What a descriptor stands for (R82 to R85) -/

/-- Settles O4: the record of a legal header is built from the words its format uses, and from no others. -/
theorem unusedWordsAreIgnored : Obligations.UnusedWordsAreIgnored := by
  intro hwRev d d' hd hd' h0 opcode h1 h2 hmix hmt hslots
  refine decode_congr hd hd' h0 fun hlegal => ?_
  have hq0 : d.q14At 10 = d'.q14At 10 := q14At_congr fun k _ _ => (hslots k (by omega) (by split <;> omega)).1
  have hf0 (hc : headerFloatCoefficients (d.word 0) = true) : d.f32At 10 = d'.f32At 10 :=
    f32At_congr fun k _ _ => (hslots k (by omega) (by split <;> omega)).2 hc
  rcases hlegal.cases with ⟨n0, p, c, hw, -⟩ | ⟨n0, r, f, c, hw⟩ | ⟨n0, n1, r, f, c, hw⟩
  · rw [build_bqf hw, build_bqf (h0 ▸ hw), bqfOperands_congr h0 h1 h2, hq0]
    cases c with
    | false => rfl
    | true => rw [hf0 (by simp [hw])]
  · have hop : opcode = 2 := headerOpcode_eq_iff.mp (show headerOpcode (d.word 0) = 2#4 by simp [hw])
    obtain ⟨h4, h69⟩ := hmix (.inl hop)
    rw [build_bqfm hw, build_bqfm (h0 ▸ hw), bqfmOperands_congr h0 h1 h2 h4 h69, hq0]
    cases c with
    | false => rfl
    | true => rw [hf0 (by simp [hw])]
  · have hop : opcode = 3 := headerOpcode_eq_iff.mp (show headerOpcode (d.word 0) = 3#4 by simp [hw])
    obtain ⟨h4, h69⟩ := hmix (.inr hop)
    obtain ⟨h3, h5⟩ := hmt hop
    rw [if_pos hop] at hslots
    have hq1 : d.q14At 15 = d'.q14At 15 := q14At_congr fun k _ _ => (hslots k (by omega) (by omega)).1
    rw [build_mtbqfm hw, build_mtbqfm (h0 ▸ hw), mtOperands_congr h0 h1 h2 h3 h4 h5 h69, hq0, hq1]
    cases c with
    | false => rfl
    | true =>
      have hc : headerFloatCoefficients (d.word 0) = true := by simp [hw]
      have hf1 : d.f32At 15 = d'.f32At 15 := f32At_congr fun k _ _ => (hslots k (by omega) (by omega)).2 hc
      rw [hf0 hc, hf1]

/-- Settles O5: the words of R82 to R84 are read one by one. -/
theorem writtenDescriptorsDecode : Obligations.WrittenDescriptorsDecode :=
  ⟨rfl, rfl, rfl⟩

/-! ### The reserved operation (R91) -/

/-- Settles O12: the reserved select latches nothing and is refused in every state. -/
theorem reservedSelectIsRefused : Obligations.ReservedSelectIsRefused :=
  fun _ _ hhost => step_hostOp hhost

end Sys2Proof.Machine

/-! ## The coefficient codec (40_coeff_codec.md) -/

namespace Sys2Proof.Machine

/-! ### Units, signs and magnitudes -/

theorem signedUnits_mul_natCast (negative : Bool) (u n : Nat) :
    signedUnits negative u * (n : Int) = signedUnits negative (u * n) :=
  (signedUnits_mul negative false u n).trans (by rw [Bool.xor_false])

theorem f64_eq_of_sign_abs {a b : F64} (hsign : f64Sign a = f64Sign b) (habs : f64Abs a = f64Abs b) : a = b :=
  f64_ext hsign ((magUnits_strictMono fracBits64).injective habs)

/-- An encoding of `2^-14` or more is normal. -/
theorem normal_of_one64_le {a : F64} (h : one64 ≤ f64Abs a * 16384) : 2 ^ 52 ≤ f64Mag a := by
  by_contra hlt
  obtain ⟨e, he⟩ : ∃ e, e = 1074 := ⟨_, rfl⟩
  have hbig : 2 ^ 66 ≤ 2 ^ e := Nat.pow_le_pow_right (by decide) (by omega)
  rw [f64Abs, fracBits64, magUnits_small (by omega), one64_eq_pow he] at h
  omega

/-! ### Q14 coefficients (R111) -/

theorem twoTo14_encoding : twoTo14 = 0x40D0000000000000#64 := by
  obtain ⟨_, habs, hsign⟩ := intToF64_exact (n := 16384) (by decide)
  obtain ⟨e, he⟩ : ∃ e, e = 1036 := ⟨_, rfl⟩
  have hmag : f64Mag 0x40D0000000000000#64 = e * 2 ^ 52 + 2 ^ 52 := by rw [he]; decide
  have hone : 2 ^ 52 * 2 ^ e = 16384 * one64 := by
    rw [one64_eq_pow (n := e + 38) (by omega), Nat.pow_add]
    ring
  refine f64_eq_of_sign_abs (hsign.trans (by decide)) (habs.trans ?_)
  rw [f64Abs, hmag, fracBits64, magUnits_place 52 e (2 ^ 52) (.inr le_rfl) (by decide), hone]
  rfl

/-- The draw number of the decoding is idle: the quotient is no NaN. -/
theorem q14ToF64_eq_fdiv (c : S16) (k : Nat) :
    q14ToF64 c = fdiv k (i32ToF64 (c.signExtend 32)) 0x40D0000000000000#64 := by
  have hdef : q14ToF64 c = fdiv 0 (i32ToF64 (c.signExtend 32)) 0x40D0000000000000#64 := by
    rw [q14ToF64, twoTo14_encoding]
  have hnan := (f64_finite_kind (q14ToF64_exact c).1).1
  rw [hdef] at hnan ⊢
  exact (fdiv_draw k hnan).symm

theorem q14ToF64_units (c : S16) : f64Units (q14ToF64 c) * 16384 = c.toInt * (one64 : Int) := by
  obtain ⟨_, habs, hsign⟩ := q14ToF64_exact c
  calc f64Units (q14ToF64 c) * 16384
      = signedUnits (decide (c.toInt < 0)) (f64Abs (q14ToF64 c) * 16384) := by
        rw [f64Units_eq, hsign]; exact signedUnits_mul_natCast _ _ 16384
    _ = c.toInt * (one64 : Int) := by rw [habs, ← signedUnits_mul_natCast, signedUnits_decide]

theorem q14ToF64_normal {c : S16} (hc : c ≠ 0#16) : 2 ^ 52 ≤ f64Mag (q14ToF64 c) := by
  have hpos : 0 < c.toInt.natAbs := Int.natAbs_pos.mpr fun h => hc (BitVec.eq_of_toInt_eq (h.trans (by decide)))
  refine normal_of_one64_le ?_
  rw [(q14ToF64_exact c).2.1]
  exact Nat.le_mul_of_pos_left one64 hpos

theorem q14ToF64_zero : q14ToF64 0#16 = 0#64 := by
  obtain ⟨_, habs, hsign⟩ := q14ToF64_exact 0#16
  refine f64_eq_of_sign_abs (hsign.trans (by decide)) ?_
  have hzero : f64Abs 0#64 = 0 := magUnits_zero _
  simpa [hzero] using habs

/-- Settles O30: the quotient by `2^14` of a 16-bit integer is representable, and far above the subnormals unless zero. -/
theorem q14DecodesExactly : Obligations.Q14DecodesExactly :=
  fun c k => ⟨q14ToF64_eq_fdiv c k, (q14ToF64_exact c).1, q14ToF64_units c, q14ToF64_normal,
    fun hc => hc ▸ q14ToF64_zero⟩

/-! ### Float coefficients (R113) -/

theorem f32ToF64_units (k : Nat) {v : F32} (h : f32IsFinite v = true) :
    f64Units (f32ToF64 k v) = f32Units v * (unit32 : Int) := by
  obtain ⟨_, habs, hsign⟩ := f32ToF64_exact k h
  rw [f64Units_eq, habs, hsign, f32Units_eq, signedUnits_mul_natCast]

theorem f32_inf_not_nan {v : F32} (h : f32IsInf v = true) : f32IsNaN v = false := by
  rw [f32IsInf, beq_iff_eq] at h
  rw [f32IsNaN, h]
  decide

theorem f32ToF64_inf (k : Nat) {v : F32} (h : f32IsInf v = true) : f32ToF64 k v = f64Pack (f32Sign v) infMag64 := by
  simp [f32ToF64, h, f32_inf_not_nan h]

theorem f32ToF64_nan (k : Nat) {v : F32} (h : f32IsNaN v = true) : f32ToF64 k v = f64FreeNaN k := by
  rw [f32ToF64, if_pos h]

/-- Settles O31, one clause per kind of float. -/
theorem floatWidensExactly : Obligations.FloatWidensExactly := by
  refine fun v k => ⟨fun hfin => ?_, fun hinf => ?_, fun hnan => ?_⟩
  · obtain ⟨hfin', -, hsign⟩ := f32ToF64_exact k hfin
    exact ⟨hfin', f32ToF64_units k hfin, hsign⟩
  · rw [f32ToF64_inf k hinf]
    exact f64Pack_inf _
  · rw [f32ToF64_nan k hnan]
    exact f64IsNaN_free k

end Sys2Proof.Machine

/-! ## The single filter's kernels (41_single_filter_kernels.md)

### The recurrence (R121) -/

namespace Sys2Proof.Machine

/-- Settles O37: the products and sums are the definition of the output, and a step writes no register but its filter's
delay line. -/
theorem recurrenceStep : Obligations.RecurrenceStep := by
  intro t u xin s
  refine ⟨rfl, ?_, ?_, fun hne => ?_⟩
  · cases t <;> rfl
  · cases t <;> cases u <;> rfl
  · cases t <;> cases u
    case t0.t0 | t1.t1 => exact absurd rfl hne
    case t0.t1 | t1.t0 => rfl

/-! ### The rounding of the integer kernel (R124, R125) -/

theorem wrapInt64_of_range {z : Int} (hlo : -2 ^ 63 ≤ z) (hhi : z < 2 ^ 63) : wrapInt64 z = z :=
  Int.bmod_eq_of_le (by omega) (by omega)

/-- Adding a half and flooring is rounding to the nearest whole number, a half going up (R125 e). -/
theorem add_half_ediv_nearest (v : Int) :
    2 * |16384 * ((v + 8192) / 16384) - v| ≤ 16384 ∧ 2 * (16384 * ((v + 8192) / 16384) - v) ≠ -16384 := by
  have habs : |16384 * ((v + 8192) / 16384) - v| ≤ 8192 := abs_le.mpr ⟨by omega, by omega⟩
  exact ⟨by omega, by omega⟩

/-- Settles O21: without a wrap the rounding is the floor of the sum and a half, clamped. -/
theorem integerOutputRoundsToNearest : Obligations.IntegerOutputRoundsToNearest := by
  intro v hv
  obtain ⟨hnear, htie⟩ := add_half_ediv_nearest v.toInt
  have hlo := BitVec.le_toInt v
  refine ⟨(v.toInt + 8192) / 16384, hnear, htie, ?_⟩
  rw [roundQ14_eq, wrapInt64_of_range (by omega) (by omega), int32Min, int32Max]

/-! ### A single filter's `Process` (R127, R128, R129) -/

/-- The entry a `BQF` filters from, as prepared (R184). -/
def startEntry (o : BqfOperands) (s : State) : Entry := if o.needsInit0 then Entry.zero else readEntry o.state0 s

theorem startEntry_of_init {o : BqfOperands} (h : o.needsInit0 = true) (s : State) : startEntry o s = Entry.zero :=
  if_pos h

theorem startEntry_false (o : BqfOperands) (s : State) :
    startEntry { o with needsInit0 := false } s = readEntry o.state0 s := if_neg Bool.false_ne_true

theorem readEntry_prepPlain_start (o : BqfOperands) (s : State) :
    readEntry o.state0 (prepPlain o.state0 o.needsInit0 s) = startEntry o s := by
  simp [readEntry_prepPlain, startEntry]

theorem KernelKeeps.srf {output : S16} {s t : State} (h : KernelKeeps output s t) : t.srf = s.srf := by rw [h.keeps]

theorem KernelKeeps.frame {output : S16} {s t : State} (h : KernelKeeps output s t) : t.frame = s.frame := by
  rw [h.keeps]

/-- The integer kernel's block on samples and 16-bit coefficients (R114, R124). -/
def integerBlock (wrap : Int → Int) (c : Q14Params) (acc0 acc1 : Int) (xs : List S32) : List Int × Int × Int :=
  kiList wrap c.b0.toInt c.b1.toInt c.b2.toInt c.a0.toInt c.a1.toInt acc0 acc1 (xs.map BitVec.toInt)

/-- What a `BQF.I` leaves (R127), with the integer kernel over a block as a function. -/
structure IntegerFilteredBy (o : BqfOperands) (c : Q14Params) (s t : State) : Prop where
  result : t.result = some .done
  stored : (samples o.output t).map BitVec.toInt =
    (integerBlock wrapInt64 c (startEntry o s).w0.toInt (startEntry o s).w1.toInt (samples o.input s)).1
  acc0 : (readEntry o.state0 t).w0.toInt =
    (integerBlock wrapInt64 c (startEntry o s).w0.toInt (startEntry o s).w1.toInt (samples o.input s)).2.1
  acc1 : (readEntry o.state0 t).w1.toInt =
    (integerBlock wrapInt64 c (startEntry o s).w0.toInt (startEntry o s).w1.toInt (samples o.input s)).2.2
  w2 : (readEntry o.state0 t).w2 = (startEntry o s).w2
  w3 : (readEntry o.state0 t).w3 = (startEntry o s).w3

/-- The integer form's persist: words 0 and 1 (R186). -/
theorem readEntry_persistAcc (h : Handle) (s : State) :
    readEntry h (persistAcc h s) = ⟨s.work.d0.s0, s.work.d0.s1, (readEntry h s).w2, (readEntry h s).w3⟩ := by
  simp only [readEntry, persistAcc]
  rw [readSrfWord_writeSrfWord_ne _ _ (by decide) (by decide) (.inr (by decide)), readSrfWord_writeSrfWord_same,
    readSrfWord_writeSrfWord_same, readSrfWord_writeSrfWord_ne _ _ (by decide) (by decide) (.inr (by decide)),
    readSrfWord_writeSrfWord_ne _ _ (by decide) (by decide) (.inr (by decide)),
    readSrfWord_writeSrfWord_ne _ _ (by decide) (by decide) (.inr (by decide)),
    readSrfWord_writeSrfWord_ne _ _ (by decide) (by decide) (.inr (by decide))]

/-- The state in which the integer kernel starts (R127): the entry prepared, coefficients and accumulators loaded. -/
def integerLoaded (o : BqfOperands) (c : Q14Params) (s : State) : State :=
  loadAcc (startEntry o s) (loadInt c (prepPlain o.state0 o.needsInit0 s))

theorem stepsOf_bqfI (o : BqfOperands) (c : Q14Params) (s : State) :
    stepsOf (.bqfI o c) s = persistAcc o.state0 (kernelKI o.input o.output (integerLoaded o c s)) := by
  rw [integerLoaded, ← readEntry_prepPlain_start]
  rfl

theorem samples_integerLoaded (k : S16) (o : BqfOperands) (c : Q14Params) (s : State) :
    samples k (integerLoaded o c s) = samples k s := samples_congr (by simp [integerLoaded]) (by simp [integerLoaded]) k

theorem readEntry_integerLoaded (o : BqfOperands) (c : Q14Params) (s : State) :
    readEntry o.state0 (integerLoaded o c s) = startEntry o s := by
  rw [← readEntry_prepPlain_start]
  exact readEntry_congr (by simp [integerLoaded]) _

theorem toInt_signExtend64 (v : S16) : (v.signExtend 64).toInt = v.toInt := BitVec.toInt_signExtend_of_le (by decide)

/-- The integer kernel of a `BQF.I` is its block from the entry as prepared. -/
theorem kernelKI_integerLoaded {o : BqfOperands} (c : Q14Params) (hin : 0 ≤ o.input.toInt) (hout : 0 ≤ o.output.toInt)
    (s : State) :
    let t := kernelKI o.input o.output (integerLoaded o c s)
    let e := startEntry o s
    let r := integerBlock wrapInt64 c e.w0.toInt e.w1.toInt (samples o.input s)
    (samples o.output t).map BitVec.toInt = r.1 ∧ t.work.d0.s0.toInt = r.2.1 ∧ t.work.d0.s1.toInt = r.2.2 := by
  obtain ⟨hstored, hacc0, hacc1, -, -⟩ := kernelKI_spec hin hout (integerLoaded o c s)
  have hc0 : (integerLoaded o c s).work.c0 = decodeInt c := by simp [integerLoaded]
  have hs0 : (integerLoaded o c s).work.d0.s0 = (startEntry o s).w0 := by simp [integerLoaded]
  have hs1 : (integerLoaded o c s).work.d0.s1 = (startEntry o s).w1 := by simp [integerLoaded]
  simp only [hc0, hs0, hs1, samples_integerLoaded, decodeInt, toInt_signExtend64] at hstored hacc0 hacc1
  exact ⟨hstored, hacc0, hacc1⟩

theorem stepsOf_bqfI_integerFilteredBy {o : BqfOperands} (c : Q14Params) (hin : 0 ≤ o.input.toInt)
    (hout : 0 ≤ o.output.toInt) (s : State) : IntegerFilteredBy o c s (finish (stepsOf (.bqfI o c) s)) := by
  obtain ⟨hstored, hacc0, hacc1⟩ := kernelKI_integerLoaded c hin hout s
  have hentry : readEntry o.state0 (kernelKI o.input o.output (integerLoaded o c s)) = startEntry o s :=
    (readEntry_congr (kernelKI_keeps _ _ _).srf _).trans (readEntry_integerLoaded o c s)
  rw [stepsOf_bqfI]
  generalize kernelKI o.input o.output (integerLoaded o c s) = t at *
  have hread : readEntry o.state0 (finish (persistAcc o.state0 t)) =
      ⟨t.work.d0.s0, t.work.d0.s1, (startEntry o s).w2, (startEntry o s).w3⟩ := by
    rw [readEntry_congr (finish_srf _), readEntry_persistAcc, hentry]
  have hsamples : samples o.output (finish (persistAcc o.state0 t)) = samples o.output t :=
    samples_congr (by simp) (by simp) _
  exact
    { result := rfl
      stored := by rw [hsamples]; exact hstored
      acc0 := by rw [hread]; exact hacc0
      acc1 := by rw [hread]; exact hacc1
      w2 := by rw [hread]
      w3 := by rw [hread] }

/-- An accepted `BQF.I` completes with the integer kernel's block. -/
theorem exec_bqfI {o : BqfOperands} {c : Q14Params} {s : State} (h : CommandOk (.bqfI o c) s) :
    ∃ t, exec (.bqfI o c) s = .next t ∧ IntegerFilteredBy o c s t :=
  ⟨_, exec_ok h, stepsOf_bqfI_integerFilteredBy c h.input.1 h.output.1 s⟩

/-- Settles O19: the load, the kernel's loop and the persist in turn (R127). -/
theorem integerFilterResult : Obligations.IntegerFilterResult := by
  intro o c s hok
  obtain ⟨t, hexec, h⟩ := exec_bqfI hok
  exact ⟨t, hexec, h.result, h.stored, h.acc0, h.acc1, h.w2, h.w3⟩

/-! ### The integer kernel without wraps (R125) -/

/-- The output of the integer kernel for a sample. -/
def integerOutput (wrap : Int → Int) (c : Q14Params) (acc0 : Int) (x : S32) : Int :=
  max int32Min (min int32Max (wrap (wrap (x.toInt * c.b0.toInt + acc0) + 8192) / 16384))

/-- The first accumulator after a sample. -/
def integerAcc0 (wrap : Int → Int) (c : Q14Params) (acc0 acc1 : Int) (x : S32) : Int :=
  wrap (acc1 + c.b1.toInt * x.toInt + c.a0.toInt * integerOutput wrap c acc0 x)

/-- The second accumulator after a sample. -/
def integerAcc1 (wrap : Int → Int) (c : Q14Params) (acc0 : Int) (x : S32) : Int :=
  wrap (c.b2.toInt * x.toInt + c.a1.toInt * integerOutput wrap c acc0 x)

theorem integerBlock_cons (wrap : Int → Int) (c : Q14Params) (acc0 acc1 : Int) (x : S32) (xs : List S32) :
    integerBlock wrap c acc0 acc1 (x :: xs) =
      (let r := integerBlock wrap c (integerAcc0 wrap c acc0 acc1 x) (integerAcc1 wrap c acc0 x) xs
       (integerOutput wrap c acc0 x :: r.1, r.2)) := by
  simp only [integerBlock, List.map_cons, kiList, integerOutput, integerAcc0, integerAcc1]

/-- A 16-bit coefficient times a 32-bit value is within `2^46` (R125 b). -/
theorem product_bound (b : S16) {x : Int} (hlo : int32Min ≤ x) (hhi : x ≤ int32Max) : |b.toInt * x| ≤ 2 ^ 46 := by
  rw [int32Min] at hlo
  rw [int32Max] at hhi
  have hb : |b.toInt| ≤ 2 ^ 15 := abs_le.mpr ⟨BitVec.le_toInt b, (BitVec.toInt_lt (x := b)).le⟩
  have hx : |x| ≤ 2 ^ 31 := abs_le.mpr ⟨by omega, by omega⟩
  calc |b.toInt * x| = |b.toInt| * |x| := abs_mul _ _
    _ ≤ 2 ^ 15 * 2 ^ 31 := Int.mul_le_mul hb hx (abs_nonneg _) (by decide)
    _ = 2 ^ 46 := by norm_num

theorem sample_range (x : S32) : int32Min ≤ x.toInt ∧ x.toInt ≤ int32Max := by
  have hhi := BitVec.toInt_lt (x := x)
  exact ⟨BitVec.le_toInt x, by rw [int32Max]; omega⟩

theorem integerOutput_range (wrap : Int → Int) (c : Q14Params) (acc0 : Int) (x : S32) :
    int32Min ≤ integerOutput wrap c acc0 x ∧ integerOutput wrap c acc0 x ≤ int32Max := by
  rw [integerOutput, int32Min, int32Max]
  omega

/-- From a bounded accumulator the output's two sums do not wrap. -/
theorem integerOutput_noWrap (c : Q14Params) {acc0 : Int} (h0 : |acc0| ≤ 2 ^ 48) (x : S32) :
    integerOutput wrapInt64 c acc0 x = integerOutput id c acc0 x := by
  obtain ⟨hlo, hhi⟩ := abs_le.mp (product_bound c.b0 (sample_range x).1 (sample_range x).2)
  obtain ⟨hlo0, hhi0⟩ := abs_le.mp h0
  rw [mul_comm] at hlo hhi
  rw [integerOutput, wrapInt64_of_range (z := x.toInt * c.b0.toInt + acc0) (by omega) (by omega),
    wrapInt64_of_range (by omega) (by omega)]
  rfl

/-- Nor do the accumulators' sums, which stay bounded (R125 c). -/
theorem integerAccs_noWrap (c : Q14Params) {acc0 acc1 : Int} (h0 : |acc0| ≤ 2 ^ 48) (h1 : |acc1| ≤ 2 ^ 47) (x : S32) :
    integerAcc0 wrapInt64 c acc0 acc1 x = integerAcc0 id c acc0 acc1 x ∧
      integerAcc1 wrapInt64 c acc0 x = integerAcc1 id c acc0 x ∧
      |integerAcc0 id c acc0 acc1 x| ≤ 2 ^ 48 ∧ |integerAcc1 id c acc0 x| ≤ 2 ^ 47 := by
  obtain ⟨hxlo, hxhi⟩ := sample_range x
  obtain ⟨holo, hohi⟩ := integerOutput_range id c acc0 x
  simp only [integerAcc0, integerAcc1, integerOutput_noWrap c h0, id]
  generalize integerOutput id c acc0 x = o at *
  obtain ⟨hb1, hb1'⟩ := abs_le.mp (product_bound c.b1 hxlo hxhi)
  obtain ⟨hb2, hb2'⟩ := abs_le.mp (product_bound c.b2 hxlo hxhi)
  obtain ⟨ha0, ha0'⟩ := abs_le.mp (product_bound c.a0 holo hohi)
  obtain ⟨ha1, ha1'⟩ := abs_le.mp (product_bound c.a1 holo hohi)
  obtain ⟨hlo1, hhi1⟩ := abs_le.mp h1
  exact ⟨wrapInt64_of_range (by omega) (by omega), wrapInt64_of_range (by omega) (by omega),
    abs_le.mpr ⟨by omega, by omega⟩, abs_le.mpr ⟨by omega, by omega⟩⟩

/-- From bounded accumulators a block is that of unwrapped integers, and ends with bounded accumulators. -/
theorem integerBlock_noWrap (c : Q14Params) {acc0 acc1 : Int} (h0 : |acc0| ≤ 2 ^ 48) (h1 : |acc1| ≤ 2 ^ 47)
    (xs : List S32) :
    integerBlock wrapInt64 c acc0 acc1 xs = integerBlock id c acc0 acc1 xs ∧
      |(integerBlock id c acc0 acc1 xs).2.1| ≤ 2 ^ 48 ∧ |(integerBlock id c acc0 acc1 xs).2.2| ≤ 2 ^ 47 := by
  induction xs generalizing acc0 acc1 with
  | nil => exact ⟨rfl, h0, h1⟩
  | cons x xs ih =>
    obtain ⟨hacc0, hacc1, hbound0, hbound1⟩ := integerAccs_noWrap c h0 h1 x
    obtain ⟨hrest, hend⟩ := ih hbound0 hbound1
    simp only [integerBlock_cons, integerOutput_noWrap c h0, hacc0, hacc1, hrest]
    exact ⟨trivial, hend⟩

/-- A `BQF.I` with `needs_init` starts from zero accumulators, so it computes on unwrapped integers. -/
theorem integerBlock_init {o : BqfOperands} (h : o.needsInit0 = true) (c : Q14Params) (s : State) (xs : List S32) :
    integerBlock wrapInt64 c (startEntry o s).w0.toInt (startEntry o s).w1.toInt xs = integerBlock id c 0 0 xs := by
  rw [startEntry_of_init h]
  exact (integerBlock_noWrap c (by decide) (by decide) xs).1

/-- Settles O20: zero accumulators are within the bounds that every sample keeps. -/
theorem integerFilterDoesNotWrapFromZero : Obligations.IntegerFilterDoesNotWrapFromZero := by
  intro o c s hok hinit
  obtain ⟨t, hexec, h⟩ := exec_bqfI hok
  obtain ⟨-, hstored, hacc0, hacc1, -, -⟩ := h
  rw [integerBlock_init hinit] at hstored hacc0 hacc1
  obtain ⟨-, hbound⟩ := integerBlock_noWrap c (acc0 := 0) (acc1 := 0) (by decide) (by decide) (samples o.input s)
  exact ⟨t, hexec, hstored, hacc0, hacc1, hbound⟩

/-! ### The double-precision forms (R128, R129) -/

/-- What a double-precision form of `BQF` does, its coefficients `c` and the `n` draws of its codec given: an accepted one
completes with the filtered block, and its kernel takes ten draws a sample. -/
def RunsFilter (i : Instr) (o : BqfOperands) (c : Nat → Coeffs) (n : Nat) : Prop :=
  ∀ s, CommandOk i s → ∃ t, exec i s = .next t ∧ FilteredBy o (c s.draw) (s.draw + n) s t ∧
    t.draw = s.draw + n + 10 * s.frame.toNat

/-- The double kernel of a `BQF` is its block from the entry as prepared. -/
theorem kernelKD_loadFilter {codec : State → State} {c : Nat → Coeffs} {n : Nat} (hc : LoadsFirst codec c n)
    {o : BqfOperands} (hin : 0 ≤ o.input.toInt) (hout : 0 ≤ o.output.toInt) (s : State) :
    let t := kernelKD o.input o.output (loadFilter o.state0 codec (prepPlain o.state0 o.needsInit0 s))
    let r := kdList (s.draw + n) (c s.draw) (startEntry o s).toDelay (samples o.input s)
    samples o.output t = r.1 ∧ t.work.d0 = r.2 ∧ t.draw = s.draw + n + 10 * s.frame.toNat := by
  have hloaded := loadFilter_eq hc o.state0 (prepPlain o.state0 o.needsInit0 s)
  simp only [prepPlain_draw, readEntry_prepPlain_start] at hloaded
  have hsamples : samples o.input (loadFilter o.state0 codec (prepPlain o.state0 o.needsInit0 s)) = samples o.input s :=
    samples_congr (by simp [hloaded]) (by simp [hloaded]) _
  obtain ⟨hstored, hwork, hdraw⟩ :=
    kernelKD_spec hin hout (loadFilter o.state0 codec (prepPlain o.state0 o.needsInit0 s))
  have hd0 := congrArg Work.d0 hwork
  rw [hsamples] at hstored hd0
  simp only [hloaded, prepPlain_frame] at hstored hd0 hdraw ⊢
  exact ⟨hstored, hd0, hdraw⟩

/-- A form whose steps are `filterSteps` around a codec runs the filter. -/
theorem filterSteps_runsFilter {i : Instr} {o : BqfOperands} {codec : State → State} {c : Nat → Coeffs} {n : Nat}
    (hc : LoadsFirst codec c n) (hin : i.input = o.input) (hout : i.output = o.output)
    (hsteps : stepsOf i = filterSteps o codec) : RunsFilter i o c n := by
  intro s hok
  have hinput := hok.input.1
  have houtput := hok.output.1
  rw [hin] at hinput
  rw [hout] at houtput
  obtain ⟨hstored, hd0, hdraw⟩ := kernelKD_loadFilter hc hinput houtput s
  refine ⟨_, exec_ok hok, ?_, ?_⟩
  · rw [hsteps, filterSteps]
    generalize kernelKD o.input o.output _ = t at hstored hd0 ⊢
    exact
      { result := rfl
        stored := (samples_congr (by simp) (by simp) _).trans hstored
        entry := by
          rw [readEntry_congr (finish_srf _), persistState, readEntry_writeEntry_same, persistedEntry, delay_t0, hd0]
          rfl }
  · rw [hsteps, filterSteps, finish_draw, persistState_draw, hdraw]

theorem bqfD_runsFilter (o : BqfOperands) (c : Q14Params) : RunsFilter (.bqfD o c) o (fun _ => decodeQ14 c) 0 :=
  filterSteps_runsFilter (loadQ14_loadsFirst c) rfl rfl (stepsOf_bqfD o c)

theorem bqfDF_runsFilter (o : BqfOperands) (c : F32Params) : RunsFilter (.bqfDF o c) o (fun k => decodeF32 k c) 5 :=
  filterSteps_runsFilter (loadF32_loadsFirst c) rfl rfl (stepsOf_bqfDF o c)

/-- Settles O22: both forms are the same steps around their codec. -/
theorem doubleFilterResult : Obligations.DoubleFilterResult := by
  refine fun o s => ⟨fun c hok => ?_, fun c hok => ?_⟩
  · obtain ⟨t, hexec, h, -⟩ := bqfD_runsFilter o c s hok
    exact ⟨t, hexec, h⟩
  · obtain ⟨t, hexec, h, -⟩ := bqfDF_runsFilter o c s hok
    exact ⟨t, hexec, h⟩

/-! ### The first sample after `needs_init` (R131) -/

/-- The same value, but that a zero may have either sign. -/
def EqUpToZeroSign (a b : F64) : Prop := a = b ∨ (f64IsZero a = true ∧ f64IsZero b = true)

/-- Adding a zero of either sign changes at most the sign of a zero. -/
theorem EqUpToZeroSign.fadd_zero {a b z : F64} (h : EqUpToZeroSign a b) (hb : f64IsNaN b = false)
    (hz : f64IsZero z = true) (k : Nat) : EqUpToZeroSign (fadd k a z) b := by
  have hzeros (ha : f64IsZero a = true) (hb0 : f64IsZero b = true) : EqUpToZeroSign (fadd k a z) b := by
    rw [fadd_zeros k ha hz]
    exact .inr ⟨(f64Pack_zero _).1, hb0⟩
  rcases h with rfl | ⟨ha, hb0⟩
  · cases ha : f64IsZero a with
    | true => exact hzeros ha ha
    | false => exact .inl (fadd_zero_right k hb ha hz)
  · exact hzeros ha hb0

theorem satS32_zero (k : Nat) {z : F64} (h : f64IsZero z = true) : satS32 k z = 0#32 := by
  have hunits := f64Units_zero h
  obtain ⟨hnan, -, hfin⟩ := zero_kind h
  have hpos := one64_cast_pos
  have hlo : int32Min * (one64 : Int) ≤ f64Units z := by rw [hunits, int32Min]; omega
  have hhi : f64Units z ≤ int32Max * (one64 : Int) := by rw [hunits, int32Max]; omega
  have hclamp : f64ClampUnits z = 0 := (f64ClampUnits_within hfin hlo hhi).trans hunits
  rw [satS32, hnan, hclamp]
  simp

/-- Saturation does not see the sign of a zero (R131). -/
theorem EqUpToZeroSign.satS32_eq {a b : F64} (h : EqUpToZeroSign a b) (hb : f64IsNaN b = false) (k j : Nat) :
    satS32 k a = satS32 j b := by
  rcases h with rfl | ⟨ha, hb0⟩
  · rw [satS32, satS32, hb]
    rfl
  · rw [satS32_zero k ha, satS32_zero j hb0]

theorem fmul_comm (k : Nat) (a b : F64) : fmul k a b = fmul k b a := by
  simp only [fmul, Bool.or_comm (f64IsNaN a), Bool.or_comm (f64IsInf a), Bool.or_comm (f64IsZero a),
    Bool.xor_comm (f64Sign a), Nat.mul_comm (f64Abs a)]

/-- A zero of the delay line times a finite coefficient is a zero. -/
theorem f64IsZero_zero_fmul (k : Nat) {b : F64} (hb : f64IsFinite b = true) : f64IsZero (fmul k 0#64 b) = true := by
  rw [fmul_comm, fmul_zero k hb (by decide)]
  exact (f64Pack_zero _).1

/-- The coefficients of a filter are finite doubles. -/
def Coeffs.finite (c : Coeffs) : Prop := ∀ w ∈ [c.b0, c.b1, c.b2, c.a0, c.a1], f64IsFinite w = true

/-- From a zero delay line the four products besides the first are zeros (R131). -/
theorem biquadOutput_zeroDelay (k : Nat) {c : Coeffs} (hc : c.finite) {x : F64} (hp : f64IsNaN (fmul k x c.b0) = false) :
    EqUpToZeroSign (biquadOutput k c Entry.zero.toDelay x) (fmul k x c.b0) := by
  have hzero (j : Nat) {b : F64} (hb : b ∈ [c.b0, c.b1, c.b2, c.a0, c.a1]) : f64IsZero (fmul j 0#64 b) = true :=
    f64IsZero_zero_fmul j (hc b hb)
  have h1 := EqUpToZeroSign.fadd_zero (.inl rfl) hp (hzero (k + 1) (b := c.b1) (by simp)) (k + 5)
  have h2 := h1.fadd_zero hp (hzero (k + 2) (b := c.b2) (by simp)) (k + 6)
  have h3 := h2.fadd_zero hp (hzero (k + 3) (b := c.a0) (by simp)) (k + 7)
  exact h3.fadd_zero hp (hzero (k + 4) (b := c.a1) (by simp)) (k + 8)

theorem fmul_finite_not_nan (k : Nat) {a b : F64} (ha : f64IsFinite a = true) (hb : f64IsFinite b = true) :
    f64IsNaN (fmul k a b) = false := by
  rw [fmul_finite k ha hb, f64IsNaN_round]

/-- After `needs_init` a double-precision form with finite coefficients stores the first product, saturated. -/
theorem RunsFilter.head_of_init {i : Instr} {o : BqfOperands} {c : Nat → Coeffs} {n : Nat} (h : RunsFilter i o c n)
    (hinit : o.needsInit0 = true) {s t : State} {x0 : S32} (hx : (samples o.input s).head? = some x0)
    (hc : (c s.draw).finite) (hok : CommandOk i s) (hexec : exec i s = .next t) (k k' : Nat) :
    (samples o.output t).head? = some (satS32 k (fmul k' (i32ToF64 x0) (c s.draw).b0)) := by
  obtain ⟨xs, hxs⟩ := List.head?_eq_some_iff.mp hx
  obtain ⟨t', hexec', hfiltered, -⟩ := h s hok
  obtain rfl := Host.Outcome.next.inj (hexec'.symm.trans hexec)
  have hp (j : Nat) : f64IsNaN (fmul j (i32ToF64 x0) (c s.draw).b0) = false :=
    fmul_finite_not_nan j (i32ToF64_finite x0) (hc _ (by simp))
  rw [hfiltered.stored, if_pos hinit, hxs, kdList_cons, List.head?_cons, fmul_draw k' (hp (s.draw + n))]
  exact congrArg some ((biquadOutput_zeroDelay _ hc (hp _)).satS32_eq (hp _) _ _)

theorem decodeQ14_finite (c : Q14Params) : (decodeQ14 c).finite := by
  simp [Coeffs.finite, decodeQ14, q14ToF64_exact]

theorem decodeF32_finite (k : Nat) {c : F32Params} (hc : ∀ v ∈ [c.b0, c.b1, c.b2, c.a0, c.a1], f32IsFinite v = true) :
    (decodeF32 k c).finite := by
  have hwide (j : Nat) {v : F32} (hv : v ∈ [c.b0, c.b1, c.b2, c.a0, c.a1]) : f64IsFinite (f32ToF64 j v) = true :=
    (f32ToF64_exact j (hc v hv)).1
  simp [Coeffs.finite, decodeF32, hwide]

theorem f32_finite_not_nan {v : F32} (h : f32IsFinite v = true) : f32IsNaN v = false := by
  simp only [f32IsFinite, f32IsNaN, decide_eq_true_eq, decide_eq_false_iff_not] at *
  omega

/-- After `needs_init` the integer form stores the first product, rounded to nearest and clamped. -/
theorem IntegerFilteredBy.head_of_init {o : BqfOperands} {c : Q14Params} {s t : State} (h : IntegerFilteredBy o c s t)
    (hinit : o.needsInit0 = true) {x0 : S32} (hx : (samples o.input s).head? = some x0) :
    ((samples o.output t).head?).map BitVec.toInt =
      some (max (-2147483648) (min 2147483647 ((x0.toInt * c.b0.toInt + 8192) / 16384))) := by
  obtain ⟨xs, hxs⟩ := List.head?_eq_some_iff.mp hx
  rw [← List.head?_map, h.stored, integerBlock_init hinit, hxs, integerBlock_cons, List.head?_cons, integerOutput,
    int32Min, int32Max, id, id, Int.add_zero]

/-- Settles O45, one clause per form. -/
theorem firstSampleAfterInit : Obligations.FirstSampleAfterInit := by
  refine fun o s t x0 k k' hinit hx => ⟨fun c hok hexec => ?_, fun c hfin hok hexec => ?_, fun c hok hexec => ?_⟩
  · exact (bqfD_runsFilter o c).head_of_init hinit hx (decodeQ14_finite c) hok hexec k k'
  · have hb0 : f32ToF64 0 c.b0 = (decodeF32 s.draw c).b0 := f32ToF64_draw (f32_finite_not_nan (hfin _ (by simp)))
    rw [hb0]
    exact (bqfDF_runsFilter o c).head_of_init hinit hx (decodeF32_finite _ hfin) hok hexec k k'
  · obtain ⟨t', hexec', h⟩ := exec_bqfI hok
    obtain rfl := Host.Outcome.next.inj (hexec'.symm.trans hexec)
    exact h.head_of_init hinit hx

/-! ### One call over a block, or two over its halves (R130) -/

theorem integerBlock_append (wrap : Int → Int) (c : Q14Params) (acc0 acc1 : Int) (xs ys : List S32) :
    integerBlock wrap c acc0 acc1 (xs ++ ys) =
      (let r := integerBlock wrap c acc0 acc1 xs
       let q := integerBlock wrap c r.2.1 r.2.2 ys
       (r.1 ++ q.1, q.2)) := by
  induction xs generalizing acc0 acc1 with
  | nil => rfl
  | cons x xs ih => simp only [List.cons_append, integerBlock_cons, ih]

theorem kdList_append (k : Nat) (c : Coeffs) (d : Delay) (xs ys : List S32) :
    kdList k c d (xs ++ ys) =
      (let r := kdList k c d xs
       let q := kdList (k + 10 * xs.length) c r.2 ys
       (r.1 ++ q.1, q.2)) := by
  induction xs generalizing k d with
  | nil => rfl
  | cons x xs ih =>
    have hdraw : k + 10 * (xs.length + 1) = k + 10 + 10 * xs.length := by omega
    simp only [List.cons_append, kdList_cons, ih, List.length_cons, hdraw]

/-- The same double, or both NaNs. -/
def SameUpToNaN (a b : F64) : Prop := b = a ∨ (f64IsNaN a = true ∧ f64IsNaN b = true)

/-- The same coefficients, but for which NaN each NaN is. -/
structure SameCoeffs (c c' : Coeffs) : Prop where
  b0 : SameUpToNaN c.b0 c'.b0
  b1 : SameUpToNaN c.b1 c'.b1
  b2 : SameUpToNaN c.b2 c'.b2
  a0 : SameUpToNaN c.a0 c'.a0
  a1 : SameUpToNaN c.a1 c'.a1

theorem SameCoeffs.refl (c : Coeffs) : SameCoeffs c c := ⟨.inl rfl, .inl rfl, .inl rfl, .inl rfl, .inl rfl⟩

/-- Which NaN a coefficient is does not reach a block. -/
theorem SameCoeffs.kdList_eq {c c' : Coeffs} (h : SameCoeffs c c') (k : Nat) (d : Delay) (xs : List S32) :
    kdList k c' d xs = kdList k c d xs := by
  induction xs generalizing k d with
  | nil => rfl
  | cons x xs ih => simp only [kdList_cons, biquadOutput_nan_congr k d (i32ToF64 x) h.b0 h.b1 h.b2 h.a0 h.a1, ih]

theorem f32ToF64_sameUpToNaN (k j : Nat) (v : F32) : SameUpToNaN (f32ToF64 k v) (f32ToF64 j v) := by
  cases h : f32IsNaN v with
  | true =>
    rw [f32ToF64_nan k h, f32ToF64_nan j h]
    exact .inr ⟨f64IsNaN_free k, f64IsNaN_free j⟩
  | false => exact .inl (f32ToF64_draw h)

theorem decodeF32_sameCoeffs (k j : Nat) (c : F32Params) : SameCoeffs (decodeF32 k c) (decodeF32 j c) :=
  ⟨f32ToF64_sameUpToNaN _ _ _, f32ToF64_sameUpToNaN _ _ _, f32ToF64_sameUpToNaN _ _ _, f32ToF64_sameUpToNaN _ _ _,
    f32ToF64_sameUpToNaN _ _ _⟩

/-- Two calls over the halves of the block in `s`: the first from `s1` to `t1`, the second from `s2`, its entry the one the
first left, its free values those after the first's; `codec` is how many the coefficient codec takes. -/
structure Halves (o : BqfOperands) (codec : Nat) (s s1 s2 t1 : State) : Prop where
  block : samples o.input s = samples o.input s1 ++ samples o.input s2
  entry1 : readEntry o.state0 s1 = readEntry o.state0 s
  draw1 : s1.draw = s.draw
  entry2 : readEntry o.state0 s2 = readEntry o.state0 t1
  draw2 : s2.draw + codec = t1.draw

/-- The call over the whole block, to `t`, leaves what the two calls over its halves leave. -/
def JoinsHalves (o : BqfOperands) (t t1 t2 : State) : Prop :=
  samples o.output t = samples o.output t1 ++ samples o.output t2 ∧ readEntry o.state0 t = readEntry o.state0 t2

theorem Entry.eq_of_words {e e' : Entry} (h0 : e.w0 = e'.w0) (h1 : e.w1 = e'.w1) (h2 : e.w2 = e'.w2)
    (h3 : e.w3 = e'.w3) : e = e' := by
  cases e
  cases e'
  simp only [Entry.mk.injEq]
  exact ⟨h0, h1, h2, h3⟩

/-- `FilteredBy` in terms of the entry as prepared. -/
theorem filteredBy_iff {o : BqfOperands} {c : Coeffs} {k : Nat} {s t : State} :
    FilteredBy o c k s t ↔ t.result = some .done ∧
      samples o.output t = (kdList k c (startEntry o s).toDelay (samples o.input s)).1 ∧
      readEntry o.state0 t = (kdList k c (startEntry o s).toDelay (samples o.input s)).2.toEntry :=
  ⟨fun h => ⟨h.result, h.stored, h.entry⟩, fun ⟨hresult, hstored, hentry⟩ => ⟨hresult, hstored, hentry⟩⟩

section
variable {o : BqfOperands} {codec : Nat} {s s1 s2 t1 t t2 : State}

theorem Halves.startEntry_eq (h : Halves o codec s s1 s2 t1) : startEntry o s1 = startEntry o s := by
  rw [startEntry, startEntry, h.entry1]

/-- The integer kernel goes on from the accumulators it left. -/
theorem Halves.integer_joins (h : Halves o codec s s1 s2 t1) {c : Q14Params} (ht : IntegerFilteredBy o c s t)
    (ht1 : IntegerFilteredBy o c s1 t1) (ht2 : IntegerFilteredBy { o with needsInit0 := false } c s2 t2) :
    JoinsHalves o t t1 t2 := by
  obtain ⟨-, hstored, hacc0, hacc1, hw2, hw3⟩ := ht
  obtain ⟨-, hstored1, hacc01, hacc11, hw21, hw31⟩ := ht1
  obtain ⟨-, hstored2, hacc02, hacc12, hw22, hw32⟩ := ht2
  rw [startEntry_false, h.entry2] at hstored2 hacc02 hacc12 hw22 hw32
  rw [hacc01, hacc11] at hstored2 hacc02 hacc12
  rw [h.block, integerBlock_append, ← h.startEntry_eq] at hstored hacc0 hacc1
  rw [← h.startEntry_eq] at hw2 hw3
  refine ⟨List.map_injective_iff.mpr (fun _ _ => BitVec.eq_of_toInt_eq) ?_, ?_⟩
  · rw [List.map_append, hstored, hstored1, hstored2]
  · exact Entry.eq_of_words (BitVec.eq_of_toInt_eq (hacc0.trans hacc02.symm))
      (BitVec.eq_of_toInt_eq (hacc1.trans hacc12.symm)) (hw2.trans (hw22.trans hw21).symm)
      (hw3.trans (hw32.trans hw31).symm)

/-- The double-precision kernel goes on from the delay line and the draw number it left. -/
theorem Halves.double_joins (h : Halves o codec s s1 s2 t1) {c : Nat → Coeffs} (hc : ∀ k j, SameCoeffs (c k) (c j))
    (ht : FilteredBy o (c s.draw) (s.draw + codec) s t) (ht1 : FilteredBy o (c s1.draw) (s1.draw + codec) s1 t1)
    (hdraw : t1.draw = s1.draw + codec + 10 * s1.frame.toNat)
    (ht2 : FilteredBy { o with needsInit0 := false } (c s2.draw) (s2.draw + codec) s2 t2) : JoinsHalves o t t1 t2 := by
  obtain ⟨-, hstored, hentry⟩ := filteredBy_iff.mp ht
  obtain ⟨-, hstored1, hentry1⟩ := filteredBy_iff.mp ht1
  obtain ⟨-, hstored2, hentry2⟩ := filteredBy_iff.mp ht2
  rw [startEntry_false, h.entry2, (hc s1.draw s2.draw).kdList_eq, h.draw2, hdraw, hentry1] at hstored2 hentry2
  rw [h.block, kdList_append, length_samples, ← h.startEntry_eq, ← h.draw1] at hstored hentry
  exact ⟨by rw [hstored, hstored1, hstored2]; rfl, by rw [hentry, hentry2]; rfl⟩

theorem Halves.exec_integer_joins (h : Halves o codec s s1 s2 t1) {c : Q14Params} (hok : CommandOk (.bqfI o c) s)
    (hok1 : CommandOk (.bqfI o c) s1) (hok2 : CommandOk (.bqfI { o with needsInit0 := false } c) s2)
    (hexec1 : exec (.bqfI o c) s1 = .next t1) :
    ∃ t t2, exec (.bqfI o c) s = .next t ∧ exec (.bqfI { o with needsInit0 := false } c) s2 = .next t2 ∧
      JoinsHalves o t t1 t2 := by
  obtain ⟨t, hexec, ht⟩ := exec_bqfI hok
  obtain ⟨t1', hexec1', ht1⟩ := exec_bqfI hok1
  obtain ⟨t2, hexec2, ht2⟩ := exec_bqfI hok2
  obtain rfl := Host.Outcome.next.inj (hexec1'.symm.trans hexec1)
  exact ⟨t, t2, hexec, hexec2, h.integer_joins ht ht1 ht2⟩

theorem Halves.exec_double_joins (h : Halves o codec s s1 s2 t1) {i i2 : Instr} {c : Nat → Coeffs}
    (hi : RunsFilter i o c codec) (hi2 : RunsFilter i2 { o with needsInit0 := false } c codec)
    (hc : ∀ k j, SameCoeffs (c k) (c j)) (hok : CommandOk i s) (hok1 : CommandOk i s1) (hok2 : CommandOk i2 s2)
    (hexec1 : exec i s1 = .next t1) :
    ∃ t t2, exec i s = .next t ∧ exec i2 s2 = .next t2 ∧ JoinsHalves o t t1 t2 := by
  obtain ⟨t, hexec, ht, -⟩ := hi s hok
  obtain ⟨t1', hexec1', ht1, hdraw⟩ := hi s1 hok1
  obtain ⟨t2, hexec2, ht2, -⟩ := hi2 s2 hok2
  obtain rfl := Host.Outcome.next.inj (hexec1'.symm.trans hexec1)
  exact ⟨t, t2, hexec, hexec2, h.double_joins hc ht ht1 hdraw ht2⟩

end

/-- Settles O46: both kernels are folds over the block. -/
theorem splittingABlockChangesNothing : Obligations.SplittingABlockChangesNothing := by
  intro o i codec s s1 s2 t1 hform hok hok1 hok2 hblock hentry1 hdraw1 hexec1 hentry2 hdraw2
  have h : Halves o codec s s1 s2 t1 := ⟨hblock, hentry1, hdraw1, hentry2, hdraw2⟩
  rcases hform with ⟨⟨c, hi⟩, rfl⟩ | ⟨⟨c, hi⟩, rfl⟩ | ⟨⟨c, hi⟩, rfl⟩
  all_goals simp only [hi] at hok hok1 hok2 hexec1 ⊢
  · exact h.exec_integer_joins hok hok1 hok2 hexec1
  · exact h.exec_double_joins (bqfD_runsFilter o c) (bqfD_runsFilter _ c) (fun _ _ => .refl _) hok hok1 hok2 hexec1
  · exact h.exec_double_joins (bqfDF_runsFilter o c) (bqfDF_runsFilter _ c) (fun k j => decodeF32_sameCoeffs k j c) hok
      hok1 hok2 hexec1

end Sys2Proof.Machine

/-! ## The mix and ramp kernels (42_mix_ramp_kernels.md)

### A single filter's `Process` that mixes (R146 to R149) -/

namespace Sys2Proof.Machine

/-- The state in which a mix kernel starts (R146, R148): the entry prepared, coefficients and delay line loaded. -/
def mixLoaded (o : BqfmOperands) (codec : State → State) (s : State) : State :=
  loadFilter o.state0 codec (prepForked o.state0 o.previousState0 o.needsInit0 o.isFirstMixBuffer s)

@[simp] theorem Delay.toEntry_toDelay (d : Delay) : d.toEntry.toDelay = d := rfl

/-- The entry as persisted is the delay line in the registers (R186). -/
theorem readEntry_persistState (h : Handle) (s : State) : readEntry h (persistState .t0 h s) = s.work.d0.toEntry := by
  rw [persistState, readEntry_writeEntry_same, persistedEntry, delay_t0, Delay.toEntry]

/-- A snapshot outlives the persist of another entry (R183). -/
theorem readEntry_snapshot {o : BqfmOperands} (hsnap : snapshots o.needsInit0 o.isFirstMixBuffer)
    (hne : o.previousState0 ≠ o.state0) {s t : State}
    (hsrf : t.srf = (prepForked o.state0 o.previousState0 o.needsInit0 o.isFirstMixBuffer s).srf) :
    readEntry o.previousState0 (persistState .t0 o.state0 t) = readEntry o.state0 s := by
  obtain ⟨hinit, hfirst⟩ := hsnap
  rw [persistState, readEntry_writeEntry_ne _ _ hne, readEntry_congr hsrf, readEntry_prepForked, hinit, hfirst]
  simp

/-- The tail sample that a `tail_capture` of the last mixed value stores (R190). -/
theorem tailCapture_captured (voice : Handle) (index : S32) (last : F64) {k : Nat} {s : State} (hk : s.draw = k + 1) :
    TailCaptured voice index last k (finish (tailCapture voice index (f64ToF32 k last) s)) := by
  intro hlo hhi
  rw [finish_par, tailCapture_par] at hhi
  rw [tailCapture, if_pos ⟨hlo, hhi⟩, hk, readPrev_congr (finish_prev _) (finish_par _),
    readPrev_congr (useDraws_prev _ _) (useDraws_par _ _), readPrev_writePrev_same]

section
variable {o : BqfmOperands} {codec : State → State} {c : Nat → Coeffs} {n : Nat} (hc : LoadsFirst codec c n)
include hc

theorem mixLoaded_eq (o : BqfmOperands) (s : State) : mixLoaded o codec s =
    { prepForked o.state0 o.previousState0 o.needsInit0 o.isFirstMixBuffer s with
      work := { s.work with
        c0 := c s.draw
        d0 := (preparedEntry o.state0 o.previousState0 o.needsInit0 o.isFirstMixBuffer s).toDelay }
      draw := s.draw + n } := by
  rw [mixLoaded, loadFilter_eq hc, readEntry_prepForked_state, prepForked_work, prepForked_draw]

theorem samples_mixLoaded (o : BqfmOperands) (k : S16) (s : State) : samples k (mixLoaded o codec s) = samples k s :=
  samples_congr (by simp [mixLoaded_eq hc]) (by simp [mixLoaded_eq hc]) k

theorem filtersOf_mixLoaded (o : BqfmOperands) (s : State) :
    filtersOf .single (mixLoaded o codec s).work = mixFilters o (c s.draw) s := by
  rw [mixLoaded_eq hc]
  rfl

theorem mixLoaded_frame (o : BqfmOperands) (s : State) : (mixLoaded o codec s).frame = s.frame := by
  rw [mixLoaded_eq hc, prepForked_frame]

theorem mixLoaded_srf (o : BqfmOperands) (s : State) : (mixLoaded o codec s).srf =
    (prepForked o.state0 o.previousState0 o.needsInit0 o.isFirstMixBuffer s).srf := by rw [mixLoaded_eq hc]

theorem mixLoaded_c0 (o : BqfmOperands) (s : State) : (mixLoaded o codec s).work.c0 = c s.draw := by
  rw [mixLoaded_eq hc]

theorem mixLoaded_draw (o : BqfmOperands) (s : State) : (mixLoaded o codec s).draw = s.draw + n := by
  rw [mixLoaded_eq hc]

variable (hin : 0 ≤ o.input.toInt) (hout : 0 ≤ o.output.toInt)
include hin hout

/-- The mix kernel of a `BQFM` is its block from the entry as prepared. -/
theorem kernelKM_mixLoaded (s : State) :
    let t := kernelKM .single o.input o.output o.volume0 (mixLoaded o codec s)
    let r := kmList (s.draw + n + 1) (mixFilters o (c s.draw) s) (f32ToF64 (s.draw + n) o.volume0)
      ((samples o.input s).zip (samples o.output s))
    samples o.output t = r.1 ∧ r.2 = [⟨c s.draw, t.work.d0⟩] ∧
      t.srf = (prepForked o.state0 o.previousState0 o.needsInit0 o.isFirstMixBuffer s).srf := by
  intro t r
  obtain ⟨hstored, hfilters, -, ⟨hc0, -⟩, -⟩ := kernelKM_spec .single hin hout o.volume0 (mixLoaded o codec s)
  have hsrf := (kernelKM_keeps .single o.input o.output o.volume0 (mixLoaded o codec s)).srf
  simp only [samples_mixLoaded hc, filtersOf_mixLoaded hc, mixLoaded_draw hc] at hstored hfilters
  exact ⟨hstored, by rw [← hfilters, filtersOf, hc0, mixLoaded_c0 hc], hsrf.trans (mixLoaded_srf hc o s)⟩

/-- The ramped kernel of a `BQFM.R` is its block from the entry as prepared. -/
theorem kernelKMR_mixLoaded (s : State) :
    let q := kernelKMR .single o.input o.output o.volume0 o.volume1 (mixLoaded o codec s)
    let r := kmrBlock (s.draw + n) (mixFilters o (c s.draw) s) o.volume0 o.volume1 s.frame
      ((samples o.input s).zip (samples o.output s))
    samples o.output q.2 = r.out ∧ r.filters = [⟨c s.draw, q.2.work.d0⟩] ∧
      q.2.srf = (prepForked o.state0 o.previousState0 o.needsInit0 o.isFirstMixBuffer s).srf ∧
      q.2.draw = r.draw + 1 ∧ q.1 = f64ToF32 r.draw r.last := by
  intro q r
  obtain ⟨hstored, hfilters, hdraw, hlast, hc0, -⟩ :=
    kernelKMR_spec .single hin hout o.volume0 o.volume1 (mixLoaded o codec s)
  have hsrf := (kernelKMR_keeps .single o.input o.output o.volume0 o.volume1 (mixLoaded o codec s)).srf
  simp only [samples_mixLoaded hc, filtersOf_mixLoaded hc, mixLoaded_draw hc,
    mixLoaded_frame hc] at hstored hfilters hdraw hlast
  exact ⟨hstored, by rw [← hfilters, filtersOf, hc0, mixLoaded_c0 hc], hsrf.trans (mixLoaded_srf hc o s), hdraw, hlast⟩

/-- The steps of a mix command without ramp leave `KM(1)` over the spans. -/
theorem mixSteps_mixedBy (s : State) : MixedBy o (c s.draw) (s.draw + n) s (finish (mixSteps o codec s)) := by
  obtain ⟨hstored, hfilters, hsrf⟩ := kernelKM_mixLoaded hc hin hout s
  rw [mixSteps_eq, ← mixLoaded]
  generalize kernelKM .single o.input o.output o.volume0 _ = t at hstored hfilters hsrf ⊢
  exact
    { result := rfl
      stored := (samples_congr (by simp) (by simp) _).trans hstored
      entry := by rw [hfilters, readEntry_congr (finish_srf _), readEntry_persistState, Delay.toEntry_toDelay]
      snapshot := fun hsnap hne => (readEntry_congr (finish_srf _) _).trans (readEntry_snapshot hsnap hne hsrf) }

/-- The steps of a ramped mix command leave `KMR(1)` over the spans and the tail. -/
theorem mixRampSteps_rampMixedBy (s : State) :
    ∃ r, RampMixedBy o (c s.draw) (s.draw + n) s (finish (mixRampSteps o codec s)) r := by
  obtain ⟨hstored, hfilters, hsrf, hdraw, hlast⟩ := kernelKMR_mixLoaded hc hin hout s
  rw [mixRampSteps_eq, ← mixLoaded]
  generalize kernelKMR .single o.input o.output o.volume0 o.volume1 _ = q at hstored hfilters hsrf hdraw hlast ⊢
  have hend (g : Handle) : readEntry g (finish (tailCapture o.voiceState o.lastSampleIndex q.1
      (persistState .t0 o.state0 q.2))) = readEntry g (persistState .t0 o.state0 q.2) := readEntry_congr (by simp) g
  exact ⟨_,
    { block := rfl
      result := rfl
      stored := (samples_congr (by simp) (by simp) _).trans hstored
      entry := by rw [hfilters, hend, readEntry_persistState, Delay.toEntry_toDelay]
      snapshot := fun hsnap hne => (hend _).trans (readEntry_snapshot hsnap hne hsrf)
      tail := by dsimp only; rw [hlast]; exact tailCapture_captured _ _ _ (by rw [persistState_draw, hdraw]) }⟩

end

/-- What a mix form without ramp does, its coefficients `c` and the `n` draws of its codec given. -/
def RunsMix (i : Instr) (o : BqfmOperands) (c : Nat → Coeffs) (n : Nat) : Prop :=
  ∀ s, CommandOk i s → ∃ t, exec i s = .next t ∧ MixedBy o (c s.draw) (s.draw + n) s t

/-- What a ramped mix form does, in the same terms. -/
def RunsRampedMix (i : Instr) (o : BqfmOperands) (c : Nat → Coeffs) (n : Nat) : Prop :=
  ∀ s, CommandOk i s → ∃ t r, exec i s = .next t ∧ RampMixedBy o (c s.draw) (s.draw + n) s t r

theorem bqfm_runsMix (o : BqfmOperands) (c : Q14Params) : RunsMix (.bqfm o c) o (fun _ => decodeQ14 c) 0 :=
  fun s hok => ⟨_, exec_ok hok, mixSteps_mixedBy (loadQ14_loadsFirst c) hok.input.1 hok.output.1 s⟩

theorem bqfmF_runsMix (o : BqfmOperands) (c : F32Params) : RunsMix (.bqfmF o c) o (fun k => decodeF32 k c) 5 :=
  fun s hok => ⟨_, exec_ok hok, mixSteps_mixedBy (loadF32_loadsFirst c) hok.input.1 hok.output.1 s⟩

theorem bqfmR_runsRampedMix (o : BqfmOperands) (c : Q14Params) :
    RunsRampedMix (.bqfmR o c) o (fun _ => decodeQ14 c) 0 := by
  intro s hok
  obtain ⟨r, hr⟩ := mixRampSteps_rampMixedBy (loadQ14_loadsFirst c) hok.input.1 hok.output.1 s
  exact ⟨_, r, exec_ok hok, hr⟩

theorem bqfmRF_runsRampedMix (o : BqfmOperands) (c : F32Params) :
    RunsRampedMix (.bqfmRF o c) o (fun k => decodeF32 k c) 5 := by
  intro s hok
  obtain ⟨r, hr⟩ := mixRampSteps_rampMixedBy (loadF32_loadsFirst c) hok.input.1 hok.output.1 s
  exact ⟨_, r, exec_ok hok, hr⟩

/-- Settles O23: both forms are the same steps around their codec (R146, R147). -/
theorem mixResult : Obligations.MixResult :=
  fun o s => ⟨fun c hok => bqfm_runsMix o c s hok, fun c hok => bqfmF_runsMix o c s hok⟩

/-- Settles O24: both forms are the same steps around their codec (R148, R149). -/
theorem rampedMixResult : Obligations.RampedMixResult :=
  fun o s => ⟨fun c hok => bqfmR_runsRampedMix o c s hok, fun c hok => bqfmRF_runsRampedMix o c s hok⟩

end Sys2Proof.Machine

/-! ### Mixing at volume 1.0 onto silence (R143 f) -/

namespace Sys2Proof.Machine

theorem f32ToF64_one (k : Nat) : f32ToF64 k 0x3F800000#32 = 0x3FF0000000000000#64 := by
  rw [f32ToF64_draw (j := 0) (by decide)]
  decide +kernel

/-- Added to a zero, a value keeps all but the sign of a zero. -/
theorem zero_fadd_eqUpToZeroSign (k : Nat) {a z : F64} (ha : f64IsNaN a = false) (hz : f64IsZero z = true) :
    EqUpToZeroSign (fadd k z a) a := by
  cases h0 : f64IsZero a with
  | true =>
    rw [fadd_zeros k hz h0]
    exact .inr ⟨(f64Pack_zero _).1, h0⟩
  | false => exact .inl (fadd_zero_left k ha h0 hz)

/-- A filtered sample mixed at volume 1.0 onto a zero is the filtered sample, saturated. -/
theorem satS32_unity_mix {y : F64} (hy : f64IsNaN y = false) (i j k l : Nat) :
    satS32 k (fadd j (i32ToF64 0#32) (fmul i y 0x3FF0000000000000#64)) = satS32 l y := by
  rw [fmul_one i hy, i32ToF64_zero]
  exact (zero_fadd_eqUpToZeroSign j hy (by decide)).satS32_eq hy k l

theorem kmList_single_cons (k : Nat) (f : Filter) (vol : F64) (x old : S32) (rest : List (S32 × S32)) :
    kmList k [f] vol ((x, old) :: rest) =
      (let y := biquadOutput k f.c f.d (i32ToF64 x)
       let r := kmList (k + 12) [⟨f.c, shiftDelay f.d (i32ToF64 x) y⟩] vol rest
       (satS32 (k + 11) (fadd (k + 10) (i32ToF64 old) (fmul (k + 9) y vol)) :: r.1, r.2)) := by
  rw [kmList_cons]
  rfl

/-- `KM(1)` at volume 1.0 over zeros is `KD`, where no output is a NaN; the draws of the two may differ. -/
theorem kmList_unity_silence {j k l : Nat} {c : Coeffs} {d : Delay} {pairs : List (S32 × S32)}
    (hzero : ∀ p ∈ pairs, p.2 = 0#32) (hnan : ∀ y ∈ outputsList k c d (pairs.map Prod.fst), f64IsNaN y = false) :
    kmList j [⟨c, d⟩] 0x3FF0000000000000#64 pairs =
      ((kdList l c d (pairs.map Prod.fst)).1, [⟨c, (kdList l c d (pairs.map Prod.fst)).2⟩]) := by
  induction pairs generalizing j k l d with
  | nil => rfl
  | cons p rest ih =>
    obtain ⟨x, old⟩ := p
    obtain ⟨rfl, hzero'⟩ := List.forall_mem_cons.mp hzero
    rw [List.map_cons, outputsList_cons] at hnan
    obtain ⟨hy, hnan'⟩ := List.forall_mem_cons.mp hnan
    rw [kmList_single_cons, List.map_cons, kdList_cons]
    simp only [biquadOutput_draw j hy, biquadOutput_draw l hy]
    rw [satS32_unity_mix hy _ _ _ (l + 9), ih hzero' hnan' (l := l + 10)]

/-- What a mix at volume 1.0 onto zeros leaves, against what the overwrite form leaves. -/
theorem MixedBy.eq_filteredBy {ob : BqfOperands} {om : BqfmOperands} {c : Coeffs} {k : Nat} {s t t' : State}
    (hm : MixedBy om c k s t') (hp : FilteredBy ob c k s t) (hin : om.input = ob.input) (hout : om.output = ob.output)
    (hstate : om.state0 = ob.state0) (hvol : om.volume0 = 0x3F800000#32)
    (hprep : preparedEntry om.state0 om.previousState0 om.needsInit0 om.isFirstMixBuffer s = startEntry ob s)
    (hzero : ∀ x ∈ samples ob.output s, x = 0#32)
    (hnan : ∀ y ∈ outputsList k c (startEntry ob s).toDelay (samples ob.input s), f64IsNaN y = false) :
    samples ob.output t' = samples ob.output t ∧ readEntry ob.state0 t' = readEntry ob.state0 t := by
  have hpairs : ∀ p ∈ (samples ob.input s).zip (samples ob.output s), p.2 = 0#32 :=
    fun p hp => hzero _ (List.of_mem_zip hp).2
  have hfst := zip_fst_samples ob.input ob.output s
  have hblock := kmList_unity_silence (j := k + 1) (l := k) hpairs (by rw [hfst]; exact hnan)
  obtain ⟨-, hstored, hentry⟩ := filteredBy_iff.mp hp
  obtain ⟨-, hstored', hentry', -⟩ := hm
  rw [mixFilters, hprep, hvol, f32ToF64_one, hin, hout, hblock, hfst] at hstored' hentry'
  simp only [List.cons.injEq, Filter.mk.injEq, true_and, and_true] at hentry'
  rw [hstate] at hentry'
  exact ⟨hstored'.trans hstored.symm, by rw [hentry, hentry']; rfl⟩

/-- Settles O47: each pair of forms loads the same coefficients with the same draws. -/
theorem unityMixOntoSilenceOverwrites : Obligations.UnityMixOntoSilenceOverwrites := by
  intro ob om plain mixed c s hform hin hout hstate hvol hprep hzero hnan hokp hokm
  rw [hprep] at hnan
  rcases hform with ⟨q, rfl, rfl, rfl⟩ | ⟨q, rfl, rfl, rfl⟩
  · obtain ⟨t, hexec, hp, -⟩ := bqfD_runsFilter ob q s hokp
    obtain ⟨t', hexec', hm⟩ := bqfm_runsMix om q s hokm
    exact ⟨t, t', hexec, hexec', hm.eq_filteredBy hp hin hout hstate hvol hprep hzero (hnan _)⟩
  · obtain ⟨t, hexec, hp, -⟩ := bqfDF_runsFilter ob q s hokp
    obtain ⟨t', hexec', hm⟩ := bqfmF_runsMix om q s hokm
    exact ⟨t, t', hexec, hexec', hm.eq_filteredBy hp hin hout hstate hvol hprep hzero (hnan _)⟩

end Sys2Proof.Machine

/-! ## The cascade kernels (43_cascade_kernels.md)

### A multi-tap `Process` (R165, R168 to R171) -/

namespace Sys2Proof.Machine

/-- What the write-back reads back as (R165, R166): tap 1's delay line under its handle, tap 0's under a handle of its
own. -/
theorem writtenBack_multiTapAfter {o : MtOperands} {s t : State} (hsrf : t.srf = (afterPrep1 o s).srf) (c0 c1 : Coeffs) :
    WrittenBack o c0 c1 [⟨c0, t.work.d0⟩, ⟨c1, t.work.d1⟩] s (multiTapAfter o t) := by
  rw [multiTapAfter_eq]
  refine ⟨⟨t.work.d0.toEntry, ?_, fun hne => ?_⟩, fun h h0 h1 => ?_⟩
  · rw [readEntry_writeEntry_same]
    rfl
  · rw [readEntry_writeEntry_ne _ _ hne, readEntry_writeEntry_same]
    rfl
  · rw [readEntry_writeEntry_ne _ _ h1, readEntry_writeEntry_ne _ _ h0]
    exact readEntry_congr hsrf h

theorem WrittenBack.congr {o : MtOperands} {c0 c1 : Coeffs} {filters : List Filter} {s t u : State}
    (h : WrittenBack o c0 c1 filters s t) (hsrf : u.srf = t.srf) : WrittenBack o c0 c1 filters s u := by
  obtain ⟨htaps, hothers⟩ := h
  simp only [← readEntry_congr hsrf] at htaps hothers
  exact ⟨htaps, hothers⟩

section
variable {o : MtOperands} {codec : State → State} {c0 c1 : Nat → Coeffs} {n : Nat} (hc : LoadsBoth codec c0 c1 n)
include hc

theorem samples_multiTapBefore (k : S16) (s : State) : samples k (multiTapBefore o codec s) = samples k s :=
  samples_congr (by simp [multiTapBefore_eq hc, afterPrep1, afterPrep0])
    (by simp [multiTapBefore_eq hc, afterPrep1, afterPrep0]) k

theorem filtersOf_multiTapBefore (s : State) :
    filtersOf .pair (multiTapBefore o codec s).work = tapFilters o (c0 s.draw) (c1 s.draw) s := by
  rw [multiTapBefore_eq hc]
  rfl

theorem multiTapBefore_coeffs (s : State) :
    (multiTapBefore o codec s).work.c0 = c0 s.draw ∧ (multiTapBefore o codec s).work.c1 = c1 s.draw := by
  rw [multiTapBefore_eq hc]
  exact ⟨rfl, rfl⟩

theorem multiTapBefore_draw (s : State) : (multiTapBefore o codec s).draw = s.draw + n := by
  rw [multiTapBefore_eq hc]

theorem multiTapBefore_srf (s : State) : (multiTapBefore o codec s).srf = (afterPrep1 o s).srf := by
  rw [multiTapBefore_eq hc]

theorem multiTapBefore_frame (s : State) : (multiTapBefore o codec s).frame = s.frame := by
  simp [multiTapBefore_eq hc, afterPrep1, afterPrep0]

theorem multiTapBefore_prev (s : State) : (multiTapBefore o codec s).prev = s.prev := by
  simp [multiTapBefore_eq hc, afterPrep1, afterPrep0]

theorem multiTapBefore_par (s : State) : (multiTapBefore o codec s).par = s.par := by
  simp [multiTapBefore_eq hc, afterPrep1, afterPrep0]

variable (hin : 0 ≤ o.input.toInt) (hout : 0 ≤ o.output.toInt)
include hin hout

/-- The mix kernel of a `MTBQFM` is its block from the two snapshots. -/
theorem kernelKM_multiTapBefore (s : State) :
    let t := kernelKM .pair o.input o.output o.volume0 (multiTapBefore o codec s)
    let r := kmList (s.draw + n + 1) (tapFilters o (c0 s.draw) (c1 s.draw) s) (f32ToF64 (s.draw + n) o.volume0)
      ((samples o.input s).zip (samples o.output s))
    samples o.output t = r.1 ∧ r.2 = [⟨c0 s.draw, t.work.d0⟩, ⟨c1 s.draw, t.work.d1⟩] ∧
      t.srf = (afterPrep1 o s).srf := by
  intro t r
  obtain ⟨hstored, hfilters, -, ⟨hc0, hc1, -⟩, -⟩ := kernelKM_spec .pair hin hout o.volume0 (multiTapBefore o codec s)
  have hsrf := (kernelKM_keeps .pair o.input o.output o.volume0 (multiTapBefore o codec s)).srf
  obtain ⟨hb0, hb1⟩ := multiTapBefore_coeffs hc s
  simp only [samples_multiTapBefore hc, filtersOf_multiTapBefore hc, multiTapBefore_draw hc] at hstored hfilters
  exact ⟨hstored, by rw [← hfilters, filtersOf, hc0, hc1, hb0, hb1], hsrf.trans (multiTapBefore_srf hc s)⟩

/-- The ramped kernel of a `MTBQFM.R` is its block from the two snapshots. -/
theorem kernelKMR_multiTapBefore (s : State) :
    let q := kernelKMR .pair o.input o.output o.volume0 o.volume1 (multiTapBefore o codec s)
    let r := kmrBlock (s.draw + n) (tapFilters o (c0 s.draw) (c1 s.draw) s) o.volume0 o.volume1 s.frame
      ((samples o.input s).zip (samples o.output s))
    samples o.output q.2 = r.out ∧ r.filters = [⟨c0 s.draw, q.2.work.d0⟩, ⟨c1 s.draw, q.2.work.d1⟩] ∧
      q.2.srf = (afterPrep1 o s).srf ∧ q.2.draw = r.draw + 1 ∧ q.1 = f64ToF32 r.draw r.last := by
  intro q r
  obtain ⟨hstored, hfilters, hdraw, hlast, hc0, hc1, -⟩ :=
    kernelKMR_spec .pair hin hout o.volume0 o.volume1 (multiTapBefore o codec s)
  have hsrf := (kernelKMR_keeps .pair o.input o.output o.volume0 o.volume1 (multiTapBefore o codec s)).srf
  obtain ⟨hb0, hb1⟩ := multiTapBefore_coeffs hc s
  simp only [samples_multiTapBefore hc, filtersOf_multiTapBefore hc, multiTapBefore_draw hc,
    multiTapBefore_frame hc] at hstored hfilters hdraw hlast
  exact ⟨hstored, by rw [← hfilters, filtersOf, hc0, hc1, hb0, hb1], hsrf.trans (multiTapBefore_srf hc s), hdraw, hlast⟩

/-- The steps of a multi-tap command without ramp leave `KM(2)` over the spans. -/
theorem multiTapSteps_cascadeMixedBy (s : State) :
    CascadeMixedBy o (c0 s.draw) (c1 s.draw) (s.draw + n) s (finish (multiTapSteps o codec s)) := by
  obtain ⟨hstored, hfilters, hsrf⟩ := kernelKM_multiTapBefore hc hin hout s
  rw [multiTapSteps]
  generalize kernelKM .pair o.input o.output o.volume0 _ = t at hstored hfilters hsrf ⊢
  exact
    { result := rfl
      stored := (samples_congr (by simp [multiTapAfter]) (by simp [multiTapAfter]) _).trans hstored
      entries := by rw [hfilters]; exact (writtenBack_multiTapAfter hsrf _ _).congr (finish_srf _) }

/-- The steps of a ramped multi-tap command leave `KMR(2)` over the spans and the tail. -/
theorem multiTapRampSteps_rampCascadeMixedBy (s : State) :
    ∃ r, RampCascadeMixedBy o (c0 s.draw) (c1 s.draw) (s.draw + n) s (finish (multiTapRampSteps o codec s)) r := by
  obtain ⟨hstored, hfilters, hsrf, hdraw, hlast⟩ := kernelKMR_multiTapBefore hc hin hout s
  rw [multiTapRampSteps_eq]
  generalize kernelKMR .pair o.input o.output o.volume0 o.volume1 _ = q at hstored hfilters hsrf hdraw hlast ⊢
  exact ⟨_,
    { block := rfl
      result := rfl
      stored := (samples_congr (by simp [multiTapAfter]) (by simp [multiTapAfter]) _).trans hstored
      entries := by rw [hfilters]; exact (writtenBack_multiTapAfter hsrf _ _).congr (by simp)
      tail := by dsimp only; rw [hlast]; exact tailCapture_captured _ _ _ (by simp [multiTapAfter, hdraw]) }⟩

end

/-- Settles O25: both forms are the same steps around their codec (R168, R169). -/
theorem cascadeMixResult : Obligations.CascadeMixResult :=
  fun _ s => ⟨
    fun c0 c1 hok =>
      ⟨_, exec_ok hok, multiTapSteps_cascadeMixedBy (loadQ14Pair_loadsBoth c0 c1) hok.input.1 hok.output.1 s⟩,
    fun c0 c1 hok =>
      ⟨_, exec_ok hok, multiTapSteps_cascadeMixedBy (loadF32Pair_loadsBoth c0 c1) hok.input.1 hok.output.1 s⟩⟩

/-- Settles O26: both forms are the same steps around their codec (R170, R171). -/
theorem rampedCascadeResult : Obligations.RampedCascadeResult := by
  refine fun o s => ⟨fun c0 c1 hok => ?_, fun c0 c1 hok => ?_⟩
  · obtain ⟨r, hr⟩ :=
      multiTapRampSteps_rampCascadeMixedBy (loadQ14Pair_loadsBoth c0 c1) hok.input.1 hok.output.1 s
    exact ⟨_, r, exec_ok hok, hr⟩
  · obtain ⟨r, hr⟩ :=
      multiTapRampSteps_rampCascadeMixedBy (loadF32Pair_loadsBoth c0 c1) hok.input.1 hok.output.1 s
    exact ⟨_, r, exec_ok hok, hr⟩

end Sys2Proof.Machine

/-! ### The identity as filter 1 (R163): arithmetic up to the sign of a zero, and up to which NaN a NaN is -/

namespace Sys2Proof.Machine

theorem EqUpToZeroSign.refl (a : F64) : EqUpToZeroSign a a := .inl rfl

theorem EqUpToZeroSign.symm {a b : F64} (h : EqUpToZeroSign a b) : EqUpToZeroSign b a :=
  h.imp Eq.symm And.symm

theorem EqUpToZeroSign.trans {a b c : F64} (h : EqUpToZeroSign a b) (h' : EqUpToZeroSign b c) : EqUpToZeroSign a c := by
  rcases h with rfl | ⟨ha, hb⟩
  · exact h'
  · rcases h' with rfl | ⟨-, hc⟩
    · exact .inr ⟨ha, hb⟩
    · exact .inr ⟨ha, hc⟩

theorem EqUpToZeroSign.finite {a b : F64} (h : EqUpToZeroSign a b) (hb : f64IsFinite b = true) :
    f64IsFinite a = true := by
  rcases h with rfl | ⟨ha, -⟩
  · exact hb
  · exact (zero_kind ha).2.2

/-- A factor of a zero is finite where the product is no NaN. -/
theorem finite_of_zero_fmul {k : Nat} {z v : F64} (hz : f64IsZero z = true) (h : f64IsNaN (fmul k z v) = false) :
    f64IsFinite v = true := by
  refine f64IsFinite_of (fmul_not_nan h).2 (Bool.eq_false_iff.mpr fun hinf => ?_)
  rw [fmul_inf_right k (zero_kind hz).1 hinf, hz, if_pos rfl, f64IsNaN_free] at h
  cases h

theorem f64IsZero_fmul (k : Nat) {z v : F64} (hz : f64IsZero z = true) (hv : f64IsFinite v = true) :
    f64IsZero (fmul k z v) = true := by
  rw [fmul_comm, fmul_zero k hv hz]
  exact (f64Pack_zero _).1

/-- A product that is no NaN keeps all but the sign of a zero. -/
theorem EqUpToZeroSign.fmul_left {a b v : F64} (h : EqUpToZeroSign a b) {k : Nat} (hn : f64IsNaN (fmul k b v) = false)
    (j : Nat) : EqUpToZeroSign (fmul j a v) (fmul k b v) := by
  rcases h with rfl | ⟨ha, hb⟩
  · exact .inl (fmul_draw j hn)
  · have hv := finite_of_zero_fmul hb hn
    exact .inr ⟨f64IsZero_fmul j ha hv, f64IsZero_fmul k hb hv⟩

/-- So does a sum that is no NaN. -/
theorem EqUpToZeroSign.fadd_right {a b x : F64} (h : EqUpToZeroSign a b) {k : Nat} (hn : f64IsNaN (fadd k x b) = false)
    (j : Nat) : EqUpToZeroSign (fadd j x a) (fadd k x b) := by
  rcases h with rfl | ⟨ha, hb⟩
  · exact .inl (fadd_draw j hn)
  · have hx := (fadd_not_nan hn).1
    exact ((EqUpToZeroSign.refl x).fadd_zero hx ha j).trans ((EqUpToZeroSign.refl x).fadd_zero hx hb k).symm

theorem SameUpToNaN.eq {a b : F64} (h : SameUpToNaN a b) (ha : f64IsNaN a = false) : b = a :=
  h.resolve_right fun hnan => Bool.false_ne_true (ha.symm.trans hnan.1)

theorem SameUpToNaN.symm {a b : F64} (h : SameUpToNaN a b) : SameUpToNaN b a := h.imp Eq.symm And.symm

/-- Two doubles that agree as soon as one of them is no NaN. -/
theorem sameUpToNaN_of {a b : F64} (ha : f64IsNaN a = false → b = a) (hb : f64IsNaN b = false → b = a) :
    SameUpToNaN a b := by
  cases hna : f64IsNaN a with
  | false => exact .inl (ha hna)
  | true =>
    cases hnb : f64IsNaN b with
    | false => exact .inl (hb hnb)
    | true => exact .inr ⟨hna, hnb⟩

theorem SameUpToNaN.fadd_both {a b a' b' : F64} (ha : SameUpToNaN a a') (hb : SameUpToNaN b b') (k j : Nat) :
    SameUpToNaN (fadd k a b) (fadd j a' b') := by
  refine sameUpToNaN_of (fun hn => ?_) fun hn => ?_
  · obtain ⟨hna, hnb⟩ := fadd_not_nan hn
    rw [ha.eq hna, hb.eq hnb, fadd_draw j hn]
  · obtain ⟨hna, hnb⟩ := fadd_not_nan hn
    rw [← ha.symm.eq hna, ← hb.symm.eq hnb] at hn ⊢
    exact (fadd_draw k hn).symm

theorem rampStep_sameUpToNaN (k j : Nat) (v v' : F32) (n : U32) :
    SameUpToNaN (rampStep k v v' n) (rampStep j v v' n) :=
  sameUpToNaN_of rampStep_draw fun h => (rampStep_draw h).symm

/-- A filter's value mixed at a volume onto `x`: product and sum keep all but the sign of a zero, where the sum is
no NaN. -/
theorem EqUpToZeroSign.mix {y y' vol vol' x : F64} (h : EqUpToZeroSign y' y) (hvol : SameUpToNaN vol vol') {i k : Nat}
    (hn : f64IsNaN (fadd i x (fmul k y vol)) = false) (i' k' : Nat) :
    EqUpToZeroSign (fmul k' y' vol') (fmul k y vol) ∧
      EqUpToZeroSign (fadd i' x (fmul k' y' vol')) (fadd i x (fmul k y vol)) := by
  have hproduct := (fadd_not_nan hn).2
  rw [hvol.eq (fmul_not_nan hproduct).2]
  have hm := h.fmul_left hproduct k'
  exact ⟨hm, hm.fadd_right hn i'⟩

end Sys2Proof.Machine

/-! ### The identity as filter 1 (R163): chains and blocks -/

namespace Sys2Proof.Machine

/-- The identity coefficients as both codecs give them (R163). -/
def identityCoeffs : Coeffs := ⟨0x3FF0000000000000#64, 0#64, 0#64, 0#64, 0#64⟩

theorem decodeQ14_identity : decodeQ14 identityQ14 = identityCoeffs := by
  have hone : q14ToF64 0x4000#16 = 0x3FF0000000000000#64 := by decide +kernel
  rw [decodeQ14, identityQ14, hone, q14ToF64_zero, identityCoeffs]

theorem f32ToF64_zero (k : Nat) : f32ToF64 k 0#32 = 0#64 := by
  rw [f32ToF64_draw (j := 0) (by decide)]
  decide +kernel

theorem decodeF32_identity (k : Nat) : decodeF32 k identityF32 = identityCoeffs := by
  simp only [decodeF32, identityF32, f32ToF64_one, f32ToF64_zero, identityCoeffs]

/-- The four values of a delay line are finite. -/
def Delay.finite (d : Delay) : Prop := ∀ w ∈ [d.s0, d.s1, d.s2, d.s3], f64IsFinite w = true

theorem Delay.finite_shiftDelay {d : Delay} (hd : d.finite) {x y : F64} (hx : f64IsFinite x = true)
    (hy : f64IsFinite y = true) : (shiftDelay d x y).finite := by
  simp only [Delay.finite, shiftDelay, List.forall_mem_cons] at hd ⊢
  obtain ⟨h0, -, h2, -⟩ := hd
  exact ⟨hx, h0, hy, h2, List.forall_mem_nil _⟩

/-- A finite value through the identity with a finite delay line: four zeros are added to it. -/
theorem biquadOutput_identity (k : Nat) {d : Delay} (hd : d.finite) {x : F64} (hx : f64IsFinite x = true) :
    EqUpToZeroSign (biquadOutput k identityCoeffs d x) x := by
  have hnan := (f64_finite_kind hx).1
  have hzero (j : Nat) {w : F64} (hw : w ∈ [d.s0, d.s1, d.s2, d.s3]) : f64IsZero (fmul j w 0#64) = true := by
    rw [fmul_comm]
    exact f64IsZero_zero_fmul j (hd w hw)
  have h0 : EqUpToZeroSign (fmul k x 0x3FF0000000000000#64) x := .inl (fmul_one k hnan)
  have h1 := h0.fadd_zero hnan (hzero (k + 1) (w := d.s0) (by simp)) (k + 5)
  have h2 := h1.fadd_zero hnan (hzero (k + 2) (w := d.s1) (by simp)) (k + 6)
  have h3 := h2.fadd_zero hnan (hzero (k + 3) (w := d.s2) (by simp)) (k + 7)
  exact h3.fadd_zero hnan (hzero (k + 4) (w := d.s3) (by simp)) (k + 8)

/-- A chain that passes on what the filter `c`, `d` gives: that filter alone, or with the identity behind it (R163). -/
def PassesOn (c : Coeffs) (d : Delay) (fs : List Filter) : Prop :=
  fs = [⟨c, d⟩] ∨ ∃ d1 : Delay, d1.finite ∧ fs = [⟨c, d⟩, ⟨identityCoeffs, d1⟩]

theorem PassesOn.head {c : Coeffs} {d : Delay} {f : Filter} {fs : List Filter} (h : PassesOn c d (f :: fs)) :
    f = ⟨c, d⟩ := by
  rcases h with h | ⟨_, -, h⟩
  · exact (List.cons.inj h).1
  · exact (List.cons.inj h).1

/-- One sample through such a chain, where the filter's own output is finite; the draws of the two may differ. -/
theorem PassesOn.after_sample {c : Coeffs} {d : Delay} {fs : List Filter} (h : PassesOn c d fs) {k : Nat} {x : F64}
    (hy : f64IsFinite (biquadOutput k c d x) = true) (j : Nat) :
    EqUpToZeroSign (chainList j fs x).1 (biquadOutput k c d x) ∧
      PassesOn c (shiftDelay d x (biquadOutput k c d x)) (chainList j fs x).2 := by
  have hdraw := biquadOutput_draw j (f64_finite_kind hy).1
  rw [← hdraw] at hy ⊢
  rcases h with rfl | ⟨d1, hd1, rfl⟩
  · exact ⟨.refl _, .inl rfl⟩
  · have hpass := biquadOutput_identity (j + 9) hd1 hy
    exact ⟨hpass, .inr ⟨_, Delay.finite_shiftDelay hd1 hy (hpass.finite hy), rfl⟩⟩

/-- One mixed sample: the stored word is the saturated sum of the filter alone. -/
theorem PassesOn.mixed_sample {c : Coeffs} {d : Delay} {fs : List Filter} (h : PassesOn c d fs) {i : Nat}
    {x vol vol' : F64} (hy : f64IsFinite (biquadOutput i c d x) = true) (hvol : SameUpToNaN vol vol') {old : F64} {m a : Nat}
    (hsum : f64IsNaN (fadd a old (fmul m (biquadOutput i c d x) vol)) = false) (j a' m' l : Nat) :
    satS32 l (fadd a' old (fmul m' (chainList j fs x).1 vol')) =
        satS32 0 (fadd a old (fmul m (biquadOutput i c d x) vol)) ∧
      EqUpToZeroSign (fmul m' (chainList j fs x).1 vol') (fmul m (biquadOutput i c d x) vol) := by
  obtain ⟨hproduct, hmixed⟩ := (h.after_sample hy j).1.mix hvol hsum a' m'
  exact ⟨hmixed.satS32_eq hsum l 0, hproduct⟩

theorem mixSums_single_cons (i : Nat) (c : Coeffs) (d : Delay) (vol : F64) (x old : S32) (rest : List (S32 × S32)) :
    mixSums i [⟨c, d⟩] vol none ((x, old) :: rest) =
      (let y := biquadOutput i c d (i32ToF64 x)
       fadd (i + 10) (i32ToF64 old) (fmul (i + 9) y vol) ::
         mixSums (i + 12) [⟨c, shiftDelay d (i32ToF64 x) y⟩] vol none rest) := by
  rw [mixSums_cons]
  rfl

theorem mixSums_single_ramp_cons (i : Nat) (c : Coeffs) (d : Delay) (vol ramp : F64) (x old : S32)
    (rest : List (S32 × S32)) :
    mixSums i [⟨c, d⟩] vol (some ramp) ((x, old) :: rest) =
      (let y := biquadOutput i c d (i32ToF64 x)
       fadd (i + 10) (i32ToF64 old) (fmul (i + 9) y vol) ::
         mixSums (i + 13) [⟨c, shiftDelay d (i32ToF64 x) y⟩] (fadd (i + 12) vol ramp) (some ramp) rest) := by
  rw [mixSums_cons]
  rfl

/-- `KM(T)` of such a chain stores the saturated sums of the filter alone, and leaves the filter as `KD` does. -/
theorem PassesOn.kmList_block {c : Coeffs} {d : Delay} {fs : List Filter} (h : PassesOn c d fs) {vol vol' : F64}
    (hvol : SameUpToNaN vol vol') {pairs : List (S32 × S32)} {i k : Nat}
    (hfin : ∀ y ∈ outputsList k c d (pairs.map Prod.fst), f64IsFinite y = true)
    (hsum : ∀ v ∈ mixSums i [⟨c, d⟩] vol none pairs, f64IsNaN v = false) (j : Nat) :
    (kmList j fs vol' pairs).1 = (mixSums i [⟨c, d⟩] vol none pairs).map (satS32 0) ∧
      PassesOn c (kdList k c d (pairs.map Prod.fst)).2 (kmList j fs vol' pairs).2 := by
  induction pairs generalizing i j k d fs with
  | nil => exact ⟨rfl, h⟩
  | cons p rest ih =>
    obtain ⟨x, old⟩ := p
    simp only [List.map_cons, outputsList_cons, List.forall_mem_cons] at hfin
    rw [mixSums_single_cons] at hsum
    obtain ⟨hy, hfin'⟩ := hfin
    obtain ⟨hs, hsum'⟩ := List.forall_mem_cons.mp hsum
    have hdraw := biquadOutput_draw i (f64_finite_kind hy).1
    rw [← hdraw] at hy hfin'
    rw [mixSums_single_cons, List.map_cons, List.map_cons, kdList_cons, kmList_cons]
    simp only [← hdraw]
    obtain ⟨hstored, hrest⟩ := ih (h.after_sample hy j).2 hfin' hsum' (j + 9 * fs.length + 3)
    refine ⟨?_, hrest⟩
    simp only [hstored, (h.mixed_sample hy hvol hs j _ _ _).1]

/-- `KMR(T)`'s loop likewise, with the last mixed value that of the filter alone but for the sign of a zero. -/
theorem PassesOn.kmrList_block {c : Coeffs} {d : Delay} {fs : List Filter} (h : PassesOn c d fs)
    {vol vol' ramp ramp' last last' : F64} (hvol : SameUpToNaN vol vol') (hramp : SameUpToNaN ramp ramp')
    (hlast : EqUpToZeroSign last' last) {pairs : List (S32 × S32)} {i k : Nat}
    (hfin : ∀ y ∈ outputsList k c d (pairs.map Prod.fst), f64IsFinite y = true)
    (hsum : ∀ v ∈ mixSums i [⟨c, d⟩] vol (some ramp) pairs, f64IsNaN v = false) (j : Nat) :
    (kmrList j fs vol' ramp' last' pairs).out = (mixSums i [⟨c, d⟩] vol (some ramp) pairs).map (satS32 0) ∧
      PassesOn c (kdList k c d (pairs.map Prod.fst)).2 (kmrList j fs vol' ramp' last' pairs).filters ∧
      EqUpToZeroSign (kmrList j fs vol' ramp' last' pairs).last
        (kmrList i [⟨c, d⟩] vol ramp last pairs).last := by
  induction pairs generalizing i j k d fs vol vol' last last' with
  | nil => exact ⟨rfl, h, hlast⟩
  | cons p rest ih =>
    obtain ⟨x, old⟩ := p
    simp only [List.map_cons, outputsList_cons, List.forall_mem_cons] at hfin
    rw [mixSums_single_ramp_cons] at hsum
    obtain ⟨hy, hfin'⟩ := hfin
    obtain ⟨hs, hsum'⟩ := List.forall_mem_cons.mp hsum
    have hdraw := biquadOutput_draw i (f64_finite_kind hy).1
    rw [← hdraw] at hy hfin'
    rw [mixSums_single_ramp_cons, List.map_cons, List.map_cons, kdList_cons, kmrList_cons, kmrList_cons]
    simp only [← hdraw]
    obtain ⟨hmixed, hproduct⟩ := h.mixed_sample hy hvol hs j (j + 9 * fs.length + 1) (j + 9 * fs.length)
      (j + 9 * fs.length + 2)
    obtain ⟨hstored, hrest⟩ := ih (h.after_sample hy j).2 (hvol.fadd_both hramp (i + 12) (j + 9 * fs.length + 3))
      hproduct hfin' hsum' (j + 9 * fs.length + 4)
    refine ⟨?_, hrest⟩
    simp only [hstored, hmixed]

end Sys2Proof.Machine

/-! ### The identity as filter 1 (R163): the tail sample -/

namespace Sys2Proof.Machine

theorem f64ToF32_draw (k j : Nat) {a : F64} (h : f64IsNaN a = false) : f64ToF32 k a = f64ToF32 j a := by
  simp only [f64ToF32, h, Bool.false_eq_true, if_false]

theorem TailDefined.not_nan {a : F64} (h : TailDefined a) : f64IsNaN a = false := by
  refine Bool.eq_false_iff.mpr fun hnan => ?_
  have hfree := f32_finite_not_nan h.1
  rw [f64ToF32, if_pos hnan, f32IsNaN_free] at hfree
  cases hfree

/-- A value within these bounds truncates to a sample (R191). -/
theorem f32Trunc_range {v : F32} (hlo : -2147483649 * 2 ^ 149 < f32Units v) (hhi : f32Units v < 2147483648 * 2 ^ 149) :
    int32Min ≤ f32Trunc v ∧ f32Trunc v ≤ int32Max := by
  rw [f32Units] at hlo hhi
  rw [f32Trunc, int32Min, int32Max]
  generalize f32Sign v = negative at hlo hhi ⊢
  cases negative
  · simp only [Bool.false_eq_true, if_false] at hlo hhi ⊢
    omega
  · simp only [if_true] at hlo hhi ⊢
    omega

theorem f32ToS32Trunc_draw {v : F32} (hfin : f32IsFinite v = true) (hlo : int32Min ≤ f32Trunc v)
    (hhi : f32Trunc v ≤ int32Max) (i j : Nat) : f32ToS32Trunc i v = f32ToS32Trunc j v := by
  simp only [f32ToS32Trunc, hfin, hlo, hhi, decide_true, Bool.and_self, if_true]

theorem f32ToS32Trunc_zero (i : Nat) (negative : Bool) : f32ToS32Trunc i (f32Pack negative 0) = 0#32 := by
  have hin : (f32IsFinite (f32Pack negative 0) && decide (int32Min ≤ f32Trunc (f32Pack negative 0)) &&
      decide (f32Trunc (f32Pack negative 0) ≤ int32Max)) = true := by
    cases negative <;> decide +kernel
  rw [f32ToS32Trunc, if_pos hin]
  cases negative <;> decide +kernel

/-- A zero of either sign is captured as the sample 0. -/
theorem tailWord_zero (i j : Nat) {a : F64} (h : f64IsZero a = true) : f32ToS32Trunc i (f64ToF32 j a) = 0#32 := by
  have habs : f64Abs a = 0 := by
    by_contra hne
    exact Bool.false_ne_true ((f64Abs_pos.mp (Nat.pos_of_ne_zero hne)).symm.trans h)
  rw [f64ToF32_finite j (zero_kind h).2.2, habs, roundMag_zero _ _ unit32_pos]
  exact f32ToS32Trunc_zero i _

/-- A tail sample that is no draw does not see the draw numbers, nor the sign of a zero (R191). -/
theorem TailDefined.word_eq {a b : F64} (hb : TailDefined b) (h : EqUpToZeroSign a b) (i j : Nat) :
    f32ToS32Trunc i (f64ToF32 j a) = f32ToS32Trunc 0 (f64ToF32 0 b) := by
  rcases h with rfl | ⟨ha, hb0⟩
  · have hdraw := f64ToF32_draw j 0 hb.not_nan
    obtain ⟨hfin, hlo, hhi⟩ := hb
    obtain ⟨hmin, hmax⟩ := f32Trunc_range hlo hhi
    rw [hdraw]
    exact f32ToS32Trunc_draw hfin hmin hmax i 0
  · rw [tailWord_zero i j ha, tailWord_zero 0 0 hb0]

end Sys2Proof.Machine

/-! ### The identity as filter 1 (R163): the commands -/

namespace Sys2Proof.Machine

theorem KernelKeeps.prev {output : S16} {s t : State} (h : KernelKeeps output s t) : t.prev = s.prev := by rw [h.keeps]

theorem KernelKeeps.par {output : S16} {s t : State} (h : KernelKeeps output s t) : t.par = s.par := by rw [h.keeps]

/-- The previous samples after the tail capture of a ramped block `r` (R190). -/
def tailImage (voice : Handle) (index : S32) (r : RampedBlock) (s : State) : Memory :=
  (tailCapture voice index (f64ToF32 r.draw r.last) { s with draw := r.draw + 1 }).prev

/-- What a tail capture leaves depends on the previous samples and the stored word alone. -/
theorem tailCapture_prev_congr {voice : Handle} {index : S32} {v v' : F32} {s t : State} (hprev : t.prev = s.prev)
    (hpar : t.par = s.par) (hword : f32ToS32Trunc t.draw v' = f32ToS32Trunc s.draw v) :
    (tailCapture voice index v' t).prev = (tailCapture voice index v s).prev := by
  rw [tailCapture, tailCapture, hpar]
  split
  · simp only [useDraws_prev, writePrev_prev, hprev, hpar, hword]
  · exact hprev

theorem tailImage_eq {voice : Handle} {index : S32} {r : RampedBlock} {s t : State} {v : F32} (hprev : t.prev = s.prev)
    (hpar : t.par = s.par) (hdraw : t.draw = r.draw + 1) (hv : v = f64ToF32 r.draw r.last) :
    (tailCapture voice index v t).prev = tailImage voice index r s :=
  tailCapture_prev_congr hprev hpar (by rw [hdraw, hv])

/-- Blocks with one last mixed value, but for the sign of a zero, leave one image where the tail sample is no draw. -/
theorem tailImage_congr (voice : Handle) (index : S32) {r r' : RampedBlock} {last : F64} (s : State)
    (hlast : TailDefined last) (h : EqUpToZeroSign r.last last) (h' : EqUpToZeroSign r'.last last) :
    tailImage voice index r' s = tailImage voice index r s :=
  tailCapture_prev_congr rfl rfl ((hlast.word_eq h' _ _).trans (hlast.word_eq h _ _).symm)

theorem mixRampSteps_prev {o : BqfmOperands} {codec : State → State} {c : Nat → Coeffs} {n : Nat}
    (hc : LoadsFirst codec c n) (hin : 0 ≤ o.input.toInt) (hout : 0 ≤ o.output.toInt) {s : State} {r : RampedBlock}
    (h : RampMixedBy o (c s.draw) (s.draw + n) s (finish (mixRampSteps o codec s)) r) :
    (finish (mixRampSteps o codec s)).prev = tailImage o.voiceState o.lastSampleIndex r s := by
  have hkeeps := kernelKMR_keeps .single o.input o.output o.volume0 o.volume1 (mixLoaded o codec s)
  obtain ⟨-, -, -, hdraw, hlast⟩ := kernelKMR_mixLoaded hc hin hout s
  rw [← h.block] at hdraw hlast
  rw [finish_prev, mixRampSteps_eq]
  refine tailImage_eq ?_ ?_ ((persistState_draw _ _ _).trans hdraw) hlast
  · exact (persistState_prev _ _ _).trans (hkeeps.prev.trans (by rw [mixLoaded_eq hc, prepForked_prev]))
  · exact (persistState_par _ _ _).trans (hkeeps.par.trans (by rw [mixLoaded_eq hc, prepForked_par]))

theorem multiTapRampSteps_prev {o : MtOperands} {codec : State → State} {c0 c1 : Nat → Coeffs} {n : Nat}
    (hc : LoadsBoth codec c0 c1 n) (hin : 0 ≤ o.input.toInt) (hout : 0 ≤ o.output.toInt) {s : State} {r : RampedBlock}
    (h : RampCascadeMixedBy o (c0 s.draw) (c1 s.draw) (s.draw + n) s (finish (multiTapRampSteps o codec s)) r) :
    (finish (multiTapRampSteps o codec s)).prev = tailImage o.voiceState o.lastSampleIndex r s := by
  have hkeeps := kernelKMR_keeps .pair o.input o.output o.volume0 o.volume1 (multiTapBefore o codec s)
  obtain ⟨-, -, -, hdraw, hlast⟩ := kernelKMR_multiTapBefore hc hin hout s
  rw [← h.block] at hdraw hlast
  rw [finish_prev, multiTapRampSteps_eq]
  refine tailImage_eq ?_ ?_ ?_ hlast
  · simp only [multiTapAfter, writeEntry_prev, persistLoc_prev, hkeeps.prev, multiTapBefore_prev hc]
  · simp only [multiTapAfter, writeEntry_par, persistLoc_par, hkeeps.par, multiTapBefore_par hc]
  · simp only [multiTapAfter, writeEntry_draw, persistLoc_draw, hdraw]

/-- The delay line a `BQFM` starts with (R146). -/
def mixDelay (o : BqfmOperands) (s : State) : Delay :=
  (preparedEntry o.state0 o.previousState0 o.needsInit0 o.isFirstMixBuffer s).toDelay

/-- The pairs a `BQFM`'s kernel runs over: input samples and old output samples. -/
def mixPairs (o : BqfmOperands) (s : State) : List (S32 × S32) := (samples o.input s).zip (samples o.output s)

/-- The increment of a ramped `BQFM`'s volume (R142). -/
def volumeStep (o : BqfmOperands) (s : State) : F64 := rampStep 0 o.volume0 o.volume1 s.frame

/-- The sums a `BQFM` saturates, with the increment of the volume if it has one. -/
def saturatedSums (o : BqfmOperands) (c : Coeffs) (ramp : Option F64) (s : State) : List F64 :=
  mixSums 0 (mixFilters o c s) (f32ToF64 0 o.volume0) ramp (mixPairs o s)

theorem mixFilters_passesOn (o : BqfmOperands) (c : Coeffs) (s : State) :
    PassesOn c (mixDelay o s) (mixFilters o c s) := .inl rfl

/-- An entry persisted from the head of such a chain is the filter's delay line (R186). -/
theorem entry_eq_of_passesOn {c : Coeffs} {d : Delay} {e : Entry} {fs fs' : List Filter} (h : PassesOn c d fs)
    (he : fs = ⟨c, e.toDelay⟩ :: fs') : e = d.toEntry := by
  rw [he] at h
  exact congrArg (fun f : Filter => f.d.toEntry) h.head

/-- The premises of R163: a cascade beside its single filter, filter 1 with an entry of its own, finite, and finite
outputs of filter 0. -/
structure IdentityPremises (om : BqfmOperands) (oc : MtOperands) (c : Coeffs) (s : State) : Prop where
  same : SameBut1 om oc
  distinct : oc.state1 ≠ oc.state0
  entry : (readEntry oc.state1 (afterPrep1 oc s)).finite
  outputs : ∀ y ∈ outputsList 0 c (mixDelay om s) ((mixPairs om s).map Prod.fst), f64IsFinite y = true

/-- The two commands leave the same samples and the same filter 0 entry. -/
def SameMix (om : BqfmOperands) (t t' : State) : Prop :=
  samples om.output t' = samples om.output t ∧ readEntry om.state0 t' = readEntry om.state0 t

section
variable {om : BqfmOperands} {oc : MtOperands} {c : Coeffs} {s : State} (h : IdentityPremises om oc c s)
include h

theorem IdentityPremises.pairs_eq : (samples oc.input s).zip (samples oc.output s) = mixPairs om s := by
  rw [h.same.input, h.same.output, mixPairs]

theorem IdentityPremises.tapFilters_passesOn : PassesOn c (mixDelay om s) (tapFilters oc c identityCoeffs s) := by
  have hstart : readEntry oc.state0 (afterPrep0 oc s) =
      preparedEntry om.state0 om.previousState0 om.needsInit0 om.isFirstMixBuffer s := by
    rw [afterPrep0, readEntry_prepForked_state, h.same.state0, h.same.previousState0, h.same.needsInit0,
      h.same.isFirstMixBuffer]
  exact .inr ⟨(readEntry oc.state1 (afterPrep1 oc s)).toDelay, h.entry, by rw [tapFilters, hstart, mixDelay]⟩

/-- The filter 0 entry of the cascade, its filters passing on a single filter's delay line. -/
theorem IdentityPremises.entry0_eq {d : Delay} {fs : List Filter} {t : State}
    (hback : WrittenBack oc c identityCoeffs fs s t) (hfs : PassesOn c d fs) : readEntry om.state0 t = d.toEntry := by
  obtain ⟨e0, hfilters, hown⟩ := hback.taps
  rw [← h.same.state0, ← hown h.distinct.symm]
  exact entry_eq_of_passesOn hfs hfilters

/-- `KM(2)` against `KM(1)` (R163). -/
theorem IdentityPremises.sameMix {k k' : Nat} {t t' : State} (hm : MixedBy om c k s t)
    (hc : CascadeMixedBy oc c identityCoeffs k' s t')
    (hsum : ∀ v ∈ saturatedSums om c none s, f64IsNaN v = false) :
    SameMix om t t' := by
  obtain ⟨hout, hfs⟩ := (mixFilters_passesOn om c s).kmList_block (f32ToF64_sameUpToNaN 0 k om.volume0) h.outputs hsum
    (k + 1)
  obtain ⟨hout', hfs'⟩ := h.tapFilters_passesOn.kmList_block (f32ToF64_sameUpToNaN 0 k' om.volume0) h.outputs hsum
    (k' + 1)
  obtain ⟨-, hstored, hentry, -⟩ := hm
  obtain ⟨-, hstored', hback⟩ := hc
  rw [h.pairs_eq, h.same.volume0] at hstored' hback
  rw [h.same.output] at hstored'
  refine ⟨(hstored'.trans hout').trans (hstored.trans hout).symm, ?_⟩
  rw [h.entry0_eq hback hfs', entry_eq_of_passesOn hfs hentry]

/-- A ramped kernel over a chain that passes on what the single filter gives, against the filter alone at other draws. -/
theorem IdentityPremises.kmrBlock_eq {fs : List Filter} (hfs : PassesOn c (mixDelay om s) fs)
    (hsum : ∀ v ∈ saturatedSums om c (some (volumeStep om s)) s, f64IsNaN v = false) (k : Nat) :
    let r := kmrBlock k fs om.volume0 om.volume1 s.frame (mixPairs om s)
    let r0 := kmrList 0 (mixFilters om c s) (f32ToF64 0 om.volume0) (volumeStep om s) 0#64 (mixPairs om s)
    r.out = (saturatedSums om c (some (volumeStep om s)) s).map (satS32 0) ∧
      PassesOn c (kdList 0 c (mixDelay om s) ((mixPairs om s).map Prod.fst)).2 r.filters ∧
      EqUpToZeroSign r.last r0.last :=
  hfs.kmrList_block (f32ToF64_sameUpToNaN 0 k om.volume0) (rampStep_sameUpToNaN 0 (k + 1) _ _ _) (.refl _) h.outputs
    hsum _

/-- `KMR(2)` against `KMR(1)` (R163). -/
theorem IdentityPremises.sameRampMix {k k' : Nat} {t t' : State} {r r' : RampedBlock} (hm : RampMixedBy om c k s t r)
    (hc : RampCascadeMixedBy oc c identityCoeffs k' s t' r')
    (hsum : ∀ v ∈ saturatedSums om c (some (volumeStep om s)) s, f64IsNaN v = false) :
    SameMix om t t' ∧ (TailDefined (kmrBlock 0 (mixFilters om c s) om.volume0 om.volume1 s.frame (mixPairs om s)).last →
      tailImage oc.voiceState oc.lastSampleIndex r' s = tailImage om.voiceState om.lastSampleIndex r s) := by
  obtain ⟨-, -, hlast0⟩ := h.kmrBlock_eq (mixFilters_passesOn om c s) hsum 0
  obtain ⟨hout, hfs, hlast⟩ := h.kmrBlock_eq (mixFilters_passesOn om c s) hsum k
  obtain ⟨hout', hfs', hlast'⟩ := h.kmrBlock_eq h.tapFilters_passesOn hsum k'
  obtain ⟨hblock, -, hstored, hentry, -, -⟩ := hm
  obtain ⟨hblock', -, hstored', hback, -⟩ := hc
  rw [h.pairs_eq, h.same.volume0, h.same.volume1] at hblock'
  rw [h.same.output] at hstored'
  rw [← mixPairs] at hblock
  rw [← hblock] at hout hfs hlast
  rw [← hblock'] at hout' hfs' hlast'
  refine ⟨⟨(hstored'.trans hout').trans (hstored.trans hout).symm, ?_⟩, fun htail => ?_⟩
  · rw [h.entry0_eq hback hfs', entry_eq_of_passesOn hfs hentry]
  · rw [h.same.voiceState, h.same.lastSampleIndex]
    exact tailImage_congr _ _ s htail (hlast.trans hlast0.symm) (hlast'.trans hlast0.symm)

end

theorem loadQ14Pair_identity (c : Q14Params) :
    LoadsBoth (loadQ14Pair c identityQ14) (fun _ => decodeQ14 c) (fun _ => identityCoeffs) 0 := by
  simpa only [decodeQ14_identity] using loadQ14Pair_loadsBoth c identityQ14

theorem loadF32Pair_identity (c : F32Params) :
    LoadsBoth (loadF32Pair c identityF32) (fun k => decodeF32 k c) (fun _ => identityCoeffs) 10 := by
  simpa only [decodeF32_identity] using loadF32Pair_loadsBoth c identityF32

section
variable {om : BqfmOperands} {oc : MtOperands} {s : State} {codec codec' : State → State} {c : Nat → Coeffs} {n n' : Nat}
  (h : IdentityPremises om oc (c s.draw) s) (hc : LoadsFirst codec c n)
  (hc' : LoadsBoth codec' c (fun _ => identityCoeffs) n') (hin : 0 ≤ om.input.toInt) (hout : 0 ≤ om.output.toInt)
include h hc hc' hin hout

theorem multiTapSteps_sameMix (hsum : ∀ v ∈ saturatedSums om (c s.draw) none s, f64IsNaN v = false) :
    SameMix om (finish (mixSteps om codec s)) (finish (multiTapSteps oc codec' s)) :=
  h.sameMix (mixSteps_mixedBy hc hin hout s)
    (multiTapSteps_cascadeMixedBy hc' (h.same.input ▸ hin) (h.same.output ▸ hout) s) hsum

theorem multiTapRampSteps_sameMix
    (hsum : ∀ v ∈ saturatedSums om (c s.draw) (some (volumeStep om s)) s, f64IsNaN v = false) :
    SameMix om (finish (mixRampSteps om codec s)) (finish (multiTapRampSteps oc codec' s)) ∧
      (TailDefined (kmrBlock 0 (mixFilters om (c s.draw) s) om.volume0 om.volume1 s.frame (mixPairs om s)).last →
        (finish (multiTapRampSteps oc codec' s)).prev = (finish (mixRampSteps om codec s)).prev) := by
  have hin' : 0 ≤ oc.input.toInt := h.same.input ▸ hin
  have hout' : 0 ≤ oc.output.toInt := h.same.output ▸ hout
  obtain ⟨r, hr⟩ := mixRampSteps_rampMixedBy hc hin hout s
  obtain ⟨r', hr'⟩ := multiTapRampSteps_rampCascadeMixedBy hc' hin' hout' s
  rw [multiTapRampSteps_prev hc' hin' hout' hr', mixRampSteps_prev hc hin hout hr]
  exact h.sameRampMix hr hr' hsum

end

/-- Settles O48: the two forms of each pair are the same steps around codecs that load the same filter 0. -/
theorem identityCascadeEqualsSingle : Obligations.IdentityCascadeEqualsSingle := by
  intro om oc single cascade c s hpair hsame hne hentry hfin hsum hok hok'
  have h : IdentityPremises om oc c s := ⟨hsame, hne, hentry, by rw [mixPairs, zip_fst_samples]; exact hfin 0⟩
  rcases hpair with ⟨q, rfl, rfl, rfl⟩ | ⟨q, rfl, rfl, rfl⟩ | ⟨q, rfl, rfl, rfl⟩ | ⟨q, rfl, rfl, rfl⟩
  · obtain ⟨hsamples, hentry⟩ := multiTapSteps_sameMix (c := fun _ => decodeQ14 q) h (loadQ14_loadsFirst q)
      (loadQ14Pair_identity q) hok.input.1 hok.output.1 (hsum 0 0)
    exact ⟨_, _, exec_ok hok, exec_ok hok', hsamples, hentry, fun hr => absurd hr Bool.false_ne_true⟩
  · obtain ⟨⟨hsamples, hentry⟩, hprev⟩ := multiTapRampSteps_sameMix (c := fun _ => decodeQ14 q) h
      (loadQ14_loadsFirst q) (loadQ14Pair_identity q) hok.input.1 hok.output.1 (hsum 0 0)
    exact ⟨_, _, exec_ok hok, exec_ok hok', hsamples, hentry, fun _ => hprev⟩
  · obtain ⟨hsamples, hentry⟩ := multiTapSteps_sameMix (c := fun k => decodeF32 k q) h (loadF32_loadsFirst q)
      (loadF32Pair_identity q) hok.input.1 hok.output.1 (hsum 0 0)
    exact ⟨_, _, exec_ok hok, exec_ok hok', hsamples, hentry, fun hr => absurd hr Bool.false_ne_true⟩
  · obtain ⟨⟨hsamples, hentry⟩, hprev⟩ := multiTapRampSteps_sameMix (c := fun k => decodeF32 k q) h
      (loadF32_loadsFirst q) (loadF32Pair_identity q) hok.input.1 hok.output.1 (hsum 0 0)
    exact ⟨_, _, exec_ok hok, exec_ok hok', hsamples, hentry, fun _ => hprev⟩

end Sys2Proof.Machine

/-! ## `Process` and the other operations on a command (44_command_process.md)

### `VERIFY` and `DUMP` (R200, R201) -/

namespace Sys2Proof.Machine

theorem verifyNext_of_record {s : State} {i : Instr} (h : nextRecord s = some i) :
    verifyNext s = { s with cmd := some i, result := some (.valid true) } := by
  simp only [verifyNext, latch, h]

theorem dumpNext_of_record {s : State} {i : Instr} (h : nextRecord s = some i) :
    dumpNext s = { s with
      cmd := some i
      result := some (.dump (dumpTuple i))
      diag := s.diag ++ Config.dumpFormat (dumpTuple i) } := by
  simp only [dumpNext, latch, h]

/-- Settles O9: `VERIFY` latches and returns true. -/
theorem verifyReportsValid : Obligations.VerifyReportsValid := by
  intro s rest i hhost hl
  have hrec : nextRecord { s with host := rest } = some i := nextRecord_of_latchedNext hl
  rw [step_hostOp hhost, performHostOp, operate, if_neg (by decide), if_pos rfl, verifyNext_of_record hrec]

/-- Settles O10: `DUMP` latches, returns the tuple and appends its line. -/
theorem dumpReturnsTheRecord : Obligations.DumpReturnsTheRecord := by
  intro s rest i hhost hl
  have hrec : nextRecord { s with host := rest } = some i := nextRecord_of_latchedNext hl
  rw [step_hostOp hhost, performHostOp, operate, if_neg (by decide), if_neg (by decide), if_pos rfl,
    dumpNext_of_record hrec]
  rfl

/-! ### `validate` (R182, R233, R239) -/

theorem processNext_of_no_record {s : State} (h : nextRecord s = none) :
    processNext s = .next (afterProcess (takeRefusal .illegalDescriptor { s with cmd := none })) := by
  rcases processNext_cases s with ⟨_, hrefuse⟩ | ⟨i, _, hi, _, _⟩
  · exact hrefuse
  · cases h.symm.trans hi

theorem wellFormed_fails_iff {i : Instr} {hwRev : Int} :
    (!i.wellFormed hwRev) = true ↔ i.useFloatCoefficients = true ∧ hwRev < 15 := by
  rw [Instr.wellFormed]
  cases i.useFloatCoefficients <;> simp

theorem bufferValid_fails_iff {p : Params} {k : S16} :
    (!bufferValid p k) = true ↔ k.toInt < 0 ∨ (p.nbuf : Int) ≤ k.toInt := by
  rw [Bool.not_eq_true', ← Bool.not_eq_true, bufferValid_iff]
  omega

theorem any_handleBad_iff {p : Params} {l : List Handle} :
    l.any (handleBad p) = true ↔ ∃ h ∈ l, p.nstate ≤ h.toNat := by
  simp only [List.any_eq_true, handleBad, decide_eq_true_eq]

theorem voiceBad_iff {p : Params} {i : Instr} :
    voiceBad p i = true ↔ i.hasVolumeRamp = some true ∧ ∃ v, i.voiceState = some v ∧ p.nvoice ≤ v.toNat := by
  rw [voiceBad, Instr.ramped, Bool.and_eq_true, beq_iff_eq]
  cases i.voiceState <;> simp

/-- `validate` as the chain of its checks, each on the fields of the record (R182). -/
theorem validate_eq (i : Instr) (s : State) : validate i s =
    if i.useFloatCoefficients = true ∧ s.par.hwRev < 15 then some .illegalDescriptor
    else if s.par.maxSampleCount < s.frame.toNat then some .badSampleCount
    else if i.input.toInt < 0 ∨ (s.par.nbuf : Int) ≤ i.input.toInt then some .badBufferIndex
    else if i.output.toInt < 0 ∨ (s.par.nbuf : Int) ≤ i.output.toInt then some .badBufferIndex
    else if ∃ h ∈ i.states ++ i.previousStates, s.par.nstate ≤ h.toNat then some .badStateHandle
    else if i.hasVolumeRamp = some true ∧ ∃ v, i.voiceState = some v ∧ s.par.nvoice ≤ v.toNat then some .badVoiceHandle
    else none := by
  simp only [validate, checks, firstFailing, wellFormed_fails_iff, bufferValid_fails_iff, any_handleBad_iff,
    voiceBad_iff, decide_eq_true_eq]

/-- Settles O14: `validate` is the first failing check, and a refusal sets the result alone. -/
theorem firstFailingCheckDecides : Obligations.FirstFailingCheckDecides := by
  refine ⟨fun s e hhost hpc hd => ?_, fun i s => ?_⟩
  · rw [step_process hhost hpc, processNext_of_no_record (nextRecord_error hpc hd), afterProcess]
    simp only [takeRefusal_pc, takeRefusal_listLen, hpc, if_true, takeRefusal_result, Result.isRefused, Bool.or_true]
    rfl
  · dsimp only
    rw [← validate_eq]
    rcases exec_cases i s with ⟨hok, hrun⟩ | ⟨r, hr, hrefuse⟩
    · rw [(validate_eq_none i s).mpr hok]
      exact ⟨_, hrun, rfl, fun h => absurd rfl h⟩
    · rw [hr]
      exact ⟨_, hrefuse, rfl, fun _ => rfl⟩

/-- Settles O15: `exec_controlKept` for every form. -/
theorem processKeepsControlState : Obligations.ProcessKeepsControlState := fun _ _ _ h => exec_controlKept h

/-! ### State preparation (R183, R184, R188) -/

/-- Settles O38: each branch writes the one entry it names. -/
theorem threeWayPreparation : Obligations.ThreeWayPreparation := by
  refine fun h p g first s => ⟨?_, ?_, ?_⟩ <;> rw [readEntry_prepForked]
  · exact if_pos rfl
  · rw [if_neg Bool.false_ne_true, if_pos rfl]
  · rw [if_neg Bool.false_ne_true, if_neg Bool.false_ne_true]

/-- Settles O39: the preparation zeroes one entry, or is the identity. -/
theorem plainPreparation : Obligations.PlainPreparation :=
  fun h g s => ⟨by rw [readEntry_prepPlain]; simp [Entry.zero], rfl⟩

/-- Byte `j` of a word is the image's. -/
theorem Memory.ofNat_read_div (sp : Space) (m : Memory) (addr : Nat) {n j : Nat} (hj : j < n) :
    BitVec.ofNat 8 (m.read sp addr n / 256 ^ j) = m.readByte sp (addr + j) := by
  induction n generalizing addr j with
  | zero => omega
  | succ n ih =>
    have hbyte := (m.readByte sp addr).isLt
    rw [Memory.read]
    cases j with
    | zero => exact BitVec.eq_of_toNat_eq (by
        rw [BitVec.toNat_ofNat]
        simp only [Nat.pow_zero, Nat.div_one, Nat.add_zero]
        omega)
    | succ j =>
      rw [Nat.pow_succ', ← Nat.div_div_eq_div_mul, Nat.add_mul_div_left _ _ (by decide), Nat.div_eq_of_lt hbyte,
        Nat.zero_add, ih (addr + 1) (by omega), Nat.add_right_comm, Nat.add_assoc]

/-- A word stored over itself changes no byte. -/
theorem Memory.readByte_write_self (sp : Space) (m : Memory) (addr n a : Nat) :
    (m.write addr n (m.read sp addr n)).readByte sp a = m.readByte sp a := by
  rw [Memory.readByte_write]
  split
  · rw [Memory.ofNat_read_div _ _ _ (by omega), Nat.add_sub_cancel' (by omega)]
  · rfl

theorem readByte_writeSrfWord_self {h k : Nat} {v : Word64} {s : State} (hv : readSrfWord h k s = v) (a : Nat) :
    (writeSrfWord h k v s).srf.readByte .srf a = s.srf.readByte .srf a := by
  have hword : v.toNat = s.srf.read .srf (srfAddr h k) 8 := by
    rw [← hv, readSrfWord, BitVec.toNat_ofNat, Nat.mod_eq_of_lt (show _ < 2 ^ 64 from Memory.read_lt _ _ _ 8)]
  rw [writeSrfWord_srf, hword, Memory.readByte_write_self]

/-- An entry stored over itself changes no byte. -/
theorem readByte_writeEntry_self {h : Handle} {e : Entry} {s : State} (he : readEntry h s = e) (a : Nat) :
    (writeEntry h e s).srf.readByte .srf a = s.srf.readByte .srf a := by
  subst he
  have hkeep (k k' : Nat) (hk : k < 4) (hk' : k' < 4) (hne : k ≠ k') (v : Word64) (t : State) :
      readSrfWord h.toNat k (writeSrfWord h.toNat k' v t) = readSrfWord h.toNat k t :=
    readSrfWord_writeSrfWord_ne v t hk hk' (.inr hne)
  rw [writeEntry, readByte_writeSrfWord_self, readByte_writeSrfWord_self, readByte_writeSrfWord_self,
    readByte_writeSrfWord_self]
  · rfl
  · exact hkeep 1 0 (by decide) (by decide) (by decide) _ _
  · rw [hkeep 2 1 (by decide) (by decide) (by decide), hkeep 2 0 (by decide) (by decide) (by decide)]
    rfl
  · rw [hkeep 3 2 (by decide) (by decide) (by decide), hkeep 3 1 (by decide) (by decide) (by decide),
      hkeep 3 0 (by decide) (by decide) (by decide)]
    rfl

/-- Settles O40: with equal handles a copy stores an entry over itself. -/
theorem equalHandlesDegenerate : Obligations.EqualHandlesDegenerate := by
  intro h ni first s a
  rw [prepForked_eq, prepPlain_eq, ite_self]
  cases ni
  · rw [if_neg Bool.false_ne_true, if_neg Bool.false_ne_true, readByte_writeEntry_self rfl]
  · rw [if_pos rfl, if_pos rfl]

/-! ### The tail sample (R190, R191) -/

theorem f32ToS32Trunc_of_range (k : Nat) {r : F32} (hfin : f32IsFinite r = true) (hlo : int32Min ≤ f32Trunc r)
    (hhi : f32Trunc r ≤ int32Max) : f32ToS32Trunc k r = BitVec.ofInt 32 (f32Trunc r) :=
  if_pos (by simp only [hfin, hlo, hhi, decide_true, Bool.and_self])

theorem f32ToS32Trunc_out_of_range (k : Nat) {r : F32} (h : f32Trunc r < int32Min ∨ int32Max < f32Trunc r) :
    f32ToS32Trunc k r = Config.freeS32 k := by
  refine if_neg fun hin => ?_
  simp only [Bool.and_eq_true, decide_eq_true_eq] at hin
  omega

/-- The truncation of a finite value in units: the whole number of its sign next to it toward zero. -/
theorem f32Trunc_eq {r : F32} {q : Int} (hle : |q| * 2 ^ 149 ≤ |f32Units r|) (hlt : |f32Units r| < (|q| + 1) * 2 ^ 149)
    (hpos : 0 < q → 0 < f32Units r) (hneg : q < 0 → f32Units r < 0) : f32Trunc r = q := by
  have habs : ((f32Abs r / 2 ^ 149 : Nat) : Int) = |q| := by
    rw [f32Units_eq, abs_signedUnits] at hle hlt
    omega
  rw [f32Units] at hpos hneg
  rw [f32Trunc, habs]
  generalize f32Sign r = negative at *
  cases negative
  · exact abs_of_nonneg (not_lt.mp fun h => absurd (hneg h) (by simp))
  · exact (congrArg Neg.neg (abs_of_nonpos (not_lt.mp fun h => absurd (hpos h) (by simp)))).trans (neg_neg q)

/-- A value at or past a bound of the samples truncates past it. -/
theorem f32Trunc_out_of_range {r : F32}
    (h : 2147483648 * 2 ^ 149 ≤ f32Units r ∨ f32Units r ≤ -2147483649 * 2 ^ 149) :
    f32Trunc r < int32Min ∨ int32Max < f32Trunc r := by
  rw [f32Units] at h
  rw [f32Trunc, int32Min, int32Max]
  generalize f32Sign r = negative at h ⊢
  cases negative <;> simp only [Bool.false_eq_true, if_false, if_true] at h ⊢ <;> omega

/-- Settles O36: the truncation is the one whole number with these bounds, and past them none is a sample. -/
theorem tailTruncation : Obligations.TailTruncation := by
  refine fun k r => ⟨fun hfin q hlo hhi hle hlt hpos hneg => ?_, fun _ h => ?_, fun hfin => ?_⟩
  · have hq := f32Trunc_eq hle hlt hpos hneg
    rw [f32ToS32Trunc_of_range k hfin (hq ▸ hlo) (hq ▸ hhi), hq, toInt_ofInt_of_range hlo hhi]
  · exact f32ToS32Trunc_out_of_range k (f32Trunc_out_of_range h)
  · exact if_neg (by simp [hfin])

end Sys2Proof.Machine

/-! ### What every form leaves of the storages (R180, R183, R190) -/

namespace Sys2Proof.Machine

/-- The previous entries a form snapshots into (R183). -/
def snapshotEntries (i : Instr) : List Handle :=
  if i.isFirstMixBuffer = some true then ((i.needsInit.zip i.previousStates).filter fun q => !q.1).map Prod.snd else []

/-- The entries a form writes: its own, and the previous ones it snapshots into. -/
def writtenEntries (i : Instr) : List Handle := i.states ++ snapshotEntries i

/-- The bytes of the storages that form `i` does not write: outside its output span, its entries and its tail sample. -/
structure StorageKept (i : Instr) (s t : State) : Prop where
  par : t.par = s.par
  frame : t.frame = s.frame
  arena : ∀ a, outsideSpan i.output s a → t.arena.readByte .arena a = s.arena.readByte .arena a
  srf : ∀ a, (∀ h ∈ writtenEntries i, outsideEntry h a) → t.srf.readByte .srf a = s.srf.readByte .srf a
  prev : ∀ a, (∀ v k, i.voiceState = some v → i.lastSampleIndex = some k → outsideTail s.par v k a) →
    t.prev.readByte .prev a = s.prev.readByte .prev a
  unramped : i.ramped = false → t.prev = s.prev

namespace StorageKept

variable {i : Instr} {s t u : State}

theorem trans (h : StorageKept i s t) (h' : StorageKept i t u) : StorageKept i s u where
  par := h'.par.trans h.par
  frame := h'.frame.trans h.frame
  arena a ha := (h'.arena a (by simpa only [outsideSpan, h.frame] using ha)).trans (h.arena a ha)
  srf a ha := (h'.srf a ha).trans (h.srf a ha)
  prev a ha := (h'.prev a (by rw [h.par]; exact ha)).trans (h.prev a ha)
  unramped hr := (h'.unramped hr).trans (h.unramped hr)

/-- Registers, the local array, the draw number and the result are no storage. -/
theorem of_eq (hpar : t.par = s.par) (hframe : t.frame = s.frame) (harena : t.arena = s.arena) (hsrf : t.srf = s.srf)
    (hprev : t.prev = s.prev) : StorageKept i s t where
  par := hpar
  frame := hframe
  arena a _ := by rw [harena]
  srf a _ := by rw [hsrf]
  prev a _ := by rw [hprev]
  unramped _ := hprev

theorem refl (i : Instr) (s : State) : StorageKept i s s := of_eq rfl rfl rfl rfl rfl

theorem writeEntry {h : Handle} (hh : h ∈ writtenEntries i) (e : Entry) (s : State) :
    StorageKept i s (writeEntry h e s) where
  par := writeEntry_par h e s
  frame := writeEntry_frame h e s
  arena a _ := by rw [writeEntry_arena]
  srf a ha := readByte_writeEntry_outside h e s (ha h hh)
  prev a _ := by rw [writeEntry_prev]
  unramped _ := writeEntry_prev h e s

theorem prepPlain {h : Handle} (hh : h ∈ writtenEntries i) (ni : Bool) (s : State) :
    StorageKept i s (prepPlain h ni s) := by
  rw [prepPlain_eq]
  split
  · exact writeEntry hh _ s
  · exact refl i s

theorem prepForked {h p : Handle} {ni first : Bool} (hh : h ∈ writtenEntries i)
    (hp : snapshots ni first → p ∈ writtenEntries i) (s : State) : StorageKept i s (prepForked h p ni first s) := by
  rw [prepForked_eq]
  split
  · exact writeEntry hh _ s
  · next hni =>
    split
    · next hfirst => exact writeEntry (hp ⟨Bool.eq_false_iff.mpr hni, hfirst⟩) _ s
    · exact writeEntry hh _ s

theorem persistAcc {h : Handle} (hh : h ∈ writtenEntries i) (s : State) : StorageKept i s (persistAcc h s) where
  par := persistAcc_par h s
  frame := persistAcc_frame h s
  arena a _ := by rw [persistAcc_arena]
  srf a ha := by
    have hout := ha h hh
    simp only [outsideEntry, srfAddr] at hout
    simp only [Machine.persistAcc, writeSrfWord_srf]
    rw [Memory.readByte_write_outside _ _ _ _ _ _ (by simp only [srfAddr]; omega),
      Memory.readByte_write_outside _ _ _ _ _ _ (by simp only [srfAddr]; omega)]
  prev a _ := by rw [persistAcc_prev]
  unramped _ := persistAcc_prev h s

theorem kernel (h : KernelKeeps i.output s t) : StorageKept i s t where
  par := h.par
  frame := h.frame
  arena := h.bytes
  srf a _ := by rw [h.srf]
  prev a _ := by rw [h.prev]
  unramped _ := h.prev

theorem tailCapture {v : Handle} {k : S32} (hr : i.ramped = true) (hv : i.voiceState = some v)
    (hk : i.lastSampleIndex = some k) (r : F32) (s : State) : StorageKept i s (tailCapture v k r s) where
  par := tailCapture_par v k r s
  frame := tailCapture_frame v k r s
  arena a _ := by rw [tailCapture_arena]
  srf a _ := by rw [tailCapture_srf]
  prev a ha := by
    rcases tailCapture_cases v k r s with ⟨hlo, hhi, h⟩ | ⟨_, h⟩
    · rw [h, useDraws_prev, writePrev_prev, Memory.readByte_write_outside _ _ _ _ _ _ (ha v k hv hk hlo hhi)]
    · rw [h]
  unramped hn := absurd (hn.symm.trans hr) Bool.false_ne_true

end StorageKept

/-! The forms -/

theorem mem_writtenEntries_of_states {i : Instr} {h : Handle} (hh : h ∈ i.states) : h ∈ writtenEntries i :=
  List.mem_append_left _ hh

theorem mem_writtenEntries_iff {i : Instr} {first : Bool} (hfirst : i.isFirstMixBuffer = some first) {h : Handle} :
    h ∈ writtenEntries i ↔
      h ∈ i.states ∨ ∃ ni, (ni, h) ∈ i.needsInit.zip i.previousStates ∧ snapshots ni first := by
  rw [writtenEntries, List.mem_append, snapshotEntries, hfirst]
  cases first <;> simp [snapshots]

/-- The entry a tap snapshots into is one its form writes. -/
theorem mem_writtenEntries_of_snapshot {i : Instr} {ni first : Bool} {p : Handle} (hfirst : i.isFirstMixBuffer = some first)
    (hp : (ni, p) ∈ i.needsInit.zip i.previousStates) (h : snapshots ni first) : p ∈ writtenEntries i :=
  (mem_writtenEntries_iff hfirst).mpr (.inr ⟨ni, hp, h⟩)

/-- A double-precision form of the `BQF` kind, by what tells it apart: its codec loads the coefficients `c` of the draw
number and takes `n` draws. -/
structure IsFilter (i : Instr) (o : BqfOperands) (codec : State → State) (c : Nat → Coeffs) (n : Nat) : Prop where
  loads : LoadsFirst codec c n
  steps : stepsOf i = filterSteps o codec
  input : i.input = o.input
  output : i.output = o.output
  states : i.states = [o.state0]
  first : i.isFirstMixBuffer = none
  unramped : i.ramped = false

/-- A form of the `BQFM` kind, in the same terms. -/
structure IsMix (i : Instr) (o : BqfmOperands) (codec : State → State) (c : Nat → Coeffs) (n : Nat) : Prop where
  loads : LoadsFirst codec c n
  coeffs : ∀ k, formCoeffs k i = [c k]
  steps : (i.ramped = false ∧ stepsOf i = mixSteps o codec) ∨ (i.ramped = true ∧ stepsOf i = mixRampSteps o codec)
  input : i.input = o.input
  output : i.output = o.output
  states : i.states = [o.state0]
  previous : i.previousStates = [o.previousState0]
  needsInit : i.needsInit = [o.needsInit0]
  first : i.isFirstMixBuffer = some o.isFirstMixBuffer
  voice : i.voiceState = some o.voiceState
  index : i.lastSampleIndex = some o.lastSampleIndex

/-- A form of the `MTBQFM` kind. -/
structure IsCascade (i : Instr) (o : MtOperands) (codec : State → State) (c0 c1 : Nat → Coeffs) (n : Nat) : Prop where
  loads : LoadsBoth codec c0 c1 n
  coeffs : ∀ k, formCoeffs k i = [c0 k, c1 k]
  steps : (i.ramped = false ∧ stepsOf i = multiTapSteps o codec) ∨
    (i.ramped = true ∧ stepsOf i = multiTapRampSteps o codec)
  input : i.input = o.input
  output : i.output = o.output
  states : i.states = [o.state0, o.state1]
  previous : i.previousStates = [o.previousState0, o.previousState1]
  needsInit : i.needsInit = [o.needsInit0, o.needsInit1]
  first : i.isFirstMixBuffer = some o.isFirstMixBuffer
  voice : i.voiceState = some o.voiceState
  index : i.lastSampleIndex = some o.lastSampleIndex

theorem isFilter_of_form {i : Instr} {o : BqfOperands} (h : (∃ c, i = .bqfD o c) ∨ ∃ c, i = .bqfDF o c) :
    ∃ codec c n, IsFilter i o codec c n := by
  rcases h with ⟨c, rfl⟩ | ⟨c, rfl⟩
  · exact ⟨_, _, _, loadQ14_loadsFirst c, rfl, rfl, rfl, rfl, rfl, rfl⟩
  · exact ⟨_, _, _, loadF32_loadsFirst c, rfl, rfl, rfl, rfl, rfl, rfl⟩

theorem isMix_of_form {i : Instr} {o : BqfmOperands}
    (h : (∃ c, i = .bqfm o c) ∨ (∃ c, i = .bqfmF o c) ∨ (∃ c, i = .bqfmR o c) ∨ ∃ c, i = .bqfmRF o c) :
    ∃ codec c n, IsMix i o codec c n := by
  rcases h with ⟨c, rfl⟩ | ⟨c, rfl⟩ | ⟨c, rfl⟩ | ⟨c, rfl⟩
  · exact ⟨_, _, _, loadQ14_loadsFirst c, fun _ => rfl, .inl ⟨rfl, rfl⟩, rfl, rfl, rfl, rfl, rfl, rfl, rfl, rfl⟩
  · exact ⟨_, _, _, loadF32_loadsFirst c, fun _ => rfl, .inl ⟨rfl, rfl⟩, rfl, rfl, rfl, rfl, rfl, rfl, rfl, rfl⟩
  · exact ⟨_, _, _, loadQ14_loadsFirst c, fun _ => rfl, .inr ⟨rfl, rfl⟩, rfl, rfl, rfl, rfl, rfl, rfl, rfl, rfl⟩
  · exact ⟨_, _, _, loadF32_loadsFirst c, fun _ => rfl, .inr ⟨rfl, rfl⟩, rfl, rfl, rfl, rfl, rfl, rfl, rfl, rfl⟩

theorem isCascade_of_form {i : Instr} {o : MtOperands}
    (h : (∃ c0 c1, i = .mtbqfm o c0 c1) ∨ (∃ c0 c1, i = .mtbqfmF o c0 c1) ∨ (∃ c0 c1, i = .mtbqfmR o c0 c1) ∨
      ∃ c0 c1, i = .mtbqfmRF o c0 c1) :
    ∃ codec c0 c1 n, IsCascade i o codec c0 c1 n := by
  rcases h with ⟨c0, c1, rfl⟩ | ⟨c0, c1, rfl⟩ | ⟨c0, c1, rfl⟩ | ⟨c0, c1, rfl⟩
  · exact ⟨_, _, _, _, loadQ14Pair_loadsBoth c0 c1, fun _ => rfl, .inl ⟨rfl, rfl⟩, rfl, rfl, rfl, rfl, rfl, rfl, rfl, rfl⟩
  · exact ⟨_, _, _, _, loadF32Pair_loadsBoth c0 c1, fun _ => rfl, .inl ⟨rfl, rfl⟩, rfl, rfl, rfl, rfl, rfl, rfl, rfl, rfl⟩
  · exact ⟨_, _, _, _, loadQ14Pair_loadsBoth c0 c1, fun _ => rfl, .inr ⟨rfl, rfl⟩, rfl, rfl, rfl, rfl, rfl, rfl, rfl, rfl⟩
  · exact ⟨_, _, _, _, loadF32Pair_loadsBoth c0 c1, fun _ => rfl, .inr ⟨rfl, rfl⟩, rfl, rfl, rfl, rfl, rfl, rfl, rfl, rfl⟩

/-- The four shapes of the eleven forms. -/
theorem form_cases (i : Instr) :
    (∃ o c, i = .bqfI o c) ∨ (∃ o codec c n, IsFilter i o codec c n) ∨ (∃ o codec c n, IsMix i o codec c n) ∨
      ∃ o codec c0 c1 n, IsCascade i o codec c0 c1 n := by
  cases i with
  | bqfI o c => exact .inl ⟨o, c, rfl⟩
  | bqfD o c => exact .inr (.inl ⟨o, isFilter_of_form (.inl ⟨c, rfl⟩)⟩)
  | bqfDF o c => exact .inr (.inl ⟨o, isFilter_of_form (.inr ⟨c, rfl⟩)⟩)
  | bqfm o c => exact .inr (.inr (.inl ⟨o, isMix_of_form (.inl ⟨c, rfl⟩)⟩))
  | bqfmF o c => exact .inr (.inr (.inl ⟨o, isMix_of_form (.inr (.inl ⟨c, rfl⟩))⟩))
  | bqfmR o c => exact .inr (.inr (.inl ⟨o, isMix_of_form (.inr (.inr (.inl ⟨c, rfl⟩)))⟩))
  | bqfmRF o c => exact .inr (.inr (.inl ⟨o, isMix_of_form (.inr (.inr (.inr ⟨c, rfl⟩)))⟩))
  | mtbqfm o c0 c1 => exact .inr (.inr (.inr ⟨o, isCascade_of_form (.inl ⟨c0, c1, rfl⟩)⟩))
  | mtbqfmF o c0 c1 => exact .inr (.inr (.inr ⟨o, isCascade_of_form (.inr (.inl ⟨c0, c1, rfl⟩))⟩))
  | mtbqfmR o c0 c1 => exact .inr (.inr (.inr ⟨o, isCascade_of_form (.inr (.inr (.inl ⟨c0, c1, rfl⟩)))⟩))
  | mtbqfmRF o c0 c1 => exact .inr (.inr (.inr ⟨o, isCascade_of_form (.inr (.inr (.inr ⟨c0, c1, rfl⟩)))⟩))

theorem bqfI_storageKept (o : BqfOperands) (c : Q14Params) (s : State) :
    StorageKept (.bqfI o c) s (stepsOf (.bqfI o c) s) := by
  have hmem : o.state0 ∈ writtenEntries (.bqfI o c) := mem_writtenEntries_of_states (by simp [Instr.states])
  have hload : StorageKept (.bqfI o c) (prepPlain o.state0 o.needsInit0 s) (integerLoaded o c s) :=
    .of_eq (by simp [integerLoaded]) (by simp [integerLoaded]) (by simp [integerLoaded]) (by simp [integerLoaded])
      (by simp [integerLoaded])
  rw [stepsOf_bqfI]
  exact (((StorageKept.prepPlain hmem _ s).trans hload).trans (.kernel (kernelKI_keeps _ _ _))).trans
    (.persistAcc hmem _)

section Forms
variable {i : Instr} {codec : State → State} {n : Nat}

theorem IsFilter.storageKept {o : BqfOperands} {c : Nat → Coeffs} (hi : IsFilter i o codec c n) (s : State) :
    StorageKept i s (stepsOf i s) := by
  have hmem : o.state0 ∈ writtenEntries i := mem_writtenEntries_of_states (by simp [hi.states])
  have hload (u : State) : StorageKept i u (loadFilter o.state0 codec u) := by
    rw [loadFilter_eq hi.loads]
    exact .of_eq rfl rfl rfl rfl rfl
  have hkernel (u : State) : StorageKept i u (kernelKD o.input o.output u) := .kernel (hi.output ▸ kernelKD_keeps _ _ u)
  rw [hi.steps]
  exact (((StorageKept.prepPlain hmem _ s).trans (hload _)).trans (hkernel _)).trans (.writeEntry hmem _ _)

theorem IsMix.storageKept {o : BqfmOperands} {c : Nat → Coeffs} (hi : IsMix i o codec c n) (s : State) :
    StorageKept i s (stepsOf i s) := by
  have hmem : o.state0 ∈ writtenEntries i := mem_writtenEntries_of_states (by simp [hi.states])
  have hprep : StorageKept i s (prepForked o.state0 o.previousState0 o.needsInit0 o.isFirstMixBuffer s) :=
    .prepForked hmem (mem_writtenEntries_of_snapshot hi.first (by simp [hi.needsInit, hi.previous])) s
  have hloaded : StorageKept i s (mixLoaded o codec s) := by
    refine hprep.trans ?_
    rw [mixLoaded_eq hi.loads]
    exact .of_eq rfl rfl rfl rfl rfl
  rcases hi.steps with ⟨_, hsteps⟩ | ⟨hr, hsteps⟩
  · rw [hsteps, mixSteps_eq, ← mixLoaded]
    exact (hloaded.trans (.kernel (hi.output ▸ kernelKM_keeps _ _ _ _ _))).trans (.writeEntry hmem _ _)
  · rw [hsteps, mixRampSteps_eq, ← mixLoaded]
    exact ((hloaded.trans (.kernel (hi.output ▸ kernelKMR_keeps _ _ _ _ _ _))).trans (.writeEntry hmem _ _)).trans
      (.tailCapture hr hi.voice hi.index _ _)

theorem IsCascade.storageKept {o : MtOperands} {c0 c1 : Nat → Coeffs} (hi : IsCascade i o codec c0 c1 n) (s : State) :
    StorageKept i s (stepsOf i s) := by
  have hmem0 : o.state0 ∈ writtenEntries i := mem_writtenEntries_of_states (by simp [hi.states])
  have hmem1 : o.state1 ∈ writtenEntries i := mem_writtenEntries_of_states (by simp [hi.states])
  have hprep0 : StorageKept i s (afterPrep0 o s) :=
    .prepForked hmem0 (mem_writtenEntries_of_snapshot hi.first (by simp [hi.needsInit, hi.previous])) s
  have hprep1 : StorageKept i (afterPrep0 o s) (afterPrep1 o s) :=
    .prepForked hmem1 (mem_writtenEntries_of_snapshot hi.first (by simp [hi.needsInit, hi.previous])) _
  have hbefore : StorageKept i s (multiTapBefore o codec s) := by
    refine (hprep0.trans hprep1).trans ?_
    rw [multiTapBefore_eq hi.loads]
    exact .of_eq rfl rfl rfl rfl rfl
  have hafter (u : State) : StorageKept i u (multiTapAfter o u) := by
    have hlocs : StorageKept i u (persistLoc .t1 (persistLoc .t0 u)) :=
      .of_eq (by simp) (by simp) (by simp) (by simp) (by simp)
    exact (hlocs.trans (.writeEntry hmem0 _ _)).trans (.writeEntry hmem1 _ _)
  rcases hi.steps with ⟨_, hsteps⟩ | ⟨hr, hsteps⟩
  · rw [hsteps]
    exact (hbefore.trans (.kernel (hi.output ▸ kernelKM_keeps _ _ _ _ _))).trans (hafter _)
  · rw [hsteps, multiTapRampSteps_eq]
    exact ((hbefore.trans (.kernel (hi.output ▸ kernelKMR_keeps _ _ _ _ _ _))).trans (hafter _)).trans
      (.tailCapture hr hi.voice hi.index _ _)

end Forms

theorem stepsOf_storageKept (i : Instr) (s : State) : StorageKept i s (stepsOf i s) := by
  rcases form_cases i with ⟨o, c, rfl⟩ | ⟨_, _, _, _, hi⟩ | ⟨_, _, _, _, hi⟩ | ⟨_, _, _, _, _, hi⟩
  · exact bqfI_storageKept o c s
  · exact hi.storageKept s
  · exact hi.storageKept s
  · exact hi.storageKept s

/-- What `exec` answers: the steps of an accepted command, or a refusal. -/
theorem exec_next_cases {i : Instr} {s t : State} (h : exec i s = .next t) :
    (CommandOk i s ∧ t = finish (stepsOf i s)) ∨ (¬ CommandOk i s ∧ ∃ r, t = takeRefusal r s) := by
  rcases exec_cases i s with ⟨hok, hrun⟩ | ⟨r, hr, hrefuse⟩
  · exact .inl ⟨hok, Host.Outcome.next.inj (h.symm.trans hrun)⟩
  · refine .inr ⟨fun hok => ?_, r, Host.Outcome.next.inj (h.symm.trans hrefuse)⟩
    cases ((validate_eq_none i s).mpr hok).symm.trans hr

/-- A form writes its output span, its entries and its tail sample, and a refused one nothing (R180, R233). -/
theorem exec_storageKept {i : Instr} {s t : State} (h : exec i s = .next t) : StorageKept i s t := by
  rcases exec_next_cases h with ⟨_, rfl⟩ | ⟨_, r, rfl⟩
  · exact (stepsOf_storageKept i s).trans (.of_eq rfl rfl rfl rfl rfl)
  · exact .of_eq rfl rfl rfl rfl rfl

end Sys2Proof.Machine

/-! ### The frames of the three kinds (R180, R22) -/

namespace Sys2Proof.Machine

theorem KernelKeeps.loc0 {output : S16} {s t : State} (h : KernelKeeps output s t) : t.loc0 = s.loc0 := by rw [h.keeps]

theorem KernelKeeps.loc1 {output : S16} {s t : State} (h : KernelKeeps output s t) : t.loc1 = s.loc1 := by rw [h.keeps]

/-- Filter 1's registers and the local array, which only a multi-tap command uses. -/
structure SecondTapKept (s t : State) : Prop where
  loc0 : t.loc0 = s.loc0
  loc1 : t.loc1 = s.loc1
  c1 : t.work.c1 = s.work.c1
  d1 : t.work.d1 = s.work.d1

/-- The registers of the mix kernels. -/
structure MixRegistersKept (s t : State) : Prop where
  vol : t.work.vol = s.work.vol
  ramp : t.work.ramp = s.work.ramp
  last : t.work.last = s.work.last

theorem SecondTapKept.finish {s t : State} (h : SecondTapKept s t) : SecondTapKept s (finish t) :=
  ⟨h.loc0, h.loc1, h.c1, h.d1⟩

theorem MixRegistersKept.finish {s t : State} (h : MixRegistersKept s t) : MixRegistersKept s (finish t) :=
  ⟨h.vol, h.ramp, h.last⟩

/-- What the integer kernel leaves of filter 0's delay line, and the draw number. -/
structure IntegerKept (s t : State) : Prop where
  s2 : t.work.d0.s2 = s.work.d0.s2
  s3 : t.work.d0.s3 = s.work.d0.s3
  draw : t.draw = s.draw

theorem IntegerKept.finish {s t : State} (h : IntegerKept s t) : IntegerKept s (finish t) := ⟨h.s2, h.s3, h.draw⟩

/-- A `BQF.I` sets filter 0's coefficients, its accumulators and `i` (R22, R127). -/
theorem stepsOf_bqfI_work {o : BqfOperands} {c : Q14Params} {s : State} (hok : CommandOk (.bqfI o c) s) :
    ∃ acc0 acc1 j, (stepsOf (.bqfI o c) s).work =
      { s.work with c0 := decodeInt c, d0 := { s.work.d0 with s0 := acc0, s1 := acc1 }, i := j } := by
  obtain ⟨-, -, -, hwork, -⟩ := kernelKI_spec (input := o.input) (output := o.output) hok.input.1 hok.output.1
    (integerLoaded o c s)
  rw [stepsOf_bqfI, persistAcc_work]
  generalize kernelKI o.input o.output (integerLoaded o c s) = u at *
  simp only [integerLoaded, loadAcc_work, loadInt_work, prepPlain_work] at hwork
  exact ⟨_, _, _, hwork⟩

theorem bqfI_registers {o : BqfOperands} {c : Q14Params} {s : State} (hok : CommandOk (.bqfI o c) s) :
    SecondTapKept s (stepsOf (.bqfI o c) s) ∧ MixRegistersKept s (stepsOf (.bqfI o c) s) ∧
      IntegerKept s (stepsOf (.bqfI o c) s) := by
  have hkeeps := kernelKI_keeps o.input o.output (integerLoaded o c s)
  obtain ⟨-, -, -, -, hdraw⟩ := kernelKI_spec (input := o.input) (output := o.output) hok.input.1 hok.output.1
    (integerLoaded o c s)
  have hloc0 : (stepsOf (.bqfI o c) s).loc0 = s.loc0 := by
    rw [stepsOf_bqfI, persistAcc_loc0, hkeeps.loc0]
    simp [integerLoaded]
  have hloc1 : (stepsOf (.bqfI o c) s).loc1 = s.loc1 := by
    rw [stepsOf_bqfI, persistAcc_loc1, hkeeps.loc1]
    simp [integerLoaded]
  have hdraw' : (stepsOf (.bqfI o c) s).draw = s.draw := by
    rw [stepsOf_bqfI, persistAcc_draw, hdraw]
    simp [integerLoaded]
  obtain ⟨acc0, acc1, j, hwork⟩ := stepsOf_bqfI_work hok
  refine ⟨⟨hloc0, hloc1, ?_, ?_⟩, ⟨?_, ?_, ?_⟩, ⟨?_, ?_, hdraw'⟩⟩ <;> rw [hwork]

section
variable {i : Instr} {codec : State → State} {n : Nat} {s : State}

theorem IsFilter.registers {o : BqfOperands} {c : Nat → Coeffs} (hi : IsFilter i o codec c n) (hok : CommandOk i s) :
    SecondTapKept s (stepsOf i s) ∧ MixRegistersKept s (stepsOf i s) := by
  have hload := loadFilter_eq hi.loads o.state0 (prepPlain o.state0 o.needsInit0 s)
  have hkeeps := kernelKD_keeps o.input o.output (loadFilter o.state0 codec (prepPlain o.state0 o.needsInit0 s))
  obtain ⟨-, hwork, -⟩ := kernelKD_spec (hi.input ▸ hok.input.1) (hi.output ▸ hok.output.1)
    (loadFilter o.state0 codec (prepPlain o.state0 o.needsInit0 s))
  rw [hi.steps, filterSteps]
  refine ⟨⟨?_, ?_, ?_, ?_⟩, ⟨?_, ?_, ?_⟩⟩
  · rw [persistState_loc0, hkeeps.loc0, hload, prepPlain_loc0]
  · rw [persistState_loc1, hkeeps.loc1, hload, prepPlain_loc1]
  all_goals rw [persistState_work, hwork, hload, prepPlain_work]

/-- Settles O27: the bytes by `exec_storageKept`, the registers by the kernels' results. -/
theorem plainFilterFrame : Obligations.PlainFilterFrame := by
  intro i o s t hform hexec
  have hs := exec_storageKept hexec
  have hregs : SecondTapKept s t ∧ MixRegistersKept s t ∧
      ((∃ c, i = .bqfI o c) → IntegerKept s t) := by
    rcases exec_next_cases hexec with ⟨hok, rfl⟩ | ⟨_, r, rfl⟩
    · rcases hform with ⟨c, rfl⟩ | hdouble
      · obtain ⟨htap, hmix, hint⟩ := bqfI_registers hok
        exact ⟨htap.finish, hmix.finish, fun _ => hint.finish⟩
      · obtain ⟨codec, c, n, hi⟩ := isFilter_of_form hdouble
        obtain ⟨htap, hmix⟩ := hi.registers hok
        refine ⟨htap.finish, hmix.finish, ?_⟩
        rintro ⟨c', rfl⟩
        rcases hdouble with ⟨_, h⟩ | ⟨_, h⟩ <;> cases h
    · exact ⟨⟨rfl, rfl, rfl, rfl⟩, ⟨rfl, rfl, rfl⟩, fun _ => ⟨rfl, rfl, rfl⟩⟩
  have hfields : i.output = o.output ∧ writtenEntries i = [o.state0] ∧ i.ramped = false := by
    rcases hform with ⟨c, rfl⟩ | ⟨c, rfl⟩ | ⟨c, rfl⟩ <;> exact ⟨rfl, rfl, rfl⟩
  obtain ⟨hout, hwritten, hr⟩ := hfields
  obtain ⟨⟨hloc0, hloc1, hc1, hd1⟩, ⟨hvol, hramp, hlast⟩, hint⟩ := hregs
  exact ⟨exec_controlKept hexec, hs.unramped hr, hloc0, hloc1, hc1, hd1, hvol, hramp, hlast,
    fun hi => ⟨(hint hi).s2, (hint hi).s3, (hint hi).draw⟩,
    fun a ha => hs.arena a (hout ▸ ha), fun a ha => hs.srf a (by simpa [hwritten] using ha)⟩

theorem IsMix.secondTapKept {o : BqfmOperands} {c : Nat → Coeffs} (hi : IsMix i o codec c n) (hok : CommandOk i s) :
    SecondTapKept s (stepsOf i s) := by
  have hin : 0 ≤ o.input.toInt := hi.input ▸ hok.input.1
  have hout : 0 ≤ o.output.toInt := hi.output ▸ hok.output.1
  have hloaded : SecondTapKept s (mixLoaded o codec s) := by
    rw [mixLoaded_eq hi.loads]
    exact ⟨prepForked_loc0 _ _ _ _ _, prepForked_loc1 _ _ _ _ _, rfl, rfl⟩
  rcases hi.steps with ⟨_, hsteps⟩ | ⟨_, hsteps⟩
  · have hkeeps := kernelKM_keeps .single o.input o.output o.volume0 (mixLoaded o codec s)
    obtain ⟨-, -, -, ⟨-, hc1, -, hd1⟩, -⟩ := kernelKM_spec .single hin hout o.volume0 (mixLoaded o codec s)
    rw [hsteps, mixSteps_eq, ← mixLoaded]
    generalize kernelKM .single o.input o.output o.volume0 _ = u at *
    constructor
    · rw [persistState_loc0, hkeeps.loc0, hloaded.loc0]
    · rw [persistState_loc1, hkeeps.loc1, hloaded.loc1]
    · rw [persistState_work, hc1, hloaded.c1]
    · rw [persistState_work, hd1 rfl, hloaded.d1]
  · have hkeeps := kernelKMR_keeps .single o.input o.output o.volume0 o.volume1 (mixLoaded o codec s)
    obtain ⟨-, -, -, -, -, hc1, hd1⟩ := kernelKMR_spec .single hin hout o.volume0 o.volume1 (mixLoaded o codec s)
    rw [hsteps, mixRampSteps_eq, ← mixLoaded]
    generalize kernelKMR .single o.input o.output o.volume0 o.volume1 _ = q at *
    constructor
    · rw [tailCapture_loc0, persistState_loc0, hkeeps.loc0, hloaded.loc0]
    · rw [tailCapture_loc1, persistState_loc1, hkeeps.loc1, hloaded.loc1]
    · rw [tailCapture_work, persistState_work, hc1, hloaded.c1]
    · rw [tailCapture_work, persistState_work, hd1 rfl, hloaded.d1]

/-- Without ramp a mix command that runs keeps `ramp` and leaves `last` at `+0.0` (R22). -/
theorem IsMix.unramped {o : BqfmOperands} {c : Nat → Coeffs} (hi : IsMix i o codec c n) (hok : CommandOk i s)
    (hr : i.ramped = false) : (stepsOf i s).work.ramp = s.work.ramp ∧ (stepsOf i s).work.last = 0#64 := by
  have hin : 0 ≤ o.input.toInt := hi.input ▸ hok.input.1
  have hout : 0 ≤ o.output.toInt := hi.output ▸ hok.output.1
  rcases hi.steps with ⟨_, hsteps⟩ | ⟨hr', _⟩
  · rw [hsteps]
    refine ⟨?_, mixSteps_last hin hout codec s⟩
    obtain ⟨-, -, -, ⟨-, -, hramp, -⟩, -⟩ := kernelKM_spec .single hin hout o.volume0 (mixLoaded o codec s)
    rw [mixSteps_eq, ← mixLoaded, persistState_work, hramp, mixLoaded_eq hi.loads]
  · cases hr.symm.trans hr'

theorem IsCascade.unramped {o : MtOperands} {c0 c1 : Nat → Coeffs} (hi : IsCascade i o codec c0 c1 n)
    (hok : CommandOk i s) (hr : i.ramped = false) :
    (stepsOf i s).work.ramp = s.work.ramp ∧ (stepsOf i s).work.last = 0#64 := by
  have hin : 0 ≤ o.input.toInt := hi.input ▸ hok.input.1
  have hout : 0 ≤ o.output.toInt := hi.output ▸ hok.output.1
  rcases hi.steps with ⟨_, hsteps⟩ | ⟨hr', _⟩
  · rw [hsteps]
    refine ⟨?_, multiTapSteps_last hin hout codec s⟩
    obtain ⟨-, -, -, ⟨-, -, hramp, -⟩, -⟩ := kernelKM_spec .pair hin hout o.volume0 (multiTapBefore o codec s)
    simp only [multiTapSteps, multiTapAfter, writeEntry_work, persistLoc_work]
    rw [hramp, multiTapBefore_eq hi.loads]
  · cases hr.symm.trans hr'

/-- What the frames of both and-mix kinds say of a form without ramp. -/
def UnrampedFrame (i : Instr) (s t : State) : Prop :=
  i.ramped = false → t.work.ramp = s.work.ramp ∧ t.prev = s.prev ∧
    (CommandOk i s → t.work.last = 0#64) ∧ (¬ CommandOk i s → t.work.last = s.work.last)

theorem unrampedFrame_of_exec {t : State} (hexec : exec i s = .next t)
    (hrun : CommandOk i s → i.ramped = false →
      (stepsOf i s).work.ramp = s.work.ramp ∧ (stepsOf i s).work.last = 0#64) : UnrampedFrame i s t := by
  intro hr
  have hwork : t.work.ramp = s.work.ramp ∧ (CommandOk i s → t.work.last = 0#64) ∧
      (¬ CommandOk i s → t.work.last = s.work.last) := by
    rcases exec_next_cases hexec with ⟨hok, rfl⟩ | ⟨hno, r, rfl⟩
    · obtain ⟨hramp, hlast⟩ := hrun hok hr
      exact ⟨hramp, fun _ => hlast, fun hno => absurd hok hno⟩
    · exact ⟨rfl, fun hok => absurd hok hno, fun _ => rfl⟩
  obtain ⟨hramp, hlast⟩ := hwork
  exact ⟨hramp, (exec_storageKept hexec).unramped hr, hlast⟩

/-- A byte outside the tail sample of the record's voice and index is outside the form's. -/
theorem outsideTail_fields {p : Params} {voice : Handle} {index : S32} {a : Nat} (hvoice : i.voiceState = some voice)
    (hindex : i.lastSampleIndex = some index) (h : outsideTail p voice index a) (v : Handle) (k : S32)
    (hv : i.voiceState = some v) (hk : i.lastSampleIndex = some k) : outsideTail p v k a := by
  obtain rfl := Option.some.inj (hvoice.symm.trans hv)
  obtain rfl := Option.some.inj (hindex.symm.trans hk)
  exact h

theorem IsMix.outside_written {o : BqfmOperands} {c : Nat → Coeffs} (hi : IsMix i o codec c n) {a : Nat}
    (h0 : outsideEntry o.state0 a) (hp : snapshots o.needsInit0 o.isFirstMixBuffer → outsideEntry o.previousState0 a) :
    ∀ h ∈ writtenEntries i, outsideEntry h a := by
  intro h hh
  rw [mem_writtenEntries_iff hi.first, hi.states, hi.needsInit, hi.previous] at hh
  rcases hh with hh | ⟨ni, hh, hsnap⟩
  · obtain rfl := List.mem_singleton.mp hh
    exact h0
  · obtain ⟨rfl, rfl⟩ := Prod.mk.inj (List.mem_singleton.mp hh)
    exact hp hsnap

theorem IsCascade.outside_written {o : MtOperands} {c0 c1 : Nat → Coeffs} (hi : IsCascade i o codec c0 c1 n) {a : Nat}
    (h0 : outsideEntry o.state0 a) (h1 : outsideEntry o.state1 a)
    (hp0 : snapshots o.needsInit0 o.isFirstMixBuffer → outsideEntry o.previousState0 a)
    (hp1 : snapshots o.needsInit1 o.isFirstMixBuffer → outsideEntry o.previousState1 a) :
    ∀ h ∈ writtenEntries i, outsideEntry h a := by
  intro h hh
  rw [mem_writtenEntries_iff hi.first, hi.states, hi.needsInit, hi.previous] at hh
  rcases hh with hh | ⟨ni, hh, hsnap⟩
  · rcases List.mem_pair.mp hh with rfl | rfl
    · exact h0
    · exact h1
  · rcases List.mem_pair.mp hh with hh | hh <;> obtain ⟨rfl, rfl⟩ := Prod.mk.inj hh
    · exact hp0 hsnap
    · exact hp1 hsnap

/-- Settles O28: the bytes by `exec_storageKept`, the registers by the kernels' results. -/
theorem mixFrame : Obligations.MixFrame := by
  intro i o s t hform hexec
  obtain ⟨codec, c, n, hi⟩ := isMix_of_form hform
  have hs := exec_storageKept hexec
  obtain ⟨hloc0, hloc1, hc1, hd1⟩ : SecondTapKept s t := by
    rcases exec_next_cases hexec with ⟨hok, rfl⟩ | ⟨_, r, rfl⟩
    · exact (hi.secondTapKept hok).finish
    · exact ⟨rfl, rfl, rfl, rfl⟩
  exact ⟨exec_controlKept hexec, hloc0, hloc1, hc1, hd1, unrampedFrame_of_exec hexec hi.unramped,
    fun a ha => hs.arena a (hi.output ▸ ha), fun a h0 hp => hs.srf a (hi.outside_written h0 hp),
    fun a ha => hs.prev a (outsideTail_fields hi.voice hi.index ha)⟩

/-- Settles O29: the bytes by `exec_storageKept`, the registers by the kernels' results. -/
theorem cascadeFrame : Obligations.CascadeFrame := by
  intro i o s t hform hexec
  obtain ⟨codec, c0, c1, n, hi⟩ := isCascade_of_form hform
  have hs := exec_storageKept hexec
  exact ⟨exec_controlKept hexec, unrampedFrame_of_exec hexec hi.unramped,
    fun a ha => hs.arena a (hi.output ▸ ha),
    fun a h0 h1 hp0 hp1 => hs.srf a (hi.outside_written h0 h1 hp0 hp1),
    fun a ha => hs.prev a (outsideTail_fields hi.voice hi.index ha)⟩

end

/-! ### Tail capture (R190) -/

/-- Settles O41: the capture stores at an index in range, and `exec_storageKept` has the forms without ramp. -/
theorem tailCaptureStoresOneWord : Obligations.TailCaptureStoresOneWord := by
  refine ⟨fun voice index r s => ⟨fun hlo hhi => ?_, fun hout => ?_⟩, fun i s t hr hexec =>
    (exec_storageKept hexec).unramped hr⟩
  · rw [tailCapture, if_pos ⟨hlo, hhi⟩]
    refine ⟨readPrev_writePrev_same _ _ _ s, fun v k hk hne => ?_⟩
    exact readPrev_writePrev_ne _ s hk (by omega) hne
  · exact if_neg (by omega)

end Sys2Proof.Machine

/-! ### The filters a pass runs (R183, R187): from which entries, and what it leaves -/

namespace Sys2Proof.Machine

/-- Filters with these coefficients and the delay lines of these entries, as the entries stand. -/
def startFilters (cs : List Coeffs) (hs : List Handle) (s : State) : List Filter :=
  List.zipWith (fun c h => ⟨c, (readEntry h s).toDelay⟩) cs hs

/-- `fs'` is what a mix kernel, with a ramp or without, makes of the filters `fs` over the input samples `xs`. -/
def MixedFrom (fs : List Filter) (xs : List S32) (fs' : List Filter) : Prop :=
  ∃ k vol pairs, pairs.map Prod.fst = xs ∧
    (fs' = (kmList k fs vol pairs).2 ∨ ∃ ramp last, fs' = (kmrList k fs vol ramp last pairs).filters)

/-- The entries the filters of a pass without initialisation start from (R183). -/
def sourceEntries (first : Bool) (i : Instr) : List Handle := if first then i.states else i.previousStates

/-- What an accepted pass without initialisation leaves: its filters, run from their sources, and after a first pass the
snapshots. -/
structure PassedBy (i : Instr) (first : Bool) (s t : State) : Prop where
  filters : MixedFrom (startFilters (formCoeffs s.draw i) (sourceEntries first i) s) (samples i.input s)
    (startFilters (formCoeffs s.draw i) i.states t)
  saved : first = true → FrameStartSaved i s t

variable {i : Instr} {codec : State → State} {n : Nat} {s : State}

theorem IsMix.mixedFrom {o : BqfmOperands} {c : Nat → Coeffs} (hi : IsMix i o codec c n) (hok : CommandOk i s) :
    let t := finish (stepsOf i s)
    MixedFrom (mixFilters o (c s.draw) s) (samples i.input s) [⟨c s.draw, (readEntry o.state0 t).toDelay⟩] ∧
      (snapshots o.needsInit0 o.isFirstMixBuffer → o.previousState0 ≠ o.state0 →
        readEntry o.previousState0 t = readEntry o.state0 s) := by
  have hin : 0 ≤ o.input.toInt := hi.input ▸ hok.input.1
  have hout : 0 ≤ o.output.toInt := hi.output ▸ hok.output.1
  have hpairs := zip_fst_samples o.input o.output s
  rw [hi.input]
  rcases hi.steps with ⟨_, hsteps⟩ | ⟨_, hsteps⟩
  · rw [hsteps]
    have h := mixSteps_mixedBy hi.loads hin hout s
    exact ⟨⟨_, _, _, hpairs, .inl h.entry.symm⟩, h.snapshot⟩
  · rw [hsteps]
    obtain ⟨r, h⟩ := mixRampSteps_rampMixedBy hi.loads hin hout s
    exact ⟨⟨_, _, _, hpairs, .inr ⟨_, _, by rw [← h.entry, h.block, kmrBlock]⟩⟩, h.snapshot⟩

theorem IsCascade.mixedFrom {o : MtOperands} {c0 c1 : Nat → Coeffs} (hi : IsCascade i o codec c0 c1 n)
    (hok : CommandOk i s) :
    ∃ fs, MixedFrom (tapFilters o (c0 s.draw) (c1 s.draw) s) (samples i.input s) fs ∧
      WrittenBack o (c0 s.draw) (c1 s.draw) fs s (finish (stepsOf i s)) := by
  have hin : 0 ≤ o.input.toInt := hi.input ▸ hok.input.1
  have hout : 0 ≤ o.output.toInt := hi.output ▸ hok.output.1
  have hpairs := zip_fst_samples o.input o.output s
  rw [hi.input]
  rcases hi.steps with ⟨_, hsteps⟩ | ⟨_, hsteps⟩
  · rw [hsteps]
    exact ⟨_, ⟨_, _, _, hpairs, .inl rfl⟩, (multiTapSteps_cascadeMixedBy hi.loads hin hout s).entries⟩
  · rw [hsteps]
    obtain ⟨r, h⟩ := multiTapRampSteps_rampCascadeMixedBy hi.loads hin hout s
    exact ⟨_, ⟨_, _, _, hpairs, .inr ⟨_, _, by rw [h.block, kmrBlock]⟩⟩, h.entries⟩

theorem IsMix.passedBy {o : BqfmOperands} {c : Nat → Coeffs} (hi : IsMix i o codec c n) {first : Bool}
    (hfirst : i.isFirstMixBuffer = some first) (hinit : ∀ b ∈ i.needsInit, b = false) (hne : HandlesDistinct i)
    (hok : CommandOk i s) : PassedBy i first s (finish (stepsOf i s)) := by
  obtain rfl : o.isFirstMixBuffer = first := Option.some.inj (hi.first.symm.trans hfirst)
  have hinit0 : o.needsInit0 = false := hinit _ (by simp [hi.needsInit])
  obtain ⟨hfilters, hsnapshot⟩ := hi.mixedFrom hok
  have hne0 : o.previousState0 ≠ o.state0 := by
    rw [HandlesDistinct, hi.states, hi.previous] at hne
    exact fun h => by simp [h] at hne
  constructor
  · have hstart : startFilters [c s.draw] (sourceEntries o.isFirstMixBuffer i) s = mixFilters o (c s.draw) s := by
      rw [sourceEntries, hi.states, hi.previous, mixFilters, hinit0]
      cases o.isFirstMixBuffer <;> rfl
    rw [hi.coeffs, hstart, hi.states]
    exact hfilters
  · intro hone q hq
    rw [hi.states, hi.previous] at hq
    obtain rfl := List.mem_singleton.mp hq
    exact hsnapshot ⟨hinit0, hone⟩ hne0

/-- The taps of a multi-tap pass with distinct handles start from their sources as the state has them (R166). -/
theorem tapFilters_of_distinct {o : MtOperands} (hinit0 : o.needsInit0 = false) (hinit1 : o.needsInit1 = false)
    (hne : [o.state0, o.state1, o.previousState0, o.previousState1].Nodup) (c0 c1 : Coeffs) (s : State) :
    tapFilters o c0 c1 s = startFilters [c0, c1]
      (if o.isFirstMixBuffer then [o.state0, o.state1] else [o.previousState0, o.previousState1]) s := by
  simp only [List.nodup_cons, List.mem_cons, List.not_mem_nil, or_false, not_or] at hne
  obtain ⟨⟨h01, h02, h03⟩, ⟨h12, h13⟩, h23, -⟩ := hne
  rw [tapFilters, afterPrep1, afterPrep0, hinit0, hinit1]
  cases o.isFirstMixBuffer <;>
    simp [startFilters, readEntry_prepForked, h02, h12, h13, Ne.symm h03]

theorem IsCascade.passedBy {o : MtOperands} {c0 c1 : Nat → Coeffs} (hi : IsCascade i o codec c0 c1 n) {first : Bool}
    (hfirst : i.isFirstMixBuffer = some first) (hinit : ∀ b ∈ i.needsInit, b = false) (hne : HandlesDistinct i)
    (hok : CommandOk i s) : PassedBy i first s (finish (stepsOf i s)) := by
  obtain rfl : o.isFirstMixBuffer = first := Option.some.inj (hi.first.symm.trans hfirst)
  have hinit0 : o.needsInit0 = false := hinit _ (by simp [hi.needsInit])
  have hinit1 : o.needsInit1 = false := hinit _ (by simp [hi.needsInit])
  obtain ⟨fs, hfilters, hback⟩ := hi.mixedFrom hok
  obtain ⟨⟨e0, rfl, he0⟩, hothers⟩ := hback
  rw [HandlesDistinct, hi.states, hi.previous] at hne
  rw [tapFilters_of_distinct hinit0 hinit1 hne] at hfilters
  simp only [List.cons_append, List.nil_append, List.nodup_cons, List.mem_cons, List.not_mem_nil, or_false,
    not_or] at hne
  obtain ⟨⟨h01, h02, h03⟩, ⟨h12, h13⟩, h23, -⟩ := hne
  constructor
  · obtain rfl := he0 h01
    rw [hi.coeffs, sourceEntries, hi.states, hi.previous]
    exact hfilters
  · intro hone q hq
    rw [hi.states, hi.previous] at hq
    rcases List.mem_pair.mp hq with rfl | rfl
    · rw [hothers _ (Ne.symm h02) (Ne.symm h12), afterPrep1, afterPrep0, hinit0, hinit1, hone]
      simp [readEntry_prepForked, h23]
    · rw [hothers _ (Ne.symm h03) (Ne.symm h13), afterPrep1, afterPrep0, hinit0, hinit1, hone]
      simp [readEntry_prepForked, h12]

/-- The forms with the flag `is_first_mix_buffer` are the mix and the multi-tap ones. -/
theorem isForked_of_first {i : Instr} {first : Bool} (h : i.isFirstMixBuffer = some first) :
    (∃ o codec c n, IsMix i o codec c n) ∨ ∃ o codec c0 c1 n, IsCascade i o codec c0 c1 n := by
  rcases form_cases i with ⟨o, c, rfl⟩ | ⟨o, _, _, _, hi⟩ | hmix | hcascade
  · cases h
  · cases hi.first.symm.trans h
  · exact .inl hmix
  · exact .inr hcascade

theorem passedBy_of_exec {first : Bool} (hfirst : i.isFirstMixBuffer = some first)
    (hinit : ∀ b ∈ i.needsInit, b = false) (hne : HandlesDistinct i) (hok : CommandOk i s) {t : State}
    (hexec : exec i s = .next t) : PassedBy i first s t := by
  obtain rfl := Host.Outcome.next.inj ((exec_ok hok).symm.trans hexec)
  rcases isForked_of_first hfirst with ⟨_, _, _, _, hi⟩ | ⟨_, _, _, _, _, hi⟩
  · exact hi.passedBy hfirst hinit hne hok
  · exact hi.passedBy hfirst hinit hne hok

/-! ### Fan-out: the previous entries (R187, R257) -/

theorem readEntry_congr_bytes {h : Handle} {s t : State}
    (hb : ∀ a, srfAddr h.toNat 0 ≤ a → a < srfAddr h.toNat 0 + 32 → t.srf.readByte .srf a = s.srf.readByte .srf a) :
    readEntry h t = readEntry h s := by
  have hword (k : Nat) (hk : k < 4) : readSrfWord h.toNat k t = readSrfWord h.toNat k s := by
    rw [readSrfWord, readSrfWord, Memory.read_congr]
    intro a hlo hhi
    simp only [srfAddr] at *
    exact hb a (by omega) (by omega)
  simp only [readEntry, hword 0 (by decide), hword 1 (by decide), hword 2 (by decide), hword 3 (by decide)]

/-- The bytes of an entry are outside every other one. -/
theorem outsideEntry_of_ne {g h : Handle} (hne : h ≠ g) {a : Nat} (hlo : srfAddr h.toNat 0 ≤ a)
    (hhi : a < srfAddr h.toNat 0 + 32) : outsideEntry g a := by
  have hne' : h.toNat ≠ g.toNat := fun he => hne (BitVec.eq_of_toNat_eq he)
  simp only [outsideEntry, srfAddr] at *
  omega

theorem StorageKept.readEntry_eq {t : State} (hk : StorageKept i s t) {h : Handle} (hh : h ∉ writtenEntries i) :
    readEntry h t = readEntry h s :=
  readEntry_congr_bytes fun a hlo hhi =>
    hk.srf a fun _ hg => outsideEntry_of_ne (ne_of_mem_of_not_mem hg hh).symm hlo hhi

theorem LaterPass.writtenEntries_eq (h : LaterPass i) : writtenEntries i = i.states := by
  rw [writtenEntries, snapshotEntries, h.1, if_neg (by decide), List.append_nil]

/-- A later pass keeps the frame-start states of its fellow passes. -/
theorem FrameStartSaved.later {first : Instr} {t u : State} (h : FrameStartSaved first s t)
    (hne : HandlesDistinct first) (hlater : LaterPass i) (hsame : SameEntries first i) (hexec : exec i t = .next u) :
    FrameStartSaved first s u := by
  intro q hq
  have hprev : q.2 ∉ i.states := by
    rw [hsame.1]
    exact fun hmem => (List.nodup_append.mp hne).2.2 _ hmem _ (List.of_mem_zip hq).2 rfl
  rw [(exec_storageKept hexec).readEntry_eq (hlater.writtenEntries_eq ▸ hprev), h q hq]

theorem execAll_frameStartSaved {first : Instr} {later : List Instr} (hne : HandlesDistinct first)
    (hlater : ∀ i ∈ later, LaterPass i ∧ SameEntries first i) {t : State} (h : FrameStartSaved first s t) :
    ∃ u, execAll later t = .next u ∧ FrameStartSaved first s u := by
  induction later generalizing t with
  | nil => exact ⟨t, rfl, h⟩
  | cons i rest ih =>
    obtain ⟨u, hexec⟩ := exec_next i t
    obtain ⟨hpass, hsame⟩ := hlater i List.mem_cons_self
    rw [execAll, hexec]
    exact ih (fun j hj => hlater j (List.mem_cons_of_mem _ hj)) (h.later hne hpass hsame hexec)

/-- Settles O49: the first pass snapshots, and a later one writes its own entries alone. -/
theorem fanOutKeepsTheFrameStartState : Obligations.FanOutKeepsTheFrameStartState := by
  intro first later s hfirst hne hok hlater
  obtain ⟨t, hexec⟩ := exec_next first s
  have hsaved := (passedBy_of_exec hfirst.1 hfirst.2 hne hok hexec).saved rfl
  rw [execAll, hexec]
  exact execAll_frameStartSaved hne (fun i hi => ⟨(hlater i hi).1, (hlater i hi).2.1⟩) hsaved

end Sys2Proof.Machine

/-! ### Fan-out: a later pass over the same samples (R187, R257) -/

namespace Sys2Proof.Machine

/-- The filters of a chain after a block (R121, R161), `9` draws a filter and sample from `k` on. -/
def chainAfter : Nat → List Filter → List S32 → List Filter
  | _, fs, [] => fs
  | k, fs, x :: xs => chainAfter (k + 9 * fs.length) (chainList k fs (i32ToF64 x)).2 xs

/-- The same filter, but for which NaN a NaN among its coefficients is. -/
def SameFilter (f g : Filter) : Prop := SameCoeffs f.c g.c ∧ g.d = f.d

theorem kmList_filters {k j : Nat} {fs : List Filter} {vol : F64} {pairs : List (S32 × S32)}
    (h : ∀ y ∈ chainOutputs j fs (pairs.map Prod.fst), f64IsNaN y = false) :
    (kmList k fs vol pairs).2 = chainAfter j fs (pairs.map Prod.fst) := by
  induction pairs generalizing k j fs with
  | nil => rfl
  | cons p rest ih =>
    obtain ⟨x, old⟩ := p
    rw [List.map_cons, chainOutputs_cons] at h
    have hchain := chainList_outputs_draw k fun y hy => h y (List.mem_append_left _ hy)
    rw [kmList_cons, List.map_cons, chainAfter]
    dsimp only
    rw [hchain]
    exact ih fun y hy => h y (List.mem_append_right _ hy)

theorem kmrList_filters {k j : Nat} {fs : List Filter} {vol ramp last : F64} {pairs : List (S32 × S32)}
    (h : ∀ y ∈ chainOutputs j fs (pairs.map Prod.fst), f64IsNaN y = false) :
    (kmrList k fs vol ramp last pairs).filters = chainAfter j fs (pairs.map Prod.fst) := by
  induction pairs generalizing k j fs vol last with
  | nil => rfl
  | cons p rest ih =>
    obtain ⟨x, old⟩ := p
    rw [List.map_cons, chainOutputs_cons] at h
    have hchain := chainList_outputs_draw k fun y hy => h y (List.mem_append_left _ hy)
    rw [kmrList_cons, List.map_cons, chainAfter]
    dsimp only
    rw [hchain]
    exact ih fun y hy => h y (List.mem_append_right _ hy)

/-- Without a NaN among the outputs a mix kernel, with a ramp or without, leaves the filters of the chain alone. -/
theorem MixedFrom.eq_chainAfter {fs fs' : List Filter} {xs : List S32} (h : MixedFrom fs xs fs') {j : Nat}
    (hnan : ∀ y ∈ chainOutputs j fs xs, f64IsNaN y = false) : fs' = chainAfter j fs xs := by
  obtain ⟨k, vol, pairs, rfl, rfl | ⟨ramp, last, rfl⟩⟩ := h
  · exact kmList_filters hnan
  · exact kmrList_filters hnan

theorem SameFilter.biquadOutput_eq {f g : Filter} (h : SameFilter f g) (k : Nat) (x : F64) :
    biquadOutput k g.c g.d x = biquadOutput k f.c f.d x := by
  obtain ⟨⟨h0, h1, h2, h3, h4⟩, hd⟩ := h
  rw [hd]
  exact biquadOutput_nan_congr k f.d x h0 h1 h2 h3 h4

/-- Which NaN a coefficient is does not reach a chain's outputs or delay lines. -/
theorem chainList_same {fs gs : List Filter} (h : List.Forall₂ SameFilter fs gs) (k : Nat) (x : F64) :
    List.Forall₂ SameFilter (chainList k fs x).2 (chainList k gs x).2 := by
  induction h generalizing k x with
  | nil => exact .nil
  | cons hfg _ ih =>
    rw [chainList_cons, chainList_cons, hfg.biquadOutput_eq, hfg.2]
    exact .cons ⟨hfg.1, rfl⟩ (ih _ _)

theorem map_output_same {fs gs : List Filter} (h : List.Forall₂ SameFilter fs gs) :
    gs.map (fun f => f.d.s2) = fs.map fun f => f.d.s2 := by
  induction h with
  | nil => rfl
  | cons hfg _ ih => rw [List.map_cons, List.map_cons, ih, hfg.2]

theorem chain_same {fs gs : List Filter} (h : List.Forall₂ SameFilter fs gs) (k : Nat) (xs : List S32) :
    chainOutputs k gs xs = chainOutputs k fs xs ∧
      List.Forall₂ SameFilter (chainAfter k fs xs) (chainAfter k gs xs) := by
  induction xs generalizing k fs gs with
  | nil => exact ⟨rfl, h⟩
  | cons x xs ih =>
    have hstep := chainList_same h k (i32ToF64 x)
    obtain ⟨houtputs, hafter⟩ := ih hstep (k + 9 * fs.length)
    rw [chainOutputs_cons, chainOutputs_cons, chainAfter, chainAfter, ← h.length_eq, map_output_same hstep, houtputs]
    exact ⟨rfl, hafter⟩

/-- Two kernels over the same samples, from the same filters, leave the same filters. -/
theorem MixedFrom.same {fs gs fs' gs' : List Filter} {xs : List S32} (hf : MixedFrom fs xs fs')
    (hg : MixedFrom gs xs gs') (h : List.Forall₂ SameFilter fs gs) {j : Nat}
    (hnan : ∀ y ∈ chainOutputs j fs xs, f64IsNaN y = false) : List.Forall₂ SameFilter fs' gs' := by
  obtain ⟨houtputs, hafter⟩ := chain_same h j xs
  rw [hf.eq_chainAfter hnan, hg.eq_chainAfter (houtputs ▸ hnan)]
  exact hafter

theorem formCoeffs_same (k j : Nat) (i : Instr) : List.Forall₂ SameCoeffs (formCoeffs k i) (formCoeffs j i) := by
  cases i with
  | bqfI _ c | bqfD _ c | bqfm _ c | bqfmR _ c => exact .cons (.refl _) .nil
  | bqfDF _ c | bqfmF _ c | bqfmRF _ c => exact .cons (decodeF32_sameCoeffs _ _ c) .nil
  | mtbqfm _ c0 c1 | mtbqfmR _ c0 c1 => exact .cons (.refl _) (.cons (.refl _) .nil)
  | mtbqfmF _ c0 c1 | mtbqfmRF _ c0 c1 =>
    exact .cons (decodeF32_sameCoeffs _ _ c0) (.cons (decodeF32_sameCoeffs _ _ c1) .nil)

theorem length_formCoeffs (k : Nat) (i : Instr) : (formCoeffs k i).length = i.states.length := by cases i <;> rfl

/-- Filters from entries that hold the same words. -/
theorem startFilters_same {cs cs' : List Coeffs} {hs hs' : List Handle} {s t : State}
    (hc : List.Forall₂ SameCoeffs cs cs') (hh : List.Forall₂ (fun h h' => readEntry h' t = readEntry h s) hs hs') :
    List.Forall₂ SameFilter (startFilters cs hs s) (startFilters cs' hs' t) := by
  induction hc generalizing hs hs' with
  | nil => exact .nil
  | cons hcc _ ih =>
    cases hh with
    | nil => exact .nil
    | cons he hrest => exact .cons ⟨hcc, congrArg Entry.toDelay he⟩ (ih hrest)

theorem Entry.toDelay_inj {e e' : Entry} (h : e.toDelay = e'.toDelay) : e = e' := by
  obtain ⟨h0, h1, h2, h3⟩ := Delay.mk.inj h
  exact Entry.eq_of_words h0 h1 h2 h3

/-- The entries can be read off the filters from them. -/
theorem readEntry_eq_of_startFilters {cs cs' : List Coeffs} {hs : List Handle} {s t : State}
    (hlen : cs.length = hs.length) (h : List.Forall₂ SameFilter (startFilters cs hs s) (startFilters cs' hs t)) :
    ∀ g ∈ hs, readEntry g t = readEntry g s := by
  induction hs generalizing cs cs' with
  | nil => intro g hg; cases hg
  | cons g hs ih =>
    cases cs with
    | nil => cases hlen
    | cons c cs =>
      cases cs' with
      | nil => cases h
      | cons c' cs' =>
        obtain ⟨hhead, htail⟩ := List.forall₂_cons.mp h
        exact List.forall_mem_cons.mpr ⟨Entry.toDelay_inj hhead.2, ih (Nat.succ.inj hlen) htail⟩

variable {i : Instr} {s t : State}

theorem length_previousStates {first : Bool} (h : i.isFirstMixBuffer = some first) :
    i.states.length = i.previousStates.length := by
  rcases isForked_of_first h with ⟨_, _, _, _, hi⟩ | ⟨_, _, _, _, _, hi⟩ <;> rw [hi.states, hi.previous] <;> rfl

/-- A command is accepted in every state with the same parameters and frame register (R182). -/
theorem CommandOk.congr (h : CommandOk i s) (hpar : t.par = s.par) (hframe : t.frame = s.frame) : CommandOk i t :=
  (validate_eq_none i t).mp ((validate_congr hpar hframe i).trans ((validate_eq_none i s).mpr h))

/-- Settles O50: both passes run the same chain, from the entries and from their snapshots. -/
theorem fanOutPassesAgree : Obligations.FanOutPassesAgree := by
  intro first second s t hfirst hsecond hne hsame hcoeffs hnan hok hok' hexec hsamples
  have hkept := exec_controlKept hexec
  have hpass := passedBy_of_exec hfirst.1 hfirst.2 hne hok hexec
  have hsaved := hpass.saved rfl
  have hne' : HandlesDistinct second := by rw [HandlesDistinct, hsame.1, hsame.2]; exact hne
  have hok2 := hok'.congr hkept.par hkept.frame
  obtain ⟨t', hexec'⟩ := exec_next second t
  have hpass' := passedBy_of_exec hsecond.1 hsecond.2 hne' hok2 hexec'
  have hstart : List.Forall₂ SameFilter (startFilters (formCoeffs s.draw first) first.states s)
      (startFilters (formCoeffs t.draw first) first.previousStates t) :=
    startFilters_same (formCoeffs_same _ _ _)
      (List.forall₂_iff_zip.mpr ⟨length_previousStates hfirst.1, fun {a b} hq => hsaved (a, b) hq⟩)
  have hfilters := hpass.filters
  have hfilters' := hpass'.filters
  rw [sourceEntries, if_pos rfl] at hfilters
  rw [hcoeffs, hsamples, hsame.1, sourceEntries, if_neg Bool.false_ne_true, hsame.2] at hfilters'
  have hends := hfilters.same hfilters' hstart (hnan 0)
  exact ⟨t', hexec', readEntry_eq_of_startFilters (length_formCoeffs _ _) hends, hsaved.later hne hsecond hsame hexec'⟩

end Sys2Proof.Machine

/-! ### No samples (R194) -/

namespace Sys2Proof.Machine

variable {i : Instr} {codec : State → State} {n : Nat} {s t : State}

/-- What a kernel leaves alone that runs over no sample. -/
structure KernelIdle (s t : State) : Prop where
  par : t.par = s.par
  arena : t.arena = s.arena
  srf : t.srf = s.srf
  d0 : t.work.d0 = s.work.d0
  d1 : t.work.d1 = s.work.d1

theorem loop_no_samples {s u : State} (h : s.frame = 0#32) (body : State → State) : loop body s.frame.toNat u = u := by
  rw [h]
  rfl

theorem kernelKI_idle (h : s.frame = 0#32) (input output : S16) : KernelIdle s (kernelKI input output s) := by
  rw [kernelKI, loop_no_samples h]
  exact ⟨rfl, rfl, rfl, rfl, rfl⟩

theorem kernelKD_idle (h : s.frame = 0#32) (input output : S16) : KernelIdle s (kernelKD input output s) := by
  rw [kernelKD, loop_no_samples h]
  exact ⟨rfl, rfl, rfl, rfl, rfl⟩

theorem mixStart_idle (v : F32) (s : State) : KernelIdle s (clearI (mixStart v s)) := by
  rw [mixStart_eq]
  generalize f32ToF64 s.draw v = vol
  exact ⟨rfl, rfl, rfl, rfl, rfl⟩

theorem KernelIdle.useDraws (h : KernelIdle s t) (k : Nat) : KernelIdle s (useDraws k t) :=
  ⟨h.par, h.arena, h.srf, h.d0, h.d1⟩

theorem kernelKM_idle (h : s.frame = 0#32) (T : Chain) (input output : S16) (v : F32) :
    KernelIdle s (kernelKM T input output v s) := by
  rw [kernelKM, mixStart_frame, loop_no_samples h]
  exact mixStart_idle v s

/-- The ramped kernel returns `+0.0` (D16). -/
theorem kernelKMR_idle (h : s.frame = 0#32) (T : Chain) (input output : S16) (v v' : F32) :
    KernelIdle s (kernelKMR T input output v v' s).2 ∧
      ∃ k, (kernelKMR T input output v v' s).1 = f64ToF32 k 0#64 := by
  have hstart : kmrStart v v' s = mixStart v s := by
    rcases kmrStart_cases v v' s with ⟨_, hs⟩ | ⟨hne, _⟩
    · exact hs
    · exact absurd h hne
  have hlast : (clearI (mixStart v s)).work.last = 0#64 := by rw [clearI_work_last, mixStart_eq]
  rw [kernelKMR_eq, hstart, mixStart_frame, loop_no_samples h]
  dsimp only
  rw [hlast]
  exact ⟨(mixStart_idle v s).useDraws 1, _, rfl⟩

/-- The value a ramped command without samples captures. -/
theorem readPrev_tailCapture_zero {voice : Handle} {index : S32} (hlo : 0 ≤ index.toInt)
    (hhi : index.toInt < (s.par.prevLen : Int)) (k : Nat) :
    readPrev voice.toNat index.toInt.toNat (tailCapture voice index (f64ToF32 k 0#64) s) = 0#32 := by
  rw [tailCapture, if_pos ⟨hlo, hhi⟩, readPrev_congr (useDraws_prev _ _) (useDraws_par _ _), readPrev_writePrev_same]
  exact tailWord_zero _ _ (by decide)

theorem readByte_persistState_self {h : Handle} (hd : readEntry h s = s.work.d0.toEntry) (a : Nat) :
    (persistState .t0 h s).srf.readByte .srf a = s.srf.readByte .srf a := readByte_writeEntry_self hd a

theorem readByte_persistAcc_self {h : Handle} (h0 : readSrfWord h.toNat 0 s = s.work.d0.s0)
    (h1 : readSrfWord h.toNat 1 s = s.work.d0.s1) (a : Nat) :
    (persistAcc h s).srf.readByte .srf a = s.srf.readByte .srf a := by
  rw [persistAcc, readByte_writeSrfWord_self, readByte_writeSrfWord_self h0]
  rw [readSrfWord_writeSrfWord_ne _ _ (by decide) (by decide) (.inr (by decide)), h1]

/-- The parameters and the storages but the previous samples are those of `s` with its state entries prepared. -/
structure AsPrepared (s prepared t : State) : Prop where
  par : t.par = s.par
  arena : t.arena = s.arena
  srf : ∀ a, t.srf.readByte .srf a = prepared.srf.readByte .srf a

/-- What an accepted command without samples leaves (R194): its preparation, and in a ramped form a captured 0. -/
structure OnlyPrepared (i : Instr) (s prepared t : State) : Prop where
  result : t.result = some .done
  storage : AsPrepared s prepared t
  tail : ∀ voice index, i.ramped = true → i.voiceState = some voice → i.lastSampleIndex = some index →
    0 ≤ index.toInt → index.toInt < (s.par.prevLen : Int) → readPrev voice.toNat index.toInt.toNat t = 0#32

theorem AsPrepared.finish {prepared : State} (h : AsPrepared s prepared t) : AsPrepared s prepared (finish t) :=
  ⟨h.par, h.arena, h.srf⟩

theorem AsPrepared.unramped {prepared : State} (h : AsPrepared s prepared t) (hr : i.ramped = false) :
    OnlyPrepared i s prepared (Machine.finish t) :=
  ⟨rfl, h.finish, fun _ _ hr' => absurd (hr.symm.trans hr') Bool.false_ne_true⟩

theorem AsPrepared.ramped {prepared : State} (h : AsPrepared s prepared t) {voice : Handle} {index : S32}
    (hvoice : i.voiceState = some voice) (hindex : i.lastSampleIndex = some index) (k : Nat) :
    OnlyPrepared i s prepared (Machine.finish (tailCapture voice index (f64ToF32 k 0#64) t)) where
  result := rfl
  storage := AsPrepared.finish ⟨(tailCapture_par _ _ _ _).trans h.par, (tailCapture_arena _ _ _ _).trans h.arena,
    fun a => by rw [tailCapture_srf, h.srf]⟩
  tail v j _ hv hj hlo hhi := by
    obtain rfl := Option.some.inj (hvoice.symm.trans hv)
    obtain rfl := Option.some.inj (hindex.symm.trans hj)
    rw [readPrev_congr (finish_prev _) (finish_par _), readPrev_tailCapture_zero hlo (h.par ▸ hhi)]

theorem bqfI_onlyPrepared (o : BqfOperands) (c : Q14Params) (hn : s.frame = 0#32) :
    OnlyPrepared (.bqfI o c) s (prepPlain o.state0 o.needsInit0 s) (finish (stepsOf (.bqfI o c) s)) := by
  have hframe : (integerLoaded o c s).frame = 0#32 := by simp [integerLoaded, hn]
  have hentry := readEntry_integerLoaded o c s
  have hd0 : (integerLoaded o c s).work.d0.s0 = (startEntry o s).w0 ∧
      (integerLoaded o c s).work.d0.s1 = (startEntry o s).w1 := by simp [integerLoaded]
  obtain ⟨hpar, harena, hsrf, hk0, -⟩ := kernelKI_idle hframe o.input o.output
  rw [stepsOf_bqfI]
  generalize kernelKI o.input o.output (integerLoaded o c s) = u at *
  rw [← readEntry_congr hsrf] at hentry
  refine AsPrepared.unramped ⟨?_, ?_, fun a => ?_⟩ rfl
  · rw [persistAcc_par, hpar]
    simp [integerLoaded]
  · rw [persistAcc_arena, harena]
    simp [integerLoaded]
  · rw [readByte_persistAcc_self, hsrf]
    · simp [integerLoaded]
    · rw [hk0, hd0.1, ← hentry, readEntry]
    · rw [hk0, hd0.2, ← hentry, readEntry]

theorem IsFilter.onlyPrepared {o : BqfOperands} {c : Nat → Coeffs} (hi : IsFilter i o codec c n) (hn : s.frame = 0#32) :
    OnlyPrepared i s (prepPlain o.state0 o.needsInit0 s) (finish (stepsOf i s)) := by
  have hload := loadFilter_eq hi.loads o.state0 (prepPlain o.state0 o.needsInit0 s)
  obtain ⟨hpar, harena, hsrf, hd0, -⟩ := kernelKD_idle
    (s := loadFilter o.state0 codec (prepPlain o.state0 o.needsInit0 s)) (by rw [hload, prepPlain_frame, hn])
    o.input o.output
  rw [hi.steps, filterSteps]
  generalize kernelKD o.input o.output _ = u at *
  rw [hload] at hpar harena hsrf hd0
  refine AsPrepared.unramped ⟨?_, ?_, fun a => ?_⟩ hi.unramped
  · rw [persistState_par, hpar, prepPlain_par]
  · rw [persistState_arena, harena, prepPlain_arena]
  · rw [readByte_persistState_self (by rw [hd0]; exact readEntry_congr hsrf _), hsrf]

/-- After a kernel that ran over no sample the persist stores the prepared entry over itself. -/
theorem persistState_asPrepared {o : BqfmOperands} {c : Nat → Coeffs} (hc : LoadsFirst codec c n)
    (h : KernelIdle (mixLoaded o codec s) t) :
    AsPrepared s (prepForked o.state0 o.previousState0 o.needsInit0 o.isFirstMixBuffer s)
      (persistState .t0 o.state0 t) := by
  obtain ⟨hpar, harena, hsrf, hd0, -⟩ := h
  rw [mixLoaded_eq hc] at hpar harena hd0
  rw [mixLoaded_srf hc] at hsrf
  refine ⟨?_, ?_, fun a => ?_⟩
  · rw [persistState_par, hpar, prepForked_par]
  · rw [persistState_arena, harena, prepForked_arena]
  · rw [readByte_persistState_self, hsrf]
    rw [hd0, readEntry_congr hsrf, readEntry_prepForked_state]
    rfl

theorem IsMix.onlyPrepared {o : BqfmOperands} {c : Nat → Coeffs} (hi : IsMix i o codec c n) (hn : s.frame = 0#32) :
    OnlyPrepared i s (prepForked o.state0 o.previousState0 o.needsInit0 o.isFirstMixBuffer s) (finish (stepsOf i s)) := by
  have hframe : (mixLoaded o codec s).frame = 0#32 := (mixLoaded_frame hi.loads o s).trans hn
  rcases hi.steps with ⟨hr, hsteps⟩ | ⟨_, hsteps⟩
  · rw [hsteps, mixSteps_eq, ← mixLoaded]
    exact (persistState_asPrepared hi.loads (kernelKM_idle hframe _ _ _ _)).unramped hr
  · obtain ⟨hidle, k, hk⟩ := kernelKMR_idle hframe .single o.input o.output o.volume0 o.volume1
    rw [hsteps, mixRampSteps_eq, ← mixLoaded]
    dsimp only
    rw [hk]
    exact (persistState_asPrepared hi.loads hidle).ramped hi.voice hi.index k

/-- After a kernel that ran over no sample the write-back stores the snapshots. -/
theorem multiTapAfter_asPrepared {o : MtOperands} {c0 c1 : Nat → Coeffs} (hc : LoadsBoth codec c0 c1 n)
    (h : KernelIdle (multiTapBefore o codec s) t) : AsPrepared s (snapshotsWrittenBack o s) (multiTapAfter o t) := by
  obtain ⟨hpar, harena, hsrf, hd0, hd1⟩ := h
  rw [multiTapBefore_eq hc] at harena hd0 hd1
  rw [multiTapBefore_srf hc] at hsrf
  refine ⟨?_, ?_, fun a => ?_⟩
  · simp only [multiTapAfter, writeEntry_par, persistLoc_par, hpar, multiTapBefore_par hc]
  · simp only [multiTapAfter, writeEntry_arena, persistLoc_arena, harena, afterPrep1, afterPrep0, prepForked_arena]
  · rw [multiTapAfter_eq, snapshotsWrittenBack]
    simp only [persistedEntry, delay_t0, delay_t1, hd0, hd1, Entry.toDelay, writeEntry, writeSrfWord_srf, hsrf]

theorem IsCascade.onlyPrepared {o : MtOperands} {c0 c1 : Nat → Coeffs} (hi : IsCascade i o codec c0 c1 n)
    (hn : s.frame = 0#32) : OnlyPrepared i s (snapshotsWrittenBack o s) (finish (stepsOf i s)) := by
  have hframe : (multiTapBefore o codec s).frame = 0#32 := (multiTapBefore_frame hi.loads s).trans hn
  rcases hi.steps with ⟨hr, hsteps⟩ | ⟨_, hsteps⟩
  · rw [hsteps]
    exact (multiTapAfter_asPrepared hi.loads (kernelKM_idle hframe _ _ _ _)).unramped hr
  · obtain ⟨hidle, k, hk⟩ := kernelKMR_idle hframe .pair o.input o.output o.volume0 o.volume1
    rw [hsteps, multiTapRampSteps_eq]
    dsimp only
    rw [hk]
    exact (multiTapAfter_asPrepared hi.loads hidle).ramped hi.voice hi.index k

/-- With distinct handles the snapshots are stored over themselves (R166). -/
theorem readByte_snapshotsWrittenBack {o : MtOperands} (h01 : o.state0 ≠ o.state1) (h03 : o.state0 ≠ o.previousState1)
    (s : State) (a : Nat) :
    (snapshotsWrittenBack o s).srf.readByte .srf a = (afterPrep1 o s).srf.readByte .srf a := by
  have hstate0 : readEntry o.state0 (afterPrep1 o s) = readEntry o.state0 (afterPrep0 o s) := by
    simp [afterPrep1, readEntry_prepForked, h01, h03]
  rw [snapshotsWrittenBack, readByte_writeEntry_self (readEntry_writeEntry_ne _ _ h01.symm),
    readByte_writeEntry_self hstate0]

theorem OnlyPrepared.congr {p p' : State} (h : OnlyPrepared i s p t)
    (hp : ∀ a, p.srf.readByte .srf a = p'.srf.readByte .srf a) : OnlyPrepared i s p' t :=
  ⟨h.result, ⟨h.storage.par, h.storage.arena, fun a => (h.storage.srf a).trans (hp a)⟩, h.tail⟩

/-- Settles O51: a kernel over no sample leaves the delay lines as they were loaded. -/
theorem zeroSamplesOnlyPrepare : Obligations.ZeroSamplesOnlyPrepare := by
  intro i s prepared hok hn hform
  have h : OnlyPrepared i s prepared (finish (stepsOf i s)) := by
    rcases hform with ⟨o, rfl, ⟨c, rfl⟩ | hdouble⟩ | ⟨o, rfl, hmix⟩ | ⟨o, hprepared, hcascade⟩
    · exact bqfI_onlyPrepared o c hn
    · obtain ⟨_, _, _, hi⟩ := isFilter_of_form hdouble
      exact hi.onlyPrepared hn
    · obtain ⟨_, _, _, hi⟩ := isMix_of_form hmix
      exact hi.onlyPrepared hn
    · obtain ⟨_, _, _, _, hi⟩ := isCascade_of_form hcascade
      rcases hprepared with rfl | ⟨hne, rfl⟩
      · exact hi.onlyPrepared hn
      · rw [HandlesDistinct, hi.states, hi.previous] at hne
        refine (hi.onlyPrepared hn).congr (readByte_snapshotsWrittenBack ?_ ?_ s)
        · exact fun h => by simp [h] at hne
        · exact fun h => by simp [h] at hne
  exact ⟨_, exec_ok hok, h.result, h.storage.arena, h.storage.srf, h.tail⟩

end Sys2Proof.Machine

/-! ## Splitter destination records (45_splitter_destination.md)

### The operations on a record that exists -/

namespace Sys2Proof.Machine

theorem onSplitter_of_record {s : State} {slot : Nat} {r : Splitter} (hr : s.splitters[slot]? = some r)
    (f : Splitter → Splitter) : onSplitter slot f s = .next { s with splitters := s.splitters.set slot (f r) } := by
  simp only [onSplitter, hr]

theorem fromSplitter_of_record {s : State} {slot : Nat} {r : Splitter} (hr : s.splitters[slot]? = some r)
    (f : Splitter → Result) : fromSplitter slot f s = .next { s with result := some (f r) } := by
  simp only [fromSplitter, hr]

theorem updateSplitter_of_accepts {s : State} {slot : Nat} {r : Splitter} {b : SplitterParams}
    (hr : s.splitters[slot]? = some r) (h : splitterAccepts s.par b r = true) (rps : Bool) :
    updateSplitter slot b rps s =
      .next (useDraws 1 { s with splitters := s.splitters.set slot (splitterUpdate s.par s.draw b rps r) }) := by
  simp only [updateSplitter, hr, if_pos h]

theorem updateSplitter_of_not_accepts {s : State} {slot : Nat} {r : Splitter} {b : SplitterParams}
    (hr : s.splitters[slot]? = some r) (h : ¬ splitterAccepts s.par b r = true) (rps : Bool) :
    updateSplitter slot b rps s = .next s := by
  simp only [updateSplitter, hr, if_neg h]

/-! ### `Update` (R213, R221) -/

theorem splitterResets_iff {b : SplitterParams} {rps : Bool} {r : Splitter} :
    splitterResets b rps r = true ↔
      (rps = true ∧ b.resetPrevVolume = true) ∨ (rps = false ∧ r.inUse = false ∧ b.inUse = true) := by
  cases rps <;> simp [splitterResets]

theorem not_splitterAccepts {p : Params} {b : SplitterParams} {r : Splitter}
    (h : b.id ≠ r.id ∨ b.magic ≠ p.splitterMagic) : ¬ splitterAccepts p b r = true :=
  splitterAccepts_iff.not.mpr (not_and_or.mpr h)

section Update

variable {p : Params} {k : Nat} {b : SplitterParams} {rps : Bool} {r : Splitter}

theorem splitterUpdate_of_not_accepts (h : ¬ splitterAccepts p b r = true) : splitterUpdate p k b rps r = r := by
  rw [splitterUpdate, if_neg h]

theorem splitterUpdate_of_accepts (h : splitterAccepts p b r = true) :
    splitterUpdate p k b rps r = { r with
      destinationId := b.destinationId
      mixVolumes := blobVolumes p k b
      biquadRev12 := (b.rev12.map (blobRev12 p k)).getD r.biquadRev12
      prevMixVolumes := if splitterResets b rps r then blobVolumes p k b else r.prevMixVolumes
      needUpdate := if splitterResets b rps r then false else r.needUpdate
      inUse := b.inUse } := by
  rw [splitterUpdate, if_pos h]

theorem splitterUpdate_biquadRev12_of_some (h : splitterAccepts p b r = true) {l : List SlotParams}
    (hl : b.rev12 = some l) :
    (splitterUpdate p k b rps r).biquadRev12 = blobRev12 p k l := by
  rw [splitterUpdate_of_accepts h, hl]
  rfl

theorem splitterUpdate_biquadRev12_of_none (h : splitterAccepts p b r = true) (hl : b.rev12 = none) :
    (splitterUpdate p k b rps r).biquadRev12 = r.biquadRev12 := by
  rw [splitterUpdate_of_accepts h, hl]
  rfl

theorem splitterUpdate_of_resets (h : splitterAccepts p b r = true) (hr : splitterResets b rps r = true) :
    (splitterUpdate p k b rps r).prevMixVolumes = (splitterUpdate p k b rps r).mixVolumes ∧
      (splitterUpdate p k b rps r).needUpdate = false := by
  rw [splitterUpdate_of_accepts h]
  exact ⟨if_pos hr, if_pos hr⟩

theorem splitterUpdate_of_not_resets (h : splitterAccepts p b r = true) (hr : ¬ splitterResets b rps r = true) :
    (splitterUpdate p k b rps r).prevMixVolumes = r.prevMixVolumes ∧
      (splitterUpdate p k b rps r).needUpdate = r.needUpdate := by
  rw [splitterUpdate_of_accepts h]
  exact ⟨if_neg hr, if_neg hr⟩

end Update

/-- Settles O56: the gate decides between the same state and `splitterUpdate` of the record. -/
theorem splitterUpdateEffect : Obligations.SplitterUpdateEffect := by
  intro s slot r b explicitFlag rest hhost hr
  have hrec : ({ s with host := rest } : State).splitters[slot]? = some r := hr
  have hstep : step s = updateSplitter slot b explicitFlag { s with host := rest } := step_hostOp hhost
  refine ⟨fun hwrong => ?_, fun hid hmagic => ?_⟩
  · exact hstep.trans (updateSplitter_of_not_accepts hrec (not_splitterAccepts hwrong) explicitFlag)
  · have hok : splitterAccepts s.par b r = true := splitterAccepts_iff.mpr ⟨hid, hmagic⟩
    have hnew := splitterUpdate_of_accepts (k := s.draw) (rps := explicitFlag) hok
    have hvolumes : (splitterUpdate s.par s.draw b explicitFlag r).mixVolumes = blobVolumes s.par s.draw b := by
      rw [hnew]
    refine ⟨_, splitterUpdate s.par s.draw b explicitFlag r,
      hstep.trans (updateSplitter_of_accepts hrec hok explicitFlag), rfl,
      splitterUpdate_id .., by rw [hnew], by rw [hnew], by rw [hnew], by rw [hnew], ?_, fun c v hc hv => ?_,
      fun l hl => ?_, splitterUpdate_biquadRev12_of_none hok, fun h => ?_, fun h => ?_⟩
    · rw [hvolumes, blobVolumes_length]
    · rw [hvolumes, blobVolumes_getElem hc hv]
    · rw [splitterUpdate_biquadRev12_of_some hok hl]
      exact ⟨blobRev12_length .., fun j q => blobRev12_getElem⟩
    · exact splitterUpdate_of_resets hok (splitterResets_iff.mpr h)
    · exact splitterUpdate_of_not_resets hok (h ∘ splitterResets_iff.mp)

/-- Settles O57: the record read back at the slot is `splitterUpdate` of the one before. -/
theorem splitterUpdateGating : Obligations.SplitterUpdateGating := by
  intro s t slot r r' b explicitFlag rest hhost hr hstep hr'
  obtain ⟨r₀, hr₀, ht⟩ := updateSplitter_next ((step_hostOp hhost).symm.trans hstep)
  obtain rfl : r₀ = r := Option.some.inj (hr₀.symm.trans hr)
  have hread : t.splitters[slot]? = some (splitterUpdate s.par s.draw b explicitFlag r₀) := by
    rw [ht]
    exact List.getElem?_set_self (List.getElem?_eq_some_iff.mp hr).1
  obtain rfl := Option.some.inj (hread.symm.trans hr')
  refine ⟨fun hwrong => splitterUpdate_of_not_accepts (not_splitterAccepts hwrong),
    fun hid hmagic hbefore hafter hflag => ?_⟩
  exact (splitterUpdate_of_resets (splitterAccepts_iff.mpr ⟨hid, hmagic⟩)
    (splitterResets_iff.mpr (.inr ⟨hflag, hbefore, hafter⟩))).1

/-! ### The mark and the internal update (R214, R215) -/

theorem splitterUpdateInternal_eq (r : Splitter) :
    splitterUpdateInternal r =
      if r.inUse = true ∧ r.needUpdate = true then { r with prevMixVolumes := r.mixVolumes, needUpdate := false }
      else { r with needUpdate := false } := by
  simp only [splitterUpdateInternal, Bool.and_eq_true]
  split <;> rfl

/-- Settles O58: each operation is one function of the record, stored at the slot. -/
theorem splitterMarkAndInternalUpdate : Obligations.SplitterMarkAndInternalUpdate := by
  intro s slot r rest hr
  have hrec : ({ s with host := rest } : State).splitters[slot]? = some r := hr
  refine ⟨fun hhost => ?_, fun hhost => ?_⟩
  · rw [step_hostOp hhost]
    exact onSplitter_of_record hrec splitterMark
  · rw [step_hostOp hhost, ← splitterUpdateInternal_eq]
    exact onSplitter_of_record hrec splitterUpdateInternal

/-! ### The queries (R211, R216) -/

theorem splitterConfigured_eq (p : Params) (r : Splitter) :
    splitterConfigured p r = decide (r.inUse = true ∧ r.destinationId ≠ p.unusedDestId) := by
  rw [Bool.eq_iff_iff, decide_eq_true_iff, splitterConfigured, Bool.and_eq_true, bne_iff_ne]

/-- A channel in range has a volume, because the array has the length of its pool. -/
theorem volumeAt_of_inRange {p : Params} {volumes : List F32} {c : Int} (hlen : volumes.length = p.nchan)
    (h0 : 0 ≤ c) (hc : c < p.nchan) : volumes[c.toNat]? = some (volumeAt p volumes c) := by
  have hlt : c.toNat < volumes.length := by omega
  rw [volumeAt, if_pos ⟨h0, hc⟩, List.getD_eq_getElem?_getD, List.getElem?_eq_getElem hlt, Option.getD_some]

theorem volumeAt_of_outOfRange {p : Params} {c : Int} (h : c < 0 ∨ p.nchan ≤ c) (volumes : List F32) :
    volumeAt p volumes c = 0#32 := by
  rw [volumeAt, if_neg (by omega)]

/-- Settles O59: each query returns a function of the record, and both getters are `volumeAt` of an array of it. -/
theorem splitterQueries : Obligations.SplitterQueries := by
  intro s slot r c rest hr hmix hprev
  have hrec : ({ s with host := rest } : State).splitters[slot]? = some r := hr
  refine ⟨fun hhost => ?_, fun hhost => ⟨volumeAt s.par r.mixVolumes c, ?_, ?_, ?_⟩,
    fun hhost => ⟨volumeAt s.par r.prevMixVolumes c, ?_, ?_, ?_⟩⟩
  · rw [step_hostOp hhost, ← splitterConfigured_eq]
    exact fromSplitter_of_record hrec fun r => .configured (splitterConfigured s.par r)
  · rw [step_hostOp hhost]
    exact fromSplitter_of_record hrec fun r => .volume (getMixVolume s.par c r)
  · exact volumeAt_of_inRange hmix
  · exact fun h => volumeAt_of_outOfRange h _
  · rw [step_hostOp hhost]
    exact fromSplitter_of_record hrec fun r => .volume (getMixVolumePrev s.par c r)
  · exact volumeAt_of_inRange hprev
  · exact fun h => volumeAt_of_outOfRange h _

end Sys2Proof.Machine

/-! ## Refusals and the sticky mark (60_exceptions.md)

### Without a record (R232, R233) -/

namespace Sys2Proof.Machine

theorem verifyNext_of_no_record {s : State} (h : nextRecord s = none) :
    verifyNext s = takeRefusal .illegalDescriptor { s with cmd := none } := by
  simp only [verifyNext, latch, h]

theorem dumpNext_of_no_record {s : State} (h : nextRecord s = none) :
    dumpNext s = takeRefusal .illegalDescriptor { s with cmd := none } := by
  simp only [dumpNext, latch, h]

/-- Settles O11: each of the three operations refuses on the latch without a record, and `PROCESS` then advances and marks. -/
theorem noRecordIsRefused : Obligations.NoRecordIsRefused := by
  intro s rest select hselect hhost hl
  have hrec : nextRecord { s with host := rest } = none := nextRecord_of_latchedNext hl
  have hstep : step s = operate select { s with host := rest } := step_hostOp hhost
  by_cases hprocess : select = 0#2
  · refine ⟨afterProcess (takeRefusal .illegalDescriptor { s with host := rest, cmd := none }), ?_, rfl,
      fun _ => ⟨rfl, Bool.or_true _⟩, fun hne => absurd hprocess hne⟩
    rw [hstep, operate, if_pos hprocess, processNext_of_no_record hrec]
  · refine ⟨takeRefusal .illegalDescriptor { s with host := rest, cmd := none }, ?_, rfl,
      fun h => absurd h hprocess, fun _ => ⟨rfl, rfl⟩⟩
    rw [hstep, operate, if_neg hprocess]
    by_cases hverify : select = 1#2
    · rw [if_pos hverify, verifyNext_of_no_record hrec]
    · have hdump : select = 2#2 := by bv_omega
      rw [if_neg hverify, if_pos hdump, dumpNext_of_no_record hrec]

/-! ### The sticky mark (R239) -/

/-- The sequencer's part of every `PROCESS`, refused or not: the index goes on within the list, and a refusal marks. -/
theorem processNext_sequencer {s t : State} (h : processNext s = .next t) :
    t.pc = (if s.pc < s.listLen then s.pc + 1 else s.pc) ∧
      t.frameRefused = (s.frameRefused || Result.isRefused t.result) := by
  cases hrec : nextRecord s with
  | none =>
    obtain rfl := Host.Outcome.next.inj ((processNext_of_no_record hrec).symm.trans h)
    exact ⟨rfl, rfl⟩
  | some i =>
    obtain ⟨u, _, hrun⟩ := processNext_of_record hrec
    obtain rfl := Host.Outcome.next.inj (hrun.symm.trans h)
    exact ⟨rfl, rfl⟩

theorem processNext_keeps_mark {s t : State} (hmark : s.frameRefused = true) (h : processNext s = .next t) :
    t.frameRefused = true := by
  rw [(processNext_sequencer h).2, hmark, Bool.true_or]

theorem operate_keeps_mark {select : BitVec 2} {s t : State} (hmark : s.frameRefused = true)
    (h : operate select s = .next t) : t.frameRefused = true := by
  rcases operate_cases h with hrun | hlatch | rfl
  · exact processNext_keeps_mark hmark hrun
  · rw [hlatch]
    exact hmark
  · rfl

/-- Of the host's actions only the beginning of a frame clears the mark. -/
theorem performHostOp_keeps_mark {op : HostOp} {s t : State} (hmark : s.frameRefused = true)
    (hop : ∀ list, op ≠ .startFrame list) (h : performHostOp op s = .next t) : t.frameRefused = true := by
  cases op with
  | startFrame list => exact absurd rfl (hop list)
  | writeCommand j d =>
    obtain rfl := Host.Outcome.next.inj (next_of_guard (next_of_guard h))
    exact hmark
  | writeSampleCount n | writeArena a v | writeSrf e k v | writePrev w k x =>
    obtain rfl := Host.Outcome.next.inj (next_of_guard h)
    exact hmark
  | operate select => exact operate_keeps_mark hmark h
  | splitterUpdate slot b rps =>
    obtain ⟨_, _, ht⟩ := updateSplitter_next h
    rw [ht]
    exact hmark
  | splitterMark slot | splitterUpdateInternal slot =>
    obtain ⟨_, _, rfl⟩ := onSplitter_next h
    exact hmark
  | splitterIsConfigured slot | getMixVolume slot c | getMixVolumePrev slot c =>
    rw [fromSplitter_next h]
    exact hmark
  | writeBiquadNew slot j p | linkNext slot next =>
    obtain ⟨_, _, rfl⟩ := onSplitter_next (next_of_guard h)
    exact hmark

/-- Settles O13: a `PROCESS` advances and marks by `processNext_sequencer`, and each case of a step keeps the mark. -/
theorem refusalMarkIsSticky : Obligations.RefusalMarkIsSticky := by
  refine ⟨fun s t r hhost hpc h hrefused => ?_, fun s t hmark hstart h => ?_⟩
  · obtain ⟨hnext, hmark⟩ := processNext_sequencer (step_process hhost hpc ▸ h)
    rw [hnext, if_pos hpc, hmark, hrefused]
    exact ⟨rfl, Bool.or_true _⟩
  · rcases step_cases h with ⟨op, rest, hhost, hop⟩ | hrun | rfl
    · exact performHostOp_keeps_mark (s := { s with host := rest }) hmark
        (fun list hlist => hstart list rest (hlist ▸ hhost)) hop
    · exact processNext_keeps_mark hmark hrun
    · exact hmark

end Sys2Proof.Machine
